-- ==== Sys2Proof/Word.lean ====
section
/-! DEFINITION. The word types of the Pallith instruction set (spec 00 R4, R5) and their plainest arithmetic. -/

namespace Sys2Proof

/-- A 32-bit register or memory word (R33). -/
abbrev W32 := BitVec 32
/-- A 64-bit value, held in an even and odd register pair (R5). -/
abbrev W64 := BitVec 64
/-- A byte of memory. -/
abbrev Byte := BitVec 8
/-- A 16-bit halfword of code. -/
abbrev Half := BitVec 16
/-- A 64-bit address; a canonical one has bits [63:52] zero (R143). -/
abbrev Addr := BitVec 64
/-- A set of the lanes of a group, bit `i` being lane `i` (R37). -/
abbrev Mask := BitVec 64
/-- A 10-bit cause code (R391). -/
abbrev Cause := BitVec 10

/-- The 32-bit word whose signed value is cut from `x` (R9). -/
def W32.ofInt (x : Int) : W32 := BitVec.ofInt 32 x

/-- Bits `[hi:lo]` of a word as an unsigned number (R4, R9). -/
def bitsOf {w : Nat} (x : BitVec w) (hi lo : Nat) : Nat := (x.toNat >>> lo) % 2 ^ (hi + 1 - lo)

/-- The 64-bit value of an even and odd pair: the even register holds bits [31:0] (R5). -/
def pairOf (lo hi : W32) : W64 := hi ++ lo

/-- Bits [31:0] of a 64-bit value. -/
def lo32 (x : W64) : W32 := x.extractLsb' 0 32

/-- Bits [63:32] of a 64-bit value. -/
def hi32 (x : W64) : W32 := x.extractLsb' 32 32

/-- An address is canonical when its bits [63:52] are zero (R143). -/
def canonical (a : Addr) : Bool := a.toNat < 2 ^ 52

end Sys2Proof
end

