-- ==== Sys2Proof/Config.lean ====
section
/-! DEFINITION. What the TXL-9400 fixes (spec 00 R1, 01 R13 to R19), the cause codes (18 R393), and the free values:
opaque constants with no body for the values the spec leaves open, so that no proof can rest on one. -/

namespace Sys2Proof.Config

/-- Group width of the TXL-9400 (R1). Open points: DEDUCED (log 1). -/
def gw : Nat := 64
/-- Compute dies (R12). -/
def dies : Nat := 8
/-- Enabled clusters of a die (R13). -/
def clusters : Nat := 40
/-- Physical clusters of a die, four of them spare (R13). -/
def physClusters : Nat := 44
/-- Cores of a cluster (R13). -/
def coresPerCluster : Nat := 4
/-- Logical L2 slices of a die (R13, R22). -/
def slices : Nat := 48
/-- Physical L2 slices of a die (R13). -/
def physSlices : Nat := 50
/-- Registers per lane of a quarter's register file (R32). -/
def quarterRegs : Nat := 1024
/-- Split slots of a quarter (R304). -/
def quarterSlots : Nat := 16
/-- Store-queue entries of a group (R224). -/
def storeQueue : Nat := 16
/-- Entries of a core's matrix queue (R146). -/
def matrixQueue : Nat := 32
/-- Entries of a core's Shuttle queue (R242). -/
def shuttleQueue : Nat := 32
/-- Pages that the walk-ahead TLB runs ahead of a copy (R217). -/
def walkAhead : Nat := 64
/-- Entries of a die's collective queue (R242). -/
def collQueue : Nat := 64
/-- Sealed batches of a group that have not completed (R240). -/
def sealedBatches : Nat := 16
/-- Entries of a partition's pending-launch store (R253). -/
def pendingLaunches : Nat := 4096
/-- Core clocks after which L1 drops a line (R257) and a ready split is promoted (R306). -/
def ageLimit : Nat := 4096
/-- Core clocks after which an open bin dispatches (R319, R330). -/
def binAge : Nat := 256
/-- Bins and tile-queue entries of a Heddle (R319, R320). -/
def heddleBins : Nat := 16
/-- Trap bins of a Heddle (R330). -/
def trapBins : Nat := 8
/-- Core clocks within which a stop reaches every group of its team (R398). -/
def stopReach : Nat := 8
/-- Nominal core clock in MHz, the step of the power manager and the floor (R23, R24). -/
def nominalMHz : Nat := 1050
def stepMHz : Nat := 25
def floorMHz : Nat := 350
/-- Bytes of one Beam slice (R147). -/
def beamSlice : Nat := 49152
/-- Bytes of a first-tier granule and of a second-tier granule (R365). -/
def granule1 : Nat := 2 ^ 21
def granule2 : Nat := 2 ^ 30

/-! ### Free values (log 5): constants with no body. -/

/-- A fresh word for the `n`-th free choice of a run. Open points: DESIGN CHOICE (log 5). -/
opaque freeWord : Nat → W32
/-- A fresh choice among finitely many outcomes; its user takes it modulo their number. Open points: DESIGN CHOICE (log 5). -/
opaque freeNat : Nat → Nat
/-- The value a special function returns within its bound: `fn` by R74, a fixed function of the input's bits (R126).
Open points: DESIGN CHOICE (log 9). -/
opaque sfu : Nat → W32 → W32
/-- The rounded value of an activation that no working precision separates from a tie (R315; log 11). Open points: DESIGN CHOICE (log 11). -/
opaque actTie : Nat → W32 → W32
/-- The byte a reassigned and not yet written granule reads as: epoch and address (R370). Open points: DESIGN CHOICE (log 4). -/
opaque cipher : Nat → Nat → Byte
/-- SHA-512 of a byte string, as a number (R380, R381). Open points: DESIGN CHOICE (log 10). -/
opaque sha512 : List Byte → BitVec 512
/-- The identity key's ECDSA signature of a digest: r then s (R381). Open points: DESIGN CHOICE (log 10). -/
opaque ecdsaSign : BitVec 512 → BitVec 1056
/-- The encoded bytes of a superblock row: the draw, whether its frame is a key frame, whether samples have 10 bits, the row, and its Y, Cb
and Cr samples (R350: any conforming bitstream). Open points: DESIGN CHOICE (log 5). -/
opaque av1Row : Nat → Bool → Bool → Nat → List Nat → List Nat → List Nat → List Byte

end Sys2Proof.Config

namespace Sys2Proof.Causes

/-! The cause codes of R393. -/

def runLength : Cause := 0x001#10
def missingTrail : Cause := 0x002#10
def enderNotLast : Cause := 0x003#10
def transferTarget : Cause := 0x004#10
def longToTemp : Cause := 0x005#10
def postMask : Cause := 0x006#10
def unwrittenTemp : Cause := 0x007#10
def misplacedFraming : Cause := 0x008#10
def misplacedModifier : Cause := 0x009#10
def majorZero : Cause := 0x040#10
def majorF : Cause := 0x041#10
def major2E : Cause := 0x042#10
def major2F : Cause := 0x043#10
def major7F : Cause := 0x044#10
def reservedField : Cause := 0x045#10
def unassignedFn : Cause := 0x046#10
def illegalOperand : Cause := 0x047#10
def notHonoured : Cause := 0x048#10
def encoding : Cause := 0x049#10
def nonCanonical : Cause := 0x080#10
def misaligned : Cause := 0x081#10
def scratchRange : Cause := 0x082#10
def matrixOperand : Cause := 0x083#10
def rasterOperand : Cause := 0x084#10
def textureDescriptor : Cause := 0x085#10
def barrierOperand : Cause := 0x086#10
def batchOperand : Cause := 0x087#10
def copyOperand : Cause := 0x088#10
def windowOperand : Cause := 0x089#10
def collOperand : Cause := 0x08A#10
def launchOperand : Cause := 0x08B#10
def neuralOperand : Cause := 0x08C#10
def reorderOperand : Cause := 0x08D#10
def presentOperand : Cause := 0x08E#10
def controlOperand : Cause := 0x08F#10
def registerBudget : Cause := 0x0C0#10
def reorderState : Cause := 0x0C1#10
def handlerOperation : Cause := 0x0C2#10
def missingVector : Cause := 0x0C3#10
def privilege : Cause := 0x0C4#10
def keyGrant : Cause := 0x0C5#10
def softwareTrap : Cause := 0x100#10
def breakpoint : Cause := 0x101#10
def laneTrap : Cause := 0x102#10
def fpFlag : Cause := 0x140#10
def parkAbsent : Cause := 0x180#10
def parkPermission : Cause := 0x181#10
def killAbsent : Cause := 0x182#10
def killPermission : Cause := 0x183#10
def walkError : Cause := 0x184#10
def fetchFault : Cause := 0x185#10
def poison : Cause := 0x186#10
def copyFault : Cause := 0x1C0#10
def barrierFault : Cause := 0x1C1#10
def weightFault : Cause := 0x1C2#10
def bobbinCapacity : Cause := 0x1C3#10
def weightRecord : Cause := 0x1C4#10
def invalidLaunch : Cause := 0x200#10
def coopCapacity : Cause := 0x201#10
def shapeRecord : Cause := 0x202#10
def surfaceDescriptor : Cause := 0x203#10
def notOwned : Cause := 0x240#10
def readOnly : Cause := 0x241#10
def busy : Cause := 0x242#10
def queueDescriptor : Cause := 0x243#10
def headControl : Cause := 0x244#10
def requestPending : Cause := 0x245#10
def tooFewClusters : Cause := 0x246#10
def lastCluster : Cause := 0x247#10
def queueDisabled : Cause := 0x248#10
def pendingFull : Cause := 0x249#10
def notResumable : Cause := 0x24A#10
def noSuchRecord : Cause := 0x24B#10
def hostFault : Cause := 0x24C#10
def outOfRange : Cause := 0x24D#10
def watchdog : Cause := 0x280#10
def graceOver : Cause := 0x281#10
def resetOnWatchdog : Cause := 0x282#10
def resetRequested : Cause := 0x283#10
def endedByReset : Cause := 0x284#10
def coreRetired : Cause := 0x2C0#10
def l2Loss : Cause := 0x2C1#10
def linkLoss : Cause := 0x2C2#10
def uncorrectable : Cause := 0x2C3#10
def sparesExhausted : Cause := 0x2C4#10
def trapOverflow : Cause := 0x300#10
def powerFreeze : Cause := 0x301#10

end Sys2Proof.Causes
end

