-- ==== Sys2Proof/Machine/Tables.lean ====
section
/-! DEFINITION. Sparse tables in one canonical form: lists of key and value, keys strictly rising, no entry equal to what
an unlisted key reads as. Registers, scratchpad, tiles and memory are such tables; also small list helpers. -/

namespace Sys2Proof.Machine

/-- A table from numbers to bit vectors; an unlisted key reads as zero. -/
abbrev Tbl (w : Nat) := List (Nat × BitVec w)

/-- The value listed at `k`, or `dflt`. -/
def assocGet {α : Type} (dflt : α) : List (Nat × α) → Nat → α
  | [], _ => dflt
  | (a, b) :: l, k => if k = a then b else assocGet dflt l k

/-- Put `c` at `k`, before the first greater key. -/
def assocIns {α : Type} (k : Nat) (c : α) : List (Nat × α) → List (Nat × α)
  | [] => [(k, c)]
  | (a, b) :: l => if k < a then (k, c) :: (a, b) :: l else if k = a then (k, c) :: l else (a, b) :: assocIns k c l

/-- Put `v` at `k`, `none` removing the entry; the keys stay rising. -/
def assocPut {α : Type} (k : Nat) (v : Option α) (l : List (Nat × α)) : List (Nat × α) :=
  match v with
  | none => l.filter (fun e => e.1 != k)
  | some c => assocIns k c l

/-- The keys of a list rise strictly. -/
def rising {α : Type} : List (Nat × α) → Bool
  | [] => true
  | [_] => true
  | (a, _) :: (b, y) :: l => decide (a < b) && rising ((b, y) :: l)

/-- What a table reads at `k`. -/
def Tbl.get {w : Nat} (t : Tbl w) (k : Nat) : BitVec w := assocGet 0 t k

/-- The table that reads `v` at `k` and is otherwise the same. -/
def Tbl.set {w : Nat} (t : Tbl w) (k : Nat) (v : BitVec w) : Tbl w := assocPut k (if v = 0 then none else some v) t

/-- The canonical form of a table. -/
def Tbl.wf {w : Nat} (t : Tbl w) : Bool := rising t && t.all (fun e => e.2 != 0)

/-- Write a list of values at `k`, `k+1`, … -/
def Tbl.setList {w : Nat} (t : Tbl w) (k : Nat) : List (BitVec w) → Tbl w
  | [] => t
  | v :: vs => Tbl.setList (t.set k v) (k + 1) vs

/-- The `n` values from `k`. -/
def Tbl.getList {w : Nat} (t : Tbl w) (k : Nat) : Nat → List (BitVec w)
  | 0 => []
  | n + 1 => t.get k :: Tbl.getList t (k + 1) n

/-! ### Lists -/

/-- The first element of a keyed list with the key. -/
def kget {κ α : Type} [DecidableEq κ] (k : κ) : List (κ × α) → Option α
  | [] => none
  | (a, b) :: l => if a = k then some b else kget k l

/-- The keyed list with the key's value replaced, or added at the end. -/
def kput {κ α : Type} [DecidableEq κ] (k : κ) (v : α) : List (κ × α) → List (κ × α)
  | [] => [(k, v)]
  | (a, b) :: l => if a = k then (k, v) :: l else (a, b) :: kput k v l

/-- Element `n` of a list. -/
def nth {α : Type} : List α → Nat → Option α
  | [], _ => none
  | a :: _, 0 => some a
  | _ :: l, n + 1 => nth l n

/-- The list with element `n` changed. -/
def updNth {α : Type} (f : α → α) : List α → Nat → List α
  | [], _ => []
  | a :: l, 0 => f a :: l
  | a :: l, n + 1 => a :: updNth f l n

/-- Change every element that satisfies a test. -/
def updWhere {α : Type} (p : α → Bool) (f : α → α) : List α → List α
  | [] => []
  | a :: l => (if p a then f a else a) :: updWhere p f l

/-- Change every element, its index given. -/
def mapIdx {α β : Type} (f : Nat → α → β) : List α → Nat → List β
  | [], _ => []
  | a :: l, i => f i a :: mapIdx f l (i + 1)

/-- Drop element `n`. -/
def dropNth {α : Type} : List α → Nat → List α
  | [], _ => []
  | _ :: l, 0 => l
  | a :: l, n + 1 => a :: dropNth l n

/-- The indices from `i` of the elements that satisfy a test. -/
def idxWhere {α : Type} (p : α → Bool) : List α → Nat → List Nat
  | [], _ => []
  | a :: l, i => if p a then i :: idxWhere p l (i + 1) else idxWhere p l (i + 1)

/-- `k`, `k+1`, …, `n` numbers. -/
def upFrom (k : Nat) : Nat → List Nat
  | 0 => []
  | n + 1 => k :: upFrom (k + 1) n

/-- Put a number into a rising list without repeats. -/
def insertNat (x : Nat) : List Nat → List Nat
  | [] => [x]
  | a :: l => if x < a then x :: a :: l else if x = a then a :: l else a :: insertNat x l

/-- A list of numbers sorted, without repeats. -/
def sortNat : List Nat → List Nat
  | [] => []
  | a :: l => insertNat a (sortNat l)

/-- The element with the least key, the first of equals. -/
def minBy {α : Type} (key : α → Nat) : List α → Option α
  | [] => none
  | a :: l =>
    match minBy key l with
    | none => some a
    | some b => if key b < key a then some b else some a

/-- A list sorted by key, equals in their order. -/
def sortBy {α : Type} (key : α → Nat) : List α → List α
  | [] => []
  | a :: l => insertBy' key a (sortBy key l)
where
  insertBy' (key : α → Nat) (x : α) : List α → List α
    | [] => [x]
    | b :: l => if key b < key x then b :: insertBy' key x l else x :: b :: l

/-- Sum of a list of integers. -/
def sumInt : List Int → Int
  | [] => 0
  | a :: l => a + sumInt l

/-- Sum of a list of naturals. -/
def sumNat : List Nat → Nat
  | [] => 0
  | a :: l => a + sumNat l

/-- The first `some` of a list. -/
def firstSome {α β : Type} (f : α → Option β) : List α → Option β
  | [] => none
  | a :: l =>
    match f a with
    | some b => some b
    | none => firstSome f l

/-- The little-endian bytes of a number. -/
def bytesOf : Nat → Nat → List Byte
  | 0, _ => []
  | n + 1, x => BitVec.ofNat 8 x :: bytesOf n (x / 256)

/-- The number that little-endian bytes hold. -/
def ofBytes : List Byte → Nat
  | [] => 0
  | b :: bs => b.toNat + 256 * ofBytes bs

/-- A word from its bytes (R5). -/
def wordOfBytes (bs : List Byte) : W32 := BitVec.ofNat 32 (ofBytes bs)

/-- Word `k` of a list of bytes. -/
def wordAt (bs : List Byte) (k : Nat) : W32 := wordOfBytes ((bs.drop (4 * k)).take 4)

/-- The bytes of words. -/
def bytesOfWords : List W32 → List Byte
  | [] => []
  | w :: ws => bytesOf 4 w.toNat ++ bytesOfWords ws

/-- The words of bytes, four at a time, at most `n`. -/
def wordsOfBytes : Nat → List Byte → List W32
  | 0, _ => []
  | n + 1, bs => wordOfBytes (bs.take 4) :: wordsOfBytes n (bs.drop 4)

end Sys2Proof.Machine
end

