-- ==== Sys2Proof/Machine/Num.lean ====
section
/-! DEFINITION. Number formats, rounding, flags of a rounding, exact arithmetic on values, and the block scale derivations
(04 R84 to R102; 05 R121, R122). -/

namespace Sys2Proof.Machine

/-! ### Formats (R84) -/

/-- A floating-point format: exponent width, mantissa width, bias, sign bit, pattern of the largest finite value, whether it
has infinities, and its canonical NaN where it has one (R92). -/
structure Fmt where
  ew : Nat
  p : Nat
  bias : Nat
  signed : Bool
  max : Nat
  inf : Bool
  nan : Option Nat
deriving DecidableEq, Repr

def Fmt.fp32 : Fmt := { ew := 8, p := 23, bias := 127, signed := true, max := 0x7F7FFFFF, inf := true, nan := some 0x7FC00000 }
def Fmt.fp16 : Fmt := { ew := 5, p := 10, bias := 15, signed := true, max := 0x7BFF, inf := true, nan := some 0x7E00 }
def Fmt.bf16 : Fmt := { ew := 8, p := 7, bias := 127, signed := true, max := 0x7F7F, inf := true, nan := some 0x7FC0 }
def Fmt.e4m3 : Fmt := { ew := 4, p := 3, bias := 7, signed := true, max := 0x7E, inf := false, nan := some 0x7F }
def Fmt.e5m2 : Fmt := { ew := 5, p := 2, bias := 15, signed := true, max := 0x7B, inf := true, nan := some 0x7E }
def Fmt.e2m1 : Fmt := { ew := 2, p := 1, bias := 1, signed := true, max := 0x7, inf := false, nan := none }
def Fmt.e5m3 : Fmt := { ew := 5, p := 3, bias := 15, signed := false, max := 0xFF, inf := false, nan := none }

/-- Bits of a format. -/
def Fmt.bits (f : Fmt) : Nat := f.ew + f.p + b2 f.signed where b2 (b : Bool) : Nat := if b then 1 else 0

/-! ### Values -/

/-- A value: NaN, an infinity, or an exact magnitude `num / den` with a sign, zeros signed. -/
inductive Val where
  | nan
  | inf (neg : Bool)
  | fin (neg : Bool) (num den : Nat)
deriving DecidableEq, Repr

/-- `m · 2^e`. -/
def Val.scaled (neg : Bool) (m : Nat) (e : Int) : Val :=
  if e ≥ 0 then .fin neg (m * 2 ^ e.toNat) 1 else .fin neg m (2 ^ (-e).toNat)

/-- widen(x) of R94: the exact value of an encoding (R85). -/
def Fmt.value (f : Fmt) (x : Nat) : Val :=
  let mag := x % 2 ^ (f.ew + f.p)
  let neg := f.signed && x / 2 ^ (f.ew + f.p) % 2 = 1
  let e := mag / 2 ^ f.p
  let m := mag % 2 ^ f.p
  if mag > f.max then (if f.inf && m = 0 then .inf neg else .nan)
  else if e = 0 then Val.scaled neg m (1 - (f.bias : Int) - f.p)
  else Val.scaled neg (2 ^ f.p + m) ((e : Int) - f.bias - f.p)

/-- The value of an E8M0 code (R85). -/
def e8m0 (c : Nat) : Val := if c % 256 = 255 then .nan else Val.scaled false 1 ((c % 256 : Nat) - 127 : Int)

/-- An exact integer. -/
def Val.ofInt (x : Int) : Val := .fin (x < 0) x.natAbs 1

def Val.isNan : Val → Bool | .nan => true | _ => false
def Val.isInf : Val → Bool | .inf _ => true | _ => false
def Val.isZero : Val → Bool | .fin _ n _ => n = 0 | _ => false
def Val.neg : Val → Val | .nan => .nan | .inf s => .inf (!s) | .fin s n d => .fin (!s) n d
def Val.abs : Val → Val | .nan => .nan | .inf _ => .inf false | .fin _ n d => .fin false n d
def Val.sign : Val → Bool | .nan => false | .inf s => s | .fin s _ _ => s

/-! ### Rounding (R88) -/

inductive Mode where
  | rne | rtz | rdn | rup | rna
deriving DecidableEq, Repr

/-- The mode that RM names (R68). -/
def Mode.ofRm : Nat → Mode
  | 1 => .rtz
  | 2 => .rdn
  | 3 => .rup
  | 4 => .rna
  | _ => .rne

/-- floor(log2(num/den)) of a positive fraction. -/
def floorLog2 (num den : Nat) : Int :=
  let l : Int := (Nat.log2 num : Int) - Nat.log2 den
  let below : Bool := if l ≥ 0 then num < den * 2 ^ l.toNat else num * 2 ^ (-l).toNat < den
  if below then l - 1 else l

/-- `num / (den · 2^e)` rounded to an integer under a mode, and whether it was not exact. -/
def roundInt (mode : Mode) (neg : Bool) (num den : Nat) (e : Int) : Nat × Bool :=
  let n := if e ≥ 0 then num else num * 2 ^ (-e).toNat
  let d := if e ≥ 0 then den * 2 ^ e.toNat else den
  let q := n / d
  let r := n % d
  if r = 0 then (q, false)
  else
    let up : Bool := match mode with
      | .rne => 2 * r > d || (2 * r = d && q % 2 = 1)
      | .rna => 2 * r ≥ d
      | .rtz => false
      | .rdn => neg
      | .rup => !neg
    (if up then q + 1 else q, true)

/-- Flags: [0] invalid, [1] divide by zero, [2] overflow, [3] underflow, [4] inexact (R37). -/
abbrev Flags := BitVec 5
def fInvalid : Flags := 1
def fDivZero : Flags := 2
def fOverflow : Flags := 4
def fUnderflow : Flags := 8
def fInexact : Flags := 16

/-- The sign bit of a format. -/
def Fmt.signBit (f : Fmt) (neg : Bool) : Nat := if f.signed && neg then 2 ^ (f.ew + f.p) else 0

/-- The overflow value's magnitude pattern (R89). -/
def Fmt.overflow (f : Fmt) (mode : Mode) (neg : Bool) : Nat :=
  if f.inf && (match mode with | .rne | .rna => true | .rtz => false | .rdn => neg | .rup => !neg) then f.max + 1 else f.max

/-- round() of a non-zero magnitude (R88, R89) with the flags of R91. -/
def Fmt.roundFin (f : Fmt) (mode : Mode) (neg : Bool) (num den : Nat) : Nat × Flags :=
  let emin : Int := 1 - (f.bias : Int)
  let e := floorLog2 num den
  let e' := if e < emin then emin else e
  let (m, inexact) := roundInt mode neg num den (e' - f.p)
  let pat := ((e' + f.bias - 1) * 2 ^ f.p + m).toNat
  if pat > f.max then (f.overflow mode neg + f.signBit neg, fOverflow ||| fInexact)
  else
    let (m', _) := roundInt mode neg num den (e - f.p)
    let tiny := e < emin && !(e = emin - 1 && m' = 2 ^ (f.p + 1))
    (pat + f.signBit neg, (if inexact then fInexact else 0) ||| (if tiny && inexact then fUnderflow else 0))

/-- narrow(): the encoding of round() for any value, special inputs as R91's table gives. -/
def Fmt.round (f : Fmt) (mode : Mode) (v : Val) : Nat × Flags :=
  match v with
  | .nan => match f.nan with | some n => (n, 0) | none => (0, fInvalid)
  | .inf neg =>
    if f.inf then (f.max + 1 + f.signBit neg, 0)
    else if f.nan.isSome then (f.nan.getD 0, fInvalid)
    else if !f.signed && neg then (0, fInvalid)
    else (f.max + f.signBit neg, fInvalid)
  | .fin neg num den =>
    if num = 0 then (f.signBit neg, 0)
    else if !f.signed && neg then (0, fInvalid)
    else f.roundFin mode neg num den

/-- sat() of an encoding (R94): an infinity becomes the largest finite value of its sign. -/
def Fmt.sat (f : Fmt) (x : Nat) : Nat :=
  match f.value x with
  | .inf neg => f.max + f.signBit neg
  | _ => x

/-- Whether an encoding is a non-zero subnormal. -/
def Fmt.isSub (f : Fmt) (x : Nat) : Bool :=
  let mag := x % 2 ^ (f.ew + f.p)
  mag ≠ 0 && mag < 2 ^ f.p

/-- A subnormal input read as a zero of its sign when FLUSH is set (R93). -/
def Fmt.flushIn (f : Fmt) (flush : Bool) (x : Nat) : Nat :=
  if flush && f.isSub x then x / 2 ^ (f.ew + f.p) * 2 ^ (f.ew + f.p) else x

/-- A subnormal result written as a zero of its sign when FLUSH is set (R93). -/
def Fmt.flushOut (f : Fmt) (flush : Bool) (r : Nat × Flags) : Nat × Flags :=
  if flush && f.isSub r.1 then (r.1 / 2 ^ (f.ew + f.p) * 2 ^ (f.ew + f.p), r.2 ||| fUnderflow ||| fInexact) else r

/-! ### Exact arithmetic (R90, R121) -/

/-- The signed numerator over a common denominator. -/
def signedNum (neg : Bool) (n : Nat) : Int := if neg then -(n : Int) else n

/-- An exact product and whether it is invalid (0 · ∞). -/
def Val.mul (a b : Val) : Val × Bool :=
  match a, b with
  | .nan, .inf _ => (.nan, false)
  | .nan, _ => (.nan, false)
  | _, .nan => (.nan, false)
  | .inf s, .inf t => (.inf (s != t), false)
  | .inf s, .fin t n _ => if n = 0 then (.nan, true) else (.inf (s != t), false)
  | .fin s n _, .inf t => if n = 0 then (.nan, true) else (.inf (s != t), false)
  | .fin s n d, .fin t m e => (.fin (s != t) (n * m) (d * e), false)

/-- An exact sum, its zero signed by R90, and whether it is invalid (∞ − ∞). -/
def Val.add (mode : Mode) (a b : Val) : Val × Bool :=
  match a, b with
  | .nan, _ => (.nan, false)
  | _, .nan => (.nan, false)
  | .inf s, .inf t => if s = t then (.inf s, false) else (.nan, true)
  | .inf s, .fin _ _ _ => (.inf s, false)
  | .fin _ _ _, .inf t => (.inf t, false)
  | .fin s n d, .fin t m e =>
    let x := signedNum s (n * e) + signedNum t (m * d)
    if x = 0 then
      if n = 0 && m = 0 && s = t then (.fin s 0 1, false) else (.fin (mode = .rdn) 0 1, false)
    else (.fin (x < 0) x.natAbs (d * e), false)

/-- d + a·b, exact; invalid also where D is NaN and the product is 0 · ∞. -/
def Val.fma (mode : Mode) (a b d : Val) : Val × Bool :=
  match a.mul b with
  | (_, true) => (.nan, true)
  | (p, false) => d.add mode p

/-- Multiply by 2^k, zeros, infinities and NaN unchanged (R69). -/
def Val.scale (v : Val) (k : Int) : Val :=
  match v with
  | .fin s n d => if n = 0 then v else if k ≥ 0 then .fin s (n * 2 ^ k.toNat) d else .fin s n (d * 2 ^ (-k).toNat)
  | _ => v

/-- Comparison of two values that are not NaN: less, and equal; zeros are equal. -/
def Val.lt (a b : Val) : Bool :=
  match a, b with
  | .nan, _ => false
  | _, .nan => false
  | .inf s, .inf t => s && !t
  | .inf s, _ => s
  | _, .inf t => !t
  | .fin s n d, .fin t m e => decide (signedNum s (n * e) < signedNum t (m * d))

def Val.eq (a b : Val) : Bool :=
  match a, b with
  | .nan, _ => false
  | _, .nan => false
  | .inf s, .inf t => s = t
  | .fin s n d, .fin t m e => decide (signedNum s (n * e) = signedNum t (m * d))
  | _, _ => false

/-! ### The result of an FP instruction (R69, R121) -/

/-- What the modifier word and FLUSH do to a result. -/
structure ResMod where
  k : Int
  mode : Mode
  sat : Bool
  clamp : Bool
  flush : Bool
deriving DecidableEq, Repr

def ResMod.plain : ResMod := { k := 0, mode := .rne, sat := false, clamp := false, flush := false }

/-- CLAMP of an encoding to [0, 1] (R69). -/
def Fmt.clamp (f : Fmt) (x : Nat) : Nat :=
  let one := f.bias * 2 ^ f.p
  match f.value x with
  | .nan => 0
  | v => if v.sign then 0 else if Val.lt (.fin false 1 1) v then one else x

/-- Form a result: scale, round, flush, SAT, CLAMP; flags are those of the rounding (R69, R121). -/
def Fmt.result (f : Fmt) (m : ResMod) (e : Val × Bool) : Nat × Flags :=
  let r := f.flushOut m.flush (f.round m.mode (e.1.scale m.k))
  let y := if m.sat then f.sat r.1 else r.1
  let y := if m.clamp then f.clamp y else y
  (y, r.2 ||| (if e.2 then fInvalid else 0))

/-! ### Integers (R95) -/

/-- Clamp to a range. -/
def clampInt (x lo hi : Int) : Int := if x < lo then lo else if x > hi then hi else x

/-- A value converted to an integer range under a mode (R95). -/
def toIntRange (mode : Mode) (lo hi : Int) (v : Val) : Int × Flags :=
  match v with
  | .nan => (0, fInvalid)
  | .inf neg => (if neg then lo else hi, fInvalid)
  | .fin neg num den =>
    let (m, inexact) := roundInt mode neg num den 0
    let x := signedNum neg m
    if x < lo || x > hi then (clampInt x lo hi, fInvalid) else (x, if inexact then fInexact else 0)

/-! ### Minimum and maximum (R122) -/

/-- FMIN (or FMAX with `mx`) of two FP32 patterns. -/
def fminmax (mx flush : Bool) (a b : Nat) : Nat :=
  let a := Fmt.fp32.flushIn flush a
  let b := Fmt.fp32.flushIn flush b
  let va := Fmt.fp32.value a
  let vb := Fmt.fp32.value b
  if va.isNan && vb.isNan then 0x7FC00000
  else if va.isNan then b
  else if vb.isNan then a
  else
    let aLess := va.lt vb || (va.eq vb && va.sign && !vb.sign)
    if aLess != mx then a else b

/-- FP32 addition with round to nearest even and no FLUSH: the memory ALUs' FADD (10 R227). -/
def fadd32 (a b : W32) : W32 :=
  BitVec.ofNat 32 (Fmt.fp32.result ResMod.plain ((Fmt.fp32.value a.toNat).add .rne (Fmt.fp32.value b.toNat))).1

/-! ### Block scales (R97 to R102) -/

/-- The largest magnitude of finite values; none if one is NaN or infinite. -/
def amax : List Val → Option (Nat × Nat)
  | [] => some (0, 1)
  | v :: vs =>
    match v, amax vs with
    | .fin _ n d, some (m, e) => if m * d < n * e then some (n, d) else some (m, e)
    | _, _ => none

/-- An exact quotient by a positive finite value. -/
def Val.divPos (v : Val) (num den : Nat) : Val :=
  match v with
  | .fin s n d => .fin s (n * den) (d * num)
  | _ => v

/-- sat(round(v, f, RNE), f) as a code. -/
def Fmt.satRound (f : Fmt) (v : Val) : Nat := f.sat (f.round .rne v).1

/-- The exponent of a format's largest finite value (R98). -/
def Fmt.emax (f : Fmt) : Int := (f.max / 2 ^ f.p : Nat) - f.bias

/-- The MX quantiser on one block: scale code and element codes (R98); `amaxOf` are the elements that count for the scale. -/
def mxBlock (f : Fmt) (amaxOf xs : List Val) : Nat × List Nat :=
  match amax amaxOf with
  | none => (0xFF, xs.map (fun _ => 0))
  | some (n, d) =>
    if n = 0 then (0x7F, xs.map (fun v => f.signBit v.sign))
    else
      let c := 127 + floorLog2 n d - f.emax
      let code := if c < 0 then 0 else c.toNat
      (code, xs.map (fun v => f.satRound (v.scale (127 - (code : Int)))))

/-- One block of a TL4 row under a usable row scale num/den (R100). -/
def tl4Block (sNum sDen : Nat) (xs : List Val) : Nat × List Nat :=
  match amax xs with
  | none => (0, xs.map (fun _ => 0))
  | some (n, d) =>
    if n = 0 then (0, xs.map (fun v => Fmt.e2m1.signBit v.sign))
    else
      let bs := (Fmt.e5m3.round .rup (.fin false (n * sDen) (d * 6 * sNum))).1
      match Fmt.e5m3.value bs with
      | .fin _ bn bd => (bs, xs.map (fun v => Fmt.e2m1.satRound (v.divPos (sNum * bn) (sDen * bd))))
      | _ => (bs, xs.map (fun _ => 0))

/-- Blocks of at most `n` elements. -/
def chunks {α : Type} (n : Nat) : Nat → List α → List (List α)
  | 0, _ => []
  | fuel + 1, l => if l.isEmpty then [] else l.take n :: chunks n fuel (l.drop n)

/-- A TL4 row: row scale code, block scales, element codes (R100). -/
def tl4Row (s : Nat) (xs : List Val) : Nat × List Nat × List Nat :=
  let usable := match Fmt.bf16.value s with | .fin neg n d => if !neg && n ≠ 0 then some (n, d) else none | _ => none
  match usable with
  | some (n, d) =>
    if xs.all (fun v => !v.isNan && !v.isInf) then
      let bs := (chunks 64 xs.length xs).map (tl4Block n d)
      (s, bs.map (fun b => b.1), bs.flatMap (fun b => b.2))
    else (0x7FC0, (chunks 64 xs.length xs).map (fun _ => 0), xs.map (fun _ => 0))
  | none => (0x7FC0, (chunks 64 xs.length xs).map (fun _ => 0), xs.map (fun _ => 0))

/-- One element of the fallback quantiser under the present scale P (R101). -/
def fallback (f : Fmt) (p : Nat) (v : Val) : Nat :=
  let nan := f.nan.getD 0
  if Fmt.fp32.isSub p then nan
  else
    match Fmt.fp32.value p with
    | .fin neg n d =>
      if neg || n = 0 then nan
      else match v with
        | .fin _ _ _ => f.satRound (v.divPos n d)
        | _ => nan
    | _ => nan

/-- The FP32 pattern that a copy folds into W: the largest input magnitude (R102). The input formats are exact in FP32. -/
def foldMax : List Val → Nat
  | [] => 0
  | v :: vs =>
    let m := foldMax vs
    let x := match v with
      | .nan => 0x7FC00000
      | .inf _ => 0x7F800000
      | .fin _ n d => (Fmt.fp32.round .rne (.fin false n d)).1
    if x > m then x else m

end Sys2Proof.Machine
end

