-- ==== Sys2Proof/Syntax.lean ====
section
/-! DEFINITION. The instructions and steps of the TXL-9400: one constructor of `Instr` per row of the opcode table.
Rows with an encoding carry their operand fields (03 R58 to R65); rows of engines, firmware, the host and peers carry the
names of the agent that acts and the data that comes from outside the module. -/

namespace Sys2Proof

/-- An operand code of R60: a vector, uniform or temporary register, an inline constant (0xF0 to 0xFE), or the literal word. -/
inductive Opnd where
  | v (n : Fin 192)
  | w (n : BitVec 5)
  | t (n : BitVec 4)
  | inl (n : Fin 15)
  | lit (x : W32)
deriving DecidableEq, Repr

/-- The S field of a 16-bit word (R58). -/
inductive Src16 where
  | v (n : BitVec 5)
  | t (n : BitVec 4)
  | w (n : BitVec 4)
deriving DecidableEq, Repr

/-- A group: its team's serial number and its index in the team; 16 and above are handler groups (R29, R331). -/
structure GroupKey where
  team : Nat
  idx : Nat
deriving DecidableEq, Repr

/-- A core by die and logical number (R14). -/
structure CoreKey where
  die : Nat
  core : Nat
deriving DecidableEq, Repr

/-- A cluster by die and logical number (R14). -/
structure ClusterKey where
  die : Nat
  cluster : Nat
deriving DecidableEq, Repr

/-- Who owns a granule or a line: nobody, a partition, or a shared-key handle of the module manager (R366, R369). -/
inductive Owner where
  | none
  | part (p : Nat)
  | handle (h : Nat)
deriving DecidableEq, Repr

/-- The header of a received Waelle packet; `authentic` says that its GCM tag verified (R383). -/
structure Packet where
  session : Nat
  seq : Nat
  ack : Nat
  authentic : Bool
deriving DecidableEq, Repr

/-- The kinds of session; a peer session names the other module and the partition there (R382). -/
inductive SessionKind where
  | supervisor
  | manager
  | peer (modno part : Nat)
deriving DecidableEq, Repr

/-- A firmware image: its identity, version, and whether its signature verifies (R380). -/
structure FwImage where
  id : Nat
  version : Nat
  sigOk : Bool
deriving DecidableEq, Repr

/-- What the module manager may assign (R290, R335, R365, R369). -/
inductive Resource where
  | queue (q : Nat) (engine : Nat) (supervisor : Bool)
  | unqueue (q : Nat)
  | head (h : Nat) (phys : Nat)
  | unhead (h : Nat)
  | share (sh : Nat)
  | handle (h : Nat)
  | unhandle (h : Nat)
deriving DecidableEq, Repr

/-- The extension word of a memory access: index, scope, narrow width, replication hint, byte offset (R65). -/
structure MemExt where
  c : Opnd
  scope : BitVec 3
  narrow : BitVec 2
  repl : Bool
  imm : BitVec 16
deriving DecidableEq, Repr

/-- The fields of an atomic's extension word (R226). -/
structure AtomExt where
  c : Opnd
  scope : BitVec 3
  w64 : Bool
  sp : Bool
  imm : BitVec 16
deriving DecidableEq, Repr

/-- The result a peer sends back in PRESP: done with the bytes, or a fault at the target (R385). -/
inductive PeerAnswer where
  | done (bytes : List Byte)
  | faulted
deriving DecidableEq, Repr

/-- What a PATOM asks of its word: an atomic, a compare-and-swap, or a reduction, whose old value nobody takes (R385). Open points: DESIGN
CHOICE (log 41). -/
inductive PeerOp where
  | atom
  | cas
  | red
deriving DecidableEq, Repr

/-- The elements that a CELL message brings: the number of the first, and their bytes. Open points: DESIGN CHOICE (log 23). -/
structure CellPart where
  first : Nat
  bytes : List Byte
deriving DecidableEq, Repr

/-- What a CELL message carries: the sender's operation, that every rank may agree on it, cells on their way up the tree, or words on their
way down (10 R252, 17 R389). Open points: DESIGN CHOICE (log 23). -/
inductive CellWay where
  | agree
  | up
  | down
deriving DecidableEq, Repr

/-- A reduction cell: the exact sum, the flags and the term count (R389). -/
structure CellMsg where
  v : Int
  nan : Bool
  pinf : Bool
  ninf : Bool
  negz : Bool
  n : Nat
deriving DecidableEq, Repr

/-- One constructor per row of the opcode table, in its order. -/
inductive Instr where
  | run (len : BitVec 5) (await : BitVec 16)
  | trail (post : BitVec 16)
  | bra (off : BitVec 24)
  | brx (a : Opnd)
  | call (d : Opnd) (off : BitVec 16)
  | ret (a : Opnd)
  | joine (k : BitVec 8)
  | joinw (k : BitVec 8)
  | exit
  | nop
  | yield
  | trap (n : BitVec 16)
  | brk (n : BitVec 16)
  | mov (d a : Opnd)
  | iadd (d a b : Opnd)
  | isub (d a b : Opnd)
  | imul (d a b : Opnd)
  | imulh (d a b : Opnd)
  | imad (d a b : Opnd)
  | imin (d a b : Opnd)
  | imax (d a b : Opnd)
  | and (d a b : Opnd)
  | or (d a b : Opnd)
  | xor (d a b : Opnd)
  | shl (d a b : Opnd)
  | shr (d a b : Opnd)
  | sar (d a b : Opnd)
  | rot (d a b : Opnd)
  | iabs (d a : Opnd)
  | not (d a : Opnd)
  | popc (d a : Opnd)
  | clz (d a : Opnd)
  | brev (d a : Opnd)
  | bfx (d a b : Opnd)
  | bfi (d a b : Opnd)
  | lea (d a b : Opnd)
  | icmp (pd : BitVec 3) (cc : BitVec 5) (a b : Opnd)
  | isel (d5 : BitVec 5) (a b : Opnd) (ps : BitVec 3)
  | movImm (d : Opnd) (imm : BitVec 16)
  | movH (d : Opnd) (imm : BitVec 16)
  | iaddImm (d : Opnd) (imm : BitVec 16)
  | imulImm (d : Opnd) (imm : BitVec 16)
  | andImm (d : Opnd) (imm : BitVec 16)
  | orImm (d : Opnd) (imm : BitVec 16)
  | xorImm (d : Opnd) (imm : BitVec 16)
  | faddImm (d : Opnd) (imm : BitVec 16)
  | fmulImm (d : Opnd) (imm : BitVec 16)
  | fadd (d a b : Opnd)
  | fsub (d a b : Opnd)
  | fmul (d a b : Opnd)
  | ffma (d a b : Opnd)
  | fmin (d a b : Opnd)
  | fmax (d a b : Opnd)
  | fcmp (pd : BitVec 3) (cc : BitVec 5) (a b : Opnd)
  | fsel (d5 : BitVec 5) (a b : Opnd) (ps : BitVec 3)
  | frnd (d a : Opnd) (fn : BitVec 8)
  | fclass (pd : BitVec 3) (a b : Opnd)
  | hadd2 (d a b : Opnd)
  | hmul2 (d a b : Opnd)
  | hfma2 (d a b : Opnd)
  | bfma2 (d a b : Opnd)
  | rcp (d a : Opnd) (tag : BitVec 4)
  | rsq (d a : Opnd) (tag : BitVec 4)
  | sqrt (d a : Opnd) (tag : BitVec 4)
  | exp2 (d a : Opnd) (tag : BitVec 4)
  | log2 (d a : Opnd) (tag : BitVec 4)
  | sin (d a : Opnd) (tag : BitVec 4)
  | cos (d a : Opnd) (tag : BitVec 4)
  | tanh (d a : Opnd) (tag : BitVec 4)
  | cvt (d a : Opnd) (fn : BitVec 8)
  | cvtef (d a : Opnd) (fn : BitVec 8)
  | pack (d a b : Opnd)
  | unpack (d a : Opnd) (width : BitVec 2) (sgn : Bool) (idx : BitVec 4)
  | shfl (d a : Opnd) (fn : BitVec 8) (c : Opnd) (rel wrap : Bool) (seg : BitVec 3) (imm : BitVec 16)
  | bcast (d a b : Opnd)
  | vote (d : Opnd) (mode : BitVec 4) (neg : Bool) (k : BitVec 3)
  | redl (d a : Opnd) (seg : BitVec 4) (op : BitVec 4)
  | scan (d a : Opnd) (excl : Bool) (op : BitVec 4)
  | match (d a : Opnd)
  | qdx (d a : Opnd) (fn : BitVec 8)
  | qdy (d a : Opnd) (fn : BitVec 8)
  | pset (pd : BitVec 3) (cc : BitVec 5) (a b : Opnd)
  | plop (pd pa pb pc : BitVec 3) (lut : BitVec 8)
  | srd (d : Opnd) (sel : BitVec 8)
  | swr (a : Opnd)
  | mov16 (d : BitVec 5) (s : Src16)
  | iadd16 (d : BitVec 5) (s : Src16)
  | isub16 (d : BitVec 5) (s : Src16)
  | imul16 (d : BitVec 5) (s : Src16)
  | and16 (d : BitVec 5) (s : Src16)
  | or16 (d : BitVec 5) (s : Src16)
  | xor16 (d : BitVec 5) (s : Src16)
  | shl16 (d : BitVec 5) (s : Src16)
  | shr16 (d : BitVec 5) (s : Src16)
  | sar16 (d : BitVec 5) (s : Src16)
  | fadd16 (d : BitVec 5) (s : Src16)
  | fsub16 (d : BitVec 5) (s : Src16)
  | fmul16 (d : BitVec 5) (s : Src16)
  | fmin16 (d : BitVec 5) (s : Src16)
  | fmax16 (d : BitVec 5) (s : Src16)
  | ffma16 (d : BitVec 5) (s : Src16)
  | ld (d a : Opnd) (sz : BitVec 2) (tag : BitVec 4)
  | ldExtended (d a : Opnd) (sz : BitVec 2) (tag : BitVec 4) (x : MemExt)
  | st (d a : Opnd) (sz : BitVec 2)
  | stExtended (d a : Opnd) (sz : BitVec 2) (x : MemExt)
  | lds (d a : Opnd) (sz : BitVec 2) (o : Bool) (tag : BitVec 4)
  | ldsExtended (d a : Opnd) (sz : BitVec 2) (o : Bool) (tag : BitVec 4) (x : MemExt)
  | sts (d a : Opnd) (sz : BitVec 2) (o : Bool)
  | stsExtended (d a : Opnd) (sz : BitVec 2) (o : Bool) (x : MemExt)
  | pref (a : Opnd)
  | prefExtended (a : Opnd) (x : MemExt)
  | atom (d a : Opnd) (fn : BitVec 4) (tag : BitVec 4) (x : AtomExt)
  | red (a : Opnd) (fn : BitVec 4) (x : AtomExt)
  | cas (d a : Opnd) (tag : BitVec 4) (x : AtomExt)
  | fence (scope : BitVec 8)
  | storeQueueLeave (g : GroupKey)
  | l1LineExpiry (c : CoreKey) (i : Nat)
  | binit (a b : Opnd)
  | barr (a b : Opnd)
  | bexp (a b : Opnd)
  | wait (a : Opnd)
  | waitY (d : Opnd) (off : BitVec 16)
  | bseal
  | bwait (a : Opnd)
  | batchComplete (g : GroupKey)
  | cpt (d a b : Opnd)
  | cpb (d a b : Opnd)
  | cps (d a b : Opnd)
  | shuttleCopy (c : CoreKey)
  | gwin (a b : Opnd)
  | gwinDescriptorWrite (c : CoreKey)
  | coll (a b : Opnd)
  | collectiveComplete (part set : Nat) (cid : W32)
  | launch (pd : BitVec 3) (a b : Opnd)
  | mma (mt : BitVec 3) (o : Bool) (fmt : BitVec 4) (d a : Opnd)
  | mmas (mt : BitVec 3) (o : Bool) (fmt : BitVec 4) (d a : Opnd) (pat : BitVec 2) (c : Opnd)
  | accld (mt : BitVec 3) (o : Bool) (fmt : BitVec 4) (a : Opnd)
  | accst (mt : BitVec 3) (o : Bool) (fmt : BitVec 4) (a : Opnd)
  | mzero (mt : BitVec 3)
  | arrayOperation (c : CoreKey)
  | trq (d a b : Opnd)
  | trqTranspose (c : CoreKey)
  | rast (d a b : Opnd)
  | tex (d a : Opnd) (tag : BitVec 4) (c : Opnd) (nofb : Bool) (bias : BitVec 16)
  | texl (d a : Opnd) (tag : BitVec 4) (c : Opnd) (nofb : Bool) (bias : BitVec 16)
  | texg (d a : Opnd) (tag : BitVec 4) (c : Opnd) (nofb : Bool) (bias : BitVec 16)
  | rayt (d a : Opnd) (tag : BitVec 4) (cullb cullf : Bool) (c : Opnd) (mask : BitVec 8)
  | rayq (d a : Opnd) (tag : BitVec 4) (cullb cullf : Bool) (c : Opnd) (mask : BitVec 8)
  | tagLanding (g : GroupKey) (i : Nat)
  | ncall (d a : Opnd) (tag : BitVec 4) (c : Opnd) (nin : BitVec 6) (nout : BitVec 5)
  | ncallBinTimeout (c : ClusterKey) (i : Nat)
  | bobbinFetch (c : ClusterKey) (i : Nat)
  | heddleTile (c : ClusterKey) (i : Nat)
  | npin (a : Opnd)
  | npref (a : Opnd)
  | nevict (a : Opnd)
  | reorder (a b : Opnd)
  | reorderSiteComplete (team site : Nat)
  | ltrap (n : BitVec 16)
  | trapBinTimeout (c : ClusterKey) (i : Nat)
  | handlerGroupStart (c : ClusterKey) (i : Nat)
  | tret (a : Opnd)
  | present (a b : Opnd)
  | svc (n : BitVec 16) (k : BitVec 8)
  | sysrd (d a : Opnd) (fn : BitVec 8)
  | syswr (d a : Opnd) (fn : BitVec 8)
  | tlbinv (a b : Opnd)
  | tlbinvComplete (g : GroupKey)
  | keysel (a b : Opnd)
  | partctl (d a b : Opnd)
  | clusterGrow (part : Nat)
  | clusterShrink (part : Nat)
  | granuleReassign (second : Bool) (granule : Nat) (owner : Owner)
  | handleSeal (h : Nat)
  | boot
  | powerWindow (milliwatts : Nat) (die part : Nat)
  | thermalThrottle (die : Nat)
  | thermalPowerOff (die : Nat)
  | submit (p : Packet) (q : Nat) (record : List Byte)
  | launchEligible (part q : Nat)
  | teamPlace (part : Nat)
  | transformBinding (team : Nat)
  | groupEvict (g : GroupKey)
  | groupResume (part : Nat)
  | splitPromotion (g : GroupKey) (slot : Nat)
  | launchComplete (part q : Nat)
  | watchdogExpiry (part q : Nat)
  | killComplete (part q : Nat)
  | graceExpiry (part q : Nat)
  | partitionReset (part : Nat)
  | fatalDump (part : Nat)
  | groupStopRecord (g : GroupKey)
  | tqrdWrite (part : Nat) (value : W32)
  | teamActionEnd (part : Nat)
  | teamActionResume (part : Nat)
  | teamActionReplay (part : Nat)
  | coreRetire (c : CoreKey)
  | sliceRetire (die slice : Nat) (unreadable : List Nat)
  | controlWrite (part : Nat) (space offset : Nat) (value : W32)
  | queueEnable (part q : Nat)
  | queueDisable (part q : Nat)
  | bobChange (c : CoreKey)
  | headEnable (part h : Nat)
  | headDisable (part h : Nat)
  | rasterLine (part h : Nat)
  | surfaceLatch (part h : Nat)
  | bandJob (part h band : Nat)
  | bandDeadline (part h : Nat)
  | motionEstimation (part h : Nat)
  | surfaceRelease (part h : Nat)
  | reportWord (part h : Nat)
  | streamEnable (part h : Nat)
  | encodeRow (part h : Nat)
  | sessionOpen (id : Nat) (kind : SessionKind) (part : Nat) (signedOk : Bool)
  | retransmitTimeout (session seq : Nat)
  | write (p : Packet) (addr : Addr) (key : BitVec 4) (bytes : List Byte)
  | read (p : Packet) (addr : Addr) (len : Nat)
  | ctlwr (p : Packet) (space offset : Nat) (value : W32)
  | ctlrd (p : Packet) (space offset : Nat)
  | attest (p : Packet) (nonce : List Byte)
  | pwrite (p : Packet) (addr : Addr) (bytes : List Byte)
  | pread (p : Packet) (addr : Addr) (len : Nat)
  | pload (p : Packet) (id : Nat) (addr : Addr) (len : Nat)
  | pstore (p : Packet) (id : Nat) (addr : Addr) (bytes : List Byte)
  | patom (p : Packet) (id : Nat) (addr : Addr) (fn : BitVec 4) (w64 : Bool) (op : PeerOp) (opnd cmp : W64)
  | presp (p : Packet) (id : Nat) (answer : PeerAnswer)
  | cell (p : Packet) (set : Nat) (cid : W32) (rank : Nat) (way : CellWay) (head : List W32) (cells : CellPart)
  | kill (p : Packet) (set : Nat) (cid : W32)
  | unassignedMajorOpcode (cause : Cause)
  | misplacedPrefix
  | powerOff
  | partitionCreate (part modno kdie l2sh : Nat) (clusters : List ClusterKey)
  | partitionDestroy (part : Nat)
  | resourceAssign (part : Nat) (r : Resource)
  | signedFirmwareImage (slot : Nat) (img : FwImage)
deriving DecidableEq, Repr

end Sys2Proof
end

