-- ==== Sys2Proof/WellFormed.lean ====
section
/-! DEFINITION. Well-formed instructions: the conditions that the encoding of 03 R56, R62 and R73 puts on a term of `Instr`. -/

namespace Sys2Proof

/-- The operand fields of an instruction, destination first, the extension word's C last (R60, R65). -/
def Instr.operands (i : Instr) : List Opnd :=
  match i with
  | .brx a => [a]
  | .call d _ => [d]
  | .ret a => [a]
  | .mov d a => [d, a]
  | .iadd d a b => [d, a, b]
  | .isub d a b => [d, a, b]
  | .imul d a b => [d, a, b]
  | .imulh d a b => [d, a, b]
  | .imad d a b => [d, a, b]
  | .imin d a b => [d, a, b]
  | .imax d a b => [d, a, b]
  | .and d a b => [d, a, b]
  | .or d a b => [d, a, b]
  | .xor d a b => [d, a, b]
  | .shl d a b => [d, a, b]
  | .shr d a b => [d, a, b]
  | .sar d a b => [d, a, b]
  | .rot d a b => [d, a, b]
  | .iabs d a => [d, a]
  | .not d a => [d, a]
  | .popc d a => [d, a]
  | .clz d a => [d, a]
  | .brev d a => [d, a]
  | .bfx d a b => [d, a, b]
  | .bfi d a b => [d, a, b]
  | .lea d a b => [d, a, b]
  | .icmp _ _ a b => [a, b]
  | .isel _ a b _ => [a, b]
  | .movImm d _ => [d]
  | .movH d _ => [d]
  | .iaddImm d _ => [d]
  | .imulImm d _ => [d]
  | .andImm d _ => [d]
  | .orImm d _ => [d]
  | .xorImm d _ => [d]
  | .faddImm d _ => [d]
  | .fmulImm d _ => [d]
  | .fadd d a b => [d, a, b]
  | .fsub d a b => [d, a, b]
  | .fmul d a b => [d, a, b]
  | .ffma d a b => [d, a, b]
  | .fmin d a b => [d, a, b]
  | .fmax d a b => [d, a, b]
  | .fcmp _ _ a b => [a, b]
  | .fsel _ a b _ => [a, b]
  | .frnd d a _ => [d, a]
  | .fclass _ a b => [a, b]
  | .hadd2 d a b => [d, a, b]
  | .hmul2 d a b => [d, a, b]
  | .hfma2 d a b => [d, a, b]
  | .bfma2 d a b => [d, a, b]
  | .rcp d a _ => [d, a]
  | .rsq d a _ => [d, a]
  | .sqrt d a _ => [d, a]
  | .exp2 d a _ => [d, a]
  | .log2 d a _ => [d, a]
  | .sin d a _ => [d, a]
  | .cos d a _ => [d, a]
  | .tanh d a _ => [d, a]
  | .cvt d a _ => [d, a]
  | .cvtef d a _ => [d, a]
  | .pack d a b => [d, a, b]
  | .unpack d a _ _ _ => [d, a]
  | .shfl d a _ c _ _ _ _ => [d, a, c]
  | .bcast d a b => [d, a, b]
  | .vote d _ _ _ => [d]
  | .redl d a _ _ => [d, a]
  | .scan d a _ _ => [d, a]
  | .match d a => [d, a]
  | .qdx d a _ => [d, a]
  | .qdy d a _ => [d, a]
  | .pset _ _ a b => [a, b]
  | .srd d _ => [d]
  | .swr a => [a]
  | .ld d a _ _ => [d, a]
  | .ldExtended d a _ _ x => [d, a, x.c]
  | .st d a _ => [d, a]
  | .stExtended d a _ x => [d, a, x.c]
  | .lds d a _ _ _ => [d, a]
  | .ldsExtended d a _ _ _ x => [d, a, x.c]
  | .sts d a _ _ => [d, a]
  | .stsExtended d a _ _ x => [d, a, x.c]
  | .pref a => [a]
  | .prefExtended a x => [a, x.c]
  | .atom d a _ _ x => [d, a, x.c]
  | .red a _ x => [a, x.c]
  | .cas d a _ x => [d, a, x.c]
  | .binit a b => [a, b]
  | .barr a b => [a, b]
  | .bexp a b => [a, b]
  | .wait a => [a]
  | .waitY d _ => [d]
  | .bwait a => [a]
  | .cpt d a b => [d, a, b]
  | .cpb d a b => [d, a, b]
  | .cps d a b => [d, a, b]
  | .gwin a b => [a, b]
  | .coll a b => [a, b]
  | .launch _ a b => [a, b]
  | .mma _ _ _ d a => [d, a]
  | .mmas _ _ _ d a _ c => [d, a, c]
  | .accld _ _ _ a => [a]
  | .accst _ _ _ a => [a]
  | .trq d a b => [d, a, b]
  | .rast d a b => [d, a, b]
  | .tex d a _ c _ _ => [d, a, c]
  | .texl d a _ c _ _ => [d, a, c]
  | .texg d a _ c _ _ => [d, a, c]
  | .rayt d a _ _ _ c _ => [d, a, c]
  | .rayq d a _ _ _ c _ => [d, a, c]
  | .ncall d a _ c _ _ => [d, a, c]
  | .npin a => [a]
  | .npref a => [a]
  | .nevict a => [a]
  | .reorder a b => [a, b]
  | .tret a => [a]
  | .present a b => [a, b]
  | .sysrd d a _ => [d, a]
  | .syswr d a _ => [d, a]
  | .tlbinv a b => [a, b]
  | .keysel a b => [a, b]
  | .partctl d a b => [d, a, b]
  | .run _ _ => []
  | .trail _ => []
  | .bra _ => []
  | .joine _ => []
  | .joinw _ => []
  | .exit => []
  | .nop => []
  | .yield => []
  | .trap _ => []
  | .brk _ => []
  | .plop _ _ _ _ _ => []
  | .mov16 _ _ => []
  | .iadd16 _ _ => []
  | .isub16 _ _ => []
  | .imul16 _ _ => []
  | .and16 _ _ => []
  | .or16 _ _ => []
  | .xor16 _ _ => []
  | .shl16 _ _ => []
  | .shr16 _ _ => []
  | .sar16 _ _ => []
  | .fadd16 _ _ => []
  | .fsub16 _ _ => []
  | .fmul16 _ _ => []
  | .fmin16 _ _ => []
  | .fmax16 _ _ => []
  | .ffma16 _ _ => []
  | .fence _ => []
  | .storeQueueLeave _ => []
  | .l1LineExpiry _ _ => []
  | .bseal => []
  | .batchComplete _ => []
  | .shuttleCopy _ => []
  | .gwinDescriptorWrite _ => []
  | .collectiveComplete _ _ _ => []
  | .mzero _ => []
  | .arrayOperation _ => []
  | .trqTranspose _ => []
  | .tagLanding _ _ => []
  | .ncallBinTimeout _ _ => []
  | .bobbinFetch _ _ => []
  | .heddleTile _ _ => []
  | .reorderSiteComplete _ _ => []
  | .ltrap _ => []
  | .trapBinTimeout _ _ => []
  | .handlerGroupStart _ _ => []
  | .svc _ _ => []
  | .tlbinvComplete _ => []
  | .clusterGrow _ => []
  | .clusterShrink _ => []
  | .granuleReassign _ _ _ => []
  | .handleSeal _ => []
  | .boot => []
  | .powerWindow _ _ _ => []
  | .thermalThrottle _ => []
  | .thermalPowerOff _ => []
  | .submit _ _ _ => []
  | .launchEligible _ _ => []
  | .teamPlace _ => []
  | .transformBinding _ => []
  | .groupEvict _ => []
  | .groupResume _ => []
  | .splitPromotion _ _ => []
  | .launchComplete _ _ => []
  | .watchdogExpiry _ _ => []
  | .killComplete _ _ => []
  | .graceExpiry _ _ => []
  | .partitionReset _ => []
  | .fatalDump _ => []
  | .groupStopRecord _ => []
  | .tqrdWrite _ _ => []
  | .teamActionEnd _ => []
  | .teamActionResume _ => []
  | .teamActionReplay _ => []
  | .coreRetire _ => []
  | .sliceRetire _ _ _ => []
  | .controlWrite _ _ _ _ => []
  | .queueEnable _ _ => []
  | .queueDisable _ _ => []
  | .bobChange _ => []
  | .headEnable _ _ => []
  | .headDisable _ _ => []
  | .rasterLine _ _ => []
  | .surfaceLatch _ _ => []
  | .bandJob _ _ _ => []
  | .bandDeadline _ _ => []
  | .motionEstimation _ _ => []
  | .surfaceRelease _ _ => []
  | .reportWord _ _ => []
  | .streamEnable _ _ => []
  | .encodeRow _ _ => []
  | .sessionOpen _ _ _ _ => []
  | .retransmitTimeout _ _ => []
  | .write _ _ _ _ => []
  | .read _ _ _ => []
  | .ctlwr _ _ _ _ => []
  | .ctlrd _ _ _ => []
  | .attest _ _ => []
  | .pwrite _ _ _ => []
  | .pread _ _ _ => []
  | .pload _ _ _ _ => []
  | .pstore _ _ _ _ => []
  | .patom _ _ _ _ _ _ _ _ => []
  | .presp _ _ _ => []
  | .cell _ _ _ _ _ _ _ => []
  | .kill _ _ _ => []
  | .unassignedMajorOpcode _ => []
  | .misplacedPrefix => []
  | .powerOff => []
  | .partitionCreate _ _ _ _ _ => []
  | .partitionDestroy _ => []
  | .resourceAssign _ _ => []
  | .signedFirmwareImage _ _ => []

/-- The literal words that operands name. -/
def literals : List Opnd → List W32
  | [] => []
  | .lit x :: os => x :: literals os
  | _ :: os => literals os

/-- All literals of an instruction are its one literal word (R62). -/
def literalsAgree (i : Instr) : Bool :=
  match literals i.operands with
  | [] => true
  | x :: xs => xs.all (· == x)

/-- The causes with which the decoder refuses a word (R73): steps 1 to 4 of R72. -/
def decodeCauses : List Cause :=
  [Causes.misplacedFraming, Causes.majorZero, Causes.majorF, Causes.major2E, Causes.major2F, Causes.major7F,
   Causes.reservedField, Causes.unassignedFn, Causes.illegalOperand, Causes.encoding]

/-- A refusal carries a cause that decoding can give (R73). -/
def refusalCause (i : Instr) : Bool :=
  match i with
  | .unassignedMajorOpcode c => decodeCauses.contains c
  | _ => true

/-- A term that stands for words of the machine or for a step of one of its agents. -/
def WellFormed (i : Instr) : Bool := literalsAgree i && refusalCause i

end Sys2Proof
end

