-- ==== Sys2Proof/Decode.lean ====
section
/-! DEFINITION. Decoding halfwords into instructions and encoding them back (03 R55 to R74, and the encoding lines of the
instructions' own entries). The decoder makes the checks that depend on the word alone: step 1 of R72 and the fixed fields
of steps 2 to 4. Values of function, condition and operand fields are checked when the instruction issues. -/

namespace Sys2Proof

/-! ### Fields -/

/-- Bits [31:24]: B, FN of the FUN layout. -/
def fB (w : W32) : BitVec 8 := w.extractLsb' 24 8
/-- Bits [23:16]: A. -/
def fA (w : W32) : BitVec 8 := w.extractLsb' 16 8
/-- Bits [15:8]: D. -/
def fD (w : W32) : BitVec 8 := w.extractLsb' 8 8
/-- Bits [31:28]: TAG. -/
def fTag (w : W32) : BitVec 4 := w.extractLsb' 28 4
/-- Bits [27:24]: FN of TAGF and TGX, FMT of MAT. -/
def fFn4 (w : W32) : BitVec 4 := w.extractLsb' 24 4
/-- Bits [31:16]: IMM16, OFF16, ARG16. -/
def fHi (w : W32) : BitVec 16 := w.extractLsb' 16 16
/-- Bits [7:1]: the major opcode. -/
def fMajor (w : W32) : Nat := w.toNat / 2 % 128
/-- Bit `k` of a word. -/
def fBit (w : W32) (k : Nat) : Bool := w.getLsbD k

/-- The operand that a code of R60 names, `lit` being the instruction's literal word. -/
def decOpnd (c : BitVec 8) (lit : W32) : Opnd :=
  if h : c.toNat < 192 then .v ⟨c.toNat, h⟩
  else if c.toNat < 224 then .w (BitVec.ofNat 5 (c.toNat - 192))
  else if c.toNat < 240 then .t (BitVec.ofNat 4 (c.toNat - 224))
  else if h : c.toNat - 240 < 15 then .inl ⟨c.toNat - 240, h⟩
  else .lit lit

/-- The code of an operand (R60). -/
def encOpnd : Opnd → BitVec 8
  | .v n => BitVec.ofNat 8 n.val
  | .w n => BitVec.ofNat 8 (192 + n.toNat)
  | .t n => BitVec.ofNat 8 (224 + n.toNat)
  | .inl n => BitVec.ofNat 8 (240 + n.val)
  | .lit _ => 0xFF#8

/-- The S field of a 16-bit word (R58). -/
def decSrc16 (c : BitVec 6) : Src16 :=
  if c.toNat < 32 then .v (BitVec.ofNat 5 c.toNat)
  else if c.toNat < 48 then .t (BitVec.ofNat 4 (c.toNat - 32))
  else .w (BitVec.ofNat 4 (c.toNat - 48))

def encSrc16 : Src16 → BitVec 6
  | .v n => BitVec.ofNat 6 n.toNat
  | .t n => BitVec.ofNat 6 (32 + n.toNat)
  | .w n => BitVec.ofNat 6 (48 + n.toNat)

/-- The layouts of R63. -/
inductive Layout where
  | reg | imm | fun' | tagf | prd | sel | jmp | lnk | mem | tgx | mat | ctl | none
deriving DecidableEq, Repr

/-- The layout that R74 gives each major opcode. -/
def layoutOf (m : Nat) : Layout :=
  match m / 8 with
  | 0x0 => match m % 8 with | 4 => .jmp | 5 => .reg | 6 => .lnk | 7 => .reg | _ => .none
  | 0x1 => if m % 8 = 7 then .none else .ctl
  | 0x2 => .reg
  | 0x3 => if m % 8 = 7 then .fun' else .reg
  | 0x4 => match m % 8 with | 3 => .prd | 4 => .sel | 5 => .imm | 6 => .imm | 7 => .imm | _ => .reg
  | 0x5 => if m % 8 < 6 then .imm else .none
  | 0x6 => match m % 8 with | 6 => .prd | 7 => .sel | _ => .reg
  | 0x7 => match m % 8 with | 0 => .fun' | 1 => .prd | 6 => .tagf | 7 => .fun' | _ => .reg
  | 0x8 => match m % 8 with | 1 => .reg | 4 => .reg | _ => .fun'
  | 0x9 => match m % 8 with | 0 => .reg | 3 => .prd | 7 => .reg | _ => .fun'
  | 0xA => match m % 8 with | 7 => .ctl | 4 => .tgx | 5 => .tgx | 6 => .tgx | _ => .mem
  | 0xB => match m % 8 with | 0 => .mem | 7 => .prd | _ => .reg
  | 0xC => match m % 8 with | 0 => .ctl | 6 => .lnk | 7 => .mat | _ => .reg
  | 0xD => match m % 8 with | 4 => .tgx | 5 => .reg | 6 => .reg | 7 => .reg | 3 => .none | _ => .mat
  | 0xE => match m % 8 with | 0 => .reg | 1 => .ctl | 2 => .reg | 3 => .reg | _ => .tgx
  | _ => match m % 8 with | 0 => .tgx | 2 => .ctl | 3 => .fun' | 4 => .fun' | 7 => .none | _ => .reg

/-- Whether an extension word follows (R56, R63): always for TGX, SHFL and MMAS, and for MEM when X = 1. -/
def hasExt (w : W32) : Bool :=
  match layoutOf (fMajor w) with
  | .tgx => true
  | .mem => fBit w 26
  | .fun' => fMajor w == 0x43
  | .mat => fMajor w == 0x68
  | _ => false

/-- The operand codes of a word whose extension word is `x` (R63). -/
def operandCodes (w x : W32) : List (BitVec 8) :=
  let c := if hasExt w then [fB x] else []
  match layoutOf (fMajor w) with
  | .reg => [fD w, fA w, fB w]
  | .imm | .lnk => [fD w]
  | .fun' | .tagf | .mem | .tgx | .mat => fD w :: fA w :: c
  | .prd | .sel => [fA w, fB w]
  | .jmp | .ctl | .none => []

/-- Whether a literal word follows (R56, R62). -/
def hasLit (w x : W32) : Bool := (operandCodes w x).contains 0xFF#8

/-! ### The rows of the opcode map -/

/-- Refuse with the reserved-field cause unless the unused fields are zero (R63). -/
def unlessReserved (ok : Bool) (i : Instr) : Instr :=
  if ok then i else .unassignedMajorOpcode Causes.reservedField

/-- Refuse with the unassigned-function-value cause unless the field's value is listed (R73). -/
def unlessUnassigned (ok : Bool) (i : Instr) : Instr :=
  if ok then i else .unassignedMajorOpcode Causes.unassignedFn

/-- The memory extension word (R65). -/
def decMemExt (x lit : W32) : MemExt :=
  { c := decOpnd (fB x) lit, scope := x.extractLsb' 21 3, narrow := x.extractLsb' 19 2, repl := fBit x 18,
    imm := x.extractLsb' 0 16 }

/-- The atomics' extension word (R226). -/
def decAtomExt (x lit : W32) : AtomExt :=
  { c := decOpnd (fB x) lit, scope := x.extractLsb' 21 3, w64 := fBit x 20, sp := fBit x 19, imm := x.extractLsb' 0 16 }

/-- Majors 0x00 to 0x0F: framing and control flow (R66, R67, R107). The prefix, major 0x03, is read by the fetch. -/
def decControl (m : Nat) (w lit : W32) : Instr :=
  let a := decOpnd (fA w) lit
  let d := decOpnd (fD w) lit
  match m with
  | 0x0 => .unassignedMajorOpcode Causes.majorZero
  | 0x1 => unlessReserved (w.extractLsb' 13 3 == 0#3) (.run (w.extractLsb' 8 5) (fHi w))
  | 0x2 => unlessReserved (fD w == 0#8) (.trail (fHi w))
  | 0x3 => .misplacedPrefix
  | 0x4 => .bra (w.extractLsb' 8 24)
  | 0x5 => unlessReserved (fB w == 0#8 && fD w == 0#8) (.brx a)
  | 0x6 => .call d (fHi w)
  | 0x7 => unlessReserved (fB w == 0#8 && fD w == 0#8) (.ret a)
  | 0x8 => unlessReserved (fHi w == 0#16) (.joine (fD w))
  | 0x9 => unlessReserved (fHi w == 0#16) (.joinw (fD w))
  | 0xA => unlessReserved (fHi w == 0#16 && fD w == 0#8) .exit
  | 0xB => unlessReserved (fHi w == 0#16 && fD w == 0#8) .nop
  | 0xC => unlessReserved (fHi w == 0#16 && fD w == 0#8) .yield
  | 0xD => unlessReserved (fD w == 0#8) (.trap (fHi w))
  | 0xE => unlessReserved (fD w == 0#8) (.brk (fHi w))
  | _ => .unassignedMajorOpcode Causes.majorF

/-- Majors 0x10 to 0x1F: integer arithmetic (R113, R115). -/
def decInteger (m : Nat) (w lit : W32) : Instr :=
  let a := decOpnd (fA w) lit
  let b := decOpnd (fB w) lit
  let d := decOpnd (fD w) lit
  match m with
  | 0x0 => unlessReserved (fB w == 0#8) (.mov d a)
  | 0x1 => .iadd d a b
  | 0x2 => .isub d a b
  | 0x3 => .imul d a b
  | 0x4 => .imulh d a b
  | 0x5 => .imad d a b
  | 0x6 => .imin d a b
  | 0x7 => .imax d a b
  | 0x8 => .and d a b
  | 0x9 => .or d a b
  | 0xA => .xor d a b
  | 0xB => .shl d a b
  | 0xC => .shr d a b
  | 0xD => .sar d a b
  | 0xE => .rot d a b
  | _ =>
    match (fB w).toNat with
    | 0 => .iabs d a
    | 1 => .not d a
    | 2 => .popc d a
    | 3 => .clz d a
    | 4 => .brev d a
    | _ => .unassignedMajorOpcode Causes.unassignedFn

/-- Majors 0x20 to 0x2F: fields, compares, selects and the IMM forms (R114, R116, R117, R120). -/
def decImmediate (m : Nat) (w lit : W32) : Instr :=
  let a := decOpnd (fA w) lit
  let b := decOpnd (fB w) lit
  let d := decOpnd (fD w) lit
  match m with
  | 0x0 => .bfx d a b
  | 0x1 => .bfi d a b
  | 0x2 => .lea d a b
  | 0x3 => .icmp (w.extractLsb' 8 3) (w.extractLsb' 11 5) a b
  | 0x4 => .isel (w.extractLsb' 8 5) a b (w.extractLsb' 13 3)
  | 0x5 => .movImm d (fHi w)
  | 0x6 => .movH d (fHi w)
  | 0x7 => .iaddImm d (fHi w)
  | 0x8 => .imulImm d (fHi w)
  | 0x9 => .andImm d (fHi w)
  | 0xA => .orImm d (fHi w)
  | 0xB => .xorImm d (fHi w)
  | 0xC => .faddImm d (fHi w)
  | 0xD => .fmulImm d (fHi w)
  | 0xE => .unassignedMajorOpcode Causes.major2E
  | _ => .unassignedMajorOpcode Causes.major2F

/-- FN of major 0x3E selects the special function (R74). -/
def decSpecial (w lit : W32) : Instr :=
  let a := decOpnd (fA w) lit
  let d := decOpnd (fD w) lit
  match (fFn4 w).toNat with
  | 0 => .rcp d a (fTag w)
  | 1 => .rsq d a (fTag w)
  | 2 => .sqrt d a (fTag w)
  | 3 => .exp2 d a (fTag w)
  | 4 => .log2 d a (fTag w)
  | 5 => .sin d a (fTag w)
  | 6 => .cos d a (fTag w)
  | 7 => .tanh d a (fTag w)
  | _ => .unassignedMajorOpcode Causes.unassignedFn

/-- Majors 0x30 to 0x3F: floating point (R118 to R128). -/
def decFloat (m : Nat) (w lit : W32) : Instr :=
  let a := decOpnd (fA w) lit
  let b := decOpnd (fB w) lit
  let d := decOpnd (fD w) lit
  match m with
  | 0x0 => .fadd d a b
  | 0x1 => .fsub d a b
  | 0x2 => .fmul d a b
  | 0x3 => .ffma d a b
  | 0x4 => .fmin d a b
  | 0x5 => .fmax d a b
  | 0x6 => .fcmp (w.extractLsb' 8 3) (w.extractLsb' 11 5) a b
  | 0x7 => .fsel (w.extractLsb' 8 5) a b (w.extractLsb' 13 3)
  | 0x8 => .frnd d a (fB w)
  | 0x9 => unlessUnassigned (w.extractLsb' 11 5 == 0#5) (.fclass (w.extractLsb' 8 3) a b)
  | 0xA => .hadd2 d a b
  | 0xB => .hmul2 d a b
  | 0xC => .hfma2 d a b
  | 0xD => .bfma2 d a b
  | 0xE => decSpecial w lit
  | _ => .cvt d a (fB w)

/-- The SHFL word and its extension (R132). -/
def decShfl (w x lit : W32) : Instr :=
  unlessReserved (x.extractLsb' 16 3 == 0#3)
    (.shfl (decOpnd (fD w) lit) (decOpnd (fA w) lit) (fB w) (decOpnd (fB x) lit) (fBit x 23) (fBit x 22)
      (x.extractLsb' 19 3) (x.extractLsb' 0 16))

/-- PLOP and its literal word (R140). -/
def decPlop (w lit : W32) : Instr :=
  if fD w ≠ 0#8 then .unassignedMajorOpcode Causes.reservedField
  else if fA w ≠ 0xFF#8 then .unassignedMajorOpcode Causes.illegalOperand
  else unlessReserved (lit.extractLsb' 15 17 == 0#17 && !fBit lit 11 && !fBit lit 7 && !fBit lit 3)
    (.plop (lit.extractLsb' 12 3) (lit.extractLsb' 0 3) (lit.extractLsb' 4 3) (lit.extractLsb' 8 3) (fB w))

/-- Majors 0x40 to 0x4F: conversion, cross-lane, predicates and special registers (R129 to R141, R168, R377). -/
def decLanes (m : Nat) (w x lit : W32) : Instr :=
  let a := decOpnd (fA w) lit
  let b := decOpnd (fB w) lit
  let d := decOpnd (fD w) lit
  match m with
  | 0x0 => .cvtef d a (fB w)
  | 0x1 => .pack d a b
  | 0x2 => unlessUnassigned (!fBit w 28) (.unpack d a (w.extractLsb' 30 2) (fBit w 29) (fFn4 w))
  | 0x3 => decShfl w x lit
  | 0x4 => .bcast d a b
  | 0x5 => unlessReserved (fA w == 0#8) (.vote d (fTag w) (fBit w 27) (w.extractLsb' 24 3))
  | 0x6 => .redl d a (fTag w) (fFn4 w)
  | 0x7 => unlessUnassigned (w.extractLsb' 28 3 == 0#3) (.scan d a (fBit w 31) (fFn4 w))
  | 0x8 => unlessReserved (fB w == 0#8) (.match d a)
  | 0x9 => .qdx d a (fB w)
  | 0xA => .qdy d a (fB w)
  | 0xB => .pset (w.extractLsb' 8 3) (w.extractLsb' 11 5) a b
  | 0xC => decPlop w lit
  | 0xD => unlessReserved (fA w == 0#8) (.srd d (fB w))
  | 0xE =>
    if fD w ≠ 0#8 then .unassignedMajorOpcode Causes.reservedField
    else if fB w ≠ 0x0C#8 then .unassignedMajorOpcode Causes.encoding
    else .swr a
  | _ => .partctl d a b

/-- Majors 0x50 to 0x5F: memory, copies, collectives, LAUNCH (R219, R226, R231, R245, R250, R251, R253, R163). A CC of LAUNCH that is not
zero is an unlisted value (R73) rather than an unused field (R63). DESIGN CHOICE (log 53). -/
def decMemory (m : Nat) (w x lit : W32) : Instr :=
  let a := decOpnd (fA w) lit
  let b := decOpnd (fB w) lit
  let d := decOpnd (fD w) lit
  let sz : BitVec 2 := w.extractLsb' 24 2
  let ext := fBit w 26
  let e0 := !ext || x.extractLsb' 16 2 == 0#2
  let mx := decMemExt x lit
  let ax := decAtomExt x lit
  match m with
  | 0x0 => unlessReserved (!fBit w 27 && e0) (if ext then .ldExtended d a sz (fTag w) mx else .ld d a sz (fTag w))
  | 0x1 => unlessReserved (fTag w == 0#4 && !fBit w 27 && e0) (if ext then .stExtended d a sz mx else .st d a sz)
  | 0x2 => unlessReserved e0
      (if ext then .ldsExtended d a sz (fBit w 27) (fTag w) mx else .lds d a sz (fBit w 27) (fTag w))
  | 0x3 => unlessReserved (fTag w == 0#4 && e0)
      (if ext then .stsExtended d a sz (fBit w 27) mx else .sts d a sz (fBit w 27))
  | 0x4 => unlessReserved (x.extractLsb' 16 3 == 0#3) (.atom d a (fFn4 w) (fTag w) ax)
  | 0x5 => unlessReserved (fTag w == 0#4 && fD w == 0#8 && x.extractLsb' 16 3 == 0#3) (.red a (fFn4 w) ax)
  | 0x6 => unlessReserved (x.extractLsb' 16 3 == 0#3) (unlessUnassigned (fFn4 w == 0#4) (.cas d a (fTag w) ax))
  | 0x7 => unlessReserved (fHi w == 0#16) (.fence (fD w))
  | 0x8 => unlessReserved (fTag w == 0#4 && fD w == 0#8 && !fBit w 27 && sz == 0#2 && e0)
      (if ext then .prefExtended a mx else .pref a)
  | 0x9 => unlessReserved (fD w == 0#8) (.gwin a b)
  | 0xA => .cpt d a b
  | 0xB => .cpb d a b
  | 0xC => .cps d a b
  | 0xD => .trq d a b
  | 0xE => unlessReserved (fD w == 0#8) (.coll a b)
  | _ => unlessUnassigned (w.extractLsb' 11 5 == 0#5) (.launch (w.extractLsb' 8 3) a b)

/-- Majors 0x60 to 0x6F: batches, barriers, tiles, neural calls (R235, R240, R241, R153, R157, R161, R316, R323). An FMT of MZERO that is
not zero is an unlisted value (R73) rather than an unused field (R63). DESIGN CHOICE (log 53). -/
def decArray (m : Nat) (w x lit : W32) : Instr :=
  let a := decOpnd (fA w) lit
  let b := decOpnd (fB w) lit
  let d := decOpnd (fD w) lit
  let mt : BitVec 3 := w.extractLsb' 29 3
  match m with
  | 0x0 => unlessReserved (fHi w == 0#16 && fD w == 0#8) .bseal
  | 0x1 => unlessReserved (fB w == 0#8 && fD w == 0#8) (.bwait a)
  | 0x2 => unlessReserved (fD w == 0#8) (.binit a b)
  | 0x3 => unlessReserved (fD w == 0#8) (.barr a b)
  | 0x4 => unlessReserved (fD w == 0#8) (.bexp a b)
  | 0x5 => unlessReserved (fB w == 0#8 && fD w == 0#8) (.wait a)
  | 0x6 => .waitY d (fHi w)
  | 0x7 => .mma mt (fBit w 28) (fFn4 w) d a
  | 0x8 => unlessReserved (x.extractLsb' 0 22 == 0#22)
      (.mmas mt (fBit w 28) (fFn4 w) d a (x.extractLsb' 22 2) (decOpnd (fB x) lit))
  | 0x9 => unlessReserved (fD w == 0#8) (.accld mt (fBit w 28) (fFn4 w) a)
  | 0xA => unlessReserved (fD w == 0#8) (.accst mt (fBit w 28) (fFn4 w) a)
  | 0xB => unlessReserved (!fBit w 28 && fA w == 0#8 && fD w == 0#8) (unlessUnassigned (fFn4 w == 0#4) (.mzero mt))
  | 0xC => unlessReserved (x.extractLsb' 16 8 == 0#8 && x.extractLsb' 6 2 == 0#2 && x.extractLsb' 13 3 == 0#3)
      (unlessUnassigned (fFn4 w == 0#4)
        (.ncall d a (fTag w) (decOpnd (fB x) lit) (x.extractLsb' 0 6) (x.extractLsb' 8 5)))
  | 0xD => unlessReserved (fB w == 0#8 && fD w == 0#8) (.npin a)
  | 0xE => unlessReserved (fB w == 0#8 && fD w == 0#8) (.npref a)
  | _ => unlessReserved (fB w == 0#8 && fD w == 0#8) (.nevict a)

/-- A texture word and its extension (R174). -/
def decTex (mk : Opnd → Opnd → BitVec 4 → Opnd → Bool → BitVec 16 → Instr) (w x lit : W32) : Instr :=
  unlessReserved (x.extractLsb' 16 7 == 0#7)
    (unlessUnassigned (fFn4 w == 0#4)
      (mk (decOpnd (fD w) lit) (decOpnd (fA w) lit) (fTag w) (decOpnd (fB x) lit) (fBit x 23) (x.extractLsb' 0 16)))

/-- A ray word and its extension (R183). -/
def decRay (mk : Opnd → Opnd → BitVec 4 → Bool → Bool → Opnd → BitVec 8 → Instr) (w x lit : W32) : Instr :=
  unlessReserved (x.extractLsb' 0 16 == 0#16)
    (unlessUnassigned (w.extractLsb' 26 2 == 0#2)
      (mk (decOpnd (fD w) lit) (decOpnd (fA w) lit) (fTag w) (fBit w 24) (fBit w 25) (decOpnd (fB x) lit) (fA x)))

/-- Majors 0x70 to 0x7F: reordering, traps, graphics, supervisor (R325, R328, R333, R169, R345, R372, R379). -/
def decSystem (m : Nat) (w x lit : W32) : Instr :=
  let a := decOpnd (fA w) lit
  let b := decOpnd (fB w) lit
  let d := decOpnd (fD w) lit
  match m with
  | 0x0 => unlessReserved (fD w == 0#8) (.reorder a b)
  | 0x1 => unlessReserved (fD w == 0#8) (.ltrap (fHi w))
  | 0x2 => unlessReserved (fB w == 0#8 && fD w == 0#8) (.tret a)
  | 0x3 => .rast d a b
  | 0x4 => decTex .tex w x lit
  | 0x5 => decTex .texl w x lit
  | 0x6 => decTex .texg w x lit
  | 0x7 => decRay .rayt w x lit
  | 0x8 => decRay .rayq w x lit
  | 0x9 => unlessReserved (fD w == 0#8) (.present a b)
  | 0xA => .svc (fHi w) (fD w)
  | 0xB => .sysrd d a (fB w)
  | 0xC => .syswr d a (fB w)
  | 0xD => unlessReserved (fD w == 0#8) (.tlbinv a b)
  | 0xE => unlessReserved (fD w == 0#8) (.keysel a b)
  | _ => .unassignedMajorOpcode Causes.major7F

/-- The instruction of a 32-bit word `w` with extension word `x` and literal word `lit` (R74). Open points: DEDUCED (log 13). -/
def dec32 (w x lit : W32) : Instr :=
  let m := fMajor w
  match m / 16 with
  | 0 => decControl (m % 16) w lit
  | 1 => decInteger (m % 16) w lit
  | 2 => decImmediate (m % 16) w lit
  | 3 => decFloat (m % 16) w lit
  | 4 => decLanes (m % 16) w x lit
  | 5 => decMemory (m % 16) w x lit
  | 6 => decArray (m % 16) w x lit
  | _ => decSystem (m % 16) w x lit

/-- The instruction of a 16-bit word (R58, R59). -/
def dec16 (h : Half) : Instr :=
  let s := decSrc16 (h.extractLsb' 10 6)
  let d : BitVec 5 := h.extractLsb' 5 5
  match (h.extractLsb' 1 4 : BitVec 4).toNat with
  | 0x0 => .mov16 d s
  | 0x1 => .iadd16 d s
  | 0x2 => .isub16 d s
  | 0x3 => .imul16 d s
  | 0x4 => .and16 d s
  | 0x5 => .or16 d s
  | 0x6 => .xor16 d s
  | 0x7 => .shl16 d s
  | 0x8 => .shr16 d s
  | 0x9 => .sar16 d s
  | 0xA => .fadd16 d s
  | 0xB => .fsub16 d s
  | 0xC => .fmul16 d s
  | 0xD => .fmin16 d s
  | 0xE => .fmax16 d s
  | _ => .ffma16 d s

/-! ### Halfwords -/

/-- What decoding a list of halfwords gives: an instruction and its length in halfwords, or a need for more of them. -/
inductive Decoded where
  | more
  | ok (i : Instr) (len : Nat)
deriving DecidableEq, Repr

/-- The word made of two halfwords, the one at the lower address first (R55). -/
def wordOf (lo hi : Half) : W32 := hi ++ lo

/-- Decode the instruction that starts a list of halfwords, its modifier word set aside (R55, R56). -/
def decode : List Half → Decoded
  | [] => .more
  | h :: hs =>
    if !h.getLsbD 0 then .ok (dec16 h) 1
    else match hs with
      | [] => .more
      | h2 :: rest =>
        let w := wordOf h h2
        if hasExt w then
          match rest with
          | x1 :: x2 :: rest' =>
            let x := wordOf x1 x2
            if hasLit w x then
              match rest' with
              | l1 :: l2 :: _ => .ok (dec32 w x (wordOf l1 l2)) 6
              | _ => .more
            else .ok (dec32 w x 0#32) 4
          | _ => .more
        else if hasLit w 0#32 then
          match rest with
          | l1 :: l2 :: _ => .ok (dec32 w 0#32 (wordOf l1 l2)) 4
          | _ => .more
        else .ok (dec32 w 0#32 0#32) 2

/-! ### The modifier word (R68) -/

/-- The fields of a modifier word. -/
structure Modifier where
  rm : BitVec 3
  k : BitVec 4
  ad : Bool
  ab : Bool
  aa : Bool
  nd : Bool
  nb : Bool
  na : Bool
  clamp : Bool
  sat : Bool
  gn : Bool
  pg : BitVec 3
  reserved : BitVec 5
deriving DecidableEq, Repr

/-- No modifier word: zeros with PG = 7 (R68). -/
def Modifier.none : Modifier :=
  { rm := 0, k := 0, ad := false, ab := false, aa := false, nd := false, nb := false, na := false, clamp := false,
    sat := false, gn := false, pg := 7, reserved := 0 }

/-- Whether a word is a modifier word: major 0x03 (R68). -/
def isModifier (w : W32) : Bool := fBit w 0 && fMajor w == 3

def decModifier (w : W32) : Modifier :=
  { rm := w.extractLsb' 24 3, k := w.extractLsb' 20 4, ad := fBit w 19, ab := fBit w 18, aa := fBit w 17,
    nd := fBit w 16, nb := fBit w 15, na := fBit w 14, clamp := fBit w 13, sat := fBit w 12, gn := fBit w 11,
    pg := w.extractLsb' 8 3, reserved := w.extractLsb' 27 5 }

/-! ### Encoding -/

/-- The bit of a flag. -/
def bit1 (b : Bool) : BitVec 1 := BitVec.ofBool b

/-- Bits [7:0] of a word of major `m`. -/
def opByte (m : Nat) : BitVec 8 := BitVec.ofNat 8 (2 * m + 1)

/-- A word from its four bytes, most significant first. -/
def word4 (b a d op : BitVec 8) : W32 := b ++ a ++ d ++ op

/-- The REG layout. -/
def encReg (m : Nat) (d a b : BitVec 8) : W32 := word4 b a d (opByte m)
/-- The IMM and LNK layouts. -/
def encImm (m : Nat) (d : BitVec 8) (imm : BitVec 16) : W32 := imm ++ d ++ opByte m
/-- The PRD layout. -/
def encPrd (m : Nat) (pd : BitVec 3) (cc : BitVec 5) (a b : BitVec 8) : W32 := b ++ a ++ cc ++ pd ++ opByte m
/-- The SEL layout. -/
def encSel (m : Nat) (d5 : BitVec 5) (a b : BitVec 8) (ps : BitVec 3) : W32 := b ++ a ++ ps ++ d5 ++ opByte m
/-- The TAGF and TGX layouts. -/
def encTag (m : Nat) (d a : BitVec 8) (tag fn : BitVec 4) : W32 := tag ++ fn ++ a ++ d ++ opByte m
/-- The MEM layout. -/
def encMem (m : Nat) (d a : BitVec 8) (tag : BitVec 4) (o x : Bool) (sz : BitVec 2) : W32 :=
  tag ++ bit1 o ++ bit1 x ++ sz ++ a ++ d ++ opByte m
/-- The MAT layout. -/
def encMat (m : Nat) (mt : BitVec 3) (o : Bool) (fmt : BitVec 4) (d a : BitVec 8) : W32 :=
  mt ++ bit1 o ++ fmt ++ a ++ d ++ opByte m

def encMemExt (x : MemExt) : W32 := encOpnd x.c ++ x.scope ++ x.narrow ++ bit1 x.repl ++ 0#2 ++ x.imm
def encAtomExt (x : AtomExt) : W32 := encOpnd x.c ++ x.scope ++ bit1 x.w64 ++ bit1 x.sp ++ 0#3 ++ x.imm

/-- The 16-bit word (R58). -/
def enc16 (op : BitVec 4) (d : BitVec 5) (s : Src16) : Half := encSrc16 s ++ d ++ op ++ 0#1

/-- The words of an instruction: the halfword of a 16-bit form, or the 32-bit word and its extension word. -/
inductive Coded where
  | half (h : Half)
  | word (w : W32)
  | pair (w x : W32)
  | event
deriving DecidableEq, Repr

/-- The encoding of an instruction, from the entries' own encoding lines; events have none. -/
def coded (i : Instr) : Coded :=
  match i with
  | .run l w => .word (w ++ 0#3 ++ l ++ opByte 1)
  | .trail p => .word (p ++ 0#8 ++ opByte 2)
  | .bra o => .word (o ++ opByte 4)
  | .brx a => .word (encReg 0x5 0 (encOpnd a) 0)
  | .call d i => .word (encImm 0x6 (encOpnd d) i)
  | .ret a => .word (encReg 0x7 0 (encOpnd a) 0)
  | .joine k => .word (encImm 8 k 0)
  | .joinw k => .word (encImm 9 k 0)
  | .exit => .word (encImm 0xa 0 0)
  | .nop => .word (encImm 0xb 0 0)
  | .yield => .word (encImm 0xc 0 0)
  | .trap n => .word (encImm 0xd 0 n)
  | .brk n => .word (encImm 0xe 0 n)
  | .mov d a => .word (encReg 0x10 (encOpnd d) (encOpnd a) 0)
  | .iadd d a b => .word (encReg 0x11 (encOpnd d) (encOpnd a) (encOpnd b))
  | .isub d a b => .word (encReg 0x12 (encOpnd d) (encOpnd a) (encOpnd b))
  | .imul d a b => .word (encReg 0x13 (encOpnd d) (encOpnd a) (encOpnd b))
  | .imulh d a b => .word (encReg 0x14 (encOpnd d) (encOpnd a) (encOpnd b))
  | .imad d a b => .word (encReg 0x15 (encOpnd d) (encOpnd a) (encOpnd b))
  | .imin d a b => .word (encReg 0x16 (encOpnd d) (encOpnd a) (encOpnd b))
  | .imax d a b => .word (encReg 0x17 (encOpnd d) (encOpnd a) (encOpnd b))
  | .and d a b => .word (encReg 0x18 (encOpnd d) (encOpnd a) (encOpnd b))
  | .or d a b => .word (encReg 0x19 (encOpnd d) (encOpnd a) (encOpnd b))
  | .xor d a b => .word (encReg 0x1a (encOpnd d) (encOpnd a) (encOpnd b))
  | .shl d a b => .word (encReg 0x1b (encOpnd d) (encOpnd a) (encOpnd b))
  | .shr d a b => .word (encReg 0x1c (encOpnd d) (encOpnd a) (encOpnd b))
  | .sar d a b => .word (encReg 0x1d (encOpnd d) (encOpnd a) (encOpnd b))
  | .rot d a b => .word (encReg 0x1e (encOpnd d) (encOpnd a) (encOpnd b))
  | .iabs d a => .word (encReg 0x1f (encOpnd d) (encOpnd a) 0)
  | .not d a => .word (encReg 0x1f (encOpnd d) (encOpnd a) 1)
  | .popc d a => .word (encReg 0x1f (encOpnd d) (encOpnd a) 2)
  | .clz d a => .word (encReg 0x1f (encOpnd d) (encOpnd a) 3)
  | .brev d a => .word (encReg 0x1f (encOpnd d) (encOpnd a) 4)
  | .bfx d a b => .word (encReg 0x20 (encOpnd d) (encOpnd a) (encOpnd b))
  | .bfi d a b => .word (encReg 0x21 (encOpnd d) (encOpnd a) (encOpnd b))
  | .lea d a b => .word (encReg 0x22 (encOpnd d) (encOpnd a) (encOpnd b))
  | .icmp pd cc a b => .word (encPrd 0x23 pd cc (encOpnd a) (encOpnd b))
  | .isel d a b ps => .word (encSel 0x24 d (encOpnd a) (encOpnd b) ps)
  | .movImm d i => .word (encImm 0x25 (encOpnd d) i)
  | .movH d i => .word (encImm 0x26 (encOpnd d) i)
  | .iaddImm d i => .word (encImm 0x27 (encOpnd d) i)
  | .imulImm d i => .word (encImm 0x28 (encOpnd d) i)
  | .andImm d i => .word (encImm 0x29 (encOpnd d) i)
  | .orImm d i => .word (encImm 0x2a (encOpnd d) i)
  | .xorImm d i => .word (encImm 0x2b (encOpnd d) i)
  | .faddImm d i => .word (encImm 0x2c (encOpnd d) i)
  | .fmulImm d i => .word (encImm 0x2d (encOpnd d) i)
  | .fadd d a b => .word (encReg 0x30 (encOpnd d) (encOpnd a) (encOpnd b))
  | .fsub d a b => .word (encReg 0x31 (encOpnd d) (encOpnd a) (encOpnd b))
  | .fmul d a b => .word (encReg 0x32 (encOpnd d) (encOpnd a) (encOpnd b))
  | .ffma d a b => .word (encReg 0x33 (encOpnd d) (encOpnd a) (encOpnd b))
  | .fmin d a b => .word (encReg 0x34 (encOpnd d) (encOpnd a) (encOpnd b))
  | .fmax d a b => .word (encReg 0x35 (encOpnd d) (encOpnd a) (encOpnd b))
  | .fcmp pd cc a b => .word (encPrd 0x36 pd cc (encOpnd a) (encOpnd b))
  | .fsel d a b ps => .word (encSel 0x37 d (encOpnd a) (encOpnd b) ps)
  | .frnd d a f => .word (encReg 0x38 (encOpnd d) (encOpnd a) f)
  | .fclass pd a b => .word (encPrd 0x39 pd 0 (encOpnd a) (encOpnd b))
  | .hadd2 d a b => .word (encReg 0x3a (encOpnd d) (encOpnd a) (encOpnd b))
  | .hmul2 d a b => .word (encReg 0x3b (encOpnd d) (encOpnd a) (encOpnd b))
  | .hfma2 d a b => .word (encReg 0x3c (encOpnd d) (encOpnd a) (encOpnd b))
  | .bfma2 d a b => .word (encReg 0x3d (encOpnd d) (encOpnd a) (encOpnd b))
  | .rcp d a t => .word (encTag 0x3e (encOpnd d) (encOpnd a) t 0)
  | .rsq d a t => .word (encTag 0x3e (encOpnd d) (encOpnd a) t 1)
  | .sqrt d a t => .word (encTag 0x3e (encOpnd d) (encOpnd a) t 2)
  | .exp2 d a t => .word (encTag 0x3e (encOpnd d) (encOpnd a) t 3)
  | .log2 d a t => .word (encTag 0x3e (encOpnd d) (encOpnd a) t 4)
  | .sin d a t => .word (encTag 0x3e (encOpnd d) (encOpnd a) t 5)
  | .cos d a t => .word (encTag 0x3e (encOpnd d) (encOpnd a) t 6)
  | .tanh d a t => .word (encTag 0x3e (encOpnd d) (encOpnd a) t 7)
  | .cvt d a f => .word (encReg 0x3f (encOpnd d) (encOpnd a) f)
  | .cvtef d a f => .word (encReg 0x40 (encOpnd d) (encOpnd a) f)
  | .pack d a b => .word (encReg 0x41 (encOpnd d) (encOpnd a) (encOpnd b))
  | .unpack d a wd sg i => .word (encReg 0x42 (encOpnd d) (encOpnd a) (wd ++ bit1 sg ++ 0#1 ++ i))
  | .shfl d a f c rel wrap seg imm => .pair (encReg 0x43 (encOpnd d) (encOpnd a) f) (encOpnd c ++ bit1 rel ++ bit1 wrap ++ seg ++ 0#3 ++ imm)
  | .bcast d a b => .word (encReg 0x44 (encOpnd d) (encOpnd a) (encOpnd b))
  | .vote d m n k => .word (encReg 0x45 (encOpnd d) 0 (m ++ bit1 n ++ k))
  | .redl d a s op => .word (encReg 0x46 (encOpnd d) (encOpnd a) (s ++ op))
  | .scan d a e op => .word (encReg 0x47 (encOpnd d) (encOpnd a) (bit1 e ++ 0#3 ++ op))
  | .match d a => .word (encReg 0x48 (encOpnd d) (encOpnd a) 0)
  | .qdx d a f => .word (encReg 0x49 (encOpnd d) (encOpnd a) f)
  | .qdy d a f => .word (encReg 0x4a (encOpnd d) (encOpnd a) f)
  | .pset pd cc a b => .word (encPrd 0x4b pd cc (encOpnd a) (encOpnd b))
  | .plop pd pa pb pc lut => .pair (encReg 0x4c 0 0xff lut) (0#17 ++ pd ++ 0#1 ++ pc ++ 0#1 ++ pb ++ 0#1 ++ pa)
  | .srd d f => .word (encReg 0x4d (encOpnd d) 0 f)
  | .swr a => .word (encReg 0x4e 0 (encOpnd a) 0x0c)
  | .mov16 d s => .half (enc16 0 d s)
  | .iadd16 d s => .half (enc16 1 d s)
  | .isub16 d s => .half (enc16 2 d s)
  | .imul16 d s => .half (enc16 3 d s)
  | .and16 d s => .half (enc16 4 d s)
  | .or16 d s => .half (enc16 5 d s)
  | .xor16 d s => .half (enc16 6 d s)
  | .shl16 d s => .half (enc16 7 d s)
  | .shr16 d s => .half (enc16 8 d s)
  | .sar16 d s => .half (enc16 9 d s)
  | .fadd16 d s => .half (enc16 10 d s)
  | .fsub16 d s => .half (enc16 11 d s)
  | .fmul16 d s => .half (enc16 12 d s)
  | .fmin16 d s => .half (enc16 13 d s)
  | .fmax16 d s => .half (enc16 14 d s)
  | .ffma16 d s => .half (enc16 15 d s)
  | .ld d a z t => .word (encMem 0x50 (encOpnd d) (encOpnd a) t false false z)
  | .ldExtended d a z t x => .pair (encMem 0x50 (encOpnd d) (encOpnd a) t false true z) (encMemExt x)
  | .st d a z => .word (encMem 0x51 (encOpnd d) (encOpnd a) 0 false false z)
  | .stExtended d a z x => .pair (encMem 0x51 (encOpnd d) (encOpnd a) 0 false true z) (encMemExt x)
  | .lds d a z o t => .word (encMem 0x52 (encOpnd d) (encOpnd a) t o false z)
  | .ldsExtended d a z o t x => .pair (encMem 0x52 (encOpnd d) (encOpnd a) t o true z) (encMemExt x)
  | .sts d a z o => .word (encMem 0x53 (encOpnd d) (encOpnd a) 0 o false z)
  | .stsExtended d a z o x => .pair (encMem 0x53 (encOpnd d) (encOpnd a) 0 o true z) (encMemExt x)
  | .pref a => .word (encMem 0x58 0 (encOpnd a) 0 false false 0)
  | .prefExtended a x => .pair (encMem 0x58 0 (encOpnd a) 0 false true 0) (encMemExt x)
  | .atom d a f t x => .pair (encTag 0x54 (encOpnd d) (encOpnd a) t f) (encAtomExt x)
  | .red a f x => .pair (encTag 0x55 0 (encOpnd a) 0 f) (encAtomExt x)
  | .cas d a t x => .pair (encTag 0x56 (encOpnd d) (encOpnd a) t 0) (encAtomExt x)
  | .fence k => .word (encImm 0x57 k 0)
  | .storeQueueLeave _ => .event
  | .l1LineExpiry _ _ => .event
  | .binit a b => .word (encReg 0x62 0 (encOpnd a) (encOpnd b))
  | .barr a b => .word (encReg 0x63 0 (encOpnd a) (encOpnd b))
  | .bexp a b => .word (encReg 0x64 0 (encOpnd a) (encOpnd b))
  | .wait a => .word (encReg 0x65 0 (encOpnd a) 0)
  | .waitY d i => .word (encImm 0x66 (encOpnd d) i)
  | .bseal => .word (encImm 0x60 0 0)
  | .bwait a => .word (encReg 0x61 0 (encOpnd a) 0)
  | .batchComplete _ => .event
  | .cpt d a b => .word (encReg 0x5a (encOpnd d) (encOpnd a) (encOpnd b))
  | .cpb d a b => .word (encReg 0x5b (encOpnd d) (encOpnd a) (encOpnd b))
  | .cps d a b => .word (encReg 0x5c (encOpnd d) (encOpnd a) (encOpnd b))
  | .shuttleCopy _ => .event
  | .gwin a b => .word (encReg 0x59 0 (encOpnd a) (encOpnd b))
  | .gwinDescriptorWrite _ => .event
  | .coll a b => .word (encReg 0x5e 0 (encOpnd a) (encOpnd b))
  | .collectiveComplete _ _ _ => .event
  | .launch pd a b => .word (encPrd 0x5f pd 0 (encOpnd a) (encOpnd b))
  | .mma mt o f d a => .word (encMat 0x67 mt o f (encOpnd d) (encOpnd a))
  | .mmas mt o f d a p c => .pair (encMat 0x68 mt o f (encOpnd d) (encOpnd a)) (encOpnd c ++ p ++ 0#22)
  | .accld mt o f a => .word (encMat 0x69 mt o f 0 (encOpnd a))
  | .accst mt o f a => .word (encMat 0x6a mt o f 0 (encOpnd a))
  | .mzero mt => .word (encMat 0x6b mt false 0 0 0)
  | .arrayOperation _ => .event
  | .trq d a b => .word (encReg 0x5d (encOpnd d) (encOpnd a) (encOpnd b))
  | .trqTranspose _ => .event
  | .rast d a b => .word (encReg 0x73 (encOpnd d) (encOpnd a) (encOpnd b))
  | .tex d a t c nf bias => .pair (encTag 0x74 (encOpnd d) (encOpnd a) t 0) (encOpnd c ++ bit1 nf ++ 0#7 ++ bias)
  | .texl d a t c nf bias => .pair (encTag 0x75 (encOpnd d) (encOpnd a) t 0) (encOpnd c ++ bit1 nf ++ 0#7 ++ bias)
  | .texg d a t c nf bias => .pair (encTag 0x76 (encOpnd d) (encOpnd a) t 0) (encOpnd c ++ bit1 nf ++ 0#7 ++ bias)
  | .rayt d a t cb cf c mask => .pair (encTag 0x77 (encOpnd d) (encOpnd a) t (0#2 ++ bit1 cf ++ bit1 cb)) (encOpnd c ++ mask ++ 0#16)
  | .rayq d a t cb cf c mask => .pair (encTag 0x78 (encOpnd d) (encOpnd a) t (0#2 ++ bit1 cf ++ bit1 cb)) (encOpnd c ++ mask ++ 0#16)
  | .tagLanding _ _ => .event
  | .ncall d a t c ni no => .pair (encTag 0x6c (encOpnd d) (encOpnd a) t 0) (encOpnd c ++ 0#8 ++ 0#3 ++ no ++ 0#2 ++ ni)
  | .ncallBinTimeout _ _ => .event
  | .bobbinFetch _ _ => .event
  | .heddleTile _ _ => .event
  | .npin a => .word (encReg 0x6d 0 (encOpnd a) 0)
  | .npref a => .word (encReg 0x6e 0 (encOpnd a) 0)
  | .nevict a => .word (encReg 0x6f 0 (encOpnd a) 0)
  | .reorder a b => .word (encReg 0x70 0 (encOpnd a) (encOpnd b))
  | .reorderSiteComplete _ _ => .event
  | .ltrap n => .word (encImm 0x71 0 n)
  | .trapBinTimeout _ _ => .event
  | .handlerGroupStart _ _ => .event
  | .tret a => .word (encReg 0x72 0 (encOpnd a) 0)
  | .present a b => .word (encReg 0x79 0 (encOpnd a) (encOpnd b))
  | .svc n k => .word (encImm 0x7a k n)
  | .sysrd d a f => .word (encReg 0x7b (encOpnd d) (encOpnd a) f)
  | .syswr d a f => .word (encReg 0x7c (encOpnd d) (encOpnd a) f)
  | .tlbinv a b => .word (encReg 0x7d 0 (encOpnd a) (encOpnd b))
  | .tlbinvComplete _ => .event
  | .keysel a b => .word (encReg 0x7e 0 (encOpnd a) (encOpnd b))
  | .partctl d a b => .word (encReg 0x4f (encOpnd d) (encOpnd a) (encOpnd b))
  | .clusterGrow _ => .event
  | .clusterShrink _ => .event
  | .granuleReassign _ _ _ => .event
  | .handleSeal _ => .event
  | .boot => .event
  | .powerWindow _ _ _ => .event
  | .thermalThrottle _ => .event
  | .thermalPowerOff _ => .event
  | .submit _ _ _ => .event
  | .launchEligible _ _ => .event
  | .teamPlace _ => .event
  | .transformBinding _ => .event
  | .groupEvict _ => .event
  | .groupResume _ => .event
  | .splitPromotion _ _ => .event
  | .launchComplete _ _ => .event
  | .watchdogExpiry _ _ => .event
  | .killComplete _ _ => .event
  | .graceExpiry _ _ => .event
  | .partitionReset _ => .event
  | .fatalDump _ => .event
  | .groupStopRecord _ => .event
  | .tqrdWrite _ _ => .event
  | .teamActionEnd _ => .event
  | .teamActionResume _ => .event
  | .teamActionReplay _ => .event
  | .coreRetire _ => .event
  | .sliceRetire _ _ _ => .event
  | .controlWrite _ _ _ _ => .event
  | .queueEnable _ _ => .event
  | .queueDisable _ _ => .event
  | .bobChange _ => .event
  | .headEnable _ _ => .event
  | .headDisable _ _ => .event
  | .rasterLine _ _ => .event
  | .surfaceLatch _ _ => .event
  | .bandJob _ _ _ => .event
  | .bandDeadline _ _ => .event
  | .motionEstimation _ _ => .event
  | .surfaceRelease _ _ => .event
  | .reportWord _ _ => .event
  | .streamEnable _ _ => .event
  | .encodeRow _ _ => .event
  | .sessionOpen _ _ _ _ => .event
  | .retransmitTimeout _ _ => .event
  | .write _ _ _ _ => .event
  | .read _ _ _ => .event
  | .ctlwr _ _ _ _ => .event
  | .ctlrd _ _ _ => .event
  | .attest _ _ => .event
  | .pwrite _ _ _ => .event
  | .pread _ _ _ => .event
  | .pload _ _ _ _ => .event
  | .pstore _ _ _ _ => .event
  | .patom _ _ _ _ _ _ _ _ => .event
  | .presp _ _ _ => .event
  | .cell _ _ _ _ _ _ _ => .event
  | .kill _ _ _ => .event
  | .unassignedMajorOpcode _ => .event
  | .misplacedPrefix => .event
  | .powerOff => .event
  | .partitionCreate _ _ _ _ _ => .event
  | .partitionDestroy _ => .event
  | .resourceAssign _ _ => .event
  | .signedFirmwareImage _ _ => .event

/-- The halfwords of a word, the lower address first (R55). -/
def halves (w : W32) : List Half := [w.extractLsb' 0 16, w.extractLsb' 16 16]

/-- The literal word of an instruction, if it has one (R62). PLOP's is its second coded word. -/
def litHalves (i : Instr) : List Half :=
  match literals i.operands with
  | [] => []
  | x :: _ => halves x

/-- The halfwords of an instruction with an encoding (R56); none for an event. -/
def encode (i : Instr) : Option (List Half) :=
  match coded i with
  | .half h => some [h]
  | .word w => some (halves w ++ litHalves i)
  | .pair w x => some (halves w ++ halves x ++ litHalves i)
  | .event => none

/-- Whether an instruction has an encoding. -/
def Instr.hasEncoding (i : Instr) : Bool := (encode i).isSome

/-- `n` halfwords of a number, the least significant first. -/
def halvesOfNat : Nat → Nat → List Half
  | 0, _ => []
  | n + 1, w => BitVec.ofNat 16 w :: halvesOfNat n (w / 65536)

/-- The instruction that the decoder reads from an instruction whose bits are `w`, the bits above `nbits` being zero. -/
def decodeTableWord (nbits w : Nat) : Option Instr :=
  match decode (halvesOfNat 6 (w % 2 ^ nbits)) with
  | .ok (.unassignedMajorOpcode _) _ => none
  | .ok .misplacedPrefix _ => none
  | .ok i _ => some i
  | .more => none

end Sys2Proof
end

