-- ==== Sys2Proof/Machine/State.lean ====
section
/-! DEFINITION. The state of the machine, as plain data: everything spec/ names (INVENTORY.md, State), and the few fields
of the model's own that say which agent moves next. -/

namespace Sys2Proof.Machine

/-! ### Memory (09 R196, R208; 17 R370) -/

/-- The byte memory of the module in one canonical form. A key is a first-tier physical address below 2^38, or 2^44 plus
a second-tier address (R21). `epochs` lists the granules that changed owner, each with the count of its changes: an
unlisted byte there reads as any value (R370). -/
structure Memory where
  cells : List Host.Cell
  epochs : List (Nat × Nat)
deriving DecidableEq, Repr

/-- The exact sum and the flags of a word in reduce state (10 R229); `touched` says that a term has reached it. -/
structure ReduceCell where
  v : Int
  nan : Bool
  pinf : Bool
  ninf : Bool
  negz : Bool
  n : Nat
  touched : Bool
deriving DecidableEq, Repr

/-- A line of L2 that is dirty or in reduce state (09 R204; 10 R229). `line` is the memory key divided by 128; `owner` its owner tag; `home` the die that homes it; `behind` what the memory
behind L2 holds while the line is dirty or `spoilt` (it holds the words of an uncorrectable read, 18 R403); `cells` its 32 reduce cells. -/
structure L2Line where
  line : Nat
  owner : Owner
  home : Nat
  behind : Option (List Byte)
  spoilt : Bool
  cells : List ReduceCell
deriving DecidableEq, Repr

/-- A page-table entry as the walker reads it (09 R209). -/
structure Pte where
  frame : Nat
  home : Nat
  fpol : Nat
  key : Nat
  kind : Nat
  span : Bool
  repl : Bool
  x : Bool
  w : Bool
  rd : Bool
deriving DecidableEq, Repr

/-- A TLB entry: owner partition, first virtual address, bytes covered, the leaf (09 R216). -/
structure TlbEntry where
  part : Nat
  va : Nat
  size : Nat
  pte : Pte
deriving DecidableEq, Repr

/-- A line of L1 (09 R203): memory key / 128, owner tag, bytes, fill clock (11 R257), the launch whose replica filled it, which
alone may hit it (R206), the 16-byte blocks that the core's own atomics, reductions or barrier updates changed at the home, which a
read fetches there again (11 R258), and those that bulk writes changed, with the group whose wait is to reveal them (11 R265, R266). -/
structure L1Line where
  line : Nat
  owner : Owner
  bytes : List Byte
  filled : Nat
  launch : Option Nat
  holes : List Nat
  stale : List (Nat × GroupKey)
deriving DecidableEq, Repr

/-! ### Accesses -/

/-- Who an object is, once its reference is translated (10 R233). -/
inductive ObjRef where
  | scratch (team : Nat) (off : Nat)
  | phys (key : Nat)
deriving DecidableEq, Repr

/-- Where one lane's access of a pending operation stands: not performed, parked, asked of a peer, performed with its words,
or its words written to the lane's registers ahead of the tag (02 R48). -/
inductive LaneAcc where
  | todo
  | parked
  | peer (id : Nat)
  | done (words : List W32)
  | landed
deriving DecidableEq, Repr

/-- One lane of a pending operation: lane, address, operand words, state. -/
structure PendLane where
  lane : Nat
  ea : Addr
  args : List W32
  acc : LaneAcc
deriving DecidableEq, Repr

/-- Words of peer memory that an engine's operation has been answered (`none` a fault at the target), and the request it
waits for (17 R385). -/
structure PeerBuf where
  got : List (Nat × Option W32)
  asked : Option (Nat × Nat)
deriving DecidableEq, Repr

/-- What a pending long-latency operation does when it is performed (02 R47). -/
inductive PendKind where
  | load (sp : Bool) (bytes : Nat) (sext : Bool) (scope : Nat) (repl col : Bool)
  | atom (sp : Bool) (fn : Nat) (w64 : Bool) (scope : Nat)
  | cas (sp : Bool) (w64 : Bool) (scope : Nat)
  | special (fn : Nat)
  | tex (kind : Nat) (desc : List W32) (bias : BitVec 16) (nofb : Bool)
  | ray (all : Bool) (root : Addr) (mask : BitVec 8) (cullb cullf : Bool)
  | neural (nin nout : Nat)
deriving DecidableEq, Repr

/-- A pending long-latency operation of a group, in issue order. `dest` is its first destination register, `width` the
registers it writes; a uniform one has one lane entry. `mask` holds the quad's active lanes of a texture operation. -/
structure PendOp where
  seq : Nat
  tag : Nat
  pc : Addr
  runAddr : Addr
  fall : Addr
  dest : Opnd
  width : Nat
  kind : PendKind
  lanes : List PendLane
  mask : Mask
  buf : PeerBuf
  flags : List (Nat × BitVec 5)
  causes : List (Nat × Cause)
deriving DecidableEq, Repr

/-- What an entry of a store queue does when it leaves (10 R224, R235). -/
inductive QKind where
  | store (sp : Bool) (bytes : Nat) (col : Bool)
  | red (sp : Bool) (fn : Nat) (w64 : Bool)
  | binit (ref : W64) (n : Nat)
  | barr (ref : W64) (b : Int)
  | bexp (ref : W64) (b : Int)
deriving DecidableEq, Repr

/-- An entry of a group's store queue; `lanes` are the accesses that have not been performed. -/
structure QEntry where
  seq : Nat
  pc : Addr
  kind : QKind
  scope : Nat
  lanes : List PendLane
  parked : Bool
deriving DecidableEq, Repr

/-- A store that has left a queue, or a bulk write, that is not yet at its home (11 R258, R264, R265), listed in the core's store order;
one sent to a peer chip keeps the entry and the lane it came from, for a fault that the target answers (17 R385). -/
inductive Flight where
  | bytes (group : GroupKey) (key : Nat) (bs : List Byte) (owner : Owner) (home : Nat)
  | peer (group : GroupKey) (id : Nat) (entry : QEntry)
deriving DecidableEq, Repr

/-! ### Lanes and groups (02 R33 to R43) -/

/-- The state of a lane (R39). A yielded lane waits on an object's parity; `free` says the phase has completed. -/
inductive LaneSt where
  | active (slot : Nat)
  | waiting (stamp : Nat)
  | joined (k : Nat)
  | yielded (obj : ObjRef) (par : Bool) (free : Bool)
  | trapHeld
  | exited
deriving DecidableEq, Repr

/-- ORIGIN of a lane (R37, R38). -/
structure Origin where
  team : W32
  lane : Nat
  group : Nat
  pc : Addr
deriving DecidableEq, Repr

/-- A lane trap: cause, recorded PC, argument, RUNADDR and FALL of its run (14 R329 to R331). -/
structure LaneTrap where
  cause : Cause
  pc : Addr
  arg : W32
  runAddr : Addr
  fall : Addr
deriving DecidableEq, Repr

/-- How a lane came to its PC: the address recorded if no RUN word stands there, none at an entry PC (R45), and the core clock at which
a phase completion released it (13 R307). -/
structure Came where
  via : Option Addr
  since : Option Nat
deriving DecidableEq, Repr

structure Lane where
  v : Tbl 32
  t : Tbl 32
  p : BitVec 8
  fl : BitVec 5
  st : LaneSt
  pc : Addr
  came : Came
  origin : Origin
  mark : Option LaneTrap
  landed : List LaneTrap
deriving DecidableEq, Repr

/-- What a blocked split waits for (10 R236, R241; 14 R333). -/
inductive Block where
  | phase (obj : ObjRef) (par : Bool) (free : Bool)
  | batch (n : W32)
  | tret
deriving DecidableEq, Repr

/-- A rejoin barrier jk (R43): enrolment, arrivals, FALL of the latest arrival. -/
structure Join where
  enrol : Mask
  arrived : Mask
  fall : Addr
deriving DecidableEq, Repr

/-- The transfer that a run-ending instruction fixed, applied at the TRAIL (R41). -/
inductive Ender where
  | jump (targets : List (Nat × Addr))
  | exit (mask : Mask)
  | joinw (k : Nat) (mask : Mask)
  | wait (ref : W64) (mask : Mask)
  | waitY (ref : W64) (mask : Mask) (target : Addr)
  | bwait (n : W32) (mask : Mask)
  | yield (mask : Mask)
  | reorder (ctl : W32) (keys : List (Nat × W32))
  | tret (targets : List (Nat × W64))
deriving DecidableEq, Repr

/-- The run in progress of a group (03 R66 to R71): the split's slot, RUNADDR, next address, address of the instruction
at hand, instructions left, tags named, temporaries written, modifier word, transfer and its instruction, whether a
structural stall holds it, whether its RUN word has been executed, and the words of code read from a peer chip. -/
structure Run where
  slot : Nat
  addr : Addr
  next : Addr
  ipc : Addr
  left : Nat
  named : BitVec 16
  temps : BitVec 16
  pfx : Modifier
  ender : Option (Ender × Addr)
  stalled : Bool
  opened : Bool
  buf : PeerBuf
deriving DecidableEq, Repr

/-- A parked instruction fetch of a split (09 R213, 18 R401): the run it interrupted, if one had begun, the faulting address,
and whether it is still held. -/
structure FetchPark where
  run : Option Run
  va : Nat
  held : Bool
deriving DecidableEq, Repr

/-- A live split: its slot of the quarter, PC, block, the clock at which it last became ready, the clock that is its age instead
(of its YIELD's TRAIL or of its lanes' release), class change (`low` after YIELD) (13 R304 to R307), and its parked fetch. -/
structure Split where
  slot : Nat
  pc : Addr
  block : Option Block
  ready : Option Nat
  since : Option Nat
  low : Bool
  promoted : Bool
  fetch : Option FetchPark
deriving DecidableEq, Repr

/-- A group held at a reorder site, or waiting for its tags before it is (14 R326). Open points: DEDUCED (log 16). -/
structure Held where
  site : Nat
  ctl : W32
  keys : List (Nat × W32)
deriving DecidableEq, Repr

/-- A cause taken as a team stop, as its record shows it (18 R394, R398). -/
structure StopCause where
  cause : Cause
  pc : Addr
  arg : Nat
  va : Nat
  acc : Nat
  pol : Nat
  np : Bool
  async : Bool
deriving DecidableEq, Repr

/-- The kinds of bulk operation whose completion a batch waits for (10 R240). `err` is a collective's ERR. -/
structure BulkOp where
  id : Nat
  pc : Addr
  batch : Option W32
  done : Bool
  err : Bool
  tile : Bool
deriving DecidableEq, Repr

/-- A TLBINV that a group waits for (17 R374): requests and addresses that it covers, and whether it has completed. -/
structure TlbInv where
  stamp : Nat
  lo : Nat
  hi : Nat
  done : Bool
deriving DecidableEq, Repr

structure Group where
  idx : Nat
  role : Nat
  widx : Nat
  budget : Nat
  quarter : Option Nat
  handler : Option (List (Option (Nat × Nat)))
  lanes : List Lane
  w : Tbl 32
  splits : List Split
  stamp : Nat
  joins : List Join
  entering : Option (Nat × List Nat)
  pend : List PendOp
  queue : List QEntry
  seq : Nat
  batchNo : W32
  bulk : List BulkOp
  run : Option Run
  held : Option Held
  tlbinv : Option TlbInv
  draining : Bool
  evicted : Option Nat
  cause : Option StopCause
  stopped : Bool
  skid : Nat
  trapRun : Option Run
  trapLanes : Mask
  recorded : Option (Option Nat)
  lastSlot : Nat
deriving DecidableEq, Repr

/-! ### Teams and launches (02 R49 to R54) -/

structure RoleEntry where
  pc : Addr
  ngroups : Nat
  budget : Nat
deriving DecidableEq, Repr

structure Binding where
  shape : Addr
  dest : Nat
  o : Bool
  kind : Nat
deriving DecidableEq, Repr

/-- The decoded fields of a launch record (R49). -/
structure LaunchRec where
  prio : Nat
  coop : Bool
  overlap : Bool
  compat : Bool
  flush : Bool
  fptrap : BitVec 5
  gx : Nat
  gy : Nat
  gz : Nat
  tiles : Nat
  scratch : Nat
  arg : Addr
  roles : List RoleEntry
  deps : List (Nat × Nat)
  binds : List Binding
  tvec : Addr
  tbudget : Nat
deriving DecidableEq, Repr

/-- A scratchpad cell that was overwritten and what it held; who wrote it: the group's index, and the place in its issue order, of a
store, an atomic or an ACCST, none for a copy; and whether an ACCST did (06 R145, R160). -/
structure Overwrite where
  cell : Nat
  old : W32
  idx : Option Nat
  seq : Nat
  tile : Bool
deriving DecidableEq, Repr

/-- A team with its scratchpad allocation, tiles (key 128·row + column) and Beam share (key 49,152·slice + offset). `slog` and `blog`
keep the overwritten cells of the scratchpad and words of the Beam, which a racing read of an engine may still return (06 R160;
10 R249). `ended` says that its groups end as their runs do: the team was ended or its launch killed (18 R400, R405). -/
structure Team where
  key : Nat
  part : Nat
  queue : Nat
  launch : Nat
  id : Nat
  sup : Bool
  rec' : LaunchRec
  core : Option CoreKey
  squares : List Nat
  scratch : Tbl 8
  tiles : List (Tbl 32)
  beam : Tbl 8
  slog : List Overwrite
  blog : List (Nat × W32)
  bob : Nat
  bindings : List Binding
  bindPos : Nat
  bindParked : Option Nat
  bindBuf : PeerBuf
  groups : List Group
  stop : Option (StopCause × Nat × Nat)
  ended : Bool
  sites : List (Nat × List Nat)
  placed : Nat
deriving DecidableEq, Repr

/-- Where a launch stands (13 R293, 18 R405). -/
inductive LaunchStage where
  | queued
  | rejected
  | eligible
  | killed (cause : Cause) (va : Nat)
  | ended
deriving DecidableEq, Repr

structure Launch where
  key : Nat
  part : Nat
  queue : Nat
  bytes : List Byte
  rec' : Option LaunchRec
  stage : LaunchStage
  pending : Bool
  nextTeam : Nat
  poisoned : Bool
  logPos : Nat
  recordDue : Option (Cause × Nat)
  killClock : Option Nat
deriving DecidableEq, Repr

/-- A queue of a partition (13 R290 to R292). `cur` gives, by priority, its weight minus one in the present rotation (R291); `launches`
are keys in queue order. -/
structure Queue where
  id : Nat
  phys : Nat
  sup : Bool
  en : Bool
  wgt : Nat
  cw : Nat
  wdog : Nat
  grace : Nat
  wdrst : Bool
  count : W32
  watch : Nat
  cur : List (Nat × Nat)
  launches : List Nat
deriving DecidableEq, Repr

/-! ### Engines of a core and of a cluster -/

/-- A copy's operands as issued (10 R245): direction 0 CPT, 1 CPB, 2 CPS. -/
structure CopyOp where
  dir : Nat
  wc : W32
  wc1 : W32
  record : Addr
  ref : Option W64
deriving DecidableEq, Repr

/-- An entry's operation; a weight fetch fills the Bobbin's set of a handle (14 R320). -/
inductive ShuttleKind where
  | copy (c : CopyOp)
  | trq (w0 w1 w2 w3 : W32)
  | gwin (image : Addr) (n : Nat)
  | bobbin (part : Nat) (handle : Addr)
deriving DecidableEq, Repr

/-- A row on its way: packed element bytes, block codes, row scale, largest magnitude as an FP32 pattern. -/
structure RowOut where
  data : List Byte
  codes : List Nat
  s : Nat
  max : Nat
deriving DecidableEq, Repr

/-- A fault that the walk-ahead TLB found in a page that a copy has not reached: the page, whether writes of the copy meet it or reads, and
the policy with the cause, or none for a walk error (09 R217). -/
structure HeldFault where
  page : Nat
  write : Bool
  fault : Option (Nat × Bool)
deriving DecidableEq, Repr

/-- An entry of a Shuttle queue (R242): issuer, bulk operation, kind, the record once read, next row, words of it already written, bytes
written, fold maximum, the present scale once read (04 R101), the row that is being written once converted, parked address, faults held
ahead (09 R217), the owner tags under which it goes on reading pages of a key index that KEYSEL has bound anew (17 R375, R390), log
positions, peer words. -/
structure ShuttleJob where
  group : GroupKey
  op : Nat
  seq : Nat
  kind : ShuttleKind
  rec' : Option (List W32)
  pos : Nat
  within : Nat
  bytes : Nat
  fold : Nat
  scale : Option Nat
  row : Option RowOut
  parked : Option Addr
  held : List HeldFault
  tags : List (Nat × Owner)
  logPos : Nat
  sPos : Nat
  bPos : Nat
  buf : PeerBuf
deriving DecidableEq, Repr

/-- A tile operation in the matrix queue (06 R145, R146), its register values read at issue. -/
inductive TileKind where
  | mma (mt fmt : Nat) (o : Bool) (wa wa1 wb : W32)
  | mmas (mt fmt : Nat) (o : Bool) (patB : Bool) (wa wa1 wb wm : W32)
  | accld (mt fmt : Nat) (o : Bool) (wa : W32)
  | accst (mt fmt : Nat) (o : Bool) (wa : W32)
  | mzero (mt : Nat)
deriving DecidableEq, Repr

/-- A queued tile operation; `stored` lists the scratchpad cells that an ACCST under way has stored (R160). -/
structure TileJob where
  group : GroupKey
  op : Nat
  seq : Nat
  kind : TileKind
  mask : Mask
  stored : List Nat
  sPos : Nat
  bPos : Nat
deriving DecidableEq, Repr

/-- A weight set placed in a Bobbin (14 R314, R320): handle, owner tag, key index of its page, its offset and bytes in every slice, the
record, with its arrays once `ready`, pinning launches, last use, the order in which sets were placed (R267), and whether an NEVICT is
to remove it (R323). -/
structure BobSet where
  handle : Addr
  part : Nat
  key : Nat
  off : Nat
  foot : Nat
  words : List W32
  ready : Bool
  pins : List Nat
  used : Nat
  filler : Nat
  evict : Bool
deriving DecidableEq, Repr

/-- The state of a core. `passed` counts the first of its stores on their way to memory that a later one has overtaken: acquires of
scope .die or wider find them performed, plain reads from elsewhere need not (11 R259, R263). -/
structure Core where
  bob : Nat
  bobNew : Nat
  sets : List BobSet
  l1 : List L1Line
  tlb : List TlbEntry
  ahead : List TlbEntry
  flights : List Flight
  passed : Nat
  shuttle : List ShuttleJob
  tiles : List TileJob
  wheel : Nat
deriving DecidableEq, Repr

/-- A neural call waiting in a bin or a tile (14 R319). -/
structure Call where
  group : GroupKey
  seq : Nat
  lane : Nat
  inputs : List W32
  nout : Nat
deriving DecidableEq, Repr

structure Bin where
  part : Nat
  handle : Addr
  calls : List Call
  opened : Nat
  closed : Bool
deriving DecidableEq, Repr

/-- A tile of the cluster's tile queue: its calls, the core chosen, the K-32 steps taken (14 R321), and whether a weight fault parks it. -/
structure HTile where
  part : Nat
  handle : Addr
  calls : List Call
  core : Option Nat
  step : Nat
  parked : Option Nat
  buf : PeerBuf
deriving DecidableEq, Repr

/-- A set that an NPIN or an NPREF asks for: its launch, whether it is to be pinned, and the words of a peer's record (14 R323). -/
structure Hint where
  part : Nat
  handle : Addr
  launch : Nat
  pin : Bool
  buf : PeerBuf
deriving DecidableEq, Repr

/-- A trap bin (14 R330): key and lanes (group index, lane). -/
structure TrapBin where
  team : Nat
  trap : LaneTrap
  lanes : List (Nat × Nat)
  opened : Nat
  closed : Bool
deriving DecidableEq, Repr

/-- A Trap-held lane (group index, lane) that waits for a trap bin (14 R330). -/
structure TrapWait where
  team : Nat
  trap : LaneTrap
  lane : Nat × Nat
deriving DecidableEq, Repr

structure Cluster where
  bins : List Bin
  tiles : List HTile
  hints : List Hint
  traps : List TrapBin
  late : List TrapWait
  use : Nat
deriving DecidableEq, Repr

/-- A replica (09 R206): launch, requesting cluster, line, owner tag (17 R366), bytes. -/
structure Replica where
  launch : Nat
  cluster : ClusterKey
  line : Nat
  owner : Owner
  bytes : List Byte
deriving DecidableEq, Repr

structure Die where
  inService : Bool
  mhz : Nat
  cycles : Nat
  tlb : List TlbEntry
  clusterMap : List (Option Nat)
  spareClusters : List Nat
  sliceMap : List (Option Nat)
  spareSlices : List Nat
deriving DecidableEq, Repr

/-! ### Selvage (15) -/

/-- A surface descriptor that a head holds (R346): address, words, barrier reference. -/
structure Surface where
  desc : Addr
  base : Addr
  pitch : Nat
  width : Nat
  height : Nat
  fmt : Nat
  obj : Option W64
  logPos : Nat
deriving DecidableEq, Repr

/-- The state of one band of the coming frame: the slice of the hub that runs its network job (R339), work done and content chosen
(R338, R344). -/
structure Band where
  slice : Option Nat
  rung1 : Option (List W32)
  rung0 : Option (List W32)
  faulted : Bool
  fixed : Bool
deriving DecidableEq, Repr

/-- A head: its registers (R336), then the present queue with log positions, the surfaces held, the phase, what the latch read (the
pose, the network and whether it counts), the report and vector addresses in force, whether the coming frame is latched and this
one's report stored, the log position at which the line began, the bands of the frame at work, the previous contents of each band, the vectors by block row, the report,
what is to be arrived on, whether surface A has been released (R347), the head clocks since EN to line 0 of the frame, and whether the
hub's motion-estimation block is on a block row of the head (R335). -/
structure Head where
  id : Nat
  phys : Nat
  en : Bool
  mode : Nat
  upf : Nat
  sr : Nat
  net : Bool
  timing : List W32
  netRec : Addr
  pose : Addr
  rep : Addr
  mv : Addr
  line : Nat
  frame : Nat
  f1 : W32
  f2 : W32
  drop : W32
  rej : W32
  queue : List (Addr × Nat)
  latched : Option Surface
  surfA : Option Surface
  surfB : Option Surface
  phase : Nat
  poseWords : Option (List W32)
  netWords : Option (List W32)
  netOn : Bool
  repNow : Addr
  mvNow : Addr
  ahead : Bool
  reported : Bool
  linePos : Nat
  bands : List Band
  prev : List (List W32)
  vectors : List (Option (List W32))
  report : W32
  dropped : Bool
  leaving : List Surface
  drops : List Addr
  aFreed : Bool
  frameClocks : Nat
  buf : PeerBuf
  estimating : Bool
deriving DecidableEq, Repr

/-- A stream (R349): its register words, encoded frames, the next superblock row, whether the frame at work is a key frame, whether the
next one has to be, the ring's write offset, the output frame at work, and what a peer chip has answered about the read offset. -/
structure Stream where
  id : Nat
  words : List W32
  en : Bool
  frames : Nat
  row : Nat
  key : Bool
  keyNext : Bool
  offset : Nat
  cur : Nat
  buf : PeerBuf
deriving DecidableEq, Repr

/-! ### Links (17) -/

inductive Body where
  | readResp (bytes : List Byte)
  | status (seq : Nat) (cause : Nat)
  | complete (q : Nat) (count : W32)
  | ctlDone (req : Nat) (outcome : Nat)
  | svcNote (seq : Nat)
  | attest (report : List Byte)
  | pload (id : Nat) (addr : Addr) (len : Nat)
  | pstore (id : Nat) (addr : Addr) (bytes : List Byte)
  | patom (id : Nat) (addr : Addr) (fn : BitVec 4) (w64 : Bool) (op : PeerOp) (opnd cmp : W64)
  | presp (id : Nat) (answer : PeerAnswer)
  | cell (set : Nat) (cid : W32) (rank : Nat) (way : CellWay) (head : List W32) (first : Nat) (cells : List Byte)
  | kill (set : Nat) (cid : W32)
  | rtp (stream : Nat) (dst : List W32) (port pt : Nat) (ssrc stamp : W32) (marker : Bool) (bytes : List Byte)
deriving DecidableEq, Repr

/-- A message sent by the module, with the ACK of its header (R383); session 0 is the host port outside any session (R350). -/
structure Msg where
  session : Nat
  seq : Nat
  ack : Nat
  body : Body
deriving DecidableEq, Repr

/-- A session (R382 to R384): kind, partition, next sequence numbers, packets held beyond a gap, packets not yet
acknowledged with their retransmissions, and the count of dropped packets. -/
structure Session where
  id : Nat
  kind : SessionKind
  part : Nat
  rxNext : Nat
  txNext : Nat
  heldRx : List (Nat × Instr)
  unacked : List (Nat × Nat)
  dropped : Nat
deriving DecidableEq, Repr

/-- A request to a peer chip and its answer (R385). -/
structure PeerReq where
  id : Nat
  session : Nat
  part : Nat
  answer : Option PeerAnswer
deriving DecidableEq, Repr

/-- A piece of a host message's bytes: here, or asked of a peer chip, with its length. -/
inductive Piece where
  | here (bytes : List Byte)
  | asked (id len : Nat)
deriving DecidableEq, Repr

/-- A part of a host's WRITE that is still to be performed: in this module's memory, or at a peer chip (R386). -/
inductive HostPut where
  | mem (key home : Nat) (owner : Owner) (bytes : List Byte)
  | peer (session addr : Nat) (bytes : List Byte)
deriving DecidableEq, Repr

/-- A host message that waits for peer chips (R385, R386): session, SEQ, whether it reads, its pieces, and what a WRITE performs once they
have come. Open points: DEDUCED (log 36). -/
structure HostWait where
  session : Nat
  seq : Nat
  read : Bool
  pieces : List Piece
  rest : List HostPut
deriving DecidableEq, Repr

/-- A CELL message that has come to this rank: sender, what it carries, head, its first element, cells. Open points: DESIGN CHOICE (log 23). -/
structure EarlyCell where
  rank : Nat
  way : CellWay
  head : List W32
  first : Nat
  cells : List Byte
deriving DecidableEq, Repr

/-- A collective in progress on this rank (10 R251, R252; 17 R389): its issuer, the record once read, the source once read, the
parts heard of each rank (rank, first element, elements), the ranks that agree, the words that have come down, the words that result,
those written, and whether it ends as aborted; one that this rank has not issued (`issued` false) only keeps messages. -/
structure Coll where
  part : Nat
  set : Nat
  cid : W32
  issued : Bool
  group : GroupKey
  op : Nat
  seq : Nat
  core : CoreKey
  addr : Addr
  ref : Option W64
  record : List W32
  src : Option (List W32)
  acc : List CellMsg
  heard : List (Nat × Nat × Nat)
  agreed : List Nat
  got : List (Nat × List W32)
  sentUp : Bool
  final : Option (List W32)
  sentDown : Bool
  written : Nat
  aborting : Bool
  parked : Option Nat
  logPos : Nat
  buf : PeerBuf
  early : List EarlyCell
deriving DecidableEq, Repr

/-! ### Partitions (17 R371, 18 R395) -/

structure Stripe where
  lst : Addr
  m : Nat
  v : Bool
deriving DecidableEq, Repr

/-- A held trap record (R396): its words, its kind, and what waits for it: a stopped team's group, or a launch. -/
structure HeldRec where
  words : List W32
  kind : Nat
  group : Option GroupKey
  launch : Option Nat
deriving DecidableEq, Repr

/-- A written record that a team action may name (R400): its SEQ, the group it is about, and the access it holds. -/
structure Notice where
  seq : Nat
  group : GroupKey
  va : Nat
  parked : Bool
deriving DecidableEq, Repr

/-- A resize request in progress (17 R377, R378): whether it is a SHRINK, its count or cluster, its die unless any serves, the barrier
reference with the team that named it, and the teams that it has moved. -/
structure Resize where
  shrink : Bool
  arg : Nat
  die : Option Nat
  ref : Option (Nat × W64)
  moved : List Nat
deriving DecidableEq, Repr

/-- What waits to be placed: the team of a launch with an id, a team that was evicted whole (13 R295), or the handler group of the trap
bin of a team whose first lane is given (14 R330). -/
inductive Waiting where
  | new (launch id : Nat)
  | back (team : Nat)
  | trap (team group lane : Nat)
deriving DecidableEq, Repr

/-- A pre-emption in progress (13 R298, R300): what waits, its priority, the groups that must have been saved first, and their cores. -/
structure Claim where
  who : Waiting
  prio : Nat
  victims : List GroupKey
  cores : List CoreKey
deriving DecidableEq, Repr

structure Part where
  id : Nat
  modno : Nat
  ptr : Nat
  save : Nat
  saveGr : Nat
  win : Nat
  hw : Nat
  bobc : Nat
  l2sh : Nat
  svc : Nat
  svcLg : Nat
  svcWr : Nat
  svcRd : Nat
  kb : List (Option Nat)
  tq : Option Nat
  tqLg : Nat
  tqWr : Nat
  tqRd : Nat
  frozen : Option Cause
  resetting : Bool
  dumped : Bool
  tqDrop : W32
  poison : W32
  dump : Nat
  dumpGr : Nat
  taSeq : Nat
  rstCnt : W32
  clusters : List ClusterKey
  clst : Nat
  clreq : Nat
  resize : Option Resize
  removing : List ClusterKey
  kdie : Nat
  heldLo : List (Nat × W32)
  heldRecs : List HeldRec
  notices : List Notice
  queues : List Queue
  heads : List Head
  streams : List Stream
  stripes : List (Nat × Stripe)
  rotation : List (Nat × Nat)
  claims : List Claim
  resetCause : Option (Cause × Option (Nat × W32))
  frozeAt : Nat × Nat
deriving DecidableEq, Repr

/-- A shared-key handle (R369). -/
structure Handle where
  id : Nat
  granted : List Nat
  loader : Option Nat
  sealed : Bool
deriving DecidableEq, Repr

/-! ### The board and the model's own -/

/-- The configuration record in board flash (01 R27): dies in service, cluster and slice maps, minimum version, and the retired physical
clusters and slices of each die, which are no spares. -/
structure ConfigRec where
  sigOk : Bool
  minVersion : Nat
  dies : List Bool
  clusterMaps : List (List (Option Nat))
  sliceMaps : List (List (Option Nat))
  deadClusters : List (Nat × Nat)
  deadSlices : List (Nat × Nat)
deriving DecidableEq, Repr

structure Flash where
  slot0 : Option FwImage
  slot1 : Option FwImage
  pufOk : Bool
  config : ConfigRec
deriving DecidableEq, Repr

/-- Where the boot stands; a running image has recorded the digest of the configuration record that it applied, or of the one that it
rejected, when only the module manager is served (01 R27; 17 R380). -/
inductive BootStage where
  | off
  | rom
  | halted
  | recovery
  | management (img : FwImage) (record : BitVec 512)
  | running (img : FwImage) (record : BitVec 512)
deriving DecidableEq, Repr

structure QuarterKey where
  die : Nat
  core : Nat
  quarter : Nat
deriving DecidableEq, Repr

/-- A move of some agent, for the agenda (log 2). Open points: DESIGN CHOICE (log 2). -/
inductive Move where
  | issue (q : QuarterKey)
  | event (i : Instr)
  | tick (die n : Nat)
  | engineTick (e n : Nat)
  | perform (g : GroupKey) (i : Nat)
  | landLane (g : GroupKey) (i lane : Nat)
  | homeWrite (c : CoreKey) (i : Nat)
  | tileCell (c : CoreKey) (cell : Nat)
  | runAhead (c : CoreKey) (i page : Nat)
  | loadAhead (c : CoreKey) (part va : Nat)
  | dropL1 (c : CoreKey) (line : Nat)
  | evictL2 (line : Nat)
  | dropTlb (die : Nat) (core : Option Nat) (i : Nat)
  | dropReplica (i : Nat)
  | fillL2 (core : Option CoreKey) (part va : Nat)
  | uncorrectable (core : Option CoreKey) (part va : Nat)
  | uncorrectablePhys (part key : Nat)
  | stopReach (team : Nat)
  | bandWork (part h band : Nat)
deriving DecidableEq, Repr

/-- The whole machine. `engines` counts the clocks of the queue engines (01 R19, 13 R290); `keyed` lists the lines last written under another key than that of their granule's owner (17 R368). -/
structure State where
  power : Bool
  boot : BootStage
  flash : Flash
  dies : List (Nat × Die)
  engines : List (Nat × Nat)
  cores : List (CoreKey × Core)
  clusters : List (ClusterKey × Cluster)
  mem : Memory
  wlog : List (Nat × W32)
  l2 : List L2Line
  keyed : List (Nat × Owner)
  owners1 : List (Nat × Owner)
  owners2 : List (Nat × Owner)
  handles : List Handle
  parts : List Part
  teams : List Team
  launches : List Launch
  replicas : List Replica
  colls : List Coll
  aborts : List (Nat × Nat × W32)
  sessions : List Session
  peers : List PeerReq
  hostWaits : List HostWait
  strays : Nat
  sent : List Msg
  agenda : List Move
  focus : QuarterKey
  fresh : Nat
  serial : Nat
deriving DecidableEq, Repr

/-- The faults of the model. -/
inductive Fault where
  /-- Raised by the meaning of an instruction word when no run is in progress on the quarter that has the focus, so that no
  group issues it. Safe: the machine never issues an instruction outside a run (R44), and `step` never does. -/
  | noIssuer
deriving DecidableEq, Repr

/-- The refusals of the model. -/
inductive Refusal where
  /-- Raised by an arm of `exec` whose instruction has no meaning yet. Safe: nothing happens. -/
  | notModelled (mnemonic : String)
deriving DecidableEq, Repr

/-! ### Reset -/

/-- The logical numbers below `n`, each served by the physical part of its number. -/
def identityMap : Nat → Nat → List (Option Nat)
  | 0, _ => []
  | n + 1, k => some k :: identityMap n (k + 1)

/-- A die before firmware has read the configuration record: nominal clock (R23), no cycle delivered (R37). Open points: DESIGN CHOICE (log 3). -/
def Die.init : Die :=
  { inService := false, mhz := Config.nominalMHz, cycles := 0, tlb := [],
    clusterMap := identityMap Config.clusters 0, spareClusters := [40, 41, 42, 43],
    sliceMap := identityMap Config.slices 0, spareSlices := [48, 49] }

/-- A core that holds nothing. Open points: DESIGN CHOICE (log 3). -/
def Core.init : Core :=
  { bob := 0, bobNew := 0, sets := [], l1 := [], tlb := [], ahead := [], flights := [], passed := 0, shuttle := [], tiles := [],
    wheel := 0 }

/-- A Heddle that holds nothing. Open points: DESIGN CHOICE (log 3). -/
def Cluster.init : Cluster := { bins := [], tiles := [], hints := [], traps := [], late := [], use := 0 }

/-- The dies of the module. -/
def State.initDies : List (Nat × Die) :=
  [(0, Die.init), (1, Die.init), (2, Die.init), (3, Die.init), (4, Die.init), (5, Die.init), (6, Die.init), (7, Die.init)]

/-- The board flash of the model (log 6): one valid image in slot 0, a configuration record with every die in service and
every logical number served by the part of its number. Open points: PRESUMED (log 6). -/
def Flash.init : Flash :=
  { slot0 := some { id := 0, version := 0, sigOk := true }, slot1 := none, pufOk := true,
    config := { sigOk := true, minVersion := 0, dies := [true, true, true, true, true, true, true, true],
                clusterMaps := [], sliceMaps := [], deadClusters := [], deadSlices := [] } }

/-- The machine right after reset: power is on, the boot ROM has not run (R380), and nothing but the board flash holds any
state (R28). Open points: DESIGN CHOICE (log 3), PRESUMED (log 6). -/
def State.reset : State :=
  { power := true, boot := .rom, flash := Flash.init, dies := State.initDies, engines := [], cores := [], clusters := [],
    mem := { cells := [], epochs := [] }, wlog := [], l2 := [], keyed := [], owners1 := [], owners2 := [], handles := [], parts := [],
    teams := [], launches := [], replicas := [], colls := [], aborts := [], sessions := [], peers := [], hostWaits := [], strays := 0, sent := [],
    agenda := [], focus := { die := 0, core := 0, quarter := 0 }, fresh := 0, serial := 0 }

end Sys2Proof.Machine
end

