-- ==== Sys2Proof/Machine/Memory.lean ====
section
/-! DEFINITION. The byte memory at its homes: reads and writes that keep the canonical form, reduce cells, L2 lines, and
the log of overwritten words that reads of no coherence order may return (09 R204; 10 R229, R230; 11 R256; 17 R370). -/

namespace Sys2Proof.Machine

/-! ### Bytes -/

/-- First key of the second tier. -/
def tier2 : Nat := 2 ^ 44

/-- The granule of a memory key: 2 MiB of the first tier, 1 GiB of the second (R365). -/
def granuleOf (k : Nat) : Nat := if k < tier2 then k / Config.granule1 else 2 ^ 40 + (k - tier2) / Config.granule2

/-- What an unlisted byte reads as: zero (log 4), or any value in a granule that changed owner (R370). Open points: DESIGN CHOICE (log 4). -/
def Memory.unlisted (m : Memory) (k : Nat) : Byte :=
  match assocGet 0 m.epochs (granuleOf k) with
  | 0 => 0
  | e + 1 => Config.cipher e k

/-- The byte at key `k`. Open points: DESIGN CHOICE (log 4). -/
def Memory.read (m : Memory) (k : Nat) : Byte := assocGet (m.unlisted k) m.cells k

/-- The memory with the byte at `k` written. -/
def Memory.write (m : Memory) (k : Nat) (b : Byte) : Memory :=
  { m with cells := assocPut k (if b = m.unlisted k then none else some b) m.cells }

/-- The canonical form of memory. -/
def Memory.wf (m : Memory) : Bool := rising m.cells && m.cells.all (fun c => c.2 != m.unlisted c.1)

/-- `n` bytes from `k`. -/
def Memory.readList (m : Memory) (k : Nat) : Nat → List Byte
  | 0 => []
  | n + 1 => m.read k :: Memory.readList m (k + 1) n

/-- The memory with bytes written from `k`. -/
def Memory.writeList (m : Memory) (k : Nat) : List Byte → Memory
  | [] => m
  | b :: bs => Memory.writeList (m.write k b) (k + 1) bs

/-- A granule gets a new owner: none of its bytes is listed, and each reads as any value (R370). Open points: DESIGN CHOICE (log 4). -/
def Memory.reassign (m : Memory) (g : Nat) : Memory :=
  { cells := m.cells.filter (fun c => granuleOf c.1 != g),
    epochs := assocPut g (some (assocGet 0 m.epochs g + 1)) m.epochs }

/-! ### Free choices -/

/-- Draw a number below `n`, `n` at least 1, that nothing constrains (log 5). Open points: DESIGN CHOICE (log 5). -/
def State.choose (s : State) (n : Nat) : State × Nat :=
  if n ≤ 1 then (s, 0) else ({ s with fresh := s.fresh + 1 }, Config.freeNat s.fresh % n)

/-- Draw a word that nothing constrains (log 5). Open points: DESIGN CHOICE (log 5). -/
def State.anyWord (s : State) : State × W32 := ({ s with fresh := s.fresh + 1 }, Config.freeWord s.fresh)

/-- Draw `n` words that nothing constrains. -/
def State.anyWords (s : State) : Nat → State × List W32
  | 0 => (s, [])
  | n + 1 =>
    let (s, w) := s.anyWord
    let (s, ws) := State.anyWords s n
    (s, w :: ws)

/-! ### Reduce cells (R229, R230) -/

/-- The exact value of an FP32 pattern in units of 2^-149; NaN and infinities give zero. -/
def fp32Units (w : W32) : Int :=
  let e := bitsOf w 30 23
  let f := bitsOf w 22 0
  if e = 255 then 0
  else
    let m : Nat := if e = 0 then f else (2 ^ 23 + f) * 2 ^ (e - 1)
    if w.getLsbD 31 then -(m : Int) else m

/-- The highest set bit of a positive number. -/
def topBit : Nat → Nat → Nat
  | 0, _ => 0
  | fuel + 1, n => if n ≤ 1 then 0 else topBit fuel (n / 2) + 1

/-- round(v * 2^-149, FP32, RNE): the magnitude's pattern; the carry of rounding reaches the exponent field. -/
def roundUnits (v : Nat) : Nat :=
  if v < 2 ^ 24 then v
  else
    let sh := topBit 400 v - 23
    let q := v / 2 ^ sh
    let r := v % 2 ^ sh
    let half := 2 ^ (sh - 1)
    let q' := if r > half || (r = half && q % 2 = 1) then q + 1 else q
    let bits := sh * 2 ^ 23 + q'
    if bits ≥ 0x7F800000 then 0x7F800000 else bits

/-- A cell whose first term is a word. -/
def ReduceCell.start (w : W32) : ReduceCell :=
  let e := bitsOf w 30 23
  let f := bitsOf w 22 0
  { v := fp32Units w, nan := e = 255 && f ≠ 0, pinf := e = 255 && f = 0 && !w.getLsbD 31,
    ninf := e = 255 && f = 0 && w.getLsbD 31, negz := w = 0x80000000#32, n := 1, touched := false }

/-- leave(): the word a cell becomes; `old` is the word of a cell that took no term. -/
def ReduceCell.leave (c : ReduceCell) (old : W32) : W32 :=
  if !c.touched then old
  else if c.nan || (c.pinf && c.ninf) then 0x7FC00000#32
  else if c.pinf then 0x7F800000#32
  else if c.ninf then 0xFF800000#32
  else if c.v = 0 then (if c.negz then 0x80000000#32 else 0#32)
  else if c.v < 0 then BitVec.ofNat 32 (2 ^ 31 + roundUnits (-c.v).toNat)
  else BitVec.ofNat 32 (roundUnits c.v.toNat)

/-- add(c) without the count limit. -/
def ReduceCell.addTerm (c : ReduceCell) (w : W32) : ReduceCell :=
  let t := ReduceCell.start w
  { v := c.v + t.v, nan := c.nan || t.nan, pinf := c.pinf || t.pinf, ninf := c.ninf || t.ninf,
    negz := c.negz && t.negz, n := c.n + 1, touched := true }

/-- add(c): at the count limit the word is rounded first (R229). -/
def ReduceCell.add (c : ReduceCell) (w : W32) : ReduceCell :=
  if c.n = 2 ^ 32 + 1 then (ReduceCell.start (c.leave 0)).addTerm w else c.addTerm w

/-! ### Homes (R204) -/

/-- The logical slice of a line, the bank of the slice, and the set of the bank's slice. Open points: DESIGN CHOICE (log 40). -/
def sliceOf (line : Nat) : Nat := line % 2 ^ 28 % Config.slices
def bankOf (line : Nat) : Nat := line % 2 ^ 28 / Config.slices % 4
def setOf (line : Nat) : Nat := line % 2 ^ 28 / Config.slices % 2048

/-- The GDDR 7 channel of a first-tier physical address. -/
def channelOf (pa : Nat) : Nat := pa / 2 ^ 8 % 8

def State.die (s : State) (d : Nat) : Die := (kget d s.dies).getD Die.init

/-- Whether the physical slice that serves a logical slice of a die serves another one too (18 R409). -/
def Die.doubledSlice (d : Die) (slice : Nat) : Bool :=
  match (nth d.sliceMap slice).join with
  | some n => (d.sliceMap.filter (fun x => x = some n)).length > 1
  | none => false

/-! ### L2 lines -/

/-- The L2 entry of a line. -/
def State.l2Line (s : State) (line : Nat) : Option L2Line := s.l2.find? (fun l => l.line = line)

/-- The lines of L2 that share the set of a line homed on a die. -/
def State.l2Set (s : State) (home line : Nat) : List L2Line :=
  s.l2.filter (fun x => x.home = home && sliceOf x.line = sliceOf line && setOf x.line = setOf line)

/-- Put the words of a line whose cells leave reduce state. -/
def leaveWords (m : Memory) (key : Nat) : List ReduceCell → Memory
  | [] => m
  | c :: cs =>
    let old := wordOfBytes (m.readList key 4)
    let w := c.leave old
    leaveWords (if w = old then m else m.writeList key (bytesOf 4 w.toNat)) (key + 4) cs

/-- A line leaves reduce state (R230). -/
def State.leaveLine (s : State) (line : Nat) : State :=
  match s.l2Line line with
  | none => s
  | some l =>
    if l.cells.isEmpty then s
    else { s with mem := leaveWords s.mem (128 * line) l.cells,
                  l2 := updWhere (fun x => x.line = line) (fun x => { x with cells := [] }) s.l2 }

/-- The lines that `n` bytes from `key` touch leave reduce state. -/
def State.leaveSpan (s : State) (key n : Nat) : State :=
  let a := key / 128
  let b := (key + n - 1) / 128
  if a = b then s.leaveLine a else (s.leaveLine a).leaveLine b

/-- What memory holds once a line has left L2: a spoilt line is not written back. -/
def L2Line.back (l : L2Line) (m : Memory) : Memory :=
  match l.behind with
  | some bs => if l.spoilt then m.writeList (128 * l.line) bs else m
  | none => m

/-- A line leaves L2: reduce state ends and the memory behind takes its bytes. -/
def State.evictLine (s : State) (line : Nat) : State :=
  let s := s.leaveLine line
  { s with mem := match s.l2Line line with | some l => l.back s.mem | none => s.mem, l2 := s.l2.filter (fun l => l.line != line) }

/-- Whether a miss under an owner tag may replace a line of a full set: a line under a shared handle, one of its own, or one of a
partition that holds more of the set than its share (17 R366; half of it in a doubled slice, 18 R409). -/
def State.replaceable (s : State) (set : List L2Line) (doubled : Bool) (owner : Owner) (v : L2Line) : Bool :=
  match v.owner with
  | .part p =>
    let sh := ((s.parts.find? (fun x => x.id = p)).map (fun x => x.l2sh)).getD 0
    v.owner = owner || (set.filter (fun x => x.owner = v.owner)).length > (if doubled then sh / 2 else sh)
  | _ => true

/-- Make room for a line in its set of 16 ways, 8 in a doubled slice: of a full set, some replaceable line leaves; says whether
there is room. Open points: DESIGN CHOICE (log 40). -/
def State.makeRoom (s : State) (line : Nat) (owner : Owner) (home : Nat) : State × Bool :=
  let set := s.l2Set home line
  let doubled := (s.die home).doubledSlice (sliceOf line)
  if set.length < (if doubled then 8 else 16) then (s, true)
  else
    let vs := set.filter (s.replaceable set doubled owner)
    let (s, i) := s.choose vs.length
    match nth vs i with
    | some v => (s.evictLine v.line, true)
    | none => (s, false)

/-- Make a line dirty: keep what the memory behind L2 holds. A line that finds no room is written through. -/
def State.dirtyLine (s : State) (line : Nat) (owner : Owner) (home : Nat) : State :=
  match s.l2Line line with
  | some l =>
    if l.behind.isSome then
      if l.spoilt then { s with l2 := updWhere (fun x => x.line = line) (fun x => { x with spoilt := false }) s.l2 } else s
    else { s with l2 := updWhere (fun x => x.line = line)
                          (fun x => { x with behind := some (s.mem.readList (128 * line) 128), owner := owner, home := home })
                          s.l2 }
  | none =>
    match s.makeRoom line owner home with
    | (s, false) => s
    | (s, true) =>
      { s with l2 := { line := line, owner := owner, home := home,
                       behind := some (s.mem.readList (128 * line) 128), spoilt := false, cells := [] } :: s.l2 }

/-! ### Keys of lines (17 R366, R368) -/

/-- Who owns the granule of a memory key. Open points: DEDUCED (log 12). -/
def State.ownerOf (s : State) (key : Nat) : Owner :=
  if key < tier2 then assocGet Owner.none s.owners1 (key / Config.granule1)
  else assocGet Owner.none s.owners2 ((key - tier2) / Config.granule2)

/-- The owner tag under whose key a line was last written: its granule's owner but for the lines listed. -/
def State.lineTag (s : State) (line : Nat) : Owner := (kget line s.keyed).getD (s.ownerOf (128 * line))

/-- A line is to be written under an owner tag. Under another tag than its last, L2 does not hold it, and the whole line is what the
memory's ciphertext gives under the new key: any value. Open points: DESIGN CHOICE (log 44). -/
def State.rekey (s : State) (line : Nat) (owner : Owner) : State :=
  if s.lineTag line = owner then s
  else
    let (s, ws) := (s.evictLine line).anyWords 32
    { s with mem := s.mem.writeList (128 * line) (bytesOfWords ws),
             keyed := if s.ownerOf (128 * line) = owner then s.keyed.filter (fun e => e.1 != line)
                      else (line, owner) :: s.keyed.filter (fun e => e.1 != line) }

/-- Log the words that `n` bytes from `key` overwrite. Open points: DESIGN CHOICE (log 8). -/
def logWords (m : Memory) (word : Nat) : Nat → List (Nat × W32)
  | 0 => []
  | n + 1 => (word, wordOfBytes (m.readList word 4)) :: logWords m (word + 4) n

/-- Number of words that bytes from `key` touch. -/
def wordsTouched (key n : Nat) : Nat := if n = 0 then 0 else (key + n - 1) / 4 - key / 4 + 1

/-- A read of `n` bytes performed at the home (R230). -/
def State.homeRead (s : State) (key n : Nat) : State × List Byte :=
  let s := s.leaveSpan key n
  (s, s.mem.readList key n)

/-- A read of `n` bytes of one line under an owner tag at the home; a line last written under another reads as any bytes (17 R368). -/
def State.keyRead (s : State) (key n : Nat) (owner : Owner) : State × List Byte :=
  if s.lineTag (key / 128) = owner then s.homeRead key n
  else
    let (s, ws) := s.anyWords ((n + 3) / 4)
    (s, (bytesOfWords ws).take n)

/-- A write performed at the home, within one line or two. -/
def State.homeWrite (s : State) (key : Nat) (bs : List Byte) (owner : Owner) (home : Nat) : State :=
  if bs.isEmpty then s
  else
    let s := (s.rekey (key / 128) owner).rekey ((key + bs.length - 1) / 128) owner
    let s := s.leaveSpan key bs.length
    let s := (s.dirtyLine (key / 128) owner home).dirtyLine ((key + bs.length - 1) / 128) owner home
    { s with mem := s.mem.writeList key bs,
             wlog := s.wlog ++ logWords s.mem (key / 4 * 4) (wordsTouched key bs.length) }

/-- The word at a word-aligned key, at its home. -/
def State.homeWord (s : State) (key : Nat) : State × W32 :=
  let (s, bs) := s.homeRead key 4
  (s, wordOfBytes bs)

/-- A line enters reduce state: each word is its cell's first term (R229). -/
def State.enterReduce (s : State) (line : Nat) (owner : Owner) (home : Nat) : State :=
  let s := s.dirtyLine line owner home
  match s.l2Line line with
  | none => s
  | some l =>
    if l.cells.isEmpty then
      let ws := wordsOfBytes 32 (s.mem.readList (128 * line) 128)
      { s with l2 := updWhere (fun x => x.line = line) (fun x => { x with cells := ws.map ReduceCell.start }) s.l2 }
    else s

/-- A global RED.FADD of a term at a word's home (R229); in a line for which L2 has no room, reduce state ends at once (R230). -/
def State.reduceAdd (s : State) (key : Nat) (term : W32) (owner : Owner) (home : Nat) : State :=
  let line := key / 128
  let s := (s.rekey line owner).enterReduce line owner home
  let s := { s with wlog := s.wlog ++ logWords s.mem (key / 4 * 4) 1 }
  match s.l2Line line with
  | some _ =>
    { s with l2 := updWhere (fun x => x.line = line)
                     (fun x => { x with cells := updNth (fun c => c.add term) x.cells (key / 4 % 32) }) s.l2 }
  | none =>
    let w := ((ReduceCell.start (wordOfBytes (s.mem.readList (key / 4 * 4) 4))).addTerm term).leave 0
    { s with mem := s.mem.writeList (key / 4 * 4) (bytesOfWords [w]) }

/-- A read of a line that is not in L2 brings it there, in the room that its owner tag may take; without room the read keeps nothing. -/
def State.fetchLine (s : State) (line : Nat) (owner : Owner) (home : Nat) : State :=
  match s.l2Line line, s.makeRoom line owner home with
  | some _, _ => s
  | none, (s, false) => s
  | none, (s, true) => { s with l2 := { line := line, owner := owner, home := home, behind := none, spoilt := false, cells := [] } :: s.l2 }

/-- A line is read from memory and its correction fails: L2 holds 32 poison words, and memory keeps its contents (18 R403). -/
def State.spoilLine (s : State) (line : Nat) (owner : Owner) (home : Nat) : State :=
  match s.l2Line line, s.makeRoom line owner home with
  | some _, _ => s
  | none, (s, false) => s
  | none, (s, true) =>
    let l : L2Line :=
      { line := line, owner := owner, home := home, behind := some (s.mem.readList (128 * line) 128), spoilt := true, cells := [] }
    { s with l2 := l :: s.l2, mem := s.mem.writeList (128 * line) (bytesOfWords (List.replicate 32 0x7FC00000#32)) }

/-! ### Reads of no coherence order (R256) -/

/-- The values that a word has held since position `since` of the log, oldest first. Open points: DESIGN CHOICE (log 8). -/
def State.olderWords (s : State) (since key : Nat) : List W32 :=
  ((s.wlog.drop since).filter (fun e => e.1 = key)).map (fun e => e.2)

/-- The word at a key, or any value it has held since `since`. Open points: DESIGN CHOICE (log 5). -/
def State.anyOldWord (s : State) (since key : Nat) : State × W32 :=
  let (s, w) := s.homeWord key
  match s.olderWords since key with
  | [] => (s, w)
  | olds =>
    let (s, i) := s.choose (olds.length + 1)
    (s, (nth olds i).getD w)

end Sys2Proof.Machine
end

