-- ==== Sys2Proof/Machine/Translate.lean ====
section
/-! DEFINITION. Records of the state by key, page walks, TLBs, ownership of granules, and the targets of leaves
(09 R208 to R218, R424; 17 R366 to R370, R388). -/

namespace Sys2Proof.Machine

/-! ### Records by key -/

def State.part? (s : State) (p : Nat) : Option Part := s.parts.find? (fun x => x.id = p)
def State.updPart (s : State) (p : Nat) (f : Part → Part) : State := { s with parts := updWhere (fun x => x.id = p) f s.parts }
def State.team? (s : State) (t : Nat) : Option Team := s.teams.find? (fun x => x.key = t)
def State.updTeam (s : State) (t : Nat) (f : Team → Team) : State := { s with teams := updWhere (fun x => x.key = t) f s.teams }
def Team.group? (t : Team) (i : Nat) : Option Group := t.groups.find? (fun g => g.idx = i)
def State.group? (s : State) (k : GroupKey) : Option Group := (s.team? k.team).bind (fun t => t.group? k.idx)
def State.updGroup (s : State) (k : GroupKey) (f : Group → Group) : State :=
  s.updTeam k.team (fun t => { t with groups := updWhere (fun g => g.idx = k.idx) f t.groups })
def State.launch? (s : State) (l : Nat) : Option Launch := s.launches.find? (fun x => x.key = l)
def State.updLaunch (s : State) (l : Nat) (f : Launch → Launch) : State :=
  { s with launches := updWhere (fun x => x.key = l) f s.launches }
def State.core (s : State) (c : CoreKey) : Core := (kget c s.cores).getD Core.init
def State.updCore (s : State) (c : CoreKey) (f : Core → Core) : State := { s with cores := kput c (f (s.core c)) s.cores }
def State.cluster (s : State) (c : ClusterKey) : Cluster := (kget c s.clusters).getD Cluster.init
def State.updCluster (s : State) (c : ClusterKey) (f : Cluster → Cluster) : State :=
  { s with clusters := kput c (f (s.cluster c)) s.clusters }
def State.updDie (s : State) (d : Nat) (f : Die → Die) : State := { s with dies := kput d (f (s.die d)) s.dies }

/-- The cluster of a core: four consecutive cores (R14). -/
def clusterOf (c : CoreKey) : ClusterKey := { die := c.die, cluster := c.core / 4 }

/-- Core clocks delivered to a die (R37, R38). Open points: DESIGN CHOICE (log 7). -/
def State.clock (s : State) (d : Nat) : Nat := (s.die d).cycles

/-! ### Ownership (R365, R370) -/

/-- Whether the memory of a key, homed on a die, is there: a die out of service has neither memory nor slices (01 R27). -/
def State.served (s : State) (home : Nat) : Bool := (s.die home).inService

/-- The handle bound to key index `k` of a partition (R368). -/
def Part.bound (p : Part) (k : Nat) : Option Nat := (nth p.kb k).join

/-! ### Walks (R208 to R212) -/

/-- The outcome of a translation: a leaf with the address it covers from, an absent entry with its policy, or a walk error. -/
inductive Walk where
  | leaf (pte : Pte) (va size : Nat)
  | absent (fpol : Nat)
  | error
deriving DecidableEq, Repr

/-- The fields of an entry (R209). -/
def Pte.ofNat (e : Nat) : Pte :=
  { frame := e / 2 ^ 24 % 2 ^ 40, home := e / 2 ^ 16 % 8, fpol := e / 2 ^ 14 % 4, key := e / 2 ^ 10 % 16,
    kind := e / 2 ^ 7 % 8, span := e / 2 ^ 6 % 2 = 1, repl := e / 2 ^ 5 % 2 = 1, x := e / 16 % 2 = 1,
    w := e / 8 % 2 = 1, rd := e / 4 % 2 = 1 }

/-- Bytes that a leaf of a level covers (R208). -/
def leafSize (level : Nat) : Nat :=
  if level = 1 then 2 ^ 12 else if level = 2 then 2 ^ 21 else if level = 3 then 2 ^ 30 else 2 ^ 39

/-- The conditions of R210 on a leaf at a level. -/
def leafBad (level e : Nat) : Bool :=
  let p := Pte.ofNat e
  p.kind ≥ 5 || e / 2 ^ 19 % 32 ≠ 0 || level = 4
  || (p.kind ≤ 2 && p.frame % (leafSize level / 4096) ≠ 0)
  || (p.span && level ≠ 2) || (p.key ≠ 0 && p.w) || (p.kind = 4 && (p.w || p.x))
  || (p.home ≠ 0 && p.kind ≤ 1)
  || (p.kind = 0 && p.frame ≥ 2 ^ 23) || (p.kind = 1 && p.frame ≥ 2 ^ 26)
  || (p.kind = 2 && p.frame ≥ 2 ^ 32) || (p.kind = 4 && p.frame ≥ 2 ^ 8)

/-- Index of a virtual address at a level (R208). -/
def walkIndex (level va : Nat) : Nat :=
  if level = 4 then va / 2 ^ 39 % 2 ^ 13
  else if level = 3 then va / 2 ^ 30 % 512
  else if level = 2 then va / 2 ^ 21 % 512
  else va / 2 ^ 12 % 512

/-- Whether the partition owns the first-tier granule of a key, as its own (R370), on a die in service (01 R27). -/
def State.ownsKey (s : State) (part key : Nat) : Bool := s.ownerOf key = .part part && s.served (key / 2 ^ 35)

/-- One walk from a table (R208 to R210); tables are read at their home banks. -/
def walkFrom (part va : Nat) : Nat → Nat → State → State × Walk
  | 0, _, s => (s, .error)
  | level + 1, table, s =>
    let a := table + 8 * walkIndex (level + 1) va
    if a + 8 > 2 ^ 38 || !s.ownsKey part a then (s, .error)
    else
      let (s, bs) := s.keyRead a 8 (.part part)
      let e := ofBytes bs
      if e % 2 = 0 then (s, .absent (Pte.ofNat e).fpol)
      else if e / 2 % 2 = 1 then
        if leafBad (level + 1) e then (s, .error)
        else (s, .leaf (Pte.ofNat e) (va / leafSize (level + 1) * leafSize (level + 1)) (leafSize (level + 1)))
      else if level = 0 || e / 4 % 2 ^ 22 ≠ 0 || e / 2 ^ 50 ≠ 0 then (s, .error)
      else walkFrom part va level (e / 2 ^ 24 * 4096) s

/-- A walk of a partition's page table. -/
def State.walk (s : State) (part va : Nat) : State × Walk :=
  match s.part? part with
  | none => (s, .error)
  | some p => walkFrom part va 4 p.ptr s

/-! ### TLBs (R216, R218) -/

/-- Where a translation is made: a core's L1 TLB, its Shuttle's walk-ahead TLB, or by a party on no compute die. -/
inductive Point where
  | lane (c : CoreKey)
  | shuttle (c : CoreKey)
  | hub
deriving DecidableEq, Repr

/-- The entry of a TLB that covers an address. -/
def tlbHit (part va : Nat) (l : List TlbEntry) : Option TlbEntry :=
  l.find? (fun e => e.part = part && e.va ≤ va && va < e.va + e.size)

/-- Put an entry into the point's own TLB, which keeps the newest `n` entries. -/
def State.fillTlb (s : State) (pt : Point) (e : TlbEntry) : State :=
  match pt with
  | .lane c => s.updCore c (fun x => { x with tlb := (e :: x.tlb).take 64 })
  | .shuttle c => s.updCore c (fun x => { x with ahead := (e :: x.ahead).take 256 })
  | .hub => s

/-- Whether the 32 leaves of a span group agree (R212): `n` of them from address `va`, frames rising from `frame`. -/
def spanGroup (part : Nat) (p : Pte) (va frame : Nat) : Nat → State → Bool
  | 0, _ => true
  | n + 1, s =>
    match (s.walk part va).2 with
    | .leaf q _ size => size = 2 ^ 21 && q = { p with frame := frame } && spanGroup part p (va + 2 ^ 21) (frame + 512) n s
    | _ => false

/-- The TLB entry that a walked leaf installs: a 64 MiB entry for a whole span group, else the leaf alone (R212). -/
def State.tlbEntry (s : State) (part : Nat) (p : Pte) (base size : Nat) : TlbEntry :=
  let va := base / 2 ^ 26 * 2 ^ 26
  let frame := p.frame - (base - va) / 4096
  if p.span && frame % 2 ^ 14 = 0 && spanGroup part p va frame 32 s then
    { part := part, va := va, size := 2 ^ 26, pte := { p with frame := frame } }
  else { part := part, va := base, size := size, pte := p }

/-- Translate at a point: its own TLB, then the die's last-level TLB, then a walk that fills both (R216). -/
def State.translate (s : State) (pt : Point) (part va : Nat) : State × Walk :=
  match pt with
  | .hub => s.walk part va
  | .lane c | .shuttle c =>
    let own := match pt with | .shuttle _ => (s.core c).ahead | _ => (s.core c).tlb
    match tlbHit part va own with
    | some e => (s, .leaf e.pte e.va e.size)
    | none =>
      match tlbHit part va (s.die c.die).tlb with
      | some e => (s.fillTlb pt e, .leaf e.pte e.va e.size)
      | none =>
        match s.walk part va with
        | (s, .leaf p base size) =>
          let e := s.tlbEntry part p base size
          (((s.updDie c.die (fun d => { d with tlb := (e :: d.tlb).take 16384 })).fillTlb pt e), .leaf p base size)
        | r => r

/-! ### Targets of leaves (R211) -/

/-- What an address reaches: memory at a key, homed on a die, under an owner tag; a peer chip's address, its lines homed on a die
(01 R22); a window. -/
inductive Target where
  | mem (key home : Nat) (owner : Owner) (repl : Bool)
  | peer (session addr pol home : Nat)
  | window (n : Nat)
  | error
deriving DecidableEq, Repr

/-- The die that a KIND 0 leaf names for a party (R211). -/
def State.pointDie (s : State) (pt : Point) (part : Nat) : Nat :=
  match pt with
  | .lane c | .shuttle c => c.die
  | .hub => ((s.part? part).map (fun p => p.kdie)).getD 0

/-- The entry of a stripe set's chip list (R388): module number, session, base address. -/
def State.chip (s : State) (part : Nat) (st : Stripe) (k : Nat) : State × Option (Nat × Nat × Nat) :=
  let a := st.lst.toNat + 16 * k
  if s.ownsKey part a then
    let (s, bs) := s.keyRead a 16 (.part part)
    (s, some (ofBytes (bs.take 4) % 2 ^ 14, ofBytes ((bs.drop 4).take 4), ofBytes (bs.drop 8)))
  else (s, none)

/-- The stripe set of a partition. -/
def State.stripe? (s : State) (part n : Nat) : Option Stripe := (s.part? part).bind (fun p => kget n p.stripes)

/-- The peer chip and address of a KIND 3 leaf (R211). -/
def State.peerTarget (s : State) (part frame off pol home : Nat) : State × Target :=
  match s.stripe? part (frame / 2 ^ 34) with
  | none => (s, .error)
  | some st =>
    if !st.v || st.m = 0 || !s.served home then (s, .error)
    else
      let g := frame % 2 ^ 34 + off / 4096
      match s.chip part st (g % st.m) with
      | (s, some (_, session, base)) => (s, .peer session (base + 4096 * (g / st.m) + off % 4096) pol home)
      | (s, none) => (s, .error)

/-- Whether a key lies in a partition's save area, which no program reads or writes (13 R301). -/
def State.inSave (s : State) (part key : Nat) : Bool :=
  match s.part? part with
  | some p => decide (p.save ≤ key ∧ key < p.save + p.saveGr * 2 ^ 21)
  | none => false

/-- The target of an address under a leaf, with ownership and key binding checked (R211, R368, R370; log 12); memory of a
die out of service is absent, and an access to it or to the partition's save area a walk error (13 R301). Open points: DEDUCED (log 12). -/
def State.target (s : State) (pt : Point) (part va : Nat) (p : Pte) (base : Nat) : State × Target :=
  let off := va - base
  let mem (key home : Nat) : Target :=
    if !s.served home || s.inSave part key then .error
    else if p.key = 0 then
      if s.ownerOf key = .part part then .mem key home (.part part) p.repl else .error
    else
      match (s.part? part).bind (fun x => x.bound p.key) with
      | none => .error
      | some h =>
        if s.ownerOf key = .handle h || s.ownerOf key = .part part then .mem key home (.handle h) p.repl else .error
  match p.kind with
  | 0 => let k := s.pointDie pt part * 2 ^ 35 + p.frame * 4096 + off; (s, mem k (k / 2 ^ 35))
  | 1 => let k := p.frame * 4096 + off; (s, mem k (k / 2 ^ 35))
  | 2 => (s, mem (tier2 + p.frame * 4096 + off) p.home)
  | 3 => s.peerTarget part p.frame off p.fpol p.home
  | 4 => (s, if s.served p.home then .window (p.frame % 256) else .error)
  | _ => (s, .error)

/-! ### Accesses by permission (R213) -/

inductive Perm where
  | rd | wr | rw | fetch
deriving DecidableEq, Repr

def Perm.ok (m : Perm) (p : Pte) : Bool :=
  match m with
  | .rd => p.rd
  | .wr => p.w
  | .rw => p.rd && p.w
  | .fetch => p.x

/-- What an access meets: its target, a fault (policy, entry absent), or a walk error. -/
inductive Access where
  | ok (t : Target)
  | fault (pol : Nat) (absent : Bool)
  | error
deriving DecidableEq, Repr

/-- Translate an address for an access with a permission; a non-canonical engine address is a walk error (R424). Open points: DEDUCED (log 12). -/
def State.access (s : State) (pt : Point) (part : Nat) (m : Perm) (va : Nat) : State × Access :=
  if va ≥ 2 ^ 52 then (s, .error)
  else
    match s.translate pt part va with
    | (s, .error) => (s, .error)
    | (s, .absent pol) => (s, .fault pol true)
    | (s, .leaf p base _) =>
      if !m.ok p then (s, .fault p.fpol false)
      else
        match s.target pt part va p base with
        | (s, .error) => (s, .error)
        | (s, t) => (s, .ok t)

end Sys2Proof.Machine
end

