-- ==== Sys2Proof/Machine/Ops.lean ====
section
/-! DEFINITION. The named operations over groups, teams and records: split formation (02 R40 to R43, 13 R304, R308), trap
records (18 R394 to R397), taking an exception (the team stop, 18 R398, R399; the lane trap, 14 R329) and the return from one
(14 R333). -/

namespace Sys2Proof.Machine

/-! ### Masks and lanes -/

/-- The mask of a list of lanes. -/
def maskOf : List Nat → Mask
  | [] => 0
  | i :: l => maskOf l ||| ((1 : Mask) <<< i)

/-- The lanes of a mask, in increasing order. -/
def lanesOf (m : Mask) : List Nat := (upFrom 0 Config.gw).filter (fun i => m.getLsbD i)

def Lane.activeIn (l : Lane) (slot : Nat) : Bool := l.st = .active slot
def Lane.isWaiting (l : Lane) : Bool := match l.st with | .waiting _ => true | _ => false
def Lane.isJoined (l : Lane) : Bool := match l.st with | .joined _ => true | _ => false
def Lane.isExited (l : Lane) : Bool := l.st = .exited

/-- The active lanes of a split. -/
def Group.active (g : Group) (slot : Nat) : List Nat := idxWhere (fun l => l.activeIn slot) g.lanes 0

/-- Change the lanes of a list. -/
def Group.updLanes (g : Group) (is : List Nat) (f : Nat → Lane → Lane) : Group :=
  { g with lanes := mapIdx (fun i l => if is.contains i then f i l else l) g.lanes 0 }

/-- Whether every lane has exited. -/
def Group.allExited (g : Group) : Bool := g.lanes.all Lane.isExited

/-- GROUPID of a group: its index; of a handler group, the origin GROUPID of its lane 0 (R331). -/
def Group.groupId (g : Group) : Nat := if g.handler.isSome then g.widx else g.idx

/-- Tags that are not clear, one bit each (R37 TAGPEND). -/
def Group.tagPend (g : Group) : BitVec 16 := g.pend.foldl (fun m o => m ||| ((1 : BitVec 16) <<< o.tag)) 0

/-! ### Slots (13 R304) -/

/-- What the other resident groups of a quarter hold: their slot numbers, and how many of them hold none. -/
structure SlotEnv where
  used : List Nat
  none : Nat
  clock : Nat
deriving DecidableEq, Repr

/-- Whether a store of a group is on its way to its home. -/
def flightOf (k : GroupKey) : Flight → Bool
  | .bytes g _ _ _ _ => g = k
  | .peer g _ _ => g = k

/-- A group has ended (R110): every lane has exited, its tags are clear, its stores performed, its bulk operations completed; one that
stopped its team is kept until the team ends (18 R398, R400). Open points: DEDUCED (log 31). -/
def Group.ended (g : Group) (k : GroupKey) (flights : List Flight) : Bool :=
  g.allExited && g.cause.isNone && g.run.isNone && g.pend.isEmpty && g.queue.isEmpty && g.bulk.all (fun b => b.done) && !flights.any (flightOf k)

/-- The resident groups of a core with their keys; a group that has ended holds no registers. -/
def State.residents (s : State) (c : CoreKey) : List (GroupKey × Group) :=
  let fl := (s.core c).flights
  (s.teams.filter (fun t => t.core = some c)).flatMap (fun t =>
    (t.groups.filter (fun g => g.quarter.isSome && !g.ended { team := t.key, idx := g.idx } fl)).map
      (fun g => (({ team := t.key, idx := g.idx } : GroupKey), g)))

/-- The resident groups of a quarter. -/
def State.onQuarter (s : State) (c : CoreKey) (q : Nat) : List (GroupKey × Group) :=
  (s.residents c).filter (fun e => e.2.quarter = some q)

/-- The core of a group. -/
def State.coreOf (s : State) (k : GroupKey) : Option CoreKey := (s.team? k.team).bind (fun t => t.core)

/-- The slot environment of a group. -/
def State.slotEnv (s : State) (k : GroupKey) : SlotEnv :=
  match s.coreOf k, (s.group? k).bind (fun g => g.quarter) with
  | some c, some q =>
    let others := (s.onQuarter c q).filter (fun e => e.1 ≠ k)
    { used := others.flatMap (fun e => e.2.splits.map (fun x => x.slot)),
      none := (others.filter (fun e => e.2.splits.isEmpty)).length, clock := s.clock c.die }
  | _, _ => { used := [], none := 0, clock := 0 }

/-- The slot that a group may open, if one is free (R304). -/
def Group.freeSlot (g : Group) (env : SlotEnv) : Option Nat :=
  if g.splits.length < 4 && env.used.length + g.splits.length + env.none < Config.quarterSlots then
    (upFrom 0 Config.quarterSlots).find? (fun n => !env.used.contains n && !g.splits.any (fun x => x.slot = n))
  else none

/-! ### Wait stamps (R40, R308) -/

/-- The stamp of a waiting lane. -/
def Lane.stamp (l : Lane) : Option Nat := match l.st with | .waiting n => some n | _ => none

/-- Count the stamp counter up, renumbering the stamps in use before it would pass 65,535. -/
def Group.bump (g : Group) : Group :=
  if g.stamp < 65535 then { g with stamp := g.stamp + 1 }
  else
    let used := sortNat (g.lanes.filterMap Lane.stamp)
    let again (l : Lane) : Lane :=
      match l.st with
      | .waiting n => { l with st := .waiting (used.filter (fun m => m < n)).length }
      | _ => l
    { g with lanes := g.lanes.map again, stamp := used.length }

/-- Lanes become Waiting at a PC with the present stamp. -/
def Group.setWaiting (g : Group) (is : List Nat) (pc : Addr) : Group :=
  g.updLanes is (fun _ l => { l with st := .waiting g.stamp, pc := pc })

/-! ### Split formation (R41) -/

/-- A split at a run boundary that is not blocked: lanes may join it (R41). -/
def Split.isOpen (x : Split) : Bool :=
  x.block.isNone && (match x.fetch with | some f => f.run.isNone | none => true)

/-- The live split that lanes at a PC may join, but for one that is inside its run (R41) or stopped there
(18 R400). -/
def Group.openAt (g : Group) (pc : Addr) : Option Split :=
  g.splits.find? (fun x => x.isOpen && g.run.all (fun r => r.slot ≠ x.slot) && g.trapRun.all (fun r => r.slot ≠ x.slot) && x.pc = pc)

/-- A split fresh at a PC. -/
def Split.fresh (slot : Nat) (pc : Addr) : Split :=
  { slot := slot, pc := pc, block := none, ready := none, since := none, low := false, promoted := false, fetch := none }

/-- The clock of the oldest release among lanes of a list, which is the age of a split that they form (13 R307). -/
def Group.releasedAt (g : Group) (is : List Nat) : Option Nat :=
  minBy (fun n => n) (is.filterMap (fun i => (nth g.lanes i).bind (fun l => l.came.since)))

/-- Lanes become the members of a new split in a slot. -/
def Group.openSplit (g : Group) (slot : Nat) (pc : Addr) (is : List Nat) : Group :=
  let g := g.updLanes is (fun _ l => { l with st := .active slot, pc := pc })
  { g with splits := g.splits ++ [{ Split.fresh slot pc with since := g.releasedAt is }] }

/-- For each PC in order: a split if a slot is free, else its lanes become Waiting; says whether any did. -/
def Group.spread (env : SlotEnv) (at' : Addr → List Nat) : List Addr → Group → Group × Bool
  | [], g => (g, false)
  | p :: ps, g =>
    match g.freeSlot env with
    | some n => Group.spread env at' ps (g.openSplit n p (at' p))
    | none =>
      let (g', _) := Group.spread env at' ps (g.setWaiting (at' p) p)
      (g', true)

/-- The distinct PCs of lanes, in increasing order. -/
def pcsOf (nexts : List (Nat × Addr)) : List Addr :=
  (sortNat (nexts.map (fun e => e.2.toNat))).map (fun n => BitVec.ofNat 64 n)

/-- The lanes that go to a PC. -/
def lanesAt (nexts : List (Nat × Addr)) (p : Addr) : List Nat := (nexts.filter (fun e => e.2 = p)).map (fun e => e.1)

/-- Lanes join live splits that stand at their PCs (R41 step 5). -/
def Group.joinOpen (g : Group) (nexts : List (Nat × Addr)) : Group :=
  let join (i : Nat) (l : Lane) : Lane :=
    match kget i nexts with
    | some p => (match g.openAt p with | some x => { l with st := .active x.slot, pc := p } | none => l)
    | none => l
  { g with lanes := mapIdx join g.lanes 0 }

/-- Place the lanes of one step: splits while slots are free, the rest Waiting with one stamp (R40, R41). -/
def Group.place (g : Group) (env : SlotEnv) (nexts : List (Nat × Addr)) : Group :=
  match Group.spread env (lanesAt nexts) (pcsOf nexts) g with
  | (g, true) => g.bump
  | (g, false) => g

/-- Step 5, joining: waiting lanes whose PC is that of a live split that is not blocked. -/
def Group.joinWaiting (g : Group) : Group :=
  let join (l : Lane) : Lane :=
    if l.isWaiting then
      match g.openAt l.pc with
      | some x => { l with st := .active x.slot }
      | none => l
    else l
  { g with lanes := g.lanes.map join }

/-- Step 5, forming: while a slot is free and lanes wait, the oldest stamp's lowest PC gets a split. -/
def Group.formWaiting (env : SlotEnv) : Nat → Group → Group
  | 0, g => g
  | fuel + 1, g =>
    match g.freeSlot env, minBy (fun n => n) (g.lanes.filterMap Lane.stamp) with
    | some n, some m =>
      match minBy (fun (a : Addr) => a.toNat) ((g.lanes.filter (fun l => l.st = .waiting m)).map (fun l => l.pc)) with
      | some p => Group.formWaiting env fuel (g.openSplit n p (idxWhere (fun l => l.isWaiting && l.pc = p) g.lanes 0))
      | none => g
    | _, _ => g

/-- Step 5 of R41. -/
def Group.step5 (g : Group) (env : SlotEnv) : Group := g.joinWaiting.formWaiting env 4

/-- Place lanes that an event releases from Yielded or Trap-held: they join a live split at their PC, the others as `place`; Waiting lanes
whose PC a split now has join it (R39, R41 step 5). -/
def Group.placeReleased (g : Group) (env : SlotEnv) (nexts : List (Nat × Addr)) : Group :=
  ((g.joinOpen nexts).place env (nexts.filter (fun e => (g.openAt e.2).isNone))).step5 env

/-- A split ends: its slot is free. -/
def Group.dropSplit (g : Group) (slot : Nat) : Group := { g with splits := g.splits.filter (fun x => x.slot ≠ slot) }

/-- Change a split. -/
def Group.updSplit (g : Group) (slot : Nat) (f : Split → Split) : Group :=
  { g with splits := updWhere (fun x => x.slot = slot) f g.splits }

/-- Lanes that a rejoin barrier releases at a TRAIL: to FALL of the latest arrival, in the slot that the issuing split gave up
when its own arrival completed the barrier (R43). -/
structure Release where
  lanes : List Nat
  pc : Addr
  own : Bool
deriving DecidableEq, Repr

/-- Lanes that a rejoin barrier releases come by the TRAIL before their FALL (R45). -/
def Group.viaTrail (g : Group) (is : List Nat) (fall : Addr) : Group :=
  g.updLanes is (fun _ l => { l with came := { via := some (fall - 4), since := none } })

/-- The releases in order, and whether lanes are left Waiting. -/
def Group.releaseAll (env : SlotEnv) (slot : Nat) : List Release → Group → Group × Bool
  | [], g => (g, false)
  | r :: rs, g =>
    let g := g.viaTrail r.lanes r.pc
    let (g, w) :=
      if r.own && !g.splits.any (fun x => x.slot = slot) then (g.openSplit slot r.pc r.lanes, false)
      else Group.spread env (fun _ => r.lanes) [r.pc] g
    let (g, w') := Group.releaseAll env slot rs g
    (g, w || w')

/-- Apply the releases of one event: lanes left without a slot share one stamp (R40, R43). Open points: DEDUCED (log 15). -/
def Group.release (g : Group) (env : SlotEnv) (slot : Nat) (rs : List Release) : Group :=
  match Group.releaseAll env slot rs g with
  | (g, true) => g.bump
  | (g, false) => g

/-- Lanes that a split keeps in its slot. -/
def Group.keepSplit (g : Group) (slot : Nat) (pc : Addr) (is : List Nat) (block : Option Block) : Group :=
  let g := g.updLanes is (fun _ l => { l with st := .active slot, pc := pc })
  g.updSplit slot (fun x => { x with pc := pc, block := block, ready := none, since := none, low := false, promoted := false,
                                     fetch := none })

/-- What steps 2 to 5 of R41 work on: the split's slot, RUNADDR and FALL of its run, the next PCs of the lanes that stay in its
mask, the lanes of a plain WAIT or BWAIT that holds with what it waits for, the lanes that YIELD, and the releases. -/
structure TrailIn where
  slot : Nat
  runAddr : Addr
  fall : Addr
  nexts : List (Nat × Addr)
  blocked : List Nat
  block : Option Block
  yields : List Nat
  releases : List Release
deriving DecidableEq, Repr

/-- The splits and waiting lanes of step 3, one stamp for all lanes left without a slot. -/
def Group.spreadAll (g : Group) (env : SlotEnv) (rest : List (Nat × Addr)) (ps : List Addr) : Group :=
  match Group.spread env (lanesAt rest) ps g with
  | (g, true) => g.bump
  | (g, false) => g

/-- Step 4 of R41 and YIELD (R111): lanes of the kept slot become Waiting with a new stamp; the slot is free once it is empty. -/
def Group.rotate (g : Group) (slot : Nat) (pc : Addr) (is : List Nat) : Group :=
  let g := (g.setWaiting is pc).bump
  if (g.active slot).isEmpty then g.dropSplit slot else g

/-- Steps 2 to 5 of R41 at a TRAIL. -/
def Group.trail (g : Group) (env : SlotEnv) (x : TrailIn) : Group :=
  let target (p : Addr) := g.splits.find? (fun u => u.slot ≠ x.slot && u.isOpen && u.pc = p)
  let merge (i : Nat) (l : Lane) : Lane :=
    match kget i x.nexts with
    | some p => match target p with | some u => { l with st := .active u.slot, pc := p } | none => l
    | none => l
  let waiting := g.lanes.any Lane.isWaiting
  let g := { g with lanes := mapIdx merge g.lanes 0 }
  let rest := x.nexts.filter (fun e => (target e.2).isNone)
  let ps := pcsOf rest
  let g :=
    if !x.blocked.isEmpty then (g.keepSplit x.slot x.fall x.blocked x.block).spreadAll env rest ps
    else
      match ps with
      | [] => g.dropSplit x.slot
      | p :: more =>
        let g := (g.keepSplit x.slot p (lanesAt rest p) none).spreadAll env rest more
        let yields := (g.active x.slot).filter (fun i => x.yields.contains i)
        if p.toNat ≤ x.runAddr.toNat && waiting then g.rotate x.slot p (g.active x.slot)
        else if yields.isEmpty then g
        else if waiting then g.rotate x.slot p yields
        else g.updSplit x.slot (fun u => { u with low := true, since := some env.clock })
  (g.release env x.slot x.releases).step5 env

/-- Lanes released from Yielded or Trap-held by one event (R39 to R41): a live split at their PC first, then free slots, then
Waiting with one stamp. -/
def State.releaseLanes (s : State) (k : GroupKey) (nexts : List (Nat × Addr)) : State :=
  if nexts.isEmpty then s else s.updGroup k (fun g => g.placeReleased (s.slotEnv k) nexts)

/-! ### Trap records (18 R394 to R397) -/

/-- The fields of a trap record (R394). -/
structure Rec where
  cause : Cause
  kind : Nat
  async : Bool := false
  first : Bool := false
  parked : Bool := false
  queue : Option Nat := none
  team : Nat := 0
  gid : Nat := 0
  die : Nat := 0
  core : Nat := 0
  arg : Nat := 0
  pc : Addr := 0
  va : Nat := 0
  done : Mask := 0
  skid : Nat := 0
  acc : Nat := 0
  pol : Nat := 0
  np : Bool := false
  lseq : W32 := 0
deriving DecidableEq, Repr

def b2n (b : Bool) : Nat := if b then 1 else 0

/-- The sixteen words of a record; the SEQ word is filled when it is written. -/
def Rec.words (r : Rec) : List W32 :=
  let o (x : Nat) : W32 := BitVec.ofNat 32 x
  [o (r.cause.toNat + r.kind * 2 ^ 10 + b2n r.async * 2 ^ 13 + b2n r.first * 2 ^ 14 + b2n r.parked * 2 ^ 15
      + (match r.queue with | some q => q * 2 ^ 16 + 2 ^ 24 | none => 0)),
   0, o r.team, o (r.gid + r.die * 16 + r.core * 256 + r.arg * 2 ^ 16),
   lo32 r.pc, hi32 r.pc, o r.va, o (r.va / 2 ^ 32), lo32 r.done, hi32 r.done,
   o (r.skid + r.acc * 256 + r.pol * 2 ^ 12 + b2n r.np * 2 ^ 15), r.lseq, 0, 0, 0, 0]

/-- Entries of the trap ring (R395). -/
def Part.tqSize (p : Part) : Nat := 2 ^ (p.tqLg + 4)

/-- Free entries F of the trap ring (R396). -/
def Part.tqFree (p : Part) : Nat :=
  match p.tq with
  | none => 0
  | some _ => p.tqSize - (p.tqWr + 2 ^ 31 - p.tqRd) % 2 ^ 31

/-- Write a record to the ring (R396): at its home first, then TQWR. -/
def State.writeRecord (s : State) (part : Nat) (ws : List W32) : State :=
  match s.part? part with
  | none => s
  | some p =>
    let a := p.tq.getD 0 + 64 * (p.tqWr % p.tqSize)
    let ws := updNth (fun _ => BitVec.ofNat 32 p.tqWr) ws 1
    let s := if s.ownsKey part a then s.homeWrite a (bytesOfWords ws) (.part part) (a / 2 ^ 35) else s
    s.updPart part (fun p => { p with tqWr := (p.tqWr + 1) % 2 ^ 31 })

/-- Freeze a partition with a cause (R397). -/
def State.freeze (s : State) (part : Nat) (c : Cause) : State :=
  s.updPart part (fun p => { p with frozen := some (p.frozen.getD c), resetting := false,
                                    frozeAt := if p.frozen.isSome then p.frozeAt else (p.tqWr, p.tqRd) })

/-- What happens once a record is in the ring: a stop record is named by its SEQ, a launch end lets its launch complete. -/
def State.recordWritten (s : State) (seq : Nat) (group : Option GroupKey) (launch : Option Nat) : State :=
  let s := match group with
    | some k => s.updGroup k (fun g => { g with recorded := some (some seq) })
    | none => s
  match launch with
  | some l => s.updLaunch l (fun x => { x with recordDue := none })
  | none => s

/-- Record kinds of R394. -/
def kNotice : Nat := 0
def kStop : Nat := 1
def kSibling : Nat := 2
def kTeamEnd : Nat := 3
def kLaunchEnd : Nat := 4
def kReset : Nat := 5
def kFatal : Nat := 6

/-- Put a record to the trap queue of a partition (R396). -/
def State.emit (s : State) (part : Nat) (r : Rec) (group : Option GroupKey) (launch : Option Nat) : State :=
  match s.part? part with
  | none => s
  | some p =>
    let drop := s.updPart part (fun p => { p with tqDrop := p.tqDrop + 1 })
    if r.kind = kNotice then
      if p.tqFree ≥ 3 then
        let s := s.writeRecord part r.words
        match group with
        | some k => s.updPart part (fun x => { x with notices := x.notices ++
            [{ seq := p.tqWr, group := k, va := r.va, parked := r.parked }] })
        | none => s
      else drop
    else if r.kind = kReset || r.kind = kFatal then
      if p.tqFree ≥ 1 then s.writeRecord part r.words else s.freeze part Causes.trapOverflow
    else if p.tqFree ≥ 3 && p.heldRecs.isEmpty then
      (s.writeRecord part r.words).recordWritten p.tqWr group launch
    else if r.kind = kLaunchEnd && p.resetting then
      match launch with
      | some l => drop.updLaunch l (fun x => { x with recordDue := none })
      | none => drop
    else
      let s := match group with
        | some k => s.updGroup k (fun g => { g with recorded := some none })
        | none => s
      s.updPart part (fun x => { x with heldRecs := x.heldRecs ++
        [{ words := r.words, kind := r.kind, group := group, launch := launch }] })

/-- Write held records as space appears (R396). -/
def flushHeld (part : Nat) : List HeldRec → State → State
  | [], s => s.updPart part (fun p => { p with heldRecs := [] })
  | h :: hs, s =>
    match s.part? part with
    | none => s
    | some p =>
      if p.tqFree ≥ 3 then
        flushHeld part hs ((s.writeRecord part h.words).recordWritten p.tqWr h.group h.launch)
      else s.updPart part (fun p => { p with heldRecs := h :: hs })

/-- The completion count that a launch's completion will produce (R394, LSEQ). -/
def State.lseq (s : State) (part queue launch : Nat) : W32 :=
  match (s.part? part).bind (fun p => p.queues.find? (fun q => q.id = queue)) with
  | some q => q.count + BitVec.ofNat 32 ((q.launches.takeWhile (fun l => l ≠ launch)).length + 1)
  | none => 0

/-- The fields that every record about a group shares (R394). Open points: DESIGN CHOICE (log 20). -/
def State.groupRec (s : State) (k : GroupKey) (kind : Nat) (c : Cause) : Rec :=
  match s.team? k.team with
  | none => { cause := c, kind := kind }
  | some t =>
    let ck := t.core.getD { die := 0, core := 0 }
    let gid := match t.group? k.idx with | some g => g.groupId | none => k.idx % 16
    { cause := c, kind := kind, queue := some t.queue, team := t.id, gid := gid, die := ck.die, core := ck.core,
      lseq := s.lseq t.part t.queue t.launch }

/-! ### Taking an exception: the team stop (18 R398, R399) -/

/-- A cause with only its PC. -/
def StopCause.at (c : Cause) (pc : Addr) : StopCause :=
  { cause := c, pc := pc, arg := 0, va := 0, acc := 0, pol := 0, np := false, async := false }

/-- The cause of a team that carries FIRST, once a group raises one: the earlier, and of one core clock the lower GROUPID's (R399). -/
def Team.firstStop (t : Team) (c : StopCause) (g : Group) (clock : Nat) : StopCause × Nat × Nat :=
  match t.stop with
  | none => (c, g.idx, clock)
  | some (x, i, n) =>
    if n = clock && (t.group? i).any (fun h => h.recorded.isNone && g.groupId < h.groupId) then (c, g.idx, clock) else (x, i, n)

/-- Take a team stop raised by a group. The group keeps its first cause; the first cause of the team carries FIRST. A cause after
the stop has reached the group is not raised. Unless it was found after the instruction issued (`late`), the group's run ends at
the instruction. Groups of the team that were to be evicted are not (13 R303). Open points: DEDUCED (log 19). -/
def State.raiseStop (s : State) (k : GroupKey) (c : StopCause) (late : Bool) : State :=
  match s.team? k.team, s.group? k with
  | some t, some g =>
    let clock := match t.core with | some ck => s.clock ck.die | none => 0
    let reached := g.stopped
    let s := s.updGroup k (fun g =>
      { g with cause := if reached then g.cause else some (g.cause.getD c), stopped := true,
               trapRun := if late || reached then g.trapRun else g.run,
               run := if late then g.run else none })
    if reached then s
    else s.updTeam k.team (fun t =>
      { t with stop := some (t.firstStop c g clock), groups := t.groups.map (fun g => { g with draining := false }) })
  | _, _ => s

/-- A team stop found at issue or at a TRAIL. -/
def State.teamStop (s : State) (k : GroupKey) (c : StopCause) : State := s.raiseStop k c false

/-- A team stop found after its instruction issued: the group finishes its current run (R398). Open points: DEDUCED (log 19). -/
def State.lateStop (s : State) (k : GroupKey) (c : StopCause) : State := s.raiseStop k c true

/-- The stop reaches every group of the team (R398). -/
def State.stopReach (s : State) (team : Nat) : State :=
  s.updTeam team (fun t => { t with groups := t.groups.map (fun g => { g with stopped := true }) })

/-- Whether a pending operation is parked on a fault. -/
def PendOp.isParked (o : PendOp) : Bool := o.lanes.any (fun l => l.acc = .parked)

/-- The sequence numbers and lanes of a group's calls in parked tiles. -/
def State.parkedCalls (s : State) (k : GroupKey) : List (Nat × Nat) :=
  s.clusters.flatMap (fun c => (c.2.tiles.filter (fun t => t.parked.isSome)).flatMap (fun t =>
    (t.calls.filter (fun x => x.group = k)).map (fun x => (x.seq, x.lane))))

/-- Whether a pending operation is parked: an access of its, or a call of its in a parked tile. -/
def PendOp.isHeld (o : PendOp) (calls : List (Nat × Nat)) : Bool := o.isParked || calls.any (fun e => e.1 = o.seq)

/-- Whether an operation is an access to memory. -/
def PendKind.isMem : PendKind → Bool
  | .load _ _ _ _ _ _ => true
  | .atom _ _ _ _ => true
  | .cas _ _ _ => true
  | _ => false

/-- Whether an operation sends feedback minima, which are relaxed atomics (07 R178). -/
def PendKind.feeds : PendKind → Bool
  | .tex _ _ _ nofb => !nofb
  | _ => false

/-- The scope of an operation. -/
def PendKind.scope : PendKind → Nat
  | .load _ _ _ scope _ _ => scope
  | .atom _ _ _ scope => scope
  | .cas _ _ scope => scope
  | _ => 0

/-- Whether an entry is a release (11 R260). -/
def QEntry.releases (e : QEntry) : Bool := match e.kind with | .barr _ _ => true | _ => e.scope ≠ 0

/-- Whether a parked access of the group holds what comes after a sequence number: a load or atomic, a store of the queue, and for a release
also a sample with feedback (11 R258, R260; 18 R401). Open points: DEDUCED (log 31). -/
def Group.behind (g : Group) (seq : Nat) (rel : Bool) : Bool :=
  g.pend.any (fun x => x.seq < seq && x.isParked && (x.kind.isMem || (rel && x.kind.feeds)))
  || (match g.queue with | [] => false | e :: _ => e.parked && e.seq < seq)

/-- Whether the head of the group's store queue is parked, or held behind a parked access. -/
def Group.queueHeld (g : Group) : Bool := match g.queue with | [] => false | e :: _ => e.parked || g.behind e.seq e.releases

/-- The group's tile operations that a held store keeps in their core's matrix queue, themselves or behind another's (06 R160; 13 R309). -/
def State.heldTiles (s : State) (k : GroupKey) : List Nat :=
  let stuck (j : TileJob) : Bool := match s.group? j.group with
    | some g => g.queueHeld && g.queue.any (fun e => e.seq < j.seq)
    | none => false
  match s.coreOf k with
  | some c => (((s.core c).tiles.dropWhile (fun j => !stuck j)).filter (fun j => j.group = k)).map (fun j => j.op)
  | none => []

/-- Whether a group's accesses, stores and tile operations that are neither parked nor held behind a parked access are performed
(R398). -/
def Group.drained (g : Group) (flights : List Flight) (calls : List (Nat × Nat)) (tiles : List Nat) (k : GroupKey) : Bool :=
  g.run.isNone && g.pend.all (fun o => o.isHeld calls || (o.kind.isMem && g.behind o.seq (o.kind.scope ≠ 0)))
  && (g.queue.isEmpty || g.queueHeld)
  && g.bulk.all (fun b => b.done || !b.tile || tiles.contains b.id)
  && !flights.any (flightOf k)

/-- What a stopped group would issue next: the PC of its last issuing split, or of its lowest split; without one, that of its lowest
waiting lane, or of its lowest lane that lives, which before any run is its role's entry PC (R398; 02 R52). -/
def Group.nextPc (g : Group) : Addr :=
  match g.splits.find? (fun x => x.slot = g.lastSlot), g.splits.head?, g.lanes.find? Lane.isWaiting, g.lanes.find? (fun l => !l.isExited) with
  | some x, _, _, _ => x.pc
  | none, some x, _, _ => x.pc
  | none, none, some l, _ => l.pc
  | none, none, none, some l => l.pc
  | none, none, none, none => 0

/-- Whether the cause that carries FIRST may still change: in its core clock a group that the stop has not reached may raise one (R399). -/
def State.firstOpen (s : State) (t : Team) : Bool :=
  match t.stop, t.core with
  | some (_, _, n), some c => s.clock c.die ≤ n && t.groups.any (fun g => !g.stopped)
  | _, _ => false

/-- The record of a stopped and drained group, once the FIRST cause is settled (R398, R399): KIND 1 for its own cause, else KIND 2; a group
that has ended writes none. Open points: DEDUCED (log 31). -/
def State.stopRecord (s : State) (k : GroupKey) : State :=
  match s.team? k.team, s.group? k with
  | some t, some g =>
    match t.stop with
    | none => s
    | some (first, gid, _) =>
      let fl := match t.core with | some c => (s.core c).flights | none => []
      if s.firstOpen t || !g.stopped || g.recorded.isSome || g.ended k fl || !g.drained fl (s.parkedCalls k) (s.heldTiles k) k then s
      else
        let base := s.groupRec k kStop first.cause
        let r : Rec := match g.cause with
          | some c => { base with cause := c.cause, async := c.async, first := k.idx = gid, arg := c.arg, pc := c.pc,
                                  va := c.va, acc := c.acc, pol := c.pol, np := c.np, skid := g.skid }
          | none => { base with kind := kSibling, pc := g.nextPc, skid := g.skid }
        s.emit t.part r (some k) none
  | _, _ => s

/-! ### Lane traps (14 R329) -/

/-- An instruction of the current run marks lanes with a lane trap, or, with TBUDGET 0, stops the team once it has completed
(R49, R329). The first mark of a run stands. Open points: DEDUCED (log 29). -/
def State.laneTraps (s : State) (k : GroupKey) (traps : List (Nat × LaneTrap)) : State :=
  match s.team? k.team, traps with
  | none, _ => s
  | _, [] => s
  | some t, (_, tr) :: _ =>
    if t.rec'.tbudget = 0 then s.teamStop k (StopCause.at Causes.missingVector tr.pc)
    else
      let mark (i : Nat) (l : Lane) : Lane :=
        match kget i traps with
        | some x => if l.mark.isNone then { l with mark := some x } else l
        | none => l
      s.updGroup k (fun g => { g with lanes := mapIdx mark g.lanes 0 })

/-! ### The return from a lane trap (14 R333) -/

/-- The origin lane takes back v0 to v(min(31, b-1)), p0 to p6 and FPFLAGS of its handler lane, and leaves Trap-held at the
target (R333). -/
def Lane.returnTo (o h : Lane) (budget : Nat) (target : Addr) : Lane :=
  { o with v := (upFrom 0 (min 32 budget)).foldl (fun v r => Tbl.set v r (Tbl.get h.v r)) o.v,
           p := h.p, fl := h.fl, pc := target }

/-- Change one lane of a group. -/
def State.updLane (s : State) (k : GroupKey) (i : Nat) (f : Lane → Lane) : State :=
  s.updGroup k (fun g => { g with lanes := updNth f g.lanes i })

/-- A lane leaves every enrolment and arrival (R41 step 1). -/
def Group.leaveJoins (g : Group) (m : Mask) : Group :=
  { g with joins := g.joins.map (fun j => { j with enrol := j.enrol &&& ~~~m, arrived := j.arrived &&& ~~~m }) }

end Sys2Proof.Machine
end

