-- ==== Sys2Proof/Machine/Operands.lean ====
section
/-! DEFINITION. Operand forms: the kinds an operand field may hold and the registers it spans, the values operands read, and
the order of the checks of an issuing instruction (03 R60 to R62, R68 to R73; 02 R31, R34 to R36, R45). -/

namespace Sys2Proof.Machine

/-! ### The issuer -/

/-- The group that issues, with its team, run, core, and the active and contributing lanes of its split (R105). -/
structure Iss where
  key : GroupKey
  team : Team
  g : Group
  run : Run
  core : CoreKey
  active : List Nat
  lanes : List Nat
deriving DecidableEq, Repr

/-- A predicate of a lane; p7 reads true (R33). -/
def Lane.pred (l : Lane) (k : Nat) : Bool := k = 7 || l.p.getLsbD k

/-- The lane with a predicate written; p7 ignores writes (R33). -/
def Lane.setPred (l : Lane) (k : Nat) (b : Bool) : Lane :=
  if k = 7 then l
  else { l with p := if b then l.p ||| ((1 : BitVec 8) <<< k) else l.p &&& ~~~((1 : BitVec 8) <<< k) }

/-- The guard of a lane (R69). -/
def Lane.guard (l : Lane) (m : Modifier) : Bool := l.pred m.pg.toNat != m.gn

/-- Whether a partition is being reset: its cores have stopped issuing (18 R407). -/
def State.resetting (s : State) (part : Nat) : Bool := match s.part? part with | some p => p.resetting | none => false

/-- The issuer on the focus quarter: the group that has a run of one of its splits in progress there. -/
def State.issuer (s : State) : Option Iss :=
  let c : CoreKey := { die := s.focus.die, core := s.focus.core }
  firstSome (fun (e : GroupKey × Group) =>
    let mine : Option (Group × Run) := (s.group? e.1).bind (fun g =>
      (g.run.filter (fun r => g.splits.any (fun x => x.slot = r.slot))).map (fun r => (g, r)))
    match mine, (s.team? e.1.team).filter (fun t => !s.resetting t.part) with
    | some (g, r), some t =>
      let act := g.active r.slot
      let contributes (i : Nat) : Bool :=
        match nth g.lanes i with
        | some l => l.guard r.pfx && l.mark.isNone
        | none => false
      some { key := e.1, team := t, g := g, run := r, core := c, active := act, lanes := act.filter contributes }
    | _, _ => none) (s.onQuarter c s.focus.quarter)

/-! ### Kinds and spans -/

/-- The kinds of operand that a field may hold. -/
structure Kinds where
  v : Bool
  w : Bool
  t : Bool
  inl : Bool
  lit : Bool
deriving DecidableEq, Repr

def Kinds.any : Kinds := { v := true, w := true, t := true, inl := true, lit := true }
/-- A destination: v, w or t (R104). -/
def Kinds.vwt : Kinds := { v := true, w := true, t := true, inl := false, lit := false }
def Kinds.vw : Kinds := { v := true, w := true, t := false, inl := false, lit := false }
def Kinds.vt : Kinds := { v := true, w := false, t := true, inl := false, lit := false }
def Kinds.vOnly : Kinds := { v := true, w := false, t := false, inl := false, lit := false }
def Kinds.wOnly : Kinds := { v := false, w := true, t := false, inl := false, lit := false }
def Kinds.wImm : Kinds := { v := false, w := true, t := false, inl := true, lit := true }

def Kinds.allows (k : Kinds) : Opnd → Bool
  | .v _ => k.v
  | .w _ => k.w
  | .t _ => k.t
  | .inl _ => k.inl
  | .lit _ => k.lit

/-- An operand field as its entry gives it: kinds allowed, registers spanned, alignment of the first, read or written. -/
structure Slot where
  op : Opnd
  kinds : Kinds
  n : Nat
  al : Nat
  src : Bool
  dst : Bool
deriving DecidableEq, Repr

/-- A source of one register of any kind. -/
def Slot.a (o : Opnd) : Slot := { op := o, kinds := Kinds.any, n := 1, al := 1, src := true, dst := false }
/-- A destination of one register. -/
def Slot.d (o : Opnd) : Slot := { op := o, kinds := Kinds.vwt, n := 1, al := 1, src := false, dst := true }
/-- A destination that is also read. -/
def Slot.da (o : Opnd) : Slot := { op := o, kinds := Kinds.vwt, n := 1, al := 1, src := true, dst := true }
/-- A source of given kinds, span and alignment. -/
def Slot.s (o : Opnd) (k : Kinds) (n al : Nat) : Slot := { op := o, kinds := k, n := n, al := al, src := true, dst := false }
/-- A destination of given kinds, span and alignment. -/
def Slot.o (o : Opnd) (k : Kinds) (n al : Nat) : Slot := { op := o, kinds := k, n := n, al := al, src := false, dst := true }

/-- The first register of an operand is aligned, and a w or t span stays within its bank (R34, R60). -/
def Slot.fits (x : Slot) : Bool :=
  match x.op with
  | .v r => r.val % x.al = 0
  | .w r => r.toNat % x.al = 0 && r.toNat + x.n ≤ 32
  | .t r => r.toNat % x.al = 0 && r.toNat + x.n ≤ 16
  | .inl _ => true
  | .lit _ => true

def opVec : Opnd → Bool | .v _ => true | .t _ => true | _ => false
def opW : Opnd → Bool | .w _ => true | _ => false
def opT : Opnd → Bool | .t _ => true | _ => false

/-- The temporaries of a span, one bit each. -/
def Slot.temps (x : Slot) : BitVec 16 :=
  match x.op with
  | .t r => BitVec.ofNat 16 ((2 ^ x.n - 1) * 2 ^ r.toNat)
  | _ => 0

/-! ### What an entry says of an instruction -/

/-- The prefix fields that an instruction honours (R70). -/
structure Honour where
  g : Bool
  a : Bool
  b : Bool
  d : Bool
  k : Bool
  sat : Bool
  clamp : Bool
deriving DecidableEq, Repr

/-- The guard alone. -/
def Honour.guard : Honour := { g := true, a := false, b := false, d := false, k := false, sat := false, clamp := false }
/-- No field. -/
def Honour.none : Honour := { g := false, a := false, b := false, d := false, k := false, sat := false, clamp := false }

/-- The form of an instruction: operand fields, prefix fields, and the facts that the checks of R72 need. `reserved` and `fn`
are the failures of steps 2 and 3 that depend on field values, `bad` an operand rule of the entry, `mixed` that a w
destination may have vector sources, `vector` that it runs on the vector datapath whatever its operands. -/
structure Shape where
  slots : List Slot
  hon : Honour := Honour.guard
  reserved : Bool := false
  fn : Option Cause := none
  bad : Bool := false
  enc : Bool := false
  mixed : Bool := false
  vector : Bool := false
  long : Bool := false
  ender : Bool := false
  priv : Bool := false
  tag : Option (BitVec 4) := none
  d5 : Option Nat := none
  tile : Option Nat := none
  noHandler : Bool := false
  onlyHandler : Bool := false
deriving DecidableEq, Repr

/-- Whether the destination is a w register (R35). -/
def Shape.wDest (sh : Shape) : Bool := sh.slots.any (fun x => x.dst && opW x.op)

/-- Whether a source is a v or t register (R35). -/
def Shape.vecSrc (sh : Shape) : Bool := sh.slots.any (fun x => x.src && opVec x.op)

/-- The instruction runs on the uniform datapath (R35). -/
def Shape.uniform (sh : Shape) : Bool := sh.wDest && !sh.vecSrc && !sh.vector

/-- Step 6 of R72: a prefix field is set that is not honoured (R70). -/
def Shape.unhonoured (sh : Shape) (m : Modifier) : Bool :=
  let h := sh.hon
  m.rm.toNat > 4 || ((m.pg ≠ 7 || m.gn) && (!h.g || sh.uniform))
  || ((m.na || m.aa) && !h.a) || ((m.nb || m.ab) && !h.b) || ((m.nd || m.ad) && !h.d)
  || ((m.k ≠ 0 || m.rm ≠ 0) && !h.k) || (m.sat && !h.sat) || (m.clamp && !h.clamp)

/-- Step 7 of R72: a register beyond the budget, or a tile beyond the grant (R31, R54). -/
def Shape.overBudget (sh : Shape) (budget tiles : Nat) : Bool :=
  sh.slots.any (fun x => match x.op with | .v r => r.val + x.n > budget | _ => false)
  || (match sh.d5 with | some r => r ≥ budget | none => false)
  || (match sh.tile with | some m => m ≥ tiles | none => false)

/-- The first check of R72 that fails, then the handler's own (14 R332). Open points: DEDUCED (log 13). -/
def Shape.firstError (sh : Shape) (is : Iss) : Option Cause :=
  let m := is.run.pfx
  if sh.reserved || m.reserved ≠ 0 then some Causes.reservedField
  else match sh.fn with
  | some c => some c
  | none =>
    if sh.slots.any (fun x => !(x.kinds.allows x.op && x.fits)) || sh.bad then
      some Causes.illegalOperand
    else if sh.enc || (sh.wDest && sh.vecSrc && !sh.mixed)
        || sh.slots.any (fun x => x.dst && (match x.op with | .w r => r.toNat < 8 | _ => false)) then
      some Causes.encoding
    else if sh.priv && !is.team.sup then some Causes.privilege
    else if sh.unhonoured m then some Causes.notHonoured
    else if sh.overBudget is.g.budget is.team.rec'.tiles then some Causes.registerBudget
    else if sh.ender && is.run.left > 1 then some Causes.enderNotLast
    else if sh.long && sh.slots.any (fun x => x.dst && opT x.op) then some Causes.longToTemp
    else if sh.slots.any (fun x => x.src && x.temps &&& ~~~is.run.temps ≠ 0) then some Causes.unwrittenTemp
    else if (sh.noHandler && is.g.handler.isSome) || (sh.onlyHandler && is.g.handler.isNone) then
      some Causes.handlerOperation
    else none

/-! ### Values of operands (R61, R62) -/

/-- The types of an operand that R61 distinguishes. -/
inductive OpTy where
  | int | fp | half | bf
deriving DecidableEq, Repr

/-- The integer column of R61. -/
def inlInt (n : Nat) : W32 :=
  match n with
  | 0 => 0#32 | 1 => 1#32 | 2 => 2#32 | 3 => 3#32 | 4 => 4#32 | 5 => 8#32 | 6 => 16#32 | 7 => 0xFFFFFFFF#32
  | 8 => 0xFFFFFFFE#32 | 9 => 31#32 | 10 => 32#32 | 11 => 0xFF#32 | 12 => 0xFFFF#32 | 13 => 0x7FFFFFFF#32
  | _ => 0x80000000#32

/-- The FP32 column of R61. -/
def inlFp (n : Nat) : W32 :=
  match n with
  | 0 => 0#32 | 1 => 0x3F800000#32 | 2 => 0x40000000#32 | 3 => 0x40400000#32 | 4 => 0x40800000#32
  | 5 => 0x41000000#32 | 6 => 0x41800000#32 | 7 => 0xBF800000#32 | 8 => 0xC0000000#32 | 9 => 0x3F000000#32
  | 10 => 0x3E800000#32 | 11 => 0x3E22F983#32 | 12 => 0x40490FDB#32 | 13 => 0x3F317218#32 | _ => 0x7F800000#32

/-- The FP32 column rounded to FP16 with round to nearest even, in one half. -/
def inlHalf (n : Nat) : BitVec 16 :=
  match n with
  | 0 => 0#16 | 1 => 0x3C00#16 | 2 => 0x4000#16 | 3 => 0x4200#16 | 4 => 0x4400#16 | 5 => 0x4800#16 | 6 => 0x4C00#16
  | 7 => 0xBC00#16 | 8 => 0xC000#16 | 9 => 0x3800#16 | 10 => 0x3400#16 | 11 => 0x3118#16 | 12 => 0x4248#16
  | 13 => 0x398C#16 | _ => 0x7C00#16

/-- The FP32 column rounded to BF16 with round to nearest even, in one half. -/
def inlBf (n : Nat) : BitVec 16 :=
  match n with
  | 0 => 0#16 | 1 => 0x3F80#16 | 2 => 0x4000#16 | 3 => 0x4040#16 | 4 => 0x4080#16 | 5 => 0x4100#16 | 6 => 0x4180#16
  | 7 => 0xBF80#16 | 8 => 0xC000#16 | 9 => 0x3F00#16 | 10 => 0x3E80#16 | 11 => 0x3E23#16 | 12 => 0x4049#16
  | 13 => 0x3F31#16 | _ => 0x7F80#16

/-- Word `k` of an inline constant of a type. -/
def inlWord (ty : OpTy) (n k : Nat) : W32 :=
  match ty with
  | .int => if k = 0 then inlInt n else if (inlInt n).getLsbD 31 then 0xFFFFFFFF#32 else 0#32
  | .fp => inlFp n
  | .half => inlHalf n ++ inlHalf n
  | .bf => inlBf n ++ inlBf n

/-- Word `k` of an operand for a lane of a group. -/
def Group.src (g : Group) (l : Lane) (ty : OpTy) (o : Opnd) (k : Nat) : W32 :=
  match o with
  | .v r => Tbl.get l.v (r.val + k)
  | .w r => Tbl.get g.w (r.toNat + k)
  | .t r => Tbl.get l.t (r.toNat + k)
  | .inl n => inlWord ty n.val k
  | .lit x => if k = 0 then x else if ty = .int && x.getLsbD 31 then 0xFFFFFFFF#32 else 0#32

/-- `n` words of an operand. -/
def Group.srcs (g : Group) (l : Lane) (ty : OpTy) (o : Opnd) (n : Nat) : List W32 := (upFrom 0 n).map (g.src l ty o)

/-- A 64-bit operand. -/
def Group.src64 (g : Group) (l : Lane) (o : Opnd) : W64 := pairOf (g.src l .int o 0) (g.src l .int o 1)

/-- The lane that stands for a uniform operation: its sources are w registers and constants only. -/
def Lane.blank : Lane :=
  { v := [], t := [], p := 0, fl := 0, st := .exited, pc := 0, came := { via := none, since := none }, origin := { team := 0, lane := 0, group := 0, pc := 0 },
    mark := none, landed := [] }

/-- Lane `i` of a group. -/
def Group.lane (g : Group) (i : Nat) : Lane := (nth g.lanes i).getD Lane.blank

/-! ### Writing destinations -/

/-- Words written to a lane's registers from an operand's first. -/
def Lane.put (l : Lane) (o : Opnd) (ws : List W32) : Lane :=
  match o with
  | .v r => { l with v := Tbl.setList l.v r.val ws }
  | .t r => { l with t := Tbl.setList l.t r.toNat ws }
  | _ => l

/-- Words written to the group's uniform registers. -/
def Group.putW (g : Group) (o : Opnd) (ws : List W32) : Group :=
  match o with
  | .w r => { g with w := Tbl.setList g.w r.toNat ws }
  | _ => g

/-- The single lane of a list of words by lane. -/
def Group.putLanes (g : Group) (o : Opnd) (is : List Nat) (f : Nat → List W32) : Group :=
  g.updLanes is (fun i l => l.put o (f i))

end Sys2Proof.Machine
end

