-- ==== Sys2Proof/Machine/Flags.lean ====
section
/-! DEFINITION. Flags raised by an instruction, enabled flags, and the issue of an instruction: checks, effect, and the advance
of its run (05 R105, R106; 02 R37, R44; 14 R329, R332). -/

namespace Sys2Proof.Machine

/-! ### Flags (R37, R106) -/

/-- Set flags in a lane; FPFLAGS are sticky (R37). -/
def Lane.raise (l : Lane) (f : BitVec 5) : Lane := { l with fl := l.fl ||| f }

/-- Lanes raise flags: FPFLAGS are set, and a flag that FPTRAP enables gives a lane trap once the instruction has completed,
but not in a handler lane (R106, R332). -/
def State.raise (s : State) (is : Iss) (fs : List (Nat × BitVec 5)) : State :=
  let s := s.updGroup is.key (fun g => g.updLanes (fs.map Prod.fst) (fun i l => l.raise ((kget i fs).getD 0)))
  if is.g.handler.isSome then s
  else
    let on := is.team.rec'.fptrap
    s.laneTraps is.key ((fs.filter (fun e => e.2 &&& on ≠ 0)).map (fun e =>
      (e.1, { cause := Causes.fpFlag, pc := is.run.ipc, arg := BitVec.ofNat 32 (e.2 &&& on).toNat, runAddr := is.run.addr,
              fall := 0 })))

/-! ### Issue -/

/-- What an instruction does once its checks have passed: it completes, stops its team, or is held by a structural stall. -/
inductive Eff where
  | go (s : State)
  | stop (s : State) (c : StopCause)
  | hold (s : State)

/-- The instruction has issued: temporaries of its destinations are written, its tag is named, and the run goes on (R44, R46,
R67). Once its team's stop has reached the group, the instruction counts as skid (18 R394). -/
def State.advance (s : State) (is : Iss) (sh : Shape) : State :=
  let temps := (sh.slots.filter (fun x => x.dst)).foldl (fun m x => m ||| x.temps) (0 : BitVec 16)
  let named : BitVec 16 := match sh.tag with | some t => (1 : BitVec 16) <<< t.toNat | none => 0
  s.updGroup is.key (fun g =>
    { g with run := g.run.map (fun r => { r with left := r.left - 1, temps := r.temps ||| temps, named := r.named ||| named,
                                                 pfx := Modifier.none, stalled := false }),
             skid := if is.g.stopped then g.skid + 1 else g.skid })

/-- The instruction is held: it issues again later (R44). Open points: DEDUCED (log 16). -/
def State.holdRun (s : State) (is : Iss) : State :=
  s.updGroup is.key (fun g => { g with run := g.run.map (fun r => { r with next := r.ipc, pfx := Modifier.none, stalled := true }) })

/-- What an issuer's instruction gives: the state it leaves. -/
def Eff.state (is : Iss) (sh : Shape) : Eff → State
  | .go s => s.advance is sh
  | .stop s c => s.teamStop is.key c
  | .hold s => s.holdRun is

/-- Issue an instruction of a form: the first failing check of R72 stops the team before any effect. -/
def issue (s : State) (sh : Shape) (eff : Iss → Eff) : Host.Outcome State Fault Refusal :=
  match s.issuer with
  | none => .fault .noIssuer
  | some is =>
    match sh.firstError is with
    | some c => .next (s.teamStop is.key (StopCause.at c is.run.ipc))
    | none => .next ((eff is).state is sh)

/-- A stop with only a cause, at the instruction. -/
def Eff.trap (s : State) (is : Iss) (c : Cause) : Eff := .stop s (StopCause.at c is.run.ipc)

/-- The state with the issuer's group replaced. -/
def State.putGroup (s : State) (is : Iss) (g : Group) : State := s.updGroup is.key (fun _ => g)

/-- The flags of results that raise some. -/
def raised {α : Type} (rs : List (Nat × α × BitVec 5)) : List (Nat × BitVec 5) :=
  (rs.filter (fun e => e.2.2 ≠ 0)).map (fun e => (e.1, e.2.2))

/-- Words and flags written to lanes, each with its own. -/
def writeLanes (s : State) (is : Iss) (d : Opnd) (rs : List (Nat × List W32 × BitVec 5)) : Eff :=
  let s := s.putGroup is (is.g.putLanes d (rs.map Prod.fst) (fun i => ((kget i rs).map (fun r => r.1)).getD []))
  .go (if (raised rs).isEmpty then s else s.raise is (raised rs))

/-- Words written once to a uniform destination; the lanes given raise the flags (R105). -/
def writeUniform (s : State) (is : Iss) (d : Opnd) (ws : List W32) (is' : List Nat) (f : BitVec 5) : Eff :=
  let s := s.putGroup is (is.g.putW d ws)
  .go (if f = 0 then s else s.raise is (is'.map (fun i => (i, f))))

/-- Run an instruction that computes words for its destination and flags, in each contributing lane, or once on the uniform
datapath, where every active lane gets the flags (R35, R105). -/
def compute (s : State) (sh : Shape) (is : Iss) (d : Opnd) (f : Lane → List W32 × BitVec 5) : Eff :=
  if sh.uniform then writeUniform s is d (f Lane.blank).1 is.active (f Lane.blank).2
  else writeLanes s is d (is.lanes.map (fun i => (i, f (is.g.lane i))))

/-- Predicates written to lanes, each with its flags. -/
def writePreds (s : State) (is : Iss) (pd : BitVec 3) (rs : List (Nat × Bool × BitVec 5)) : Eff :=
  let s := s.putGroup is (is.g.updLanes (rs.map Prod.fst) (fun i l => l.setPred pd.toNat (((kget i rs).map (fun r => r.1)).getD false)))
  .go (if (raised rs).isEmpty then s else s.raise is (raised rs))

/-- Write a predicate in each contributing lane; flags as `compute`. -/
def computePred (s : State) (is : Iss) (pd : BitVec 3) (f : Lane → Bool × BitVec 5) : Eff :=
  writePreds s is pd (is.lanes.map (fun i => (i, f (is.g.lane i))))

end Sys2Proof.Machine
end

