-- ==== Sys2Proof/Machine/Barrier.lean ====
section
/-! DEFINITION. Barrier objects: their words, updates and waiters (10 R232 to R238), and stores performed at a home, after
which the waiters of an object they touch are judged (R232). -/

namespace Sys2Proof.Machine

/-! ### References (R233) -/

/-- A barrier reference, taken apart. -/
structure Ref where
  sp : Bool
  par : Bool
  addr : Nat
deriving DecidableEq, Repr

/-- The reference that a pair of words holds, if it obeys R233 but for the team's own limits. -/
def Ref.ofPair (x : W64) : Option Ref :=
  let n := x.toNat
  let mid := n / 2 ^ 52 % 2 ^ 10
  let sp := x.getLsbD 63
  let a := n % 2 ^ 52
  if mid ≠ 0 then none
  else if sp then (if a / 2 ^ 32 ≠ 0 then none else some { sp := true, par := x.getLsbD 62, addr := a })
  else if a % 16 ≠ 0 then none else some { sp := false, par := x.getLsbD 62, addr := a }

/-- The allocation offset of a scratchpad reference: an INT32 program address, a multiple of 16, from -256 to SCRATCH - 16. -/
def Ref.offset (r : Ref) (scratch : Nat) : Option Nat :=
  let p := (BitVec.ofNat 32 r.addr).toInt
  if p % 16 ≠ 0 || p < -256 || p + 16 > scratch then none else some (p + 256).toNat

/-- Whether an offset names a batch counter (R53). -/
def isCounter (off : Nat) : Bool := off < 256

/-- Whether a reference is allowed for a team: a batch counter only where a wait may name it and its group exists (R233). -/
def Ref.allowed (r : Ref) (t : Team) (forWait : Bool) : Bool :=
  if !r.sp then true
  else
    match r.offset t.rec'.scratch with
    | none => false
    | some o => if isCounter o then forWait && t.groups.any (fun g => g.handler.isNone && g.idx = o / 16) else true

/-! ### Words of an object (R232) -/

structure Obj where
  expa : Nat
  err : Bool
  phase : Bool
  arrp : Nat
  bytes : Int
  count : Nat
deriving DecidableEq, Repr

def Obj.ofWords (ws : List W32) : Obj :=
  let w (k : Nat) : W32 := (nth ws k).getD 0
  { expa := (w 0).toNat % 2 ^ 16, err := (w 0).getLsbD 30, phase := (w 0).getLsbD 31, arrp := (w 1).toNat % 2 ^ 16,
    bytes := (w 2).toInt, count := (w 3).toNat }

def Obj.words (o : Obj) : List W32 :=
  [BitVec.ofNat 32 (o.expa + b2n o.err * 2 ^ 30 + b2n o.phase * 2 ^ 31), BitVec.ofNat 32 o.arrp, BitVec.ofInt 32 o.bytes,
   BitVec.ofNat 32 o.count]

/-- complete(e) (R234). -/
def Obj.complete (o : Obj) (e : Bool) : Obj :=
  { o with err := e, phase := !o.phase, count := (o.count + 1) % 2 ^ 32, arrp := o.expa, bytes := 0 }

/-- add(x) (R234). -/
def Obj.add (o : Obj) (x : Int) : Obj :=
  if o.bytes + x < -(2 ^ 31) || o.bytes + x > 2 ^ 31 - 1 then o.complete true
  else
    let o := { o with bytes := o.bytes + x }
    if o.arrp = 0 && o.bytes = 0 then o.complete false else o

/-- arrive(b) (R234). -/
def Obj.arrive (o : Obj) (b : Int) : Obj :=
  if o.arrp = 0 then o.complete true else Obj.add { o with arrp := o.arrp - 1 } b

/-- BINIT (R235). -/
def Obj.init (n : Nat) : Obj := { expa := n, err := false, phase := false, arrp := n, bytes := 0, count := 0 }

/-- The updates of an object. -/
inductive ObjUpd where
  | init (n : Nat)
  | arrive (b : Int)
  | add (b : Int)
  | fail
  | batch (e : Bool)
deriving DecidableEq, Repr

def Obj.upd (o : Obj) : ObjUpd → Obj
  | .init n => Obj.init n
  | .arrive b => o.arrive b
  | .add b => o.add b
  | .fail => o.complete true
  | .batch e => o.complete e

/-! ### Reading and writing -/

/-- The words of an object at its home. -/
def State.objWords (s : State) : ObjRef → State × List W32
  | .scratch team off =>
    match s.team? team with
    | none => (s, [])
    | some t => (s, wordsOfBytes 4 (Tbl.getList t.scratch off 16))
  | .phys key =>
    let (s, bs) := s.homeRead key 16
    (s, wordsOfBytes 4 bs)

/-- Whether the words of an object are of its granule's key (17 R368). -/
def State.objKeyed (s : State) : ObjRef → Bool
  | .scratch _ _ => true
  | .phys key => s.lineTag (key / 128) = s.ownerOf key

/-- The PHASE of an object. -/
def State.objPhase (s : State) (o : ObjRef) : Bool := (Obj.ofWords (s.objWords o).2).phase

/-! ### Waiters (R236) -/

/-- Release one group's waiters on an object and parity: blocked splits go on, yielded lanes are placed; in an evicted group
the lanes are released when it resumes. The release of a waiter on a global object is an acquire at .dev (R237, R264). -/
def State.releaseGroup (s : State) (k : GroupKey) (o : ObjRef) (par : Bool) : State :=
  match s.group? k with
  | none => s
  | some g =>
    let waits (x : Split) : Bool := match x.block with | some (.phase p b _) => p = o && b = par | _ => false
    let yields (l : Lane) : Bool := match l.st with | .yielded p b _ => p = o && b = par | _ => false
    if !(g.splits.any waits || g.lanes.any yields) then s
    else
      let s := match o, s.coreOf k with
        | .phys _, some c => s.updCore c (fun x => { x with l1 := [] })
        | _, _ => s
      let s := s.updGroup k (fun g => { g with splits := updWhere waits (fun x => { x with block := none }) g.splits })
      if g.quarter.isSome then
        let is := idxWhere yields g.lanes 0
        let clock := match s.coreOf k with | some c => s.clock c.die | none => 0
        (s.updGroup k (fun g => g.updLanes is (fun _ l => { l with came := { l.came with since := some clock } }))).releaseLanes k
          (is.filterMap (fun i => (nth g.lanes i).map (fun l => (i, l.pc))))
      else
        let free (l : Lane) : Lane :=
          match l.st with
          | .yielded p b _ => if p = o && b = par then { l with st := .yielded p b true } else l
          | _ => l
        s.updGroup k (fun g => { g with lanes := g.lanes.map free })

/-- Release every waiter on an object and parity. -/
def State.releaseWaiters (s : State) (o : ObjRef) (par : Bool) : State :=
  (s.teams.flatMap (fun t => t.groups.map (fun g => ({ team := t.key, idx := g.idx } : GroupKey)))).foldl
    (fun s k => s.releaseGroup k o par) s

/-- The objects on which any lane or split waits, with the parity. -/
def State.waited (s : State) : List (ObjRef × Bool) :=
  s.teams.flatMap (fun t => t.groups.flatMap (fun g =>
    g.splits.filterMap (fun x => match x.block with | some (.phase o p _) => some (o, p) | _ => none)
    ++ g.lanes.filterMap (fun l => match l.st with | .yielded o p false => some (o, p) | _ => none)))

/-- Judge the waiters of a list of objects against the present PHASE (R232). -/
def judge : List (ObjRef × Bool) → State → State
  | [], s => s
  | (o, par) :: l, s => judge l (if s.objPhase o ≠ par then s.releaseWaiters o par else s)

/-- Bytes written at a home; waiters of an object they touch are judged. -/
def State.storeBare (s : State) (key : Nat) (bs : List Byte) (owner : Owner) (home : Nat) : State :=
  let s := s.homeWrite key bs owner home
  judge (s.waited.filter (fun e => match e.1 with
    | .phys a => decide (a < key + bs.length ∧ key < a + 16)
    | _ => false)) s

/-! ### Stores on their way (R258, R259, R263) -/

/-- The memory line of a store on its way. -/
def Flight.line : Flight → Option Nat
  | .bytes _ key _ _ _ => some (key / 128)
  | .peer _ _ _ => none

/-- What a pass over a core's stores on their way takes out, what stays, how many of those that stay have been overtaken, and the
lines of those that were not before. -/
structure Sift where
  out : List Flight
  kept : List Flight
  passed : Nat
  newly : List Nat
deriving DecidableEq, Repr

/-- Take out of a core's stores to memory those that satisfy a test, which is told whether a store has been overtaken, with the earlier
ones to their lines. -/
def sift (p : Bool → Flight → Bool) : Nat → List Flight → Sift
  | _, [] => { out := [], kept := [], passed := 0, newly := [] }
  | late, f :: fs =>
    match f.line with
    | none => let r := sift p late fs; { r with kept := f :: r.kept }
    | some n =>
      let r := sift p (late - 1) fs
      if p (late ≠ 0) f || r.out.any (fun g => g.line = some n) then { r with out := f :: r.out }
      else if late ≠ 0 then { r with kept := f :: r.kept, passed := r.passed + 1 }
      else if r.out.isEmpty then { r with kept := f :: r.kept }
      else { r with kept := f :: r.kept, passed := r.passed + 1, newly := n :: r.newly }

/-- Write a store at its home. -/
def State.landBare (s : State) : Flight → State
  | .bytes _ key bs owner home => s.storeBare key bs owner home
  | .peer _ _ _ => s

/-- The overtaken stores of a core to a line are performed. -/
def State.catchOne (s : State) (c : CoreKey) (line : Nat) : State :=
  let r := sift (fun late f => late && f.line = some line) (s.core c).passed (s.core c).flights
  if r.out.isEmpty then s
  else r.out.foldl (fun s f => s.landBare f) (s.updCore c (fun x => { x with flights := r.kept, passed := r.passed }))

/-- The overtaken stores of every core but one to a line are performed, before whatever is to follow them in the order of writes and
acquires (R263). -/
def State.catchLine (s : State) (but : Option CoreKey) (line : Nat) : State :=
  (s.cores.filter (fun c => c.2.passed ≠ 0 && but ≠ some c.1)).foldl (fun s c => s.catchOne c.1 line) s

/-- The overtaken stores to the lines that `n` bytes from a key touch are performed. -/
def State.catchUp (s : State) (key n : Nat) : State :=
  (upFrom (key / 128) ((key + n - 1) / 128 + 1 - key / 128)).foldl (fun s l => s.catchLine none l) s

/-- A store of bytes performed at a home, after every overtaken store to its lines; waiters of an object it touches are judged. -/
def State.store (s : State) (key : Nat) (bs : List Byte) (owner : Owner) (home : Nat) : State :=
  (s.catchUp key bs.length).storeBare key bs owner home

/-- Perform a core's store at its home, after every overtaken store of another core to its line; later ones of its own core to the line
stay behind it (R256, R263). -/
def State.land (s : State) (c : CoreKey) : Flight → State
  | .bytes _ key bs owner home => (s.catchLine (some c) (key / 128)).storeBare key bs owner home
  | .peer _ _ _ => s

/-- The 4-byte cells that a list of written bytes touches, as they were. Open points: DESIGN CHOICE (log 8). -/
def cellsBefore (m : Tbl 8) (writes : List (Nat × Byte)) : List (Nat × W32) :=
  (sortNat (writes.map (fun w => w.1 / 4 * 4))).map (fun a => (a, wordOfBytes (Tbl.getList m a 4)))

/-- The writer of scratchpad cells, as an overwritten cell's entry names it. -/
structure Writer where
  idx : Option Nat
  seq : Nat
  tile : Bool
deriving DecidableEq, Repr

/-- A copy, whose writes are in no group's issue order. -/
def Writer.copy : Writer := { idx := none, seq := 0, tile := false }

/-- Bytes written into a team's scratchpad allocation; waiters of an object they touch are judged. -/
def State.scratchStore (s : State) (team : Nat) (by' : Writer) (writes : List (Nat × Byte)) : State :=
  let s := s.updTeam team (fun t =>
    { t with scratch := writes.foldl (fun m w => Tbl.set m w.1 w.2) t.scratch,
             slog := t.slog ++ (cellsBefore t.scratch writes).map (fun e =>
               { cell := e.1, old := e.2, idx := by'.idx, seq := by'.seq, tile := by'.tile }) })
  judge (s.waited.filter (fun e => match e.1 with
    | .scratch t a => t = team && writes.any (fun w => decide (a ≤ w.1 ∧ w.1 < a + 16))
    | _ => false)) s

/-- The words of an object as an update or a wait reads them: after every overtaken store to them (R263), and of a line last written
under another key any words (17 R368). -/
def State.objRead (s : State) (o : ObjRef) : State × List W32 :=
  let s := match o with | .phys key => s.catchUp key 16 | _ => s
  if s.objKeyed o then s.objWords o else s.anyWords 4

/-- An update of an object at its home (R234): when it completes a phase, that phase's waiters are released; a BINIT writes
the words, and waiters are judged. -/
def State.updObj (s : State) (o : ObjRef) (home : Nat) (u : ObjUpd) : State :=
  let (s, ws) := s.objRead o
  let old := Obj.ofWords ws
  let new := old.upd u
  let bs := bytesOfWords new.words
  let s := match o with
    | .scratch team off => s.updTeam team (fun t => { t with scratch := Tbl.setList t.scratch off bs })
    | .phys key => s.homeWrite key bs (s.ownerOf key) home
  match u with
  | .init _ => judge (s.waited.filter (fun e => e.1 = o)) s
  | _ => if new.count ≠ old.count then s.releaseWaiters o old.phase else s

end Sys2Proof.Machine
end

