-- ==== Sys2Proof/Machine/Places.lean ====
section
/-! DEFINITION. The bytes that lane accesses and queued entries touch, and whether an earlier access of a group to some bytes is still
to be performed (09 R199; 10 R224, R236; 11 R258, R261). -/

namespace Sys2Proof.Machine

/-! ### Places that an access touches -/

/-- A byte that an access touches: at an offset of the scratchpad allocation, at a memory key, or at an address of the chip that a
peer session names. -/
structure Place where
  sp : Bool
  chip : Option Nat
  addr : Nat
deriving DecidableEq, Repr

/-- The places of the bytes of a scratchpad element (R199). -/
def scratchPlaces (off n : Nat) (col : Bool) : List Place :=
  (upFrom 0 n).map (fun b => { sp := true, chip := none, addr := if col then off + 128 * (b / 4) + b % 4 else off + b })

/-- The places of `n` bytes of a global access from its first place. -/
def Place.span (p : Place) (n : Nat) : List Place := (upFrom 0 n).map (fun b => { p with addr := p.addr + b })

/-- The place that an address reaches, without effect on any TLB. -/
def State.placeOf (s : State) (c : CoreKey) (part va : Nat) : Option Place :=
  match s.translate (.lane c) part va with
  | (s, .leaf p base _) =>
    match (s.target (.lane c) part va p base).2 with
    | .mem key _ _ _ => some { sp := false, chip := none, addr := key }
    | .peer session addr _ _ => some { sp := false, chip := some session, addr := addr }
    | _ => none
  | _ => none

/-- The places of an access at an address. -/
def State.places (s : State) (c : CoreKey) (part : Nat) (sp col : Bool) (ea : Addr) (n : Nat) : List Place :=
  if sp then scratchPlaces ea.toNat n col
  else match s.placeOf c part ea.toNat with
    | some p => p.span n
    | none => []

/-- The bytes that the lanes of a queued entry put at places, a later lane last; none for an entry that reads first. -/
def State.entryBytes (s : State) (c : CoreKey) (part : Nat) (e : QEntry) : List (Place × Option Byte) :=
  match e.kind with
  | .store sp n col =>
    e.lanes.flatMap (fun l => ((s.places c part sp col l.ea n).zip ((bytesOfWords l.args).take n)).map (fun x => (x.1, some x.2)))
  | .red sp _ w64 =>
    e.lanes.flatMap (fun l => (s.places c part sp false l.ea (if w64 then 8 else 4)).map (fun x => (x, none)))
  | .binit ref _ | .barr ref _ | .bexp ref _ =>
    match Ref.ofPair ref with
    | none => []
    | some r => ((if r.sp then scratchPlaces ((BitVec.ofNat 32 r.addr).toInt + 256).toNat 16 false
                  else (match s.placeOf c part r.addr with | some p => p.span 16 | none => []))).map (fun x => (x, none))

/-- Whether a lane's access is still to be performed. -/
def LaneAcc.open (a : LaneAcc) : Bool := match a with | .todo => true | .peer _ => true | _ => false

/-- Whether some lane of an operation has not been performed. -/
def PendOp.unperformed (o : PendOp) : Bool := o.lanes.any (fun l => l.acc.open || l.acc = .parked)

/-- The places of an object. -/
def ObjRef.places : ObjRef → List Place
  | .scratch _ off => scratchPlaces off 16 false
  | .phys key => Place.span { sp := false, chip := none, addr := key } 16

/-- The places that a pending load, atomic or CAS of a group touches. -/
def State.opPlaces (s : State) (c : CoreKey) (part : Nat) (o : PendOp) : List Place :=
  match o.kind with
  | .load sp n _ _ _ col => o.lanes.flatMap (fun l => s.places c part sp col l.ea n)
  | .atom sp _ w64 _ | .cas sp w64 _ => o.lanes.flatMap (fun l => s.places c part sp false l.ea (if w64 then 8 else 4))
  | _ => []

/-- Whether an access or update that the group has issued to an object is still to be performed (R236, R261). -/
def State.earlierAt (s : State) (c : CoreKey) (part : Nat) (g : Group) (o : ObjRef) : Bool :=
  let at' (p : Place) : Bool := o.places.contains p
  g.queue.any (fun e => (s.entryBytes c part e).any (fun b => at' b.1))
  || g.pend.any (fun x => x.kind.isMem && x.unperformed && (s.opPlaces c part x).any at')

end Sys2Proof.Machine
end

