-- ==== Sys2Proof/Machine/Cache.lean ====
section
/-! DEFINITION. L1, stores on their way to the homes, replicas, gather windows, and the reads of engines
(09 R203 to R207, R214, R215; 11 R257 to R265). -/

namespace Sys2Proof.Machine

/-- `n` elements of a list from position `k`. -/
def slice {α : Type} (l : List α) (k n : Nat) : List α := (l.drop k).take n

/-- A list with elements replaced from position `k`. -/
def splice {α : Type} (l : List α) (k : Nat) (xs : List α) : List α := l.take k ++ xs ++ l.drop (k + xs.length)

/-! ### Stores on their way (R258, R259, R264) -/

/-- Perform at their homes the core's stores that satisfy a test, with the earlier ones to their lines, in the core's store order. The
stores before them that stay on their way are overtaken: whatever other cores had overtaken at their lines is performed (R259, R263). -/
def State.flush (s : State) (c : CoreKey) (p : Flight → Bool) : State :=
  let r := sift (fun _ f => p f) (s.core c).passed (s.core c).flights
  if r.out.isEmpty then s
  else
    let s := r.out.foldl (fun s f => s.land c f) (s.updCore c (fun x => { x with flights := r.kept, passed := r.passed }))
    r.newly.foldl (fun s n => s.catchLine (some c) n) s

/-- The core's stores to one line are performed (R207, R264). -/
def State.flushLine (s : State) (c : CoreKey) (line : Nat) : State := s.flush c (fun f => f.line == some line)

/-- Every store of the core to the module's memory is performed (R264). -/
def State.flushAll (s : State) (c : CoreKey) : State := s.flush c (fun f => f.line.isSome)

/-! ### Granules (17 R370) -/

/-- The stores to a granule on their way are performed, and no copy of its lines stays in L2 or a replica (17 R370). -/
def State.clearGranule (s : State) (g : Nat) : State :=
  let s := s.cores.foldl (fun (s : State) (c : CoreKey × Core) =>
    s.flush c.1 (fun f => match f.line with | some l => granuleOf (128 * l) = g | none => false)) s
  let s := (s.l2.filter (fun l => granuleOf (128 * l.line) = g)).foldl (fun s l => s.evictLine l.line) s
  { s with replicas := s.replicas.filter (fun r => granuleOf (128 * r.line) ≠ g),
           keyed := s.keyed.filter (fun e => granuleOf (128 * e.1) ≠ g) }

/-- Every byte of a granule reads as any value. -/
def State.scramble (s : State) (g : Nat) : State := { s.clearGranule g with mem := (s.clearGranule g).mem.reassign g }

/-! ### L1 (R203) -/

/-- Drop every global line of a core's L1. -/
def State.dropL1 (s : State) (c : CoreKey) : State := s.updCore c (fun x => { x with l1 := [] })

/-- Drop one line of a core's L1, as a replacement does (R203). -/
def State.dropL1Line (s : State) (c : CoreKey) (line : Nat) : State :=
  s.updCore c (fun x => { x with l1 := x.l1.filter (fun l => l.line != line) })

/-- The 16-byte blocks of a line that `n` bytes from a key touch, of those that lie in it. -/
def blocksIn (line key n : Nat) : List Nat :=
  (upFrom 0 8).filter (fun b => decide (128 * line + 16 * b < key + n ∧ key < 128 * line + 16 * b + 16))

/-- The core's own operation changed `n` bytes at the home: its L1 keeps the line, but a later read fetches the blocks again
(R203, R258, R265). Open points: DEDUCED (log 17). -/
def State.punch (s : State) (c : CoreKey) (key n : Nat) : State :=
  s.updCore c (fun x => { x with
    l1 := x.l1.map (fun l => { l with holes := (blocksIn l.line key n).filter (fun b => !l.holes.contains b) ++ l.holes }) })

/-- A bulk write of a group changed `n` bytes: the L1 of its core keeps the line, which other groups may go on reading, until the group
awaits the batch or the copy's credit reveals it (R265, R266). -/
def State.stain (s : State) (c : CoreKey) (g : GroupKey) (key n : Nat) : State :=
  s.updCore c (fun x => { x with
    l1 := x.l1.map (fun l => { l with stale := (blocksIn l.line key n).map (fun b => (b, g)) ++ l.stale }) })

/-- The bulk writes of a group become visible to every group of its core: L1 fetches their blocks again (R237, R241, R265). -/
def State.reveal (s : State) (c : CoreKey) (g : GroupKey) : State :=
  let clear (l : L1Line) : L1Line :=
    let bs := (l.stale.filter (fun e => e.2 = g)).map (fun e => e.1)
    if bs.isEmpty then l
    else { l with holes := (upFrom 0 8).filter (fun b => bs.contains b || l.holes.contains b), stale := l.stale.filter (fun e => e.2 ≠ g) }
  s.updCore c (fun x => { x with l1 := x.l1.map clear })

/-- An update of an object that a core's operation performs: that core's L1 fetches its words again (R265). -/
def State.updObjAt (s : State) (c : CoreKey) (o : ObjRef) (home : Nat) (u : ObjUpd) : State :=
  match o with
  | .phys key => (s.updObj o home u).punch c key 16
  | _ => s.updObj o home u

/-- Fetch blocks of a line again from the home. -/
def fetchBlocks (line : Nat) : List Nat → List Byte → State → State × List Byte
  | [], bs, s => (s, bs)
  | b :: l, bs, s =>
    let (s, new) := s.homeRead (128 * line + 16 * b) 16
    fetchBlocks line l (splice bs (16 * b) new) s

/-- A store updates a present line (R203). -/
def State.l1Store (s : State) (c : CoreKey) (key : Nat) (bs : List Byte) : State :=
  s.updCore c (fun x => { x with
    l1 := updWhere (fun l => l.line = key / 128) (fun l => { l with bytes := splice l.bytes (key % 128) bs }) x.l1 })

/-- Put a line into L1; a set of 8 ways drops its oldest line (R203). A line's set is its number modulo 128. DESIGN CHOICE (log 40). -/
def fillL1 (l : L1Line) (ls : List L1Line) : List L1Line :=
  let ls := ls.filter (fun x => x.line != l.line)
  let set := ls.filter (fun x => x.line % 128 = l.line % 128)
  if set.length < 8 then l :: ls
  else
    match set.getLast? with
    | none => l :: ls
    | some o => l :: ls.filter (fun x => x.line != o.line)

/-- The launch and cluster that a REPL load acts for (R206). -/
structure ReplUse where
  launch : Nat
  cluster : ClusterKey
deriving DecidableEq, Repr

/-- The bytes of a line as a REPL load reads it: the launch's replica, made now if there is none (R206). -/
def State.replicaLine (s : State) (u : ReplUse) (line : Nat) (owner : Owner) : State × List Byte :=
  match s.replicas.find? (fun r => r.launch = u.launch && r.cluster = u.cluster && r.line = line && r.owner = owner) with
  | some r => (s, r.bytes)
  | none =>
    let (s, bs) := s.homeRead (128 * line) 128
    ({ s with replicas := { launch := u.launch, cluster := u.cluster, line := line, owner := owner, bytes := bs } :: s.replicas }, bs)

/-- Whether the hint acts: the leaf allows it and the line is remote or second tier (R206). -/
def replActs (repl : Bool) (key home die : Nat) : Bool := repl && (tier2 ≤ key || home ≠ die)

/-- A plain read of bytes of one line through a core's L1: a hit reads the line, but for blocks that the core changed at the home;
a miss first performs the core's stores to it, then fills (R203, R207, R258). A line that a replica filled is hit only by loads with
the hint of its launch (R206). -/
def State.l1Read (s : State) (c : CoreKey) (key n : Nat) (owner : Owner) (home : Nat) (repl : Option ReplUse) :
    State × List Byte :=
  let line := key / 128
  match (s.core c).l1.find? (fun l => l.line = line && l.owner = owner && (l.launch.isNone || l.launch = repl.map (fun u => u.launch))) with
  | some l =>
    let again := (blocksIn line key n).filter (fun b => l.holes.contains b)
    if again.isEmpty then (s, slice l.bytes (key % 128) n)
    else
      let (s, bs) := fetchBlocks line again l.bytes (s.flushLine c line)
      let now : L1Line := { l with bytes := bs, holes := l.holes.filter (fun b => !again.contains b) }
      (s.updCore c (fun x => { x with l1 := updWhere (fun y => y.line = line) (fun _ => now) x.l1 }), slice bs (key % 128) n)
  | none =>
    let s := s.flushLine c line
    let use := repl.filter (fun _ => replActs true key home c.die)
    let (s, bs) :=
      match use with
      | some u => s.replicaLine u line owner
      | none => s.homeRead (128 * line) 128
    let new : L1Line :=
      { line := line, owner := owner, bytes := bs, filled := s.clock c.die, launch := use.map (fun u => u.launch), holes := [], stale := [] }
    (s.updCore c (fun x => { x with l1 := fillL1 new x.l1 }), slice bs (key % 128) n)

/-- A read of scope .die or wider: the core's stores are performed first, for the one order of writes and acquires keeps issue order
(R263); the home is read; L1 drops its lines (R264). Open points: DEDUCED (log 17). -/
def State.acquireRead (s : State) (c : CoreKey) (key n : Nat) : State × List Byte :=
  let s := (s.flushAll c).catchUp key n
  let (s, bs) := s.homeRead key n
  (s.dropL1 c, bs)

/-- A store that has left the queue: L1 follows, and the home write is on its way (R203, R258). -/
def State.sendStore (s : State) (g : GroupKey) (c : CoreKey) (key : Nat) (bs : List Byte) (owner : Owner) (home : Nat) : State :=
  (s.l1Store c key bs).updCore c (fun x => { x with flights := x.flights ++ [.bytes g key bs owner home] })

/-! ### Reads of engines (R256, R265) -/

/-- Who reads for an engine: translation point, partition, the log position since which any value may be read, the faults that its
walk-ahead TLB holds (R217), and the pages that it reads under the owner tag of an earlier binding (17 R390); whether every fault but a
park stops the operation (02 R52). Open points: DESIGN CHOICE (log 8). -/
structure Reader where
  pt : Point
  part : Nat
  since : Option Nat
  held : List HeldFault := []
  tags : List (Nat × Owner) := []
  strict : Bool := false
deriving DecidableEq, Repr

/-- The fault that is held for writes or for reads of the page of an address (R217). -/
def Reader.faultAt (r : Reader) (va : Nat) (write : Bool) : Option HeldFault :=
  r.held.find? (fun f => f.page = va / 4096 && f.write = write)

/-- A word that an engine asked for: the word, a fault with its policy, a walk error, or a peer chip's address. -/
inductive Got where
  | ok (w : W32)
  | fault (pol : Nat) (absent : Bool)
  | error
  | peer (session addr pol : Nat)
deriving DecidableEq, Repr

/-- A word of memory as the reader may see it. A key under which the granule was not written reads as any value (R368). -/
def State.readerWord (s : State) (r : Reader) (key : Nat) (owner : Owner) : State × W32 :=
  if s.lineTag (key / 128) ≠ owner then s.anyWord
  else
    match r.since with
    | none => s.homeWord key
    | some n => s.anyOldWord n key

/-- A word at a word-aligned address; a window is a walk error here (R215). -/
def State.plainWord (s : State) (r : Reader) (va : Nat) : State × Got :=
  match s.access r.pt r.part .rd va with
  | (s, .error) => (s, .error)
  | (s, .fault pol absent) => (s, .fault pol absent)
  | (s, .ok (.mem key _ owner _)) =>
    let (s, w) := s.readerWord r key ((kget (va / 4096) r.tags).getD owner)
    (s, .ok w)
  | (s, .ok (.peer session addr pol _)) => (s, .peer session addr pol)
  | (s, .ok _) => (s, .error)

/-- A window descriptor (R214). -/
structure Window where
  idx : Nat
  data : Nat
  count : Nat
  limit : Nat
  wva : Nat
  esz : Nat
deriving DecidableEq, Repr

/-- The descriptor in eight words, or none where the window reads as zeros (R214). -/
def Window.ofWords (ws : List W32) : Option Window :=
  let w (k : Nat) : Nat := ((nth ws k).getD 0).toNat
  let d : Window := { idx := w 0 + 2 ^ 32 * (w 1 % 2 ^ 20), data := w 2 + 2 ^ 32 * (w 3 % 2 ^ 20), count := w 4, limit := w 5,
                      wva := w 6 + 2 ^ 32 * (w 7 % 2 ^ 20), esz := w 7 / 2 ^ 20 % 4 }
  if w 1 / 2 ^ 20 ≠ 0 || w 3 / 2 ^ 20 ≠ 0 || w 7 / 2 ^ 22 ≠ 0 || d.esz = 3 || d.count = 0 || d.idx % 4 ≠ 0
     || d.data % 2 ^ (d.esz + 2) ≠ 0 || d.wva % 4096 ≠ 0 then none
  else some d

/-- The descriptor of window `n`, read from the partition's table (R214). -/
def State.window (s : State) (part n : Nat) : State × Option Window :=
  match s.part? part with
  | none => (s, none)
  | some p =>
    let a := p.win + 32 * n
    if s.ownsKey part a then
      let (s, bs) := s.keyRead a 32 (.part part)
      (s, Window.ofWords (wordsOfBytes 8 bs))
    else (s, none)

/-! ### Peer requests (17 R385) -/

/-- A session is closed: its outstanding requests are answered as faults at the target (17 R384, R385). -/
def State.closeSession (s : State) (id : Nat) : State :=
  let mine (r : PeerReq) : Bool := r.session = id && r.answer.isNone
  { s with sessions := s.sessions.filter (fun x => x.id ≠ id), hostWaits := s.hostWaits.filter (fun h => h.session ≠ id),
           peers := updWhere mine (fun r => { r with answer := some .faulted }) s.peers }

/-- Send a message on a session; its sequence number counts up, and the session ends before 2^63 (17 R383). -/
def State.send (s : State) (session : Nat) (body : Body) : State :=
  match s.sessions.find? (fun x => x.id = session) with
  | none => s
  | some x =>
    if x.txNext ≥ 2 ^ 63 then s.closeSession session
    else
      { s with sent := s.sent ++ [{ session := session, seq := x.txNext, ack := x.rxNext - 1, body := body }],
               sessions := updWhere (fun y => y.id = session)
                 (fun y => { y with txNext := y.txNext + 1, unacked := y.unacked ++ [(y.txNext, 0)] }) s.sessions }

/-- Open a request on a peer session: answered at once as a fault when no session is open (R385). -/
def State.ask (s : State) (part session : Nat) (mk : Nat → Body) : State × Nat :=
  let id := s.serial
  let isOpen := s.sessions.any (fun x => x.id = session)
  let s := { s with serial := id + 1,
                    peers := { id := id, session := session, part := part, answer := if isOpen then none else some .faulted }
                              :: s.peers }
  (s.send session (mk id), id)

/-- The answer to a request, if it has come. -/
def State.answer (s : State) (id : Nat) : Option PeerAnswer :=
  match s.peers.find? (fun p => p.id = id) with
  | some p => p.answer
  | none => some .faulted

/-- Forget an answered request. -/
def State.closeAsk (s : State) (id : Nat) : State := { s with peers := s.peers.filter (fun p => p.id != id) }

/-! ### Operations of engines, word by word -/

/-- Why an engine's operation cannot go on at an address: a fault with its policy, a walk error, or a peer's answer that has
not come, to a load or to a compare-and-swap. -/
inductive EngStop where
  | fault (va pol : Nat) (absent : Bool)
  | error (va : Nat)
  | wait (va session addr : Nat)
  | swap (va session addr : Nat) (cmp new : W32)
deriving DecidableEq, Repr

/-- An engine's computation over the state. -/
abbrev Eng (α : Type) := EStateM EngStop State α

/-- A word-aligned word outside any window, a peer's from the operation's buffer (R385). -/
def plainRead (r : Reader) (buf : PeerBuf) (va : Nat) : Eng W32 := fun s =>
  match s.plainWord r va with
  | (s, .ok w) => .ok w s
  | (s, .fault pol absent) => .error (.fault va pol absent) s
  | (s, .error) => .error (.error va) s
  | (s, .peer session addr pol) =>
    match kget va buf.got with
    | some (some w) => .ok w s
    | some none => .error (.fault va pol false) s
    | none => .error (.wait va session addr) s

/-- Words that an operation has gathered from a line of a window, by address: each is read once (R215). -/
abbrev Memo := List (Nat × W32)

/-- What the read of a word comes to: the word or why there is none, and what has been gathered either way. -/
abbrev Gathered := State × Memo × Except EngStop W32

/-- A word of an index or data array, read once for a gathered line (R215). -/
def gatherRead (r : Reader) (buf : PeerBuf) (memo : Memo) (va : Nat) (s : State) : Gathered :=
  match kget va memo with
  | some w => (s, memo, .ok w)
  | none =>
    match plainRead r buf va s with
    | .ok w s => (s, (va, w) :: memo, .ok w)
    | .error e s => (s, memo, .error e)

/-- A word of window `n` at an address of it (R214, R215). A fault of the index or of the data word answers the window's word.
Open points: DESIGN CHOICE (log 54). -/
def windowWord (r : Reader) (buf : PeerBuf) (memo : Memo) (d : Window) (va : Nat) (s : State) : Gathered :=
  let e := 2 ^ (d.esz + 2)
  if va < d.wva || (va - d.wva) / e ≥ d.count then (s, memo, .ok 0)
  else
    let o := va - d.wva
    match gatherRead r buf memo (d.idx + 4 * (o / e)) s with
    | (s, memo, .ok idx) =>
      if idx.toNat ≥ d.limit then (s, memo, .ok 0) else gatherRead r buf memo (d.data + idx.toNat * e + o % e) s
    | x => x

/-- Read a word-aligned word, through a window where the leaf names one (R215). -/
def readStep (r : Reader) (buf : PeerBuf) (memo : Memo) (va : Nat) (s : State) : Gathered :=
  match r.faultAt va false with
  | some { fault := some (pol, absent), .. } => (s, memo, .error (.fault va pol absent))
  | some { fault := none, .. } => (s, memo, .error (.error va))
  | none =>
    match s.access r.pt r.part .rd va with
    | (s, .ok (.window n)) =>
      (match s.window r.part n with
       | (s, none) => (s, memo, .ok 0)
       | (s, some d) => windowWord r buf memo d va s)
    | (s, _) =>
      match plainRead r buf va s with
      | .ok w s => (s, memo, .ok w)
      | .error e s => (s, memo, .error e)

/-- Read a word-aligned word, or stop. -/
def engStep (r : Reader) (buf : PeerBuf) (memo : Memo) (va : Nat) : Eng (W32 × Memo) := fun s =>
  match readStep r buf memo va s with
  | (s, memo, .ok w) => .ok (w, memo) s
  | (s, _, .error e) => .error e s

/-- Read a word-aligned word. -/
def engRead (r : Reader) (buf : PeerBuf) (va : Nat) : Eng W32 := do
  let (w, _) ← engStep r buf [] va
  pure w

/-- `n` words from a word-aligned address, each word gathered once for a line. -/
def engRun (r : Reader) (buf : PeerBuf) (memo : Memo) (va : Nat) : Nat → Eng (List W32)
  | 0 => pure []
  | n + 1 => do
    let (w, memo) ← engStep r buf (if va % 128 = 0 then [] else memo) va
    let ws ← engRun r buf memo (va + 4) n
    pure (w :: ws)

/-- `n` words from a word-aligned address. -/
def engWords (r : Reader) (buf : PeerBuf) (va n : Nat) : Eng (List W32) := engRun r buf [] va n

/-- Take the answer of the request that a buffer waits for, if it has come. -/
def State.pollBuf (s : State) (buf : PeerBuf) : State × PeerBuf × Bool :=
  match buf.asked with
  | none => (s, buf, true)
  | some (va, id) =>
    match s.answer id with
    | none => (s, buf, false)
    | some (.done bs) => (s.closeAsk id, { got := (va, some (wordOfBytes bs)) :: buf.got, asked := none }, true)
    | some .faulted => (s.closeAsk id, { got := (va, none) :: buf.got, asked := none }, true)

/-- A buffer without the faults that peers have answered: a replay asks for their words again (17 R385; 18 R402). -/
def PeerBuf.retry (b : PeerBuf) : PeerBuf := { b with got := b.got.filter (fun e => e.2.isSome) }

/-- Ask a peer for the word that an engine's operation waits for. -/
def State.askWord (s : State) (part : Nat) (buf : PeerBuf) (va session addr : Nat) : State × PeerBuf :=
  let (s, id) := s.ask part session (fun id => .pload id (BitVec.ofNat 64 addr) 4)
  (s, { buf with asked := some (va, id) })

end Sys2Proof.Machine
end

