-- ==== Sys2Proof/Machine/Texture.lean ====
section
/-! DEFINITION. What the texture unit returns: descriptors, level of detail, residency and feedback, filtering (07 R175 to R180). -/

namespace Sys2Proof.Machine

/-- Run a read of an engine; a fault of any policy or a walk error gives none, a peer's answer is awaited. -/
def engTry {α : Type} (m : Eng α) : Eng (Option α) := fun s =>
  match m s with
  | .ok a s => .ok (some a) s
  | .error (.wait va session addr) s => .error (.wait va session addr) s
  | .error _ s => .ok none s

/-! ### Descriptor (R175, R176) -/

/-- A texture descriptor. -/
structure Tex where
  base : Nat
  w : Nat
  h : Nat
  lm1 : Nat
  fmt : Nat
  au : Nat
  av : Nat
  mag : Bool
  min : Bool
  mip : Bool
  map : Nat
  fb : Nat
deriving DecidableEq, Repr

/-- The descriptor in eight words. -/
def Tex.ofWords (ws : List W32) : Tex :=
  let w (k : Nat) : W32 := (nth ws k).getD 0
  let addr (k : Nat) : Nat := (w k).toNat + 2 ^ 32 * bitsOf (w (k + 1)) 19 0
  { base := addr 0, w := bitsOf (w 2) 13 0 + 1, h := bitsOf (w 2) 27 14 + 1, lm1 := bitsOf (w 2) 31 28, fmt := bitsOf (w 3) 3 0,
    au := bitsOf (w 3) 5 4, av := bitsOf (w 3) 7 6, mag := (w 3).getLsbD 8, min := (w 3).getLsbD 9, mip := (w 3).getLsbD 10,
    map := addr 4, fb := addr 6 }

/-- The failures of R175. -/
def texBad (ws : List W32) : Bool :=
  let w (k : Nat) : W32 := (nth ws k).getD 0
  let t := Tex.ofWords ws
  bitsOf (w 1) 31 20 ≠ 0 || bitsOf (w 3) 31 11 ≠ 0 || bitsOf (w 5) 31 20 ≠ 0 || bitsOf (w 7) 31 20 ≠ 0
  || t.fmt ≥ 6 || t.au = 3 || t.av = 3 || t.lm1 > Nat.log2 (max t.w t.h) || t.base % 4096 ≠ 0 || t.map % 16 ≠ 0 || t.fb % 16 ≠ 0

/-- Bytes of a texel. -/
def Tex.bytes (t : Tex) : Nat := match t.fmt with | 0 => 4 | 1 => 1 | 2 => 4 | 3 => 8 | 4 => 4 | _ => 16

/-- Width, height and pitch of a level. -/
def Tex.lw (t : Tex) (l : Nat) : Nat := max 1 (t.w / 2 ^ l)
def Tex.lh (t : Tex) (l : Nat) : Nat := max 1 (t.h / 2 ^ l)
def Tex.pitch (t : Tex) (l : Nat) : Nat := (t.lw l * t.bytes + 15) / 16 * 16

/-- Start of a level. -/
def Tex.start (t : Tex) : Nat → Nat
  | 0 => t.base
  | l + 1 => (t.start l + t.pitch l * t.lh l + 4095) / 4096 * 4096

/-- addr(i, n) under an addressing mode (R178). -/
def texAddr (mode : Nat) (i : Int) (n : Nat) : Nat :=
  match mode with
  | 0 => (i % (n : Int)).toNat
  | 1 => min i.toNat (n - 1)
  | _ =>
    let m := (i % (2 * n : Int)).toNat
    if m < n then m else 2 * n - 1 - m

/-! ### Exact coordinates -/

/-- A finite FP32 value in units of 2^-149; none for NaN and infinities. -/
def finUnits (w : W32) : Option Int := if bitsOf w 30 23 = 255 then none else some (fp32Units w)

/-- The unit. -/
def unitDen : Nat := 2 ^ 149

/-! ### Level of detail (R177), in units of 1/256 -/

/-- λ that stands for −∞. -/
def lodNone : Int := -(2 ^ 200)

/-- floor(128·log2(max(px, py))), from the four exact gradients and the size of level 0. Open points: DEDUCED (log 25). -/
def lodOf (dudx dvdx dudy dvdy : Int) (w h : Nat) : Int :=
  let p (a b : Int) : Int := (a * w) * (a * w) + (b * h) * (b * h)
  let m := max (p dudx dvdx) (p dudy dvdy)
  if m = 0 then lodNone else floorLog2 (m.toNat ^ 128) ((unitDen * unitDen) ^ 128)

/-- λ of a lane from its words: TEX has the lane's u, v and those of lanes 4k, 4k+1, 4k+2; TEXL adds λ; TEXG the gradients.
Open points: DEDUCED (log 25). -/
def texLod (kind : Nat) (t : Tex) (bias : Int) (args : List W32) : Int :=
  let a (k : Nat) : W32 := (nth args k).getD 0
  let f (k : Nat) : Option Int := finUnits (a k)
  match kind with
  | 0 =>
    match f 2, f 3, f 4, f 5, f 6, f 7 with
    | some u0, some v0, some u1, some v1, some u2, some v2 => lodOf (u1 - u0) (v1 - v0) (u2 - u0) (v2 - v0) t.w t.h + bias
    | _, _, _, _, _, _ => 0
  | 1 =>
    match Fmt.fp32.value (a 2).toNat with
    | .nan => 0
    | .inf neg => if neg then lodNone else -lodNone
    | .fin neg n d => signedNum neg (n * 256) / (d : Int) + bias
  | _ =>
    match f 2, f 3, f 4, f 5 with
    | some x, some y, some z, some w => lodOf x y z w t.w t.h + bias
    | _, _, _, _ => 0

/-! ### Texels (R176, R180) -/

/-- The channels of a texel's bytes. -/
def texChannels (fmt : Nat) (bs : List Byte) : List Val :=
  let b (k : Nat) : Nat := ((nth bs k).getD 0).toNat
  let unorm (c : Nat) : Val := Fmt.fp32.value (Fmt.fp32.round .rne (.fin false c 255)).1
  let half (k : Nat) : Val := Fmt.fp16.value (b (2 * k) + 256 * b (2 * k + 1))
  let f32 (k : Nat) : Val := Fmt.fp32.value (wordAt bs k).toNat
  let zero : Val := .fin false 0 1
  let one : Val := .fin false 1 1
  match fmt with
  | 0 => [unorm (b 0), unorm (b 1), unorm (b 2), unorm (b 3)]
  | 1 => [unorm (b 0), zero, zero, one]
  | 2 => [half 0, half 1, zero, one]
  | 3 => [half 0, half 1, half 2, half 3]
  | 4 => [f32 0, zero, zero, one]
  | _ => [f32 0, f32 1, f32 2, f32 3]

/-- Four zero channels. -/
def texZero : List Val := [.fin false 0 1, .fin false 0 1, .fin false 0 1, .fin false 0 1]

/-- Read a texel; one that does not answer reads as zero in every channel. -/
def texTexel (r : Reader) (buf : PeerBuf) (t : Tex) (l x y : Nat) : Eng (List Val) := do
  let a := t.start l + t.pitch l * y + x * t.bytes
  let n := if t.bytes < 4 then 1 else t.bytes / 4
  match ← engTry (engWords r buf (a / 4 * 4) n) with
  | none => pure texZero
  | some ws => pure (texChannels t.fmt (((bytesOfWords ws).drop (a % 4)).take t.bytes))

/-- The texels of a level with their weights, in units of 2^-16. -/
def texTaps (t : Tex) (linear : Bool) (l : Nat) (u v : Int) : List (Nat × Nat × Nat) :=
  let wl := t.lw l
  let hl := t.lh l
  if !linear then [(texAddr t.au (u * wl / (unitDen : Int)) wl, texAddr t.av (v * hl / (unitDen : Int)) hl, 65536)]
  else
    let part (c : Int) (n : Nat) : Int × Nat :=
      let z := 2 * c * n - unitDen
      let k := z / (2 * unitDen : Int)
      (k, ((z - k * (2 * unitDen)) * 256 / (2 * unitDen : Int)).toNat)
    let (x0, fx) := part u wl
    let (y0, fy) := part v hl
    let ax (i : Int) : Nat := texAddr t.au i wl
    let ay (i : Int) : Nat := texAddr t.av i hl
    [(ax x0, ay y0, (256 - fx) * (256 - fy)), (ax (x0 + 1), ay y0, fx * (256 - fy)), (ax x0, ay (y0 + 1), (256 - fx) * fy),
     (ax (x0 + 1), ay (y0 + 1), fx * fy)]

/-- Read the texels of a filter with weights of a factor. -/
def texGather (r : Reader) (buf : PeerBuf) (t : Tex) (l : Nat) (factor : Nat) : List (Nat × Nat × Nat) → Eng (List (Nat × List Val))
  | [] => pure []
  | (x, y, w) :: taps => do
    let c ← texTexel r buf t l x y
    let rest ← texGather r buf t l factor taps
    pure ((w * factor, c) :: rest)

/-- A channel of the result: the exact weighted sum rounded once; NaN and infinities of texels with weight decide it (R179). -/
def texSum (xs : List (Nat × Val)) : W32 :=
  let live := xs.filter (fun e => e.1 ≠ 0)
  let pos := live.any (fun e => e.2.isInf && !e.2.sign)
  let neg := live.any (fun e => e.2.isInf && e.2.sign)
  if live.any (fun e => e.2.isNan) || (pos && neg) then 0x7FC00000#32
  else if pos then 0x7F800000#32
  else if neg then 0xFF800000#32
  else
    let fin := xs.filter (fun e => !e.2.isInf && !e.2.isNan)
    let total := sumInt (fin.map (fun e =>
      match e.2 with | .fin s n d => signedNum s (e.1 * n * (unitDen / d)) | _ => 0))
    if total = 0 then (if fin.all (fun e => e.2.sign && (e.1 = 0 || e.2.isZero)) then 0x80000000#32 else 0)
    else BitVec.ofNat 32 (Fmt.fp32.round .rne (.fin (total < 0) total.natAbs (unitDen * 2 ^ 24))).1

/-- Channel `k` of gathered texels. -/
def texChannel (xs : List (Nat × List Val)) (k : Nat) : W32 :=
  texSum (xs.map (fun e => (e.1, (nth e.2 k).getD (.fin false 0 1))))

/-- Filter at a level of detail `lr` (in 1/256), λ deciding magnification (R179). -/
def texFilter (r : Reader) (buf : PeerBuf) (t : Tex) (lr : Nat) (lod : Int) (u v : Int) : Eng (List W32) := do
  let xs ←
    if lr = 0 && lod ≤ 0 then texGather r buf t 0 256 (texTaps t t.mag 0 u v)
    else if !t.mip then
      let l := min ((lr + 128) / 256) t.lm1
      texGather r buf t l 256 (texTaps t t.min l u v)
    else do
      let l0 := lr / 256
      let l1 := min (l0 + 1) t.lm1
      let f := lr % 256
      let a ← texGather r buf t l0 (256 - f) (texTaps t t.min l0 u v)
      let b ← texGather r buf t l1 f (texTaps t t.min l1 u v)
      pure (a ++ b)
  pure ((upFrom 0 4).map (texChannel xs))

/-! ### Residency and feedback (R178, R180) -/

/-- A byte of a map; 0xFF where the read does not answer. -/
def texMapByte (r : Reader) (buf : PeerBuf) (va : Nat) : Eng Nat := do
  match ← engTry (engRead r buf (va / 4 * 4)) with
  | none => pure 255
  | some w => pure ((nth (bytesOf 4 w.toNat) (va % 4)).getD 0).toNat

/-- The key under which an operation's buffer holds the answers that a peer gave for a feedback word: the load's, then each
compare-and-swap's. -/
def swapKey (va : Nat) : Nat := 2 ^ 53 + va

/-- A word with one of its bytes lowered to at most a value. -/
def minByte (w : W32) (k x : Nat) : W32 :=
  wordOfBytes (mapIdx (fun i b => if i = k then BitVec.ofNat 8 (min b.toNat x) else b) (bytesOf 4 w.toNat) 0)

/-- The minimum in a peer chip's word: a load, then compare-and-swaps until one finds the word unchanged (17 R385); dropped at a
fault of the target. Open points: DEDUCED (log 25). -/
def peerFeedback (buf : PeerBuf) (va session addr x : Nat) : Eng Unit := fun s =>
  let base := addr / 4 * 4
  let key := swapKey (va / 4 * 4)
  let swap (w : W32) : EStateM.Result EngStop State Unit :=
    let new := minByte w (addr % 4) x
    if new = w then .ok () s else .error (.swap key session base w new) s
  match (buf.got.filter (fun e => e.1 = key)).map (fun e => e.2) with
  | [] => .error (.wait key session base) s
  | [some w] => swap w
  | some w :: some v :: _ => if w = v then .ok () s else swap w
  | _ => .ok () s

/-- The atomic minimum of a feedback byte at its bank; dropped where the page does not allow it. Open points: DEDUCED (log 25). -/
def texFeedback (c : CoreKey) (part : Nat) (buf : PeerBuf) (va x : Nat) : Eng Unit := fun s =>
  match s.access (.lane c) part .rw va with
  | (s, .ok (.mem key home owner _)) =>
    let (s, bs) := ((s.flushLine c (key / 128)).catchUp key 1).keyRead key 1 owner
    let old := ((nth bs 0).getD 0).toNat
    .ok () ((s.store key [BitVec.ofNat 8 (min old x)] owner home).punch c key 1)
  | (s, .ok (.peer session addr _ _)) => peerFeedback buf va session addr x s
  | (s, _) => .ok () s

/-- The four words that a lane's sample returns. -/
def texLane (c : CoreKey) (r : Reader) (buf : PeerBuf) (kind : Nat) (desc : List W32) (bias : Int) (nofb : Bool) (args : List W32) :
    Eng (List W32) := do
  let t := Tex.ofWords desc
  match finUnits ((nth args 0).getD 0), finUnits ((nth args 1).getD 0) with
  | some u, some v =>
    let lod := texLod kind t bias args
    let region := texAddr t.av (v * t.h / (unitDen : Int)) t.h / 64 * ((t.w + 63) / 64) + texAddr t.au (u * t.w / (unitDen : Int)) t.w / 64
    let lc := (min (max lod 0) (256 * t.lm1 : Nat)).toNat
    if !nofb then texFeedback c r.part buf (t.fb + region) (lc / 256)
    let mr ← texMapByte r buf (t.map + region)
    if mr > t.lm1 then pure [0, 0, 0, 0] else texFilter r buf t (max lc (256 * mr)) lod u v
  | _, _ => pure [0, 0, 0, 0]

end Sys2Proof.Machine
end

