-- ==== Sys2Proof/Machine/Ray.lean ====
section
/-! DEFINITION. What the ray unit returns: nodes, exact intersection, the order of candidates, and the traversal with its short
stack and restart trail (07 R181 to R190). -/

namespace Sys2Proof.Machine

/-! ### Extended rationals -/

/-- A parameter of the ray: a fraction with a positive denominator, or an infinity. -/
inductive Par where
  | neg
  | fin (n : Int) (d : Nat)
  | pos
deriving DecidableEq, Repr

def Par.le (a b : Par) : Bool :=
  match a, b with
  | .neg, _ => true
  | _, .pos => true
  | .fin n d, .fin m e => n * e ≤ m * d
  | _, _ => false

def Par.max (a b : Par) : Par := if a.le b then b else a
def Par.min (a b : Par) : Par := if a.le b then a else b

/-- An exact quotient. -/
def Par.quot (n d : Int) : Par := if d < 0 then .fin (-n) d.natAbs else .fin n d.natAbs

/-- A bound of the query; none for NaN. -/
def Par.ofWord (w : W32) : Option Par :=
  match Fmt.fp32.value w.toNat with
  | .nan => none
  | .inf s => some (if s then .neg else .pos)
  | .fin s n d => some (.fin (signedNum s n) d)

/-- A parameter rounded to FP32. -/
def Par.word : Par → W32
  | .neg => 0xFF800000#32
  | .pos => 0x7F800000#32
  | .fin n d => BitVec.ofNat 32 (Fmt.fp32.round .rne (.fin (n < 0) n.natAbs d)).1

/-! ### Vectors in units of 2^-149 -/

structure V3 where
  x : Int
  y : Int
  z : Int
deriving DecidableEq, Repr

def V3.sub (a b : V3) : V3 := ⟨a.x - b.x, a.y - b.y, a.z - b.z⟩
def V3.dot (a b : V3) : Int := a.x * b.x + a.y * b.y + a.z * b.z
def V3.cross (a b : V3) : V3 := ⟨a.y * b.z - a.z * b.y, a.z * b.x - a.x * b.z, a.x * b.y - a.y * b.x⟩

/-- Three FP32 words, if all are finite. -/
def V3.ofWords (ws : List W32) (k : Nat) : Option V3 :=
  match (nth ws k).bind finUnits, (nth ws (k + 1)).bind finUnits, (nth ws (k + 2)).bind finUnits with
  | some x, some y, some z => some ⟨x, y, z⟩
  | _, _, _ => none

/-! ### The query, a space, a hit -/

structure Query where
  all : Bool
  tmin : Par
  tmax : Par
  mask : Nat
  cullb : Bool
  cullf : Bool
  words : List W32
deriving DecidableEq, Repr

/-- The ray in the world or in an instance's space, none where a component is not finite. -/
structure Space where
  ray : Option (V3 × V3)
  iid : Nat
  iuser : W32
  bottom : Bool
deriving DecidableEq, Repr

structure Hit where
  t : Par
  b1 : Par
  b2 : Par
  iid : Nat
  pid : Nat
  iuser : W32
  tuser : W32
  back : Bool
deriving DecidableEq, Repr

/-- The order of candidates (R186). -/
def Hit.before (a b : Hit) : Bool :=
  if !b.t.le a.t then true
  else if !a.t.le b.t then false
  else if a.iid ≠ b.iid then a.iid < b.iid else a.pid < b.pid

/-- The exact intersection of a triangle (R185). -/
def triHit (q : Query) (sp : Space) (ws : List W32) : Option Hit :=
  match sp.ray, V3.ofWords ws 0, V3.ofWords ws 3, V3.ofWords ws 6 with
  | some (o, d), some v0, some v1, some v2 =>
    let e1 := v1.sub v0
    let e2 := v2.sub v0
    let p := d.cross e2
    let det := e1.dot p
    let tv := o.sub v0
    let qv := tv.cross e1
    let sg : Int := if det < 0 then -1 else 1
    let n1 := sg * tv.dot p
    let n2 := sg * d.dot qv
    let nt := e2.dot qv
    let t := Par.quot nt det
    let back : Bool := det < 0
    if det = 0 || n1 < 0 || n2 < 0 || n1 + n2 > sg * det || !q.tmin.le t || !t.le q.tmax || (q.cullb && back) || (q.cullf && !back) then
      none
    else
      some { t := t, b1 := .quot n1 (sg * det), b2 := .quot n2 (sg * det), iid := sp.iid,
             pid := ((nth ws 9).getD 0).toNat, iuser := sp.iuser, tuser := (nth ws 11).getD 0, back := back }
  | _, _, _, _ => none

/-! ### Boxes (R181, R187) -/

/-- The parameters at which the ray lies within a slab, as lower and upper bound; none if it never does. -/
def slab (o d lo hi : Int) (a b : Par) : Option (Par × Par) :=
  if lo > hi then none
  else if d = 0 then (if lo ≤ o && o ≤ hi then some (a, b) else none)
  else
    let x := Par.quot (lo - o) d
    let y := Par.quot (hi - o) d
    let a' := a.max (x.min y)
    let b' := b.min (x.max y)
    if a'.le b' then some (a', b') else none

/-- The entry of a child's box in [tmin, t*], if it is not skipped. `ws` are the node's words, `c` the child. -/
def childEntry (ws : List W32) (c : Nat) (o d : V3) (a b : Par) : Option Par :=
  let bytes := bytesOfWords ws
  let at' (k : Nat) : Int := (((nth bytes (0x10 + 6 * c + k)).getD 0).toNat : Int)
  let ex (k : Nat) : Nat := (149 + ((nth bytes (12 + k)).getD 0).toInt).toNat
  let org (k : Nat) : Int := fp32Units ((nth ws k).getD 0)
  let lo (k : Nat) : Int := org k + at' k * 2 ^ ex k
  let hi (k : Nat) : Int := org k + at' (k + 3) * 2 ^ ex k
  match slab o.x d.x (lo 0) (hi 0) a b with
  | none => none
  | some (a, b) =>
    match slab o.y d.y (lo 1) (hi 1) a b with
    | none => none
    | some (a, b) => (slab o.z d.z (lo 2) (hi 2) a b).map (fun r => r.1)

/-! ### Nodes (R181, R182, R189) -/

/-- A child to be processed: kind, address, records, space. -/
structure Item where
  kind : Nat
  addr : Nat
  cnt : Nat
  sp : Space
deriving DecidableEq, Repr

/-- Child `c` of an internal node. -/
def childItem (ws : List W32) (c : Nat) (sp : Space) : Item :=
  let r := (nth ws (10 + c)).getD 0
  let base := ((nth ws 14).getD 0).toNat + 2 ^ 32 * bitsOf ((nth ws 15).getD 0) 19 0
  { kind := bitsOf r 1 0, addr := base + 16 * bitsOf r 31 6, cnt := bitsOf r 5 2, sp := sp }

/-- A malformed child reference: CNT on another kind, a kind at the wrong level, an address misaligned or beyond bit 51. -/
def Item.malformed (i : Item) : Bool :=
  (i.kind ≠ 3 && i.cnt ≠ 0) || (i.kind = 2 && i.sp.bottom) || (i.kind = 3 && !i.sp.bottom)
  || (i.kind ≠ 0 && i.addr ≥ 2 ^ 52) || ((i.kind = 1 || i.kind = 2) && i.addr % 64 ≠ 0) || (i.kind = 3 && i.addr % 16 ≠ 0)

/-- A malformed internal node, its references included. Open points: DEDUCED (log 25). -/
def nodeMalformed (ws : List W32) (sp : Space) : Bool :=
  bitsOf ((nth ws 3).getD 0) 31 24 ≠ 0 || bitsOf ((nth ws 15).getD 0) 31 20 ≠ 0
  || (upFrom 0 3).any (fun k => (finUnits ((nth ws k).getD 0)).isNone)
  || (upFrom 0 4).any (fun c => (childItem ws c sp).malformed)

/-- The children of a node that are not skipped, ordered by entry and child number (R187, R188). Of a ray with a component that is not
finite in the node's space every child is skipped. DESIGN CHOICE (log 43). -/
def openChildren (ws : List W32) (sp : Space) (a b : Par) : List Item :=
  match sp.ray with
  | none => []
  | some (o, d) =>
    let found := (upFrom 0 4).filterMap (fun c =>
      let i := childItem ws c sp
      if i.kind = 0 then none else (childEntry ws c o d a b).map (fun e => (e, i)))
    (found.foldr (fun x l => insert x l) []).map (fun e => e.2)
where
  insert (x : Par × Item) : List (Par × Item) → List (Par × Item)
    | [] => [x]
    | y :: l => if x.1.le y.1 then x :: y :: l else y :: insert x l

/-- Row `i` of an instance's transform applied, rounded once (R182). -/
def instanceRow (ws rw : List W32) (i base : Nat) (withOrigin : Bool) : W32 :=
  let m (j : Nat) : Val := Fmt.fp32.value ((nth ws (4 * i + j)).getD 0).toNat
  let v (j : Nat) : Val := Fmt.fp32.value ((nth rw (base + j)).getD 0).toNat
  let add (a b : Val × Bool) : Val × Bool := ((a.1.add .rne b.1).1, false)
  let inv (x : Val × Bool) : Val × Bool := x
  let sum := add (add (inv ((m 0).mul (v 0))) (inv ((m 1).mul (v 1)))) (inv ((m 2).mul (v 2)))
  let sum := if withOrigin then add sum (m 3, false) else sum
  BitVec.ofNat 32 (Fmt.fp32.round .rne sum.1).1

/-- Whether a word is NaN. -/
def wordNan (w : W32) : Bool := (Fmt.fp32.value w.toNat).isNan

/-- The space of an instance, none if it yields no hit (R182, R185): of one whose origin or direction holds a NaN the bottom level
is not read, of which R182 says nothing. DESIGN CHOICE (log 43). -/
def instanceSpace (q : Query) (ws : List W32) : Option Space :=
  let o := (upFrom 0 3).map (fun i => instanceRow ws q.words i 0 true)
  let d := (upFrom 0 3).map (fun i => instanceRow ws q.words i 4 false)
  let idw := (nth ws 14).getD 0
  if bitsOf idw 31 24 &&& q.mask = 0 || o.any wordNan || d.any wordNan then none
  else
    let ray := match V3.ofWords o 0, V3.ofWords d 0 with | some o, some d => some (o, d) | _, _ => none
    some { ray := ray, iid := bitsOf idw 23 0, iuser := (nth ws 15).getD 0, bottom := true }

/-! ### Traversal (R188) -/

/-- What the traversal has found: best candidate, error code, short stack (newest first), trail, whether an entry was dropped,
restarts, and the address of a poisoned read. -/
structure Trav where
  best : Option Hit
  err : Option Nat
  pois : Option (Nat × Bool)
  stack : List (Item × Nat × Nat)
  trail : List Nat
  dropped : Bool
  restarts : Nat
deriving DecidableEq, Repr

/-- What the traversal does next. -/
inductive Todo where
  | descend (addr : Nat) (sp : Space) (level k : Nat)
  | process (i : Item) (level : Nat)
  | finish
deriving DecidableEq, Repr

/-- t*: the best candidate's t, or tmax. -/
def Trav.limit (t : Trav) (q : Query) : Par := match t.best with | some h => h.t | none => q.tmax

/-- Push an entry; a ninth drops the oldest. -/
def Trav.push (t : Trav) (e : Item × Nat × Nat) : Trav :=
  if t.stack.length < 8 then { t with stack := e :: t.stack } else { t with stack := e :: t.stack.take 7, dropped := true }

/-- Take a candidate into account (R186). Of two equal in t, IID and PID the first found stays, for R186 gives no further key.
DESIGN CHOICE (log 43). -/
def Trav.offer (t : Trav) (h : Option Hit) : Trav :=
  match h, t.best with
  | none, _ => t
  | some h, none => { t with best := some h }
  | some h, some b => if h.before b then { t with best := some h } else t

/-- `n` words of a node: zeros under return zero, the address under return poison (R189). -/
def rayWords (r : Reader) (buf : PeerBuf) (va : Nat) : Nat → Eng (Except (Nat × Bool) (List W32))
  | 0 => pure (.ok [])
  | n + 1 => fun s =>
    let rest (w : W32) : Eng (Except (Nat × Bool) (List W32)) :=
      rayWords r buf (va + 4) n >>= fun x => pure (x.map (fun ws => w :: ws))
    match engRead r buf va s with
    | .error (.fault _ 2 absent) s => .ok (.error (va, absent)) s
    | .error (.fault _ 1 _) s => rest 0 s
    | .ok w s => rest w s
    | .error e s => .error e s

/-- The traversal ends with the error of a poisoned read. -/
def Trav.poison (t : Trav) (p : Nat × Bool) : Trav := { t with err := some 3, pois := some p }

/-- Test the records of a leaf in order; a malformed record, or one that runs past bit 51 (09 R424), ends the traversal. -/
def rayLeaf (r : Reader) (buf : PeerBuf) (q : Query) (sp : Space) : Nat → Nat → Trav → Eng Trav
  | 0, _, t => pure t
  | n + 1, va, t => do
    if va + 48 > 2 ^ 52 then pure { t with err := some 2 }
    else
      match ← rayWords r buf va 12 with
      | .error p => pure (t.poison p)
      | .ok ws =>
        if (nth ws 10).getD 0 ≠ 0 then pure { t with err := some 2 }
        else
          let t := t.offer (triHit q sp ws)
          if !q.all && t.best.isSome then pure t else rayLeaf r buf q sp n (va + 48) t

/-- The root that an instance node names; none if a reserved bit is set or it is misaligned. -/
def instanceRoot (ws : List W32) : Option Nat :=
  let lo := (nth ws 12).getD 0
  let hi := (nth ws 13).getD 0
  if bitsOf hi 31 20 ≠ 0 || bitsOf lo 5 0 ≠ 0 then none else some (lo.toNat + 2 ^ 32 * bitsOf hi 19 0)

/-- Where the traversal goes on after a restart: node, space, level, position. -/
structure Back where
  addr : Nat
  sp : Space
  level : Nat
  k : Nat
deriving DecidableEq, Repr

/-- The re-descent along the trail: the deepest level with a sibling left (R188). -/
def rayRetrace (r : Reader) (buf : PeerBuf) (q : Query) (t : Trav) : List Nat → Nat → Nat → Space → Option Back →
    Eng (Trav × Option Back)
  | [], _, _, _, found => pure (t, found)
  | k :: ks, level, addr, sp, found => do
    match ← rayWords r buf addr 16 with
    | .error p => pure (t.poison p, none)
    | .ok ws =>
      if nodeMalformed ws sp then pure ({ t with err := some 2 }, none)
      else
        let h := openChildren ws sp q.tmin (t.limit q)
        let found := if k + 1 < h.length then some { addr := addr, sp := sp, level := level, k := k + 1 } else found
        match nth h k with
        | none => pure (t, found)
        | some i =>
          if i.kind = 1 then rayRetrace r buf q t ks (level + 1) i.addr sp found
          else if i.kind = 2 then
            match ← rayWords r buf i.addr 16 with
            | .error p => pure (t.poison p, none)
            | .ok ins =>
              match instanceRoot ins, instanceSpace q ins with
              | none, _ => pure ({ t with err := some 2 }, none)
              | _, none => pure (t, found)
              | some root, some sp' => rayRetrace r buf q t ks (level + 1) root sp' found
          else pure (t, found)

/-- The traversal. -/
def rayLoop (r : Reader) (buf : PeerBuf) (q : Query) (root : Nat) (world : Space) : Nat → Todo → Trav → Eng Trav
  | 0, _, t => pure t
  | fuel + 1, todo, t => do
    if t.err.isSome || (!q.all && t.best.isSome) then pure t
    else
      match todo with
      | .descend addr sp level k =>
        if level > 31 then pure { t with err := some 1 }
        else if addr ≥ 2 ^ 52 || addr % 64 ≠ 0 then pure { t with err := some 2 }
        else
          match ← rayWords r buf addr 16 with
          | .error p => pure (t.poison p)
          | .ok ws =>
            if nodeMalformed ws sp then pure { t with err := some 2 }
            else
              let h := openChildren ws sp q.tmin (t.limit q)
              match nth h k with
              | none => rayLoop r buf q root world fuel .finish t
              | some i =>
                let t := { t with trail := t.trail.take level ++ [k] }
                let rest := (mapIdx (fun j x => (x, level, j)) h 0).drop (k + 1)
                let t := rest.reverse.foldl (fun t e => t.push e) t
                rayLoop r buf q root world fuel (.process i level) t
      | .process i level =>
        if i.kind = 3 then
          let t ← rayLeaf r buf q i.sp (i.cnt + 1) i.addr t
          rayLoop r buf q root world fuel .finish t
        else if i.kind = 2 then
          match ← rayWords r buf i.addr 16 with
          | .error p => pure (t.poison p)
          | .ok ws =>
            match instanceRoot ws, instanceSpace q ws with
            | none, _ => pure { t with err := some 2 }
            | _, none => rayLoop r buf q root world fuel .finish t
            | some a, some sp => rayLoop r buf q root world fuel (.descend a sp (level + 1) 0) t
        else rayLoop r buf q root world fuel (.descend i.addr i.sp (level + 1) 0) t
      | .finish =>
        match t.stack with
        | (i, level, j) :: rest =>
          rayLoop r buf q root world fuel (.process i level) { t with stack := rest, trail := t.trail.take level ++ [j] }
        | [] =>
          if t.dropped then
            let t := { t with restarts := t.restarts + 1 }
            match ← rayRetrace r buf q t t.trail 0 root world none with
            | (t, none) => pure t
            | (t, some b) => rayLoop r buf q root world fuel (.descend b.addr b.sp b.level b.k) { t with trail := t.trail.take b.level }
          else pure t

/-! ### Results (R184, R185, R189) -/

/-- STATUS. -/
def rayStatus (hit back : Bool) (err : Option Nat) (restarts : Nat) : W32 :=
  BitVec.ofNat 32 ((if hit then 1 else 0) + (if back then 2 else 0) + (match err with | some c => 4 + 8 * c | none => 0)
    + 256 * min restarts 255)

/-- The words of a query that found nothing, or ended with an error. -/
def rayMiss (all : Bool) (err : Option Nat) (restarts : Nat) : List W32 :=
  if all then [0x7F800000#32, 0, 0, 0xFFFFFFFF#32, 0xFFFFFFFF#32, 0, 0, rayStatus false false err restarts]
  else [rayStatus false false err 0]

/-- The words of a traversal's end. -/
def Trav.words (t : Trav) (q : Query) : List W32 :=
  match t.err, t.best with
  | some c, _ => rayMiss q.all (some c) t.restarts
  | none, none => rayMiss q.all none t.restarts
  | none, some h =>
    if q.all then
      [h.t.word, h.b1.word, h.b2.word, BitVec.ofNat 32 h.iid, BitVec.ofNat 32 h.pid, h.iuser, h.tuser,
       rayStatus true h.back none t.restarts]
    else [rayStatus true false none 0]

/-- More steps than any traversal takes. -/
def rayFuel : Nat := 2 ^ 128

/-- The words that a lane's query returns, and the address of a poisoned read. -/
def rayLane (r : Reader) (buf : PeerBuf) (all : Bool) (root mask : Nat) (cullb cullf : Bool) (args : List W32) :
    Eng (List W32 × Option (Nat × Bool)) :=
  match (nth args 3).bind Par.ofWord, (nth args 7).bind Par.ofWord with
  | some a, some b =>
    if !a.le b then pure (rayMiss all none 0, none)
    else
      let q : Query := { all := all, tmin := a, tmax := b, mask := mask, cullb := cullb, cullf := cullf, words := args }
      let ray := match V3.ofWords args 0, V3.ofWords args 4 with | some o, some d => some (o, d) | _, _ => none
      let world : Space := { ray := ray, iid := 0, iuser := 0, bottom := false }
      do
        let t ← rayLoop r buf q root world rayFuel (.descend root world 0 0)
          { best := none, err := none, pois := none, stack := [], trail := [], dropped := false, restarts := 0 }
        pure (t.words q, t.pois)
  | _, _ => pure (rayMiss all none 0, none)

end Sys2Proof.Machine
end

