-- ==== Sys2Proof/Machine/Fetch.lean ====
section
/-! DEFINITION. Fetching an instruction's bytes, and what its faults do (03 R55 to R57; 09 R213; 18 R401). -/

namespace Sys2Proof.Machine

/-- The log position of a launch's start: a fetch may return any value its halfword held since (R57). -/
def State.launchLog (s : State) (t : Team) : Nat := ((s.launch? t.launch).map (fun l => l.logPos)).getD 0

/-- What a fetch of code gives: halfwords, a fault at the lowest faulting address, or a peer chip's word to be asked for. -/
inductive Fetch (α : Type) where
  | ok (a : α)
  | fault (va pol : Nat) (absent : Bool)
  | error (va : Nat)
  | wait (va session addr : Nat)
deriving DecidableEq, Repr

/-- The halfword of a word at an address. -/
def halfOf (w : W32) (va : Nat) : Half := if va % 4 = 0 then w.extractLsb' 0 16 else w.extractLsb' 16 16

/-- One halfword of code for a team at a point (R57). -/
def State.fetchHalf (s : State) (pt : Point) (t : Team) (buf : PeerBuf) (va : Nat) : State × Fetch Half :=
  match s.access pt t.part .fetch va with
  | (s, .error) => (s, .error va)
  | (s, .fault pol absent) => (s, .fault va pol absent)
  | (s, .ok (.mem key _ owner _)) =>
    if s.lineTag (key / 128) ≠ owner then
      let (s, w) := s.anyWord
      (s, .ok (halfOf w va))
    else
      let (s, w) := s.anyOldWord (s.launchLog t) (key / 4 * 4)
      (s, .ok (halfOf w va))
  | (s, .ok (.peer session addr pol _)) =>
    match kget (va / 4 * 4) buf.got with
    | some (some w) => (s, .ok (halfOf w va))
    | some none => (s, .fault va pol false)
    | none => (s, .wait (va / 4 * 4) session (addr / 4 * 4))
  | (s, .ok _) => (s, .error va)

/-- Halfwords from an address, after those already read, until they decode as an instruction (R56). -/
def fetchInstr (pt : Point) (t : Team) (buf : PeerBuf) (va : Nat) : Nat → List Half → State → State × Fetch (Instr × Nat × List Half)
  | 0, hs, s => (s, .ok (.misplacedPrefix, 0, hs))
  | fuel + 1, hs, s =>
    match decode hs with
    | .ok i n => (s, .ok (i, n, hs))
    | .more =>
      match s.fetchHalf pt t buf (va + 2 * hs.length) with
      | (s, .ok h) => fetchInstr pt t buf va fuel (hs ++ [h]) s
      | (s, .fault a p n) => (s, .fault a p n)
      | (s, .error a) => (s, .error a)
      | (s, .wait a x y) => (s, .wait a x y)

/-- The 32-bit word of code at an address. -/
def State.fetchWord (s : State) (pt : Point) (t : Team) (buf : PeerBuf) (va : Nat) : State × Fetch W32 :=
  match s.fetchHalf pt t buf va with
  | (s, .ok lo) =>
    if !lo.getLsbD 0 then (s, .ok (wordOf lo 0))
    else
      match s.fetchHalf pt t buf (va + 2) with
      | (s, .ok hi) => (s, .ok (wordOf lo hi))
      | (s, .fault a p n) => (s, .fault a p n)
      | (s, .error a) => (s, .error a)
      | (s, .wait a x y) => (s, .wait a x y)
  | (s, .fault a p n) => (s, .fault a p n)
  | (s, .error a) => (s, .error a)
  | (s, .wait a x y) => (s, .wait a x y)

/-- Whether a word is a RUN word (R66) or a TRAIL word (R67). -/
def isRun (w : W32) : Bool := w.toNat % 256 = 3
def isTrail (w : W32) : Bool := w.toNat % 256 = 5

/-- Whether an address is known not to hold a RUN word. One whose page does not answer is judged when a split begins there. -/
def State.lacksRun (s : State) (is : Iss) (a : Addr) : Bool :=
  match s.fetchHalf (.lane is.core) is.team is.run.buf a.toNat with
  | (_, .ok h) => h.toNat % 256 ≠ 3
  | _ => false

/-! ### Faults of a fetch (R213) -/

/-- Set a split's run aside until its access is replayed: a parked fetch, or a parked wait registration (R238, R401). -/
def State.suspend (s : State) (k : GroupKey) (r : Run) (va : Nat) : State :=
  s.updGroup k (fun g =>
    { (g.updSplit r.slot (fun x => { x with fetch := some { run := if r.opened then some r else none, va := va, held := true },
                                            ready := none })) with run := none })

/-- The notice of a parked access that holds a split (R401). -/
def State.noteSplit (s : State) (is : Iss) (pc : Addr) (va acc : Nat) (absent : Bool) : State :=
  let r := s.groupRec is.key kNotice (if absent then Causes.parkAbsent else Causes.parkPermission)
  s.emit is.team.part { r with parked := true, pc := pc, va := va, done := ~~~(maskOf is.active), acc := acc, pol := 0, np := absent }
    (some is.key) none

/-- What a fault of a fetch does; `pc` is the address of the framing word or instruction. -/
def State.fetchFault (s : State) (is : Iss) (pc : Addr) (va pol : Nat) (absent : Bool) : State :=
  if pol = 0 then (s.suspend is.key { is.run with next := pc } va).noteSplit is pc va 3 absent
  else
    let c := if pol = 3 then (if absent then Causes.killAbsent else Causes.killPermission) else Causes.fetchFault
    s.teamStop is.key { StopCause.at c pc with va := va, acc := 3, pol := pol, np := absent }

/-- A walk error of a fetch stops the team. -/
def State.fetchError (s : State) (is : Iss) (pc : Addr) (va : Nat) : State :=
  s.teamStop is.key { StopCause.at Causes.walkError pc with va := va, acc := 3, pol := 3 }

/-- Change the issuer's run. -/
def State.updRun (s : State) (k : GroupKey) (f : Run → Run) : State := s.updGroup k (fun g => { g with run := g.run.map f })

/-- A fetch that needs a peer chip's word asks for it, or takes the answer that has come (17 R385). -/
def State.fetchPeer (s : State) (is : Iss) (va session addr : Nat) : State :=
  let (s, buf, ready) := s.pollBuf is.run.buf
  if !ready then s
  else if (kget va buf.got).isSome then s.updRun is.key (fun r => { r with buf := buf })
  else
    let (s, buf) := s.askWord is.team.part buf va session addr
    s.updRun is.key (fun r => { r with buf := buf })

/-- What a fetch gives to the step: a value, or the state its fault or question leaves. -/
def State.afterFetch {α : Type} (s : State) (is : Iss) (pc : Addr) (r : Fetch α) (f : State → α → Host.Outcome State Fault Refusal) :
    Host.Outcome State Fault Refusal :=
  match r with
  | .ok a => f s a
  | .fault va pol absent => .next (s.fetchFault is pc va pol absent)
  | .error va => .next (s.fetchError is pc va)
  | .wait va session addr => .next (s.fetchPeer is va session addr)

end Sys2Proof.Machine
end

