-- ==== Sys2Proof/Machine/Trail.lean ====
section
/-! DEFINITION. The end of a run: the checks made at a TRAIL in the order of R45, and what each run-ending instruction does
there (02 R41, R43, R45; 03 R67; 05 R108 to R111; 10 R236, R241; 14 R326, R329, R330, R333). -/

namespace Sys2Proof.Machine

/-! ### Trap bins (14 R330) -/

/-- The core clock of a core's die. -/
def State.coreClock (s : State) (c : CoreKey) : Nat := s.clock c.die

/-- Lanes enter the open trap bins of their keys, or open them, in order; a ninth key dispatches the bin opened earliest. Gives the lanes
that wait for a bin to be free (R330). -/
def trapEnter (clock : Nat) : List TrapWait → List TrapBin → List TrapBin × List TrapWait
  | [], bins => (bins, [])
  | w :: ws, bins =>
    let same (b : TrapBin) : Bool :=
      !b.closed && b.team = w.team && b.trap.pc = w.trap.pc && b.trap.cause = w.trap.cause && b.trap.arg = w.trap.arg
    if bins.any same then
      trapEnter clock ws (updWhere same (fun b => { b with lanes := b.lanes ++ [w.lane], closed := b.lanes.length + 1 ≥ Config.gw }) bins)
    else if bins.length < Config.trapBins then
      trapEnter clock ws (bins ++ [{ team := w.team, trap := w.trap, lanes := [w.lane], opened := clock, closed := false }])
    else
      let bins :=
        if bins.any (fun b => b.closed) then bins
        else
          match minBy (fun (b : TrapBin) => b.opened) bins with
          | some o => updWhere (fun b => b == o) (fun b => { b with closed := true }) bins
          | none => bins
      let (bins, late) := trapEnter clock ws bins
      (bins, w :: late)

/-- Lanes enter a Heddle's trap bins, after those that wait already. -/
def Cluster.trapIn (x : Cluster) (clock : Nat) (ws : List TrapWait) : Cluster :=
  let (bins, late) := trapEnter clock (x.late ++ ws) x.traps
  { x with traps := bins, late := late }

/-- The lanes of a group that become Trap-held at a TRAIL enter bins in increasing LANEID (R330). -/
def State.enterTrapBins (s : State) (k : GroupKey) (c : CoreKey) (traps : List (Nat × LaneTrap)) : State :=
  if traps.isEmpty then s
  else
    s.updCluster (clusterOf c) (fun x => x.trapIn (s.coreClock c) (traps.map (fun e => { team := k.team, trap := e.2, lane := (k.idx, e.1) })))

/-- A team's lanes leave a Heddle's trap bins. -/
def Cluster.dropTraps (x : Cluster) (team clock : Nat) : Cluster :=
  ({ x with traps := x.traps.filter (fun b => b.team ≠ team), late := x.late.filter (fun w => w.team ≠ team) } : Cluster).trapIn clock []

/-! ### Exits (R109, R110; 14 R333) -/

/-- The rejoin barriers of a group whose every enrolled lane has arrived, as releases; their masks become empty (R43). -/
def Group.fullJoins (g : Group) : Group × List Release :=
  let full (j : Join) : Bool := j.enrol ≠ 0 && j.enrol = j.arrived
  ({ g with joins := g.joins.map (fun j => if full j then { j with enrol := 0, arrived := 0 } else j) },
   (g.joins.filter full).map (fun j =>
     { lanes := (lanesOf j.arrived).filter (fun i => ((nth g.lanes i).map Lane.isJoined).getD false), pc := j.fall, own := false }))

/-- Lanes of a group become Exited and leave every enrolment (R41 step 1). -/
def Group.exitLanes (g : Group) (is : List Nat) : Group :=
  (g.updLanes is (fun _ l => { l with st := .exited, mark := none })).leaveJoins (maskOf is)

/-- Origin lanes of a group end with their handler lanes: they become Exited, and rejoin barriers that this completes are released. -/
def State.exitOrigin (s : State) (k : GroupKey) (is : List Nat) : State :=
  match s.group? k with
  | none => s
  | some g =>
    let (g, rs) := (g.exitLanes is).fullJoins
    let env := s.slotEnv k
    s.updGroup k (fun _ => (g.release env 16 rs).step5 env)

/-- The origin of a handler lane. -/
def Group.originOf (g : Group) (i : Nat) : Option (Nat × Nat) := (g.handler.bind (fun h => nth h i)).join

/-- Forget the origins of handler lanes that have been dealt with. -/
def Group.forget (g : Group) (is : List Nat) : Group :=
  { g with handler := g.handler.map (fun h => mapIdx (fun i o => if is.contains i then none else o) h 0) }

/-- The origins of handler lanes, by origin group: its index, and the pairs of handler lane and origin lane. -/
def Group.origins (g : Group) (is : List Nat) : List (Nat × List (Nat × Nat)) :=
  let os := is.filterMap (fun i => (g.originOf i).map (fun o => (i, o)))
  (sortNat (os.map (fun e => e.2.1))).map (fun gi => (gi, (os.filter (fun e => e.2.1 = gi)).map (fun e => (e.1, e.2.2))))

/-- Handler lanes that exit without TRET end their origin lanes; those whose origin group is evicted end them when that group
resumes (R333). -/
def State.exitHandlers (s : State) (k : GroupKey) (is : List Nat) : State :=
  match s.group? k with
  | none => s
  | some g =>
    (g.origins is).foldl (fun s e =>
      let o : GroupKey := { team := k.team, idx := e.1 }
      match s.group? o with
      | some og =>
        if og.quarter.isSome then (s.exitOrigin o (e.2.map Prod.snd)).updGroup k (fun g => g.forget (e.2.map Prod.fst)) else s
      | none => s) s

/-- Fix the transfer that a run-ending instruction makes at the TRAIL. -/
def State.setEnder (s : State) (is : Iss) (e : Ender) : State :=
  s.updRun is.key (fun r => { r with ender := some (e, is.run.ipc) })

/-! ### Wait registration (R236, R238) -/

/-- What a barrier reference reaches for a use: an object with its home, a park, or a fault that stops the team. -/
inductive Reach where
  | obj (o : ObjRef) (home : Nat)
  | park (va : Nat) (absent : Bool)
  | bad (va pol : Nat) (absent : Bool)
deriving DecidableEq, Repr

/-- Translate a barrier reference for a use (R233, R238). -/
def State.reach (s : State) (pt : Point) (t : Team) (x : W64) (m : Perm) : State × Reach :=
  match Ref.ofPair x with
  | none => (s, .bad x.toNat 3 false)
  | some r =>
    if r.sp then
      match r.offset t.rec'.scratch with
      | some o => (s, .obj (.scratch t.key o) 0)
      | none => (s, .bad r.addr 3 false)
    else
      match s.access pt t.part m r.addr with
      | (s, .ok (.mem key home _ _)) => (s, .obj (.phys key) home)
      | (s, .ok _) => (s, .bad r.addr 3 false)
      | (s, .fault pol absent) => if pol = 0 then (s, .park r.addr absent) else (s, .bad r.addr pol absent)
      | (s, .error) => (s, .bad r.addr 3 false)

/-! ### The checks of a TRAIL (R45) -/

/-- The lane traps that lanes of the split take at this TRAIL: one from the run before one that landed (R329). Open points: DEDUCED (log 29). -/
def Iss.trapsNow (is : Iss) (fall : Addr) : List (Nat × LaneTrap) :=
  is.active.filterMap (fun i =>
    let l := is.g.lane i
    match l.mark with
    | some t => some (i, { t with fall := fall })
    | none =>
      match l.landed with
      | t :: _ => some (i, if t.fall = 0 then { t with fall := fall } else t)
      | [] => none)

/-- The PC of the first landed lane trap, when the team takes none (R49). Open points: DEDUCED (log 29). -/
def Iss.missing (is : Iss) : Option Addr :=
  if is.team.rec'.tbudget ≠ 0 then none
  else minBy (fun (a : Addr) => a.toNat) (is.active.flatMap (fun i => (is.g.lane i).landed.map (fun t => t.pc)))

/-- The failure of the run-ending instruction's own checks at the TRAIL (R241, R326). `out` are the lanes that a trap takes. BWAIT's check is
made whether or not a lane contributes. DESIGN CHOICE (log 53). -/
def Iss.enderCheck (is : Iss) (out : List Nat) : Option Cause :=
  match is.run.ender with
  | some (.bwait n _, _) => if (is.g.batchNo - n).toNat ≥ 2 ^ 31 then some Causes.batchOperand else none
  | some (.reorder ctl keys, _) =>
    let n := ctl.toNat % 256
    let roles := ctl.toNat / 2 ^ 12 % 16
    if ctl.toNat / 2 ^ 16 ≠ 0 || n > 192 || roles = 0 || roles / 2 ^ is.g.role % 2 = 0 || n > is.g.budget
       || is.team.groups.any (fun g => match g.held with
            | some h => h.site = ctl.toNat / 256 % 16 && h.ctl ≠ ctl
            | none => false) then some Causes.reorderOperand
    else
      let there (i : Nat) : Bool := keys.any (fun e => e.1 = i) && !out.contains i
      if (idxWhere (fun l => !l.isExited) is.g.lanes 0).any (fun i => !there i) || is.g.joins.any (fun j => j.enrol ≠ 0) then
        some Causes.reorderState
      else none
  | _ => none

/-- The targets that the run's transfer names for lanes that take it. -/
def Iss.targets (is : Iss) (out : List Nat) : List W64 :=
  match is.run.ender with
  | some (.jump ts, _) => (ts.filter (fun e => !out.contains e.1)).map (fun e => e.2)
  | some (.tret ts, _) => (ts.filter (fun e => !out.contains e.1)).map (fun e => e.2)
  | _ => []

/-- A target that breaks R108: bits [63:52] or bit 0 set, or no RUN word there. Open points: DEDUCED (log 15). -/
def State.badTarget (s : State) (is : Iss) (a : W64) : Bool := !canonical a || a.getLsbD 0 || s.lacksRun is a

/-- What happens to the lanes of the split at this TRAIL, before steps 2 to 5 of R41. -/
structure Plan where
  exits : List Nat
  yields : List Nat
  joins : Option Nat
  joined : List Nat
  waits : List Nat
  sleeps : List Nat
  holds : List Nat
  returns : List (Nat × W64)
  nexts : List (Nat × Addr)
deriving DecidableEq, Repr

/-- Step 1 of R41 for the lanes that no trap takes. Open points: DEDUCED (log 15). -/
def Iss.plan (is : Iss) (out : List Nat) (fall : Addr) : Plan :=
  let m := is.active.filter (fun i => !out.contains i)
  let among (x : Mask) : List Nat := m.filter (fun i => x.getLsbD i)
  let p : Plan := { exits := [], yields := [], joins := none, joined := [], waits := [], sleeps := [], holds := [],
                    returns := [], nexts := [] }
  let p : Plan := match is.run.ender with
    | some (.exit x, _) => { p with exits := among x }
    | some (.yield x, _) => { p with yields := among x }
    | some (.joinw k x, _) =>
      let en := ((nth is.g.joins k).map (fun j => j.enrol)).getD 0
      { p with joins := some k, joined := among (x &&& en) }
    | some (.wait _ x, _) => { p with waits := among x }
    | some (.bwait _ x, _) => { p with waits := among x }
    | some (.waitY _ x _, _) => { p with sleeps := among x }
    | some (.reorder _ keys, _) => { p with holds := m.filter (fun i => keys.any (fun e => e.1 = i)) }
    | some (.tret ts, _) => { p with returns := ts.filter (fun e => m.contains e.1) }
    | _ => p
  let gone (i : Nat) : Bool := p.exits.contains i || p.joined.contains i || p.sleeps.contains i || p.holds.contains i
    || p.returns.any (fun e => e.1 = i)
  let target (i : Nat) : Addr := match is.run.ender with | some (.jump ts, _) => (kget i ts).getD fall | _ => fall
  { p with nexts := (m.filter (fun i => !gone i)).map (fun i => (i, target i)) }

/-- Whether JOINW's arrivals complete their barrier. Open points: DEDUCED (log 15). -/
def Iss.joinFull (is : Iss) (p : Plan) : Bool :=
  match p.joins with
  | none => false
  | some k =>
    match nth is.g.joins k with
    | none => false
    | some j => !p.joined.isEmpty && j.enrol = (j.arrived ||| maskOf p.joined)

/-- Whether some lane continues at FALL (R67). -/
def Iss.usesFall (is : Iss) (p : Plan) (fall : Addr) : Bool :=
  p.nexts.any (fun e => e.2 = fall) || is.joinFull p || !p.holds.isEmpty

/-! ### The effect of a TRAIL -/

/-- Mark where asynchronous lane traps of this run's operations resume (R331). -/
def Group.setFall (g : Group) (r : Run) (fall : Addr) : Group :=
  let tr (t : LaneTrap) : LaneTrap := if t.runAddr = r.addr && t.fall = 0 then { t with fall := fall } else t
  { g with pend := g.pend.map (fun o => if o.runAddr = r.addr && o.fall = 0 then { o with fall := fall } else o),
           lanes := g.lanes.map (fun l => { l with landed := l.landed.map tr }) }

/-- The group after its TRAIL: trapped lanes Trap-held with their temporaries lost, exits, arrivals, then steps 2 to 5. -/
def Iss.afterTrail (is : Iss) (env : SlotEnv) (p : Plan) (traps : List (Nat × LaneTrap)) (fall : Addr) (block : Option Block) : Group :=
  let r := is.run
  let g := is.g.setFall r fall
  let via (i : Nat) : Addr := match r.ender with
    | some (.jump ts, pc) => if ts.any (fun e => e.1 = i) then pc else fall - 4
    | some (.waitY .., pc) => if p.sleeps.contains i then pc else fall - 4
    | _ => fall - 4
  let g := g.updLanes is.active (fun i l => { l with landed := [], came := { via := some (via i), since := none } })
  let g := g.updLanes (traps.map Prod.fst) (fun i l =>
    { l with st := .trapHeld, mark := none, t := [], pc := ((kget i traps).map (fun t => t.pc)).getD fall })
  let g := g.exitLanes p.exits
  let g := match p.joins with
    | some k =>
      if p.joined.isEmpty then g
      else
        let g := g.updLanes p.joined (fun _ l => { l with st := .joined k, pc := fall })
        { g with joins := updNth (fun j => { j with arrived := j.arrived ||| maskOf p.joined, fall := fall }) g.joins k }
    | none => g
  let (g, rs) := g.fullJoins
  let own := is.joinFull p
  let blocked := if block.isSome then p.waits else []
  let g := { g with run := none, lastSlot := r.slot }
  g.trail env
    { slot := r.slot, runAddr := r.addr, fall := fall, nexts := p.nexts.filter (fun e => !blocked.contains e.1),
      blocked := blocked, block := block, yields := p.yields, releases := rs.map (fun x => { x with own := own }) }

/-- Give the lanes of a WAIT.Y their registration (R236). -/
def Group.sleepLanes (g : Group) (is : List Nat) (o : ObjRef) (par : Bool) (target : Addr) : Group :=
  g.updLanes is (fun _ l => { l with st := .yielded o par false, pc := target })

/-- The return of handler lanes by the TRET at `pc`: the origin lanes of each group take their registers back and leave Trap-held
together (R40, R333). -/
def State.returnLanes (s : State) (k : GroupKey) (pc : Addr) (ts : List (Nat × W64)) : State :=
  match s.group? k with
  | none => s
  | some g =>
    let is := ts.map Prod.fst
    let back (s : State) (e : Nat × List (Nat × Nat)) : State :=
      let o : GroupKey := { team := k.team, idx := e.1 }
      match s.group? o with
      | none => s
      | some og =>
        (e.2.foldl (fun s x => s.updLane o x.2 (fun l =>
          { l.returnTo (g.lane x.1) og.budget ((kget x.1 ts).getD 0) with came := { via := some pc, since := none } })) s).releaseLanes o
          (e.2.map (fun x => (x.2, (kget x.1 ts).getD 0)))
    ((g.origins is).foldl back s).updGroup k (fun g => (g.exitLanes is).forget is)

/-- Whether the origin group of a returning lane is evicted (R333). -/
def State.awaySome (s : State) (is : Iss) (ts : List (Nat × W64)) : Bool :=
  ts.any (fun e => match is.g.originOf e.1 with
    | some (gi, _) => (match s.group? { team := is.key.team, idx := gi } with | some g => g.quarter.isNone | none => false)
    | none => false)

/-- The run ends: steps 1 to 5 of R41 with what the lanes wait for, if anything. -/
def State.finishRun (s : State) (is : Iss) (p : Plan) (traps : List (Nat × LaneTrap)) (fall : Addr) (block : Option Block) : State :=
  let env := s.slotEnv is.key
  let s := s.updGroup is.key (fun _ => is.afterTrail env p traps fall block)
  let s := s.enterTrapBins is.key is.core traps
  s.exitHandlers is.key p.exits

/-- A WAIT or WAIT.Y at the TRAIL: the object, judged now (R236), once the updates and accesses that its group issued to the object before
have been performed (11 R261). Open points: DEDUCED (log 16). -/
def State.trailWait (s : State) (is : Iss) (p : Plan) (traps : List (Nat × LaneTrap)) (fall : Addr) (ref : W64) (pc : Addr)
    (target : Option Addr) : State :=
  match s.reach (.lane is.core) is.team ref .rd with
  | (s, .park va absent) => (s.suspend is.key { is.run with next := is.run.ipc } va).noteSplit is pc va 2 absent
  | (s, .bad va pol absent) =>
    s.teamStop is.key { StopCause.at Causes.barrierFault pc with va := va, acc := 2, pol := pol, np := absent }
  | (s', .obj o _) =>
    if s'.earlierAt is.core is.team.part is.g o then s.holdRun is
    else
      let (s, ws) := s'.objRead o
      let is := { is with g := (s.group? is.key).getD is.g }
      let par := ref.getLsbD 62
      let completed := (Obj.ofWords ws).phase ≠ par
      match target with
      | none =>
        let s := if completed then (match o with | .phys _ => s.dropL1 is.core | _ => s) else s
        s.finishRun is p traps fall (if completed then none else some (.phase o par false))
      | some t =>
        let s := s.finishRun { is with g := is.g.sleepLanes p.sleeps o par t } p traps fall none
        if completed then s.releaseGroup is.key o par else s

/-- A TRAIL whose checks have passed; a victim of a pre-emption that ends its run at a reorder site is one no more (13 R303). Open points: DEDUCED (log 15). -/
def State.trailEffect (s : State) (is : Iss) (traps : List (Nat × LaneTrap)) (fall : Addr) : State :=
  let p := is.plan (traps.map Prod.fst) fall
  match is.run.ender with
  | some (.wait ref _, pc) =>
    if p.waits.isEmpty then s.finishRun is p traps fall none else s.trailWait is p traps fall ref pc none
  | some (.waitY ref _ target, pc) =>
    if p.sleeps.isEmpty then s.finishRun is p traps fall none else s.trailWait is p traps fall ref pc (some target)
  | some (.bwait n _, _) =>
    let count := (Obj.ofWords (s.objWords (.scratch is.key.team (16 * is.key.idx))).2).count
    let holds := !p.waits.isEmpty && (BitVec.ofNat 32 count - n).toNat ≥ 2 ^ 31
    let s := if holds || p.waits.isEmpty then s else s.reveal is.core is.key
    s.finishRun is p traps fall (if holds then some (.batch n) else none)
  | some (.reorder ctl keys, _) =>
    let s := s.updGroup is.key (fun g =>
      { ((g.setFall is.run fall).keepSplit is.run.slot fall p.holds none).viaTrail p.holds fall with
        run := none, lastSlot := is.run.slot, draining := false, held := some { site := ctl.toNat / 256 % 16, ctl := ctl, keys := keys } })
    s
  | some (.tret _, pc) =>
    if s.awaySome is p.returns then
      let s := s.suspend is.key { is.run with next := is.run.ipc } 0
      s.updGroup is.key (fun g => g.updSplit is.run.slot (fun x => { x with block := some .tret }))
    else
      let s := s.returnLanes is.key pc p.returns
      match s.group? is.key with
      | none => s
      | some g => s.finishRun { is with g := g } p traps fall none
  | _ => s.finishRun is p traps fall none

/-- The TRAIL of the issuer's run, with its checks in the order of R45; a label target of BRA or CALL is judged with the register targets.
DESIGN CHOICE (log 53). -/
def State.trail (s : State) (is : Iss) (post : BitVec 16) : State :=
  let here := is.run.ipc
  let fall := is.run.next
  let traps := if is.team.rec'.tbudget = 0 || is.g.handler.isSome then [] else is.trapsNow fall
  let out := traps.map Prod.fst
  let enderPc := (is.run.ender.map Prod.snd).getD here
  if post ≠ is.run.named then s.teamStop is.key (StopCause.at Causes.postMask here)
  else
    match is.enderCheck out with
    | some c => s.teamStop is.key (StopCause.at c enderPc)
    | none =>
      if (is.targets out).any (s.badTarget is) then s.teamStop is.key (StopCause.at Causes.transferTarget enderPc)
      else
        match is.missing with
        | some pc => s.teamStop is.key { StopCause.at Causes.missingVector pc with async := true }
        | none =>
          if is.usesFall (is.plan out fall) fall && s.lacksRun is fall then
            s.teamStop is.key (StopCause.at Causes.transferTarget here)
          else s.trailEffect is traps fall

end Sys2Proof.Machine
end

