-- ==== Sys2Proof/Machine/LaneMem.lean ====
section
/-! DEFINITION. Lane accesses: loads, atomics and stores as they are performed, the store queue, forwarding, fault policies and
replay (10 R222 to R230; 11 R258, R264; 09 R213; 18 R401 to R403). -/

namespace Sys2Proof.Machine

/-! ### Atomic operations (R227) -/

/-- New value of an integer atomic of `w` bits from the old value and the operand. -/
def atomInt (w fn : Nat) (x c : BitVec w) : BitVec w :=
  match fn with
  | 0 => x + c
  | 1 => if x.toInt ≤ c.toInt then x else c
  | 2 => if x.toInt ≤ c.toInt then c else x
  | 3 => if x.toNat ≤ c.toNat then x else c
  | 4 => if x.toNat ≤ c.toNat then c else x
  | 5 => x &&& c
  | 6 => x ||| c
  | 7 => x ^^^ c
  | _ => c

/-- New value of a 32-bit atomic, the FP operations without FLUSH (R227). -/
def atom32 (fn : Nat) (x c : W32) : W32 :=
  if fn = 9 then fadd32 x c
  else if fn = 10 || fn = 11 then BitVec.ofNat 32 (fminmax (fn = 11) false x.toNat c.toNat)
  else atomInt 32 fn x c

/-- New words of an atomic from the old words and the operand words. -/
def atomWords (fn : Nat) (w64 : Bool) (old c : List W32) : List W32 :=
  let at0 (l : List W32) (k : Nat) : W32 := (nth l k).getD 0
  if w64 then
    let r := atomInt 64 fn (pairOf (at0 old 0) (at0 old 1)) (pairOf (at0 c 0) (at0 c 1))
    [lo32 r, hi32 r]
  else [atom32 fn (at0 old 0) (at0 c 0)]

/-- New words of a CAS: the comparison is on bits (R228). `args` are the compare words and then the new ones. -/
def casWords (w64 : Bool) (old args : List W32) : List W32 :=
  let n := if w64 then 2 else 1
  if old = args.take n then args.drop n else old

/-! ### Forwarding (R258) -/

/-- The last value put at a place. -/
def lastAt (p : Place) (l : List (Place × Option Byte)) : Option (Option Byte) := (l.reverse.find? (fun x => x.1 = p)).map (fun x => x.2)

/-- What the store queue holds of a load's bytes: nothing, all of them from its youngest overlapping entry, or a part of them,
so that entries through a sequence number must leave first (R258). -/
inductive Queued where
  | none
  | all (bs : List Byte)
  | part (seq : Nat)
deriving DecidableEq, Repr

/-- Look through entries, youngest first. -/
def lookQueue (ps : List Place) : List (Nat × List (Place × Option Byte)) → Queued
  | [] => .none
  | (seq, bs) :: rest =>
    if ps.all (fun p => (lastAt p bs).isNone) then lookQueue ps rest
    else
      let got := ps.map (fun p => (lastAt p bs).join)
      if got.all Option.isSome then .all (got.map (fun b => b.getD 0)) else .part seq

/-- The youngest entry that goes to a chip which a load reads: one lane's accesses to a chip are performed there in issue order (17 R385). -/
def lastToChip (ps : List Place) (es : List (Nat × List (Place × Option Byte))) : Option Nat :=
  ((es.filter (fun e => e.2.any (fun b => b.1.chip.isSome && ps.any (fun p => p.chip = b.1.chip)))).getLast?).map (fun e => e.1)

/-- What a group's queue holds of a load's bytes. A scoped reduction is an acquire: what follows waits for it (R260). -/
def State.queued (s : State) (c : CoreKey) (part : Nat) (g : Group) (seq : Nat) (ps : List Place) : Queued :=
  let es := g.queue.filter (fun e => e.seq < seq)
  match (es.filter (fun e => match e.kind with | .red _ _ _ => e.scope ≠ 0 | _ => false)).getLast? with
  | some e => .part e.seq
  | none =>
    let bs := es.map (fun e => (e.seq, s.entryBytes c part e))
    match lookQueue ps bs.reverse with
    | .none => (match lastToChip ps bs with | some n => .part n | none => .none)
    | r => r

/-- Whether a store of the core to a peer chip that is not acknowledged yet covers one of some places (R258). -/
def State.peerBusy (s : State) (c : CoreKey) (part : Nat) (ps : List Place) : Bool :=
  (s.core c).flights.any (fun x => match x with
    | .peer _ id e => (s.answer id).isNone && (s.entryBytes c part e).any (fun b => ps.contains b.1)
    | _ => false)

/-! ### Fault outcomes (R213, R403) -/

/-- What one lane's access comes to: its words, a park, a stop, a question to a peer, or dropped without effect. -/
inductive LaneRes where
  | done (ws : List W32)
  | park (absent : Bool)
  | stop (c : Cause) (pol : Nat) (absent : Bool)
  | parkAt (va : Nat) (absent : Bool)
  | stopAt (va : Nat) (c : Cause) (pol : Nat) (absent : Bool)
  | ask (id : Nat)
  | wait
deriving DecidableEq, Repr

/-- The word of a poisoned access. -/
def poisonWord : W32 := 0x7FC00000#32

/-- What a fault policy makes of an access that gives `n` words. -/
def LaneRes.ofFault (pol : Nat) (absent : Bool) (n : Nat) : LaneRes :=
  match pol with
  | 0 => .park absent
  | 1 => .done (List.replicate n 0)
  | 2 => .done (List.replicate n poisonWord)
  | _ => .stop (if absent then Causes.killAbsent else Causes.killPermission) 3 absent

/-- A walk error stops the team. -/
def LaneRes.walk : LaneRes := .stop Causes.walkError 3 false

/-- Where an access comes from: group, team, core, PC, ACC code of its records. -/
structure From where
  key : GroupKey
  team : Team
  core : CoreKey
  pc : Addr
  acc : Nat
deriving DecidableEq, Repr

/-- A poisoned access: POISON counts up, and the launch's first writes a notice (R403). Open points: DEDUCED (log 18). -/
def State.poisoned (s : State) (f : From) (va : Nat) (absent : Bool) : State :=
  let first := ((s.launch? f.team.launch).map (fun l => !l.poisoned)).getD false
  let s := s.updPart f.team.part (fun p => { p with poison := p.poison + 1 })
  let s := s.updLaunch f.team.launch (fun l => { l with poisoned := true })
  if first then
    let r := s.groupRec f.key kNotice Causes.poison
    s.emit f.team.part { r with pc := f.pc, va := va, acc := f.acc, pol := 2, np := absent } (some f.key) none
  else s

/-- A fault under its policy, with what it reports: only an access that is answered with poison is counted (R395). Open points: DEDUCED (log 18). -/
def State.faulted (s : State) (f : From) (va pol : Nat) (absent : Bool) (n : Nat) : State × LaneRes :=
  (if pol = 2 && n ≠ 0 then s.poisoned f va absent else s, LaneRes.ofFault pol absent n)

/-- Which error a set of lanes' results raises: the first stop of a lane. -/
def State.stopLane (s : State) (f : From) (va : Nat) (c : Cause) (pol : Nat) (absent : Bool) : State :=
  s.lateStop f.key { StopCause.at c f.pc with va := va, acc := f.acc, pol := pol, np := absent }

/-- The notice of parked lane accesses: the first faulting lane's address, the lanes not to be reissued (R401). -/
def State.parkNotice (s : State) (f : From) (va : Nat) (absent : Bool) (parked : List Nat) : State :=
  let r := s.groupRec f.key kNotice (if absent then Causes.parkAbsent else Causes.parkPermission)
  s.emit f.team.part { r with parked := true, pc := f.pc, va := va, done := ~~~(maskOf parked), acc := f.acc, np := absent }
    (some f.key) none

/-! ### Loads (R222) -/

/-- The words that a load of bytes gives: a narrow one extended to 32 bits (R222). -/
def loadWords (n : Nat) (sext : Bool) (bs : List Byte) : List W32 :=
  if n = 1 then [let b : BitVec 8 := BitVec.ofNat 8 (ofBytes bs); if sext then b.signExtend 32 else b.setWidth 32]
  else if n = 2 then [let b : BitVec 16 := BitVec.ofNat 16 (ofBytes bs); if sext then b.signExtend 32 else b.setWidth 32]
  else wordsOfBytes (n / 4) bs

/-- The number of registers of an access of `n` bytes. -/
def wordsFor (n : Nat) : Nat := if n < 4 then 1 else n / 4

/-- The bytes that a load takes of the words a fault gave it. Open points: DEDUCED (log 18). -/
def LaneRes.cut (r : LaneRes) (va n : Nat) (fmt : List Byte → List W32) : LaneRes :=
  match r with
  | .done ws => .done (fmt (slice (bytesOfWords ws) (va % 4) n))
  | r => r

/-- Words gathered for a lane (R215): a word that a fault answers is a zero or a poison word; says whether one is poison. -/
def gatherLane (r : Reader) (buf : PeerBuf) (memo : Memo) (va : Nat) : Nat → Eng (List W32 × Option Bool)
  | 0 => pure ([], none)
  | n + 1 => fun s =>
    let rest (w : W32) (memo : Memo) (p : Option Bool) : Eng (List W32 × Option Bool) := do
      let (ws, q) ← gatherLane r buf memo (va + 4) n
      pure (w :: ws, p.or q)
    match readStep r buf memo va s with
    | (s, memo, .ok w) => rest w memo none s
    | (s, memo, .error (.fault _ 1 _)) => rest 0 memo none s
    | (s, memo, .error (.fault _ 2 absent)) => rest poisonWord memo (some absent) s
    | (s, _, .error e) => .error e s

/-- A load through a gather window: its words are read in the index and data pages (R214, R215). -/
def State.windowLoad (s : State) (f : From) (buf : PeerBuf) (va n : Nat) (sext : Bool) : State × PeerBuf × LaneRes :=
  let r : Reader := { pt := .lane f.core, part := f.team.part, since := some (s.launchLog f.team) }
  let a := va / 4 * 4
  let (s, buf, ready) := s.pollBuf buf
  if !ready then (s, buf, .wait)
  else
    match gatherLane r buf [] a (wordsFor n) s with
    | .ok (ws, p) s =>
      (match p with | some absent => s.poisoned f va absent | none => s, buf, .done (loadWords n sext (slice (bytesOfWords ws) (va - a) n)))
    | .error (.fault _ pol absent) s =>
      let (s, res) := s.faulted f va pol absent (wordsFor n)
      (s, buf, res)
    | .error (.error _) s => (s, buf, .walk)
    | .error (.wait w session addr) s =>
      let (s, buf) := s.askWord f.team.part buf w session addr
      (s, buf, .wait)
    | .error (.swap _ _ _ _ _) s => (s, buf, .wait)

/-- What a fault or a walk error of a lane's read of `n` bytes comes to; none where the page allows the read. -/
def State.unreadable (s : State) (f : From) (va n : Nat) (sext : Bool) : State × Option LaneRes :=
  match s.access (.lane f.core) f.team.part .rd va with
  | (s, .error) => (s, some .walk)
  | (s, .fault pol absent) =>
    let (s, r) := s.faulted f va pol absent (wordsFor n)
    (s, some (r.cut va n (loadWords n sext)))
  | (s, .ok .error) => (s, some .walk)
  | (s, .ok _) => (s, none)

/-- One lane's global load: scope, hint, bytes, and the words it comes to. A load of scope .die or wider follows the core's stores
that have left their queues (11 R263, R264). -/
def State.globalLoad (s : State) (f : From) (buf : PeerBuf) (l : PendLane) (n : Nat) (sext : Bool) (scope : Nat) (repl : Bool) :
    State × PeerBuf × LaneRes :=
  let va := l.ea.toNat
  let s := if scope ≥ 3 then s.flushAll f.core else s
  match s.access (.lane f.core) f.team.part .rd va with
  | (s, .error) => (s, buf, .walk)
  | (s, .fault pol absent) =>
    let (s, r) := s.faulted f va pol absent (wordsFor n)
    (s, buf, r.cut va n (loadWords n sext))
  | (s, .ok (.mem key home owner leafRepl)) =>
    if s.lineTag (key / 128) ≠ owner then
      let (s, ws) := s.anyWords (wordsFor n)
      (s, buf, .done (loadWords n sext ((bytesOfWords ws).take n)))
    else
      let use : Option ReplUse :=
        if repl && leafRepl && scope = 0 then some { launch := f.team.launch, cluster := clusterOf f.core } else none
      let (s, bs) := if scope ≥ 3 then s.acquireRead f.core key n else s.l1Read f.core key n owner home use
      (s, buf, .done (loadWords n sext bs))
  | (s, .ok (.peer session addr _ _)) =>
    if s.peerBusy f.core f.team.part (({ sp := false, chip := some session, addr := addr } : Place).span n) then (s, buf, .wait)
    else
      let (s, id) := s.ask f.team.part session (fun id => .pload id (BitVec.ofNat 64 addr) n)
      (s, buf, .ask id)
  | (s, .ok (.window _)) => s.windowLoad f buf va n sext
  | (s, .ok .error) => (s, buf, .walk)

/-- The bytes of scratchpad places. -/
def Team.scratchBytes (t : Team) (ps : List Place) : List Byte := ps.map (fun p => Tbl.get t.scratch p.addr)

/-- The policy of a peer page's leaf, for a request that the chip answered with a fault (17 R385). -/
def State.peerPol (s : State) (c : CoreKey) (part va : Nat) : Nat :=
  match (s.translate (.lane c) part va).2 with
  | .leaf p _ _ => p.fpol
  | _ => 3

/-- The answer of a peer to a lane's access of `n` bytes. -/
def State.peerAnswer (s : State) (f : From) (va id n : Nat) (fmt : List Byte → List W32) : State × LaneRes :=
  match s.answer id with
  | none => (s, .ask id)
  | some (.done bs) => (s.closeAsk id, .done (fmt bs))
  | some .faulted =>
    let (s, r) := (s.closeAsk id).faulted f va (s.peerPol f.core f.team.part va) false (wordsFor n)
    (s, r.cut va n fmt)

/-! ### Atomics (R228) -/

/-- Bytes of an atomic. -/
def atomBytes (w64 : Bool) : Nat := if w64 then 8 else 4

/-- Before an operation at the home, the core's stores are performed: it stands after them in the core's store order (11 R258, R263).
After it, an acquire drops L1; else L1 fetches what it changed again (R203, 11 R264). -/
def State.afterHome (s : State) (c : CoreKey) (key n scope : Nat) : State :=
  if scope ≥ 3 then s.dropL1 c else s.punch c key n

/-- A read-modify-write of words at a home; gives the old words. -/
def State.homeModify (s : State) (c : CoreKey) (key home n scope : Nat) (owner : Owner) (f : List W32 → List W32) : State × List W32 :=
  let (s, bs) := ((s.flushAll c).catchUp key n).keyRead key n owner
  let old := wordsOfBytes (n / 4) bs
  let s := s.store key (bytesOfWords (f old)) owner home
  (s.afterHome c key n scope, old)

/-- One lane's atomic, CAS or reduction on global memory; `body` makes the peer message, `ret` says whether the old value returns.
Open points: DEDUCED (log 17). -/
def State.globalAtom (s : State) (f : From) (l : PendLane) (ret : Bool) (n scope : Nat) (body : Nat → Nat → Body) (fn : List W32 → List W32) :
    State × LaneRes :=
  let va := l.ea.toNat
  match s.access (.lane f.core) f.team.part .rw va with
  | (s, .error) => (s, .walk)
  | (s, .fault pol absent) => s.faulted f va pol absent (if ret then n / 4 else 0)
  | (s, .ok (.mem key home owner _)) =>
    let (s, old) := s.homeModify f.core key home n scope owner fn
    (s, .done old)
  | (s, .ok (.peer session addr _ _)) =>
    let s := if scope ≥ 3 then s.flushAll f.core else s
    let (s, id) := s.ask f.team.part session (body addr)
    (s, .ask id)
  | (s, .ok _) => (s, .walk)

/-- A group's store or atomic at a place in its issue order. -/
def From.writer (f : From) (seq : Nat) : Writer := { idx := some f.key.idx, seq := seq, tile := false }

/-- A read-modify-write of scratchpad words; gives the old words. -/
def State.scratchModify (s : State) (team : Nat) (by' : Writer) (off n : Nat) (fn : List W32 → List W32) : State × List W32 :=
  match s.team? team with
  | none => (s, [])
  | some t =>
    let old := wordsOfBytes (n / 4) (Tbl.getList t.scratch off n)
    (s.scratchStore team by' ((upFrom off n).zip (bytesOfWords (fn old))), old)

/-- The peer message of an atomic, a CAS or a reduction (17 R385). Open points: DESIGN CHOICE (log 41). -/
def atomBody (fn : Nat) (w64 : Bool) (op : PeerOp) (opnd cmp : List W32) (addr id : Nat) : Body :=
  let v (l : List W32) : W64 := pairOf ((nth l 0).getD 0) (if w64 then (nth l 1).getD 0 else 0)
  .patom id (BitVec.ofNat 64 addr) (BitVec.ofNat 4 fn) w64 op (v opnd) (v cmp)

/-! ### One lane of a pending operation -/

/-- An acquire at .die or wider that a peer has answered drops L1 (R264). -/
def State.acquired (s : State) (c : CoreKey) (scope : Nat) (r : LaneRes) : State :=
  match r with
  | .done _ => if scope ≥ 3 then s.dropL1 c else s
  | _ => s

/-- The reader that a lane's texture and ray reads are: any value a word held since the launch began (07 R180, R189). -/
def State.unitReader (s : State) (f : From) : Reader :=
  { pt := .lane f.core, part := f.team.part, since := some (s.launchLog f.team) }

/-- What an engine's stop means for a lane of the ray unit. -/
def LaneRes.ofStop : EngStop → LaneRes
  | .fault va pol absent =>
    if pol = 0 then .parkAt va absent else .stopAt va (if absent then Causes.killAbsent else Causes.killPermission) 3 absent
  | .error va => .stopAt va Causes.walkError 3 false
  | .wait _ _ _ => .wait
  | .swap _ _ _ _ _ => .wait

/-- A buffer without the answers to a lane's compare-and-swaps: they are no words that another lane may read (17 R385). -/
def PeerBuf.withoutSwaps (b : PeerBuf) : PeerBuf := { b with got := b.got.filter (fun e => e.1 < swapKey 0) }

/-- Perform one lane of a texture or ray operation. -/
def State.performUnit (s : State) (f : From) (o : PendOp) (buf : PeerBuf) (l : PendLane) : State × PeerBuf × LaneRes :=
  let r := s.unitReader f
  let (s, buf, ready) := s.pollBuf buf
  let ask (s : State) (e : EngStop) : State × PeerBuf × LaneRes :=
    match e with
    | .wait va session addr =>
      let (s, buf) := s.askWord f.team.part buf va session addr
      (s, buf, .wait)
    | .swap va session addr cmp new =>
      let (s, id) := s.ask f.team.part session (atomBody 0 false .cas [new] [cmp] addr)
      (s, { buf with asked := some (va, id) }, .wait)
    | e => (s, buf.withoutSwaps, .ofStop e)
  if !ready then (s, buf, .wait)
  else
    match o.kind with
    | .tex kind desc bias nofb =>
      (match texLane f.core r buf kind desc bias.toInt nofb l.args s with
       | .ok ws s => (s, buf.withoutSwaps, .done ws)
       | .error e s => ask s e)
    | .ray all root mask cullb cullf =>
      (match rayLane r buf all root.toNat mask.toNat cullb cullf l.args s with
       | .ok (ws, some (va, absent)) s => (s.poisoned f va absent, buf, .done ws)
       | .ok (ws, none) s => (s, buf, .done ws)
       | .error e s => ask s e)
    | _ => (s, buf, .wait)

/-- Whether every load of the group before a sequence number has been performed (R258). -/
def Group.loadsClear (g : Group) (seq : Nat) : Bool := g.pend.all (fun o => !(o.kind.isMem && o.seq < seq && o.unperformed))

/-- Whether every access of the group before a sequence number, its queue and its core's peer stores apart, has been performed, as a
release waits for (R264). -/
def Group.earlierClear (g : Group) (seq : Nat) : Bool :=
  g.pend.all (fun o => !((o.kind.isMem || o.kind.feeds) && o.seq < seq && o.unperformed))

/-- Whether an operation holds the group's later loads and atomics: some lane is still to be performed, is parked, or waits for a peer's
answer, which may be a fault that parks it (R258, R261). -/
def PendOp.holdsLater (o : PendOp) : Bool := o.kind.isMem && o.unperformed

/-- Whether a store of the core to a peer chip is not acknowledged yet. -/
def State.peerUnacked (s : State) (c : CoreKey) : Bool :=
  (s.core c).flights.any (fun x => match x with | .peer _ id _ => (s.answer id).isNone | _ => false)

/-- Whether an atomic or a CAS must wait: for the earlier entries of its group's queue, and with a scope, as a release, for the
group's earlier accesses and at .sys for the core's peer stores (R258, R264). -/
def State.atomHeld (s : State) (c : CoreKey) (g : Group) (seq scope : Nat) : Bool :=
  g.queue.any (fun e => e.seq < seq) || (scope ≠ 0 && !g.earlierClear seq) || (scope = 5 && s.peerUnacked c)

/-- Perform one lane of a load, atomic or CAS; `wait` when it must wait for its group's own queue. A load of scope .die or wider waits
for all of it, for the one order of writes and acquires keeps issue order (11 R263). Open points: DEDUCED (log 17). -/
def State.performLane (s : State) (f : From) (o : PendOp) (buf : PeerBuf) (l : PendLane) : State × PeerBuf × LaneRes :=
  match s.group? f.key with
  | none => (s, buf, .wait)
  | some g =>
    match o.kind, l.acc with
    | .load _ n sext scope _ _, .peer id =>
      let (s, r) := s.peerAnswer f l.ea.toNat id n (loadWords n sext)
      (s.acquired f.core scope r, buf, r)
    | .atom _ _ w64 scope, .peer id =>
      let (s, r) := s.peerAnswer f l.ea.toNat id (atomBytes w64) (wordsOfBytes (atomBytes w64 / 4))
      (s.acquired f.core scope r, buf, r)
    | .cas _ w64 scope, .peer id =>
      let (s, r) := s.peerAnswer f l.ea.toNat id (atomBytes w64) (wordsOfBytes (atomBytes w64 / 4))
      (s.acquired f.core scope r, buf, r)
    | .load sp n sext scope repl col, _ =>
      if scope ≥ 3 && g.queue.any (fun e => e.seq < o.seq) then (s, buf, .wait)
      else
        let ps := s.places f.core f.team.part sp col l.ea n
        match s.queued f.core f.team.part g o.seq ps with
        | .all bs =>
          let (s, bad) := if sp then (s, none) else s.unreadable f l.ea.toNat n sext
          (s, buf, bad.getD (.done (loadWords n sext bs)))
        | .part _ => (s, buf, .wait)
        | .none =>
          if sp then
            match s.team? f.key.team with
            | some t => (s, buf, .done (loadWords n sext (t.scratchBytes ps)))
            | none => (s, buf, .wait)
          else
            let (s, buf, r) := s.globalLoad f buf l n sext scope repl
            (s.acquired f.core scope r, buf, r)
    | .atom sp fn w64 scope, _ =>
      if s.atomHeld f.core g o.seq scope then (s, buf, .wait)
      else if sp then
        let (s, old) := s.scratchModify f.key.team (f.writer o.seq) l.ea.toNat (atomBytes w64) (fun old => atomWords fn w64 old l.args)
        (s, buf, .done old)
      else
        let (s, r) := s.globalAtom f l true (atomBytes w64) scope (atomBody fn w64 .atom l.args []) (fun old => atomWords fn w64 old l.args)
        (s, buf, r)
    | .cas sp w64 scope, _ =>
      if s.atomHeld f.core g o.seq scope then (s, buf, .wait)
      else if sp then
        let (s, old) := s.scratchModify f.key.team (f.writer o.seq) l.ea.toNat (atomBytes w64) (fun old => casWords w64 old l.args)
        (s, buf, .done old)
      else
        let n := atomBytes w64 / 4
        let (s, r) := s.globalAtom f l true (atomBytes w64) scope (atomBody 0 w64 .cas (l.args.drop n) (l.args.take n))
          (fun old => casWords w64 old l.args)
        (s, buf, r)
    | _, _ => s.performUnit f o buf l

/-- What a pass over an operation's lanes leaves: the lanes, the peer words, and the lanes newly parked with the first of them. -/
structure Pass where
  lanes : List PendLane
  buf : PeerBuf
  first : Option (Nat × Bool)
  stuck : Bool
deriving DecidableEq, Repr

/-- Perform the open lanes of an operation in increasing lane order. A lane that must wait holds the lanes after it. -/
def performLanes (f : From) (o : PendOp) : List PendLane → Pass → State → State × Pass
  | [], p, s => (s, p)
  | l :: ls, p, s =>
    if !l.acc.open || p.stuck then performLanes f o ls { p with lanes := p.lanes ++ [l] } s
    else
      match s.performLane f o p.buf l with
      | (s, buf, .done ws) => performLanes f o ls { p with lanes := p.lanes ++ [{ l with acc := .done ws }], buf := buf } s
      | (s, buf, .park absent) =>
        performLanes f o ls { p with lanes := p.lanes ++ [{ l with acc := .parked }], buf := buf,
                                     first := some (p.first.getD (l.ea.toNat, absent)) } s
      | (s, buf, .parkAt va absent) =>
        performLanes f o ls { p with lanes := p.lanes ++ [{ l with acc := .parked, ea := BitVec.ofNat 64 va }], buf := buf,
                                     first := some (p.first.getD (va, absent)) } s
      | (s, buf, .stopAt va c pol absent) => performLanes f o ls { p with buf := buf } (s.stopLane f va c pol absent)
      | (s, buf, .stop c pol absent) => performLanes f o ls { p with buf := buf } (s.stopLane f l.ea.toNat c pol absent)
      | (s, buf, .ask id) => performLanes f o ls { p with lanes := p.lanes ++ [{ l with acc := .peer id }], buf := buf } s
      | (s, buf, .wait) => performLanes f o ls { p with lanes := p.lanes ++ [l], buf := buf, stuck := true } s

/-- Change a pending operation of a group. -/
def State.updOp (s : State) (k : GroupKey) (seq : Nat) (f : PendOp → PendOp) : State :=
  s.updGroup k (fun g => { g with pend := updWhere (fun o => o.seq = seq) f g.pend })

/-- ACC code of an operation's records (R394). -/
def PendKind.acc : PendKind → Nat
  | .atom _ _ _ _ => 2
  | .cas _ _ _ => 2
  | _ => 0

/-- The numbers of the lanes parked on faults. -/
def parkedLanes (ls : List PendLane) : List Nat := (ls.filter (fun l => l.acc = .parked)).map (fun l => l.lane)

/-- One pass over an operation: its open lanes are performed or park, and a notice reports a park. -/
def State.passOp (s : State) (k : GroupKey) (o : PendOp) : State :=
  match s.team? k.team, s.coreOf k with
  | some t, some c =>
    let f : From := { key := k, team := t, core := c, pc := o.pc, acc := o.kind.acc }
    let (s, p) := performLanes f o o.lanes { lanes := [], buf := o.buf, first := none, stuck := false } s
    let s := s.updOp k o.seq (fun o => { o with lanes := p.lanes, buf := p.buf })
    match p.first with
    | some (va, absent) => s.parkNotice f va absent (parkedLanes p.lanes)
    | none => s
  | _, _ => s

/-! ### The store queue (R224, R258) -/

/-- The answer of a peer to a lane of a scoped reduction: as an acquire it holds the group's later accesses until it comes, and at .die or
wider it then drops L1 (R226, 11 R260, R264). -/
def State.redAnswer (s : State) (f : From) (e : QEntry) (l : PendLane) (id : Nat) : State × LaneRes :=
  match s.answer id with
  | none => (s, .ask id)
  | some (.done _) => ((s.closeAsk id).acquired f.core e.scope (.done []), .done [])
  | some .faulted => (s.closeAsk id).faulted f l.ea.toNat (s.peerPol f.core f.team.part l.ea.toNat) false 0

/-- What one lane of an entry that has not been sent comes to as it leaves: performed, parked, stopped, or on its way to a peer, whose
answer a scoped reduction waits for in the queue. -/
def State.sendLane (s : State) (f : From) (e : QEntry) (l : PendLane) : State × LaneRes :=
  let scope := e.scope
  let fly (s : State) (id : Nat) : State :=
    s.updCore f.core (fun x => { x with flights := x.flights ++ [.peer f.key id { e with lanes := [l], parked := false }] })
  let sent (s : State) (id : Nat) : State × LaneRes := if scope ≠ 0 then (s, .ask id) else (fly s id, .done [])
  match e.kind with
  | .store true n col =>
    (s.scratchStore f.key.team (f.writer e.seq) (((scratchPlaces l.ea.toNat n col).map (fun p => p.addr)).zip ((bytesOfWords l.args).take n)), .done [])
  | .store false n _ =>
    let va := l.ea.toNat
    let bs := (bytesOfWords l.args).take n
    match s.access (.lane f.core) f.team.part .wr va with
    | (s, .error) => (s, .walk)
    | (s, .fault pol absent) => s.faulted f va pol absent 0
    | (s, .ok (.mem key home owner _)) => (s.sendStore f.key f.core key bs owner home, .done [])
    | (s, .ok (.peer session addr _ _)) =>
      let (s, id) := s.ask f.team.part session (fun id => .pstore id (BitVec.ofNat 64 addr) bs)
      (fly s id, .done [])
    | (s, .ok _) => (s, .walk)
  | .red true fn w64 =>
    ((s.scratchModify f.key.team (f.writer e.seq) l.ea.toNat (atomBytes w64) (fun old => atomWords fn w64 old l.args)).1, .done [])
  | .red false fn w64 =>
    let va := l.ea.toNat
    if fn = 9 then
      match s.access (.lane f.core) f.team.part .rw va with
      | (s, .error) => (s, .walk)
      | (s, .fault pol absent) => s.faulted f va pol absent 0
      | (s, .ok (.mem key home owner _)) =>
        let s := ((s.flushAll f.core).catchUp key 4).reduceAdd key ((nth l.args 0).getD 0) owner home
        (s.afterHome f.core key 4 scope, .done [])
      | (s, .ok (.peer session addr _ _)) =>
        let (s, id) := (if scope ≥ 3 then s.flushAll f.core else s).ask f.team.part session (atomBody fn w64 .red l.args [] addr)
        sent s id
      | (s, .ok _) => (s, .walk)
    else
      match s.globalAtom f l false (atomBytes w64) scope (atomBody fn w64 .red l.args []) (fun old => atomWords fn w64 old l.args) with
      | (s, .ask id) => sent s id
      | r => r
  | _ => (s, .done [])

/-- One lane of an entry as it leaves. -/
def State.leaveLane (s : State) (f : From) (e : QEntry) (l : PendLane) : State × LaneRes :=
  match l.acc with
  | .peer id => s.redAnswer f e l id
  | _ => s.sendLane f e l

/-- Perform the open lanes of an entry in increasing lane order; a performed lane leaves the entry, one that waits for its peer stays. -/
def leaveLanes (f : From) (e : QEntry) : List PendLane → List PendLane → Option (Nat × Bool) → State →
    State × List PendLane × Option (Nat × Bool)
  | [], kept, first, s => (s, kept, first)
  | l :: ls, kept, first, s =>
    if l.acc = .parked then leaveLanes f e ls (kept ++ [l]) first s
    else
      match s.leaveLane f e l with
      | (s, .park absent) => leaveLanes f e ls (kept ++ [{ l with acc := .parked }]) (some (first.getD (l.ea.toNat, absent))) s
      | (s, .stop c pol absent) => leaveLanes f e ls kept first (s.stopLane f l.ea.toNat c pol absent)
      | (s, .ask id) => leaveLanes f e ls (kept ++ [{ l with acc := .peer id }]) first s
      | (s, _) => leaveLanes f e ls kept first s

/-- ACC code of an entry's records. Open points: DEDUCED (log 19). -/
def QKind.acc : QKind → Nat
  | .store _ _ _ => 1
  | _ => 2

/-- The barrier update of an entry. -/
def QKind.upd : QKind → Option (W64 × ObjUpd)
  | .binit ref n => some (ref, .init n)
  | .barr ref b => some (ref, .arrive b)
  | .bexp ref b => some (ref, .add b)
  | _ => none

/-- A store to a peer that its target answered with a fault is held, dropped or stops the team, by the policy of the leaf (R385). -/
def State.peerFault (s : State) (f : From) (e : QEntry) : State :=
  match e.lanes with
  | [] => s
  | l :: _ =>
    match s.faulted f l.ea.toNat (s.peerPol f.core f.team.part l.ea.toNat) false 0 with
    | (s, .park absent) =>
      let held : PendLane := { l with acc := .parked }
      let s := s.updGroup f.key (fun g =>
        { g with queue := match g.queue with
            | x :: xs => if x.seq = e.seq then { x with lanes := x.lanes ++ [held], parked := true } :: xs
                         else { e with lanes := [held], parked := true } :: x :: xs
            | [] => [{ e with lanes := [held], parked := true }] })
      s.parkNotice f l.ea.toNat absent [l.lane]
    | (s, .stop c pol absent) => s.stopLane f l.ea.toNat c pol absent
    | (s, _) => s

/-- Answered stores to peers are no longer on their way; what a fault answer means is settled. -/
def ackFlights (c : CoreKey) : List Flight → State → State
  | [], s => s
  | .peer g id e :: fs, s =>
    match s.answer id with
    | none => ackFlights c fs s
    | some a =>
      let s := (s.closeAsk id).updCore c (fun x => { x with flights := x.flights.filter (fun y => y != .peer g id e) })
      let s := match a, s.team? g.team with
        | .faulted, some t => s.peerFault { key := g, team := t, core := c, pc := e.pc, acc := e.kind.acc } e
        | _, _ => s
      ackFlights c fs s
  | _ :: fs, s => ackFlights c fs s

def State.dropAcked (s : State) (c : CoreKey) : State := ackFlights c (s.core c).flights s

/-- Take the head entry off the queue. -/
def State.popQueue (s : State) (k : GroupKey) : State := s.updGroup k (fun g => { g with queue := g.queue.drop 1 })

/-- A barrier update at the head of the queue (R234, R238): an arrival is a release at its object's scope. Open points: DEDUCED (log 17), DEDUCED (log 19). -/
def State.leaveUpdate (s : State) (f : From) (ref : W64) (u : ObjUpd) : State :=
  match s.reach (.lane f.core) f.team ref .rw with
  | (s, .obj o home) =>
    let s := match o with
      | .phys _ => (s.flushAll f.core).updObjAt f.core o home u
      | _ => s.updObj o home u
    s.popQueue f.key
  | (s, .park va absent) =>
    let s := s.updGroup f.key (fun g => { g with queue := match g.queue with | e :: es => { e with parked := true } :: es | [] => [] })
    s.parkNotice f va absent [0]
  | (s, .bad va pol absent) =>
    (s.lateStop f.key { StopCause.at Causes.barrierFault f.pc with va := va, acc := 2, pol := pol, np := absent }).popQueue f.key

/-- The head of a group's store queue leaves, when the group's earlier loads are performed and it is not parked (R258). A
release waits for the group's other earlier accesses too; at .die or wider it first has the core's stores performed at their homes, and
at .sys it waits for peers (R264). -/
def State.leaveHead (s : State) (k : GroupKey) : State :=
  match s.team? k.team, s.coreOf k, s.group? k with
  | some t, some c, some g =>
    match g.queue with
    | [] => s
    | e :: _ =>
      let s := s.dropAcked c
      if e.parked || !g.loadsClear e.seq || (e.releases && !g.earlierClear e.seq) || (e.scope = 5 && s.peerUnacked c) then s
      else
        let f : From := { key := k, team := t, core := c, pc := e.pc, acc := e.kind.acc }
        match e.kind.upd with
        | some (ref, u) => s.leaveUpdate f ref u
        | none =>
          let s := if e.scope ≥ 3 then s.flushAll c else s
          let (s, kept, first) := leaveLanes f e e.lanes [] none s
          if kept.isEmpty then s.popQueue k
          else
            let s := s.updGroup k (fun g => { g with queue := match g.queue with
              | e :: es => { e with lanes := kept, parked := !(parkedLanes kept).isEmpty } :: es
              | [] => [] })
            match first with
            | some (va, absent) => s.parkNotice f va absent (parkedLanes kept)
            | none => s
  | _, _, _ => s

/-- Entries through a sequence number leave, as far as they can. -/
def leaveThrough (k : GroupKey) (seq : Nat) : Nat → State → State
  | 0, s => s
  | n + 1, s =>
    match (s.group? k).bind (fun g => g.queue.head?) with
    | some e => if e.seq ≤ seq then leaveThrough k seq n (s.leaveHead k) else s
    | none => s

/-- The entries that an operation waits for: those that hold a part of its bytes, or all before an atomic (R258) or before a load of
scope .die or wider (R263). -/
def State.needLeave (s : State) (k : GroupKey) (o : PendOp) : Option Nat :=
  match s.team? k.team, s.coreOf k, s.group? k with
  | some t, some c, some g =>
    match o.kind with
    | .load sp n _ scope _ col =>
      if scope ≥ 3 && g.queue.any (fun e => e.seq < o.seq) then some (o.seq - 1)
      else firstSome (fun (l : PendLane) =>
        if !l.acc.open then none
        else match s.queued c t.part g o.seq (s.places c t.part sp col l.ea n) with
          | .part seq => some seq
          | _ => none) o.lanes
    | _ => if g.queue.any (fun e => e.seq < o.seq) then some (o.seq - 1) else none
  | _, _, _ => none

/-- Let the entries that an operation waits for leave, until it waits for none. -/
def leaveFor (k : GroupKey) (o : PendOp) : Nat → State → State
  | 0, s => s
  | n + 1, s =>
    match s.needLeave k o with
    | none => s
    | some seq => leaveFor k o n (leaveThrough k seq Config.storeQueue s)

/-- Whether an operation is one of the texture or ray unit. -/
def PendKind.isUnit : PendKind → Bool
  | .tex _ _ _ _ => true
  | .ray _ _ _ _ _ => true
  | _ => false

/-- Perform an operation as far as it can be, once no earlier one holds it (R258). -/
def State.performOp (s : State) (k : GroupKey) (seq : Nat) : State :=
  match s.group? k with
  | none => s
  | some g =>
    match g.pend.find? (fun o => o.seq = seq) with
    | none => s
    | some o =>
      if o.kind.isMem && o.lanes.any (fun l => l.acc.open) && !g.pend.any (fun x => x.seq < seq && x.holdsLater) then
        (leaveFor k o Config.storeQueue s).passOp k o
      else s

/-- Perform an operation of the texture or ray unit as far as it can be. -/
def State.performTap (s : State) (k : GroupKey) (seq : Nat) : State :=
  match (s.group? k).bind (fun g => g.pend.find? (fun o => o.seq = seq)) with
  | none => s
  | some o => if o.kind.isUnit && o.lanes.any (fun l => l.acc.open) then s.passOp k o else s

/-- Perform, in issue order, the group's memory operations through a sequence number (R258). -/
def State.performThrough (s : State) (k : GroupKey) (seq : Nat) : State :=
  match s.group? k with
  | none => s
  | some g => ((g.pend.filter (fun o => o.seq ≤ seq)).map (fun o => o.seq)).foldl (fun s n => s.performOp k n) s

/-- Perform the group's samples before a sequence number that send feedback minima (07 R178). -/
def State.performFeeds (s : State) (k : GroupKey) (seq : Nat) : State :=
  match s.group? k with
  | none => s
  | some g => ((g.pend.filter (fun o => o.seq < seq && o.kind.feeds)).map (fun o => o.seq)).foldl (fun s n => s.performTap k n) s

/-- The head of the queue leaves, once the loads before it are performed. -/
def State.leaveQueue (s : State) (k : GroupKey) : State :=
  match (s.group? k).bind (fun g => g.queue.head?) with
  | none => s
  | some e =>
    let s := s.performThrough k e.seq
    (if e.releases then s.performFeeds k e.seq else s).leaveHead k

/-- The group's accesses so far are performed as far as they can be: its loads, and its store queue empty. -/
def settleQueue (k : GroupKey) : Nat → State → State
  | 0, s => s
  | n + 1, s => settleQueue k n (s.leaveQueue k)

def State.settle (s : State) (k : GroupKey) : State :=
  let s := settleQueue k Config.storeQueue s
  match (s.group? k).bind (fun g => g.pend.getLast?) with
  | some o => (s.performThrough k o.seq).performFeeds k (o.seq + 1)
  | none => s

/-- Whether every access of the group is performed: no open or parked lane, and its queue empty. -/
def Group.allPerformed (g : Group) : Bool :=
  g.queue.isEmpty && g.pend.all (fun o => !((o.kind.isMem || o.kind.feeds) && o.unperformed))

/-! ### Replay (R402) -/

/-- The addresses at which lanes are parked. -/
def parkedAt (ls : List PendLane) : List Nat := (ls.filter (fun l => l.acc = .parked)).map (fun l => l.ea.toNat)

/-- Whether the address of a record of parked lanes satisfies a test: one of those that notices name; without a notice, the first. -/
def heldHit (noted hit : Nat → Bool) (vas : List Nat) : Bool :=
  if vas.any noted then vas.any (fun a => noted a && hit a) else (vas.head?.map hit).getD false

/-- Parked lanes become open again. -/
def reopen (ls : List PendLane) : List PendLane := updWhere (fun l => l.acc = .parked) (fun l => { l with acc := .todo }) ls

/-- The addresses at which an entry is parked: its lanes', or its object's. -/
def QEntry.parkedAt (e : QEntry) : List Nat :=
  if !e.parked then []
  else match e.kind.upd with
    | some (ref, _) => ((Ref.ofPair ref).map (fun r => r.addr)).toList
    | none => Machine.parkedAt e.lanes

/-- The addresses at which accesses of a group are parked. -/
def Group.parkedAt (g : Group) : List Nat :=
  g.pend.flatMap (fun o => Machine.parkedAt o.lanes) ++ g.queue.flatMap QEntry.parkedAt
    ++ g.splits.filterMap (fun x => match x.fetch with | some f => if f.held then some f.va else none | none => none)

/-- Reissue the held accesses of a group whose record's address satisfies a test, and forget their notices. -/
def State.replayGroup (s : State) (k : GroupKey) (hit : Nat → Bool) : State :=
  match s.team? k.team, s.group? k with
  | some t, some g =>
    let noted (a : Nat) : Bool := ((s.part? t.part).map (fun p => p.notices.any (fun n => n.group = k && n.parked && n.va = a))).getD false
    let is (vas : List Nat) : Bool := heldHit noted hit vas
    let ops := (g.pend.filter (fun o => is (parkedAt o.lanes))).map (fun o => o.seq)
    let s := s.updGroup k (fun g =>
      { g with pend := updWhere (fun o => ops.contains o.seq) (fun o => { o with lanes := reopen o.lanes, buf := o.buf.retry }) g.pend,
               queue := updWhere (fun e => is e.parkedAt) (fun e => { e with parked := false, lanes := reopen e.lanes }) g.queue,
               splits := g.splits.map (fun x => match x.fetch with
                 | some f => if f.held && x.block.isNone && hit f.va then
                     (match f.run with
                      | some r => { x with fetch := some { f with held := false, run := some { r with buf := r.buf.retry } } }
                      | none => { x with fetch := none }) else x
                 | none => x) })
    let s := s.updPart t.part (fun p => { p with notices := p.notices.filter (fun n => !(n.group = k && n.parked && hit n.va)) })
    let s := ops.foldl (fun s n => (s.performOp k n).performTap k n) s
    s.leaveHead k
  | _, _ => s

/-! ### Landing (R47, R48) -/

/-- Write a performed lane's words to its destination. -/
def State.landWords (s : State) (k : GroupKey) (o : PendOp) (l : PendLane) : State :=
  match l.acc with
  | .done ws =>
    s.updGroup k (fun g => if opW o.dest then g.putW o.dest ws else g.updLanes [l.lane] (fun _ x => x.put o.dest ws))
  | _ => s

/-- Whether every lane of an operation has its words. -/
def PendOp.complete (o : PendOp) : Bool := o.lanes.all (fun l => match l.acc with | .done _ => true | .landed => true | _ => false)

/-- An operation lands: words of lanes that have not landed are written, flags and lane traps of a special function or a call
reach the lanes, and the tag's count falls (R47, R142, R329). -/
def State.land1 (s : State) (k : GroupKey) (o : PendOp) : State :=
  let s := o.lanes.foldl (fun s l => s.landWords k o l) s
  let on : BitVec 5 := ((s.team? k.team).map (fun t => t.rec'.fptrap)).getD 0
  s.updGroup k (fun g =>
    let trap (c : Cause) (f : BitVec 5) : LaneTrap :=
      { cause := c, pc := o.pc, arg := f.setWidth 32, runAddr := o.runAddr, fall := o.fall }
    let mark (i : Nat) (l : Lane) : Lane :=
      let l := match kget i o.flags with | some f => l.raise f | none => l
      match kget i o.causes with
      | some c => { l with landed := l.landed ++ [trap c (if c = Causes.fpFlag then (kget i o.flags).getD 0 &&& on else 0)] }
      | none => l
    { g with lanes := mapIdx mark g.lanes 0, pend := g.pend.filter (fun x => x.seq ≠ o.seq) })

/-- One lane's result reaches its registers ahead of the tag (R48). -/
def State.landLane (s : State) (k : GroupKey) (i lane : Nat) : State :=
  match (s.group? k).bind (fun g => nth g.pend i) with
  | none => s
  | some o =>
    match o.lanes.find? (fun l => l.lane = lane) with
    | none => s
    | some l =>
      match l.acc with
      | .done _ =>
        (s.landWords k o l).updOp k o.seq (fun o => { o with lanes := updWhere (fun x => x.lane = lane) (fun x => { x with acc := .landed }) o.lanes })
      | _ => s

end Sys2Proof.Machine
end

