-- ==== Sys2Proof/Machine/MemInstr.lean ====
section
/-! DEFINITION. LD, ST, LDS, STS, PREF, ATOM, RED, CAS, FENCE, the leaving of store-queue entries and the expiry of L1 lines
(05 R143; 10 R219 to R231; 11 R257, R258). -/

namespace Sys2Proof.Machine

/-! ### Sizes and addresses -/

/-- Bytes of an access (R63, R65). -/
def accessBytes (sz narrow : BitVec 2) : Nat :=
  match sz.toNat with
  | 0 => 4
  | 1 => 8
  | 2 => 16
  | _ => if narrow.toNat < 2 then 1 else 2

/-- The word-only form has neither index nor offset. -/
def MemExt.plain : MemExt := { c := .inl 0, scope := 0, narrow := 0, repl := false, imm := 0 }

/-- The effective address of a lane: base pair, index, offset (R143). -/
def Group.globalEa (g : Group) (l : Lane) (a c : Opnd) (imm : BitVec 16) : Addr :=
  g.src64 l a + (g.src l .int c 0).signExtend 64 + imm.signExtend 64

/-- The program address of a lane, exact (R221). -/
def Group.scratchPa (g : Group) (l : Lane) (a c : Opnd) (imm : BitVec 16) : Int :=
  ((g.src l .int a 0).toNat : Int) + (g.src l .int c 0).toInt + imm.toInt

/-- The first failing check of a set of global addresses: non-canonical before misaligned (R143). Open points: DEDUCED (log 21). -/
def globalFault (n : Nat) (eas : List Addr) : Option (Cause × Nat) :=
  match eas.find? (fun a => !canonical a) with
  | some a => some (Causes.nonCanonical, a.toNat % 2 ^ 52)
  | none =>
    match eas.find? (fun a => a.toNat % n ≠ 0) with
    | some a => some (Causes.misaligned, a.toNat)
    | none => none

/-- Whether every byte of a scratchpad element lies in the program area (R198). -/
def scratchInside (scratch n : Nat) (col : Bool) (pa : Int) : Bool :=
  let last : Int := if col && n > 4 then pa + 128 * ((n / 4 - 1 : Nat) : Int) + 3 else pa + ((n - 1 : Nat) : Int)
  0 ≤ pa && last < scratch

/-- Whether a scratchpad element is aligned (R199). -/
def scratchAligned (n : Nat) (col : Bool) (pa : Int) : Bool :=
  let a := (pa + 256).toNat
  if n < 4 then a % n = 0
  else if col then a % 4 = 0 && a / 128 % 32 % (n / 4) = 0
  else a % n = 0

/-- The first failing check of a set of scratchpad addresses (R198, R199). Open points: DEDUCED (log 21). -/
def scratchFault (scratch n : Nat) (col : Bool) (pas : List Int) : Option Cause :=
  if pas.any (fun p => !scratchInside scratch n col p) then some Causes.scratchRange
  else if pas.any (fun p => !scratchAligned n col p) then some Causes.misaligned
  else none

/-- The lanes that act: the contributing lanes, or one on the uniform datapath. -/
def Iss.accLanes (is : Iss) (sh : Shape) : List (Nat × Lane) :=
  if sh.uniform then [(0, Lane.blank)] else is.lanes.map (fun i => (i, is.g.lane i))

/-- The addresses of lanes, or the stop that one of them raises. Open points: DEDUCED (log 21). -/
def Iss.addresses (is : Iss) (sp col : Bool) (n : Nat) (acc : Nat) (ls : List (Nat × Lane)) (a c : Opnd) (imm : BitVec 16) :
    Except StopCause (List (Nat × Lane × Addr)) :=
  if sp then
    let pas := ls.map (fun l => (l.1, l.2, is.g.scratchPa l.2 a c imm))
    match scratchFault is.team.rec'.scratch n col (pas.map (fun x => x.2.2)) with
    | some k => .error (StopCause.at k is.run.ipc)
    | none => .ok (pas.map (fun x => (x.1, x.2.1, BitVec.ofInt 64 (x.2.2 + 256))))
  else
    let eas := ls.map (fun l => (l.1, l.2, is.g.globalEa l.2 a c imm))
    match globalFault n (eas.map (fun x => x.2.2)) with
    | some (k, va) => .error { StopCause.at k is.run.ipc with va := va, acc := acc }
    | none => .ok eas

/-! ### Long-latency issue (R47) -/

/-- Whether a tag's count is full. -/
def Group.tagFull (g : Group) (tag : Nat) : Bool := (g.pend.filter (fun o => o.tag = tag)).length ≥ 63

/-- Queue a long-latency operation on its tag, with the flags and lane traps of its landing; one without lanes lands at once
(R47, R69). -/
def State.pendFlags (s : State) (is : Iss) (tag : BitVec 4) (d : Opnd) (width : Nat) (kind : PendKind) (lanes : List PendLane)
    (mask : Mask) (flags : List (Nat × BitVec 5)) (causes : List (Nat × Cause)) : Eff :=
  if is.g.tagFull tag.toNat then .hold s
  else if lanes.isEmpty then .go s
  else
    .go (s.updGroup is.key (fun g =>
      { g with seq := g.seq + 1, pend := g.pend ++
          [{ seq := g.seq, tag := tag.toNat, pc := is.run.ipc, runAddr := is.run.addr, fall := 0, dest := d, width := width,
             kind := kind, lanes := lanes, mask := mask, buf := { got := [], asked := none }, flags := flags, causes := causes }] }))

/-- Queue a long-latency operation that raises nothing at issue. -/
def State.pendOp (s : State) (is : Iss) (tag : BitVec 4) (d : Opnd) (width : Nat) (kind : PendKind) (lanes : List PendLane) (mask : Mask) :
    Eff := s.pendFlags is tag d width kind lanes mask [] []

/-- A lane of a pending operation, to be performed. -/
def PendLane.new (lane : Nat) (ea : Addr) (args : List W32) : PendLane := { lane := lane, ea := ea, args := args, acc := .todo }

/-- Put an entry into the store queue, which holds when it is full (R224). -/
def State.enqueue (s : State) (is : Iss) (kind : QKind) (scope : Nat) (lanes : List PendLane) : Eff :=
  if is.g.queue.length ≥ Config.storeQueue then .hold s
  else
    .go (s.updGroup is.key (fun g =>
      { g with seq := g.seq + 1,
               queue := g.queue ++ [{ seq := g.seq, pc := is.run.ipc, kind := kind, scope := scope, lanes := lanes, parked := false }] }))

/-! ### Loads and stores (R219 to R225) -/

/-- The failures of a memory word's fields (R65, R220): reserved, then unassigned. -/
def memReserved (ext : Bool) (sz : BitVec 2) (x : MemExt) : Bool := (sz = 3 && !ext) || (sz ≠ 3 && x.narrow ≠ 0)

def memUnassigned (load sp pref : Bool) (sz : BitVec 2) (x : MemExt) : Option Cause :=
  if x.scope.toNat > 5 || (sp && x.scope.toNat ≥ 3) || (!load && !pref && sz = 3 && x.narrow.toNat % 2 = 1)
     || (x.repl && (sp || !(load || pref) || x.scope ≠ 0)) then some Causes.unassignedFn
  else none

/-- The base operand of an access. -/
def baseSlot (sp : Bool) (a : Opnd) : Slot := if sp then Slot.s a Kinds.vwt 1 1 else Slot.s a Kinds.vw 2 2

/-- A uniform access names a base or an index that is a v or t register (R223). -/
def uniformBad (d a c : Opnd) : Bool := opW d && (opVec a || opVec c)

/-- LD and LDS (R222, R223). -/
def loadOp (sp ext : Bool) (d a : Opnd) (sz : BitVec 2) (col : Bool) (tag : BitVec 4) (x : MemExt) (s : State) :
    Host.Outcome State Fault Refusal :=
  let n := accessBytes sz x.narrow
  let w := wordsFor n
  let sh : Shape :=
    { slots := [Slot.o d Kinds.vwt w w, baseSlot sp a, Slot.a x.c], long := true, tag := some tag,
      reserved := memReserved ext sz x, fn := memUnassigned true sp false sz x, bad := uniformBad d a x.c }
  issue s sh (fun is =>
    match is.addresses sp col n 0 (is.accLanes sh) a x.c x.imm with
    | .error c => .stop s c
    | .ok eas =>
      s.pendOp is tag d w (.load sp n (sz = 3 && x.narrow.toNat % 2 = 1) x.scope.toNat x.repl col)
        (eas.map (fun e => PendLane.new e.1 e.2.2 [])) 0)

/-- ST and STS (R222). -/
def storeOp (sp ext : Bool) (d a : Opnd) (sz : BitVec 2) (col : Bool) (x : MemExt) (s : State) : Host.Outcome State Fault Refusal :=
  let n := accessBytes sz x.narrow
  let w := wordsFor n
  let sh : Shape :=
    { slots := [Slot.s d Kinds.vwt w w, baseSlot sp a, Slot.a x.c], reserved := memReserved ext sz x,
      fn := memUnassigned false sp false sz x }
  issue s sh (fun is =>
    match is.addresses sp col n 1 (is.accLanes sh) a x.c x.imm with
    | .error c => .stop s c
    | .ok [] => .go s
    | .ok eas =>
      s.enqueue is (.store sp n col) x.scope.toNat
        (eas.map (fun e => PendLane.new e.1 e.2.2 (is.g.srcs e.2.1 .int d w))))

/-- LD. -/
def execLd (d a : Opnd) (sz : BitVec 2) (tag : BitVec 4) (s : State) : Host.Outcome State Fault Refusal :=
  loadOp false false d a sz false tag MemExt.plain s
/-- LD with an extension word. -/
def execLdExtended (d a : Opnd) (sz : BitVec 2) (tag : BitVec 4) (x : MemExt) (s : State) : Host.Outcome State Fault Refusal :=
  loadOp false true d a sz false tag x s
/-- ST. -/
def execSt (d a : Opnd) (sz : BitVec 2) (s : State) : Host.Outcome State Fault Refusal := storeOp false false d a sz false MemExt.plain s
/-- ST with an extension word. -/
def execStExtended (d a : Opnd) (sz : BitVec 2) (x : MemExt) (s : State) : Host.Outcome State Fault Refusal :=
  storeOp false true d a sz false x s
/-- LDS. -/
def execLds (d a : Opnd) (sz : BitVec 2) (o : Bool) (tag : BitVec 4) (s : State) : Host.Outcome State Fault Refusal :=
  loadOp true false d a sz o tag MemExt.plain s
/-- LDS with an extension word. -/
def execLdsExtended (d a : Opnd) (sz : BitVec 2) (o : Bool) (tag : BitVec 4) (x : MemExt) (s : State) : Host.Outcome State Fault Refusal :=
  loadOp true true d a sz o tag x s
/-- STS. -/
def execSts (d a : Opnd) (sz : BitVec 2) (o : Bool) (s : State) : Host.Outcome State Fault Refusal := storeOp true false d a sz o MemExt.plain s
/-- STS with an extension word. -/
def execStsExtended (d a : Opnd) (sz : BitVec 2) (o : Bool) (x : MemExt) (s : State) : Host.Outcome State Fault Refusal :=
  storeOp true true d a sz o x s

/-! ### PREF (R225) -/

/-- Bring the line of an address into L1, a replica with the hint; any fault drops the request. -/
def State.prefetch (s : State) (is : Iss) (repl : Bool) (a : Addr) : State :=
  if !canonical a then s
  else
    match s.access (.lane is.core) is.team.part .rd a.toNat with
    | (s, .ok (.mem key home owner leafRepl)) =>
      if s.ownerOf key ≠ owner then s
      else
        let use : Option ReplUse := if repl && leafRepl then some { launch := is.team.launch, cluster := clusterOf is.core } else none
        (s.l1Read is.core key 1 owner home use).1
    | (s, _) => s

/-- PREF. A SCOPE of 1 to 5 in its extension word, which no rule lists as a failure, acts on nothing. DESIGN CHOICE (log 53). -/
def prefOp (a : Opnd) (x : MemExt) (s : State) : Host.Outcome State Fault Refusal :=
  let sh : Shape :=
    { slots := [baseSlot false a, Slot.a x.c], reserved := x.narrow ≠ 0, fn := memUnassigned false false true 0 x }
  issue s sh (fun is => .go (is.lanes.foldl (fun s i => s.prefetch is x.repl (is.g.globalEa (is.g.lane i) a x.c x.imm)) s))

def execPref (a : Opnd) (s : State) : Host.Outcome State Fault Refusal := prefOp a MemExt.plain s
/-- PREF with an extension word. -/
def execPrefExtended (a : Opnd) (x : MemExt) (s : State) : Host.Outcome State Fault Refusal := prefOp a x s

/-! ### Atomics (R226 to R228) -/

/-- The unassigned values of an atomic's word (R226, R227). -/
def atomUnassigned (fn : Nat) (red : Bool) (x : AtomExt) : Option Cause :=
  if fn > 11 || x.scope.toNat > 5 || (x.w64 && fn ≥ 9) || (red && fn = 8) || (x.sp && x.scope.toNat ≥ 3) then
    some Causes.unassignedFn
  else none

/-- The type of an atomic's operand: FP32 for the FP operations (R61). -/
def atomTy (fn : Nat) : OpTy := if fn ≥ 9 then .fp else .int

/-- Registers of an atomic's datum. -/
def atomRegs (x : AtomExt) : Nat := if x.w64 then 2 else 1

/-- ATOM. -/
def execAtom (d a : Opnd) (fn : BitVec 4) (tag : BitVec 4) (x : AtomExt) (s : State) : Host.Outcome State Fault Refusal :=
  let n := atomRegs x
  let sh : Shape :=
    { slots := [Slot.o d Kinds.vwt n n, baseSlot x.sp a, Slot.s x.c Kinds.any n n], long := true, tag := some tag,
      fn := atomUnassigned fn.toNat false x, bad := opW d && opVec a }
  issue s sh (fun is =>
    match is.addresses x.sp false (4 * n) 2 (is.accLanes sh) a (.inl 0) x.imm with
    | .error c => .stop s c
    | .ok eas =>
      s.pendOp is tag d n (.atom x.sp fn.toNat x.w64 x.scope.toNat)
        (eas.map (fun e => PendLane.new e.1 e.2.2 (is.g.srcs e.2.1 (atomTy fn.toNat) x.c n))) 0)

/-- RED. -/
def execRed (a : Opnd) (fn : BitVec 4) (x : AtomExt) (s : State) : Host.Outcome State Fault Refusal :=
  let n := atomRegs x
  let sh : Shape := { slots := [baseSlot x.sp a, Slot.s x.c Kinds.any n n], fn := atomUnassigned fn.toNat true x }
  issue s sh (fun is =>
    match is.addresses x.sp false (4 * n) 2 (is.accLanes sh) a (.inl 0) x.imm with
    | .error c => .stop s c
    | .ok [] => .go s
    | .ok eas =>
      s.enqueue is (.red x.sp fn.toNat x.w64) x.scope.toNat
        (eas.map (fun e => PendLane.new e.1 e.2.2 (is.g.srcs e.2.1 (atomTy fn.toNat) x.c n))))

/-- CAS: D holds the compare value and receives the old one, C is the new value. -/
def execCas (d a : Opnd) (tag : BitVec 4) (x : AtomExt) (s : State) : Host.Outcome State Fault Refusal :=
  let n := atomRegs x
  let sh : Shape :=
    { slots := [{ op := d, kinds := Kinds.vwt, n := n, al := n, src := true, dst := true }, baseSlot x.sp a, Slot.s x.c Kinds.any n n],
      long := true, tag := some tag, fn := atomUnassigned 0 false x, bad := opW d && opVec a }
  issue s sh (fun is =>
    match is.addresses x.sp false (4 * n) 2 (is.accLanes sh) a (.inl 0) x.imm with
    | .error c => .stop s c
    | .ok eas =>
      s.pendOp is tag d n (.cas x.sp x.w64 x.scope.toNat)
        (eas.map (fun e => PendLane.new e.1 e.2.2 (is.g.srcs e.2.1 .int d n ++ is.g.srcs e.2.1 .int x.c n))) 0)

/-! ### FENCE (R231, R264) -/

/-- The group's earlier accesses are performed at a scope, or the fence holds. Open points: DEDUCED (log 17). -/
def State.fence (s : State) (is : Iss) (scope : Nat) : Eff :=
  let s := s.settle is.key
  let s := if scope ≥ 3 then s.flushAll is.core else s
  let s := s.dropAcked is.core
  let clear := match s.group? is.key with | some g => g.allPerformed | none => true
  if !clear || (scope = 5 && s.peerUnacked is.core) then .hold s
  else .go (if scope ≥ 3 then s.dropL1 is.core else s)

/-- FENCE. -/
def execFence (scope : BitVec 8) (s : State) : Host.Outcome State Fault Refusal :=
  issue s { slots := [], fn := if scope.toNat = 0 || scope.toNat > 5 then some Causes.unassignedFn else none } (fun is =>
    if is.lanes.isEmpty then .go s else s.fence is scope.toNat)

/-! ### Events (R257, R258) -/

/-- A group's oldest store on its way is performed at its home. -/
def State.landFlight (s : State) (k : GroupKey) (c : CoreKey) : State :=
  match (s.core c).flights.find? (fun f => flightOf k f && f.line.isSome) with
  | none => s.dropAcked c
  | some f =>
    match f.line with
    | some n => s.flush c (fun x => x == f && x.line == some n)
    | none => s

/-- STORE_QUEUE_LEAVE: the oldest entry of the group's store queue is translated and leaves; when the queue is empty, its oldest
store still on its way is performed at its home. Open points: DEDUCED (log 17). -/
def execStoreQueueLeave (k : GroupKey) (s : State) : Host.Outcome State Fault Refusal :=
  match s.group? k, s.coreOf k with
  | some g, some c => .next (if g.queue.isEmpty then s.landFlight k c else s.leaveQueue k)
  | _, _ => .next s

/-- L1_LINE_EXPIRY: L1 drops a line 4,096 core clocks after it was filled. -/
def execL1LineExpiry (c : CoreKey) (i : Nat) (s : State) : Host.Outcome State Fault Refusal :=
  match nth (s.core c).l1 i with
  | none => .next s
  | some l =>
    if s.clock c.die < l.filled + Config.ageLimit then .next s
    else .next (s.updCore c (fun x => { x with l1 := dropNth x.l1 i }))

end Sys2Proof.Machine
end

