-- ==== Sys2Proof/Machine/BarrierInstr.lean ====
section
/-! DEFINITION. Barrier instructions, batches, and the completion of a batch (10 R235 to R241). -/

namespace Sys2Proof.Machine

/-- The form of a barrier instruction: the reference in an even w pair. -/
def refSlot (a : Opnd) : Slot := Slot.s a Kinds.wOnly 2 2

/-- The page kind that an address translates to, where it translates. -/
def State.pageKind (s : State) (c : CoreKey) (part va : Nat) : Option Nat :=
  match (s.translate (.lane c) part va).2 with
  | .leaf p _ _ => some p.kind
  | _ => none

/-- A reference that R233 and R238 allow an instruction. -/
def State.refAllowed (s : State) (is : Iss) (x : W64) (forWait : Bool) : Bool :=
  match Ref.ofPair x with
  | none => false
  | some r =>
    r.allowed is.team forWait
    && (r.sp || (match s.pageKind is.core is.team.part r.addr with | some k => k < 3 | none => true))

/-- Queue a barrier update when some lane contributes (R235). -/
def updateOp (a b : Opnd) (range : Int → Bool) (kind : W64 → Int → QKind) (s : State) : Host.Outcome State Fault Refusal :=
  issue s { slots := [refSlot a, Slot.s b Kinds.wImm 1 1] } (fun is =>
    if is.lanes.isEmpty then .go s
    else
      let ref := is.g.src64 Lane.blank a
      let n := (is.g.src Lane.blank .int b 0).toInt
      if !s.refAllowed is ref false || !range n then Eff.trap s is Causes.barrierOperand
      else s.enqueue is (kind ref n) 0 [])

/-- BINIT. -/
def execBinit (a b : Opnd) (s : State) : Host.Outcome State Fault Refusal :=
  updateOp a b (fun n => 1 ≤ n && n ≤ 65535) (fun ref n => .binit ref n.toNat) s
/-- BARR. -/
def execBarr (a b : Opnd) (s : State) : Host.Outcome State Fault Refusal := updateOp a b (fun _ => true) .barr s
/-- BEXP. -/
def execBexp (a b : Opnd) (s : State) : Host.Outcome State Fault Refusal := updateOp a b (fun _ => true) .bexp s

/-- WAIT. -/
def execWait (a : Opnd) (s : State) : Host.Outcome State Fault Refusal :=
  issue s { slots := [refSlot a], ender := true } (fun is =>
    let ref := is.g.src64 Lane.blank a
    if is.lanes.isEmpty then .go (s.setEnder is (.wait ref 0))
    else if !s.refAllowed is ref true then Eff.trap s is Causes.barrierOperand
    else .go (s.setEnder is (.wait ref (maskOf is.lanes))))

/-- WAIT.Y. -/
def execWaitY (d : Opnd) (off : BitVec 16) (s : State) : Host.Outcome State Fault Refusal :=
  issue s { slots := [refSlot d], ender := true } (fun is =>
    let ref := is.g.src64 Lane.blank d
    let target : Addr := (is.run.addr &&& ~~~(15 : Addr)) + 16 * off.signExtend 64
    if is.lanes.isEmpty then .go (s.setEnder is (.waitY ref 0 target))
    else if !s.refAllowed is ref true then Eff.trap s is Causes.barrierOperand
    else .go (s.setEnder is (.waitY ref (maskOf is.lanes) target)))

/-! ### Batches (R240, R241) -/

/-- The batch counter object of a group (02 R53). -/
def counterOf (k : GroupKey) : ObjRef := .scratch k.team (16 * k.idx)

/-- COUNT of a group's batch counter: the number of its last completed batch. -/
def State.batchCount (s : State) (k : GroupKey) : W32 := BitVec.ofNat 32 (Obj.ofWords (s.objWords (counterOf k)).2).count

/-- A bulk operation of the group that is still to complete (R240); `tile` says that it is a tile operation. -/
def State.bulkAdd (s : State) (is : Iss) (tile : Bool) : State :=
  s.updGroup is.key (fun g =>
    { g with seq := g.seq + 1,
             bulk := g.bulk ++ [{ id := g.seq, pc := is.run.ipc, batch := none, done := false, err := false, tile := tile }] })

/-- A bulk operation has completed; an unsealed one of a group leaves its list when a later batch completes. -/
def State.bulkDone (s : State) (k : GroupKey) (op : Nat) (err : Bool) : State :=
  s.updGroup k (fun g => { g with bulk := updWhere (fun b => b.id = op) (fun b => { b with done := true, err := err }) g.bulk })

/-- Whether the group's stores so far, and those of its core that it may have read, have been performed at their homes, so that what
memory holds now is not older than them (11 R256, R261). -/
def State.storesClear (s : State) (k : GroupKey) (c : CoreKey) : Bool :=
  ((s.group? k).map (fun g => g.queue.isEmpty)).getD true && !(s.core c).flights.any (fun f => f.line.isSome || flightOf k f)

/-- A log position from which an operation issued now may return overwritten words (10 R249): none of them when the group still
has stores on their way. -/
def posOf (clear : Bool) (n : Nat) : Nat := if clear then n else 2 ^ 64

/-- The group's stores before a sequence number leave its queue, as far as they can, and the core's stores, of which the group may have
read any, are performed (11 R256, R261, R265); says whether all the group's are.
Open points: DEDUCED (log 24). -/
def State.storesBefore (s : State) (k : GroupKey) (c : CoreKey) (seq : Nat) : State × Bool :=
  let s := leaveThrough k (seq - 1) Config.storeQueue (s.performThrough k (seq - 1))
  let s := s.flushAll c
  (s, match s.group? k with | some g => !g.queue.any (fun e => e.seq < seq) | none => true)

/-- BSEAL. -/
def execBseal (s : State) : Host.Outcome State Fault Refusal :=
  issue s { slots := [], noHandler := true } (fun is =>
    if is.lanes.isEmpty then .go s
    else if (is.g.batchNo - s.batchCount is.key).toNat ≥ Config.sealedBatches then .hold s
    else
      .go (s.updGroup is.key (fun g =>
        { g with batchNo := g.batchNo + 1,
                 bulk := g.bulk.map (fun b => if b.batch.isNone then { b with batch := some (g.batchNo + 1) } else b) })))

/-- BWAIT. -/
def execBwait (a : Opnd) (s : State) : Host.Outcome State Fault Refusal :=
  issue s { slots := [Slot.s a Kinds.wImm 1 1], ender := true, noHandler := true } (fun is =>
    .go (s.setEnder is (.bwait (is.g.src Lane.blank .int a 0) (maskOf is.lanes))))

/-- Splits of a group whose awaited batch has completed become ready (R241). -/
def Group.wakeBatch (g : Group) (count : W32) : Group :=
  let wake (x : Split) : Split :=
    match x.block with
    | some (.batch n) => if (count - n).toNat < 2 ^ 31 then { x with block := none } else x
    | _ => x
  { g with splits := g.splits.map wake }

/-- BATCH_COMPLETE: the next batch completes once all its operations have. -/
def execBatchComplete (k : GroupKey) (s : State) : Host.Outcome State Fault Refusal :=
  match s.group? k with
  | none => .next s
  | some g =>
    let count := s.batchCount k
    let n := count + 1
    let mine := g.bulk.filter (fun b => b.batch = some n)
    if count = g.batchNo || g.handler.isSome || !mine.all (fun b => b.done) then .next s
    else
      let s := s.updObj (counterOf k) 0 (.batch (mine.any (fun b => b.err)))
      let s := match s.coreOf k with
        | some c => if g.wakeBatch n = g then s else s.reveal c k
        | none => s
      .next (s.updGroup k (fun g => ({ g with bulk := g.bulk.filter (fun b => b.batch ≠ some n) } : Group).wakeBatch n))

end Sys2Proof.Machine
end

