-- ==== Sys2Proof/Machine/Graphics.lean ====
section
/-! DEFINITION. TEX, TEXL, TEXG, RAYT, RAYQ at issue, and the landing of a tag (07 R174, R183; 02 R47). -/

namespace Sys2Proof.Machine

/-- Word `k` of a window of another lane of the group: a temporary of a lane outside the split reads zero (R131, R177). -/
def Iss.windowWord (is : Iss) (a : Opnd) (j k : Nat) : W32 :=
  if opT a && !is.active.contains j then 0 else is.g.src (is.g.lane j) .fp a k

/-- The operand words of a sample: u and v, then what the level of detail comes from. -/
def Iss.texArgs (is : Iss) (kind : Nat) (a : Opnd) (i : Nat) : List W32 :=
  let q := i / 4 * 4
  match kind with
  | 0 => (upFrom 0 2).map (is.windowWord a i) ++ (upFrom 0 3).flatMap (fun j => (upFrom 0 2).map (is.windowWord a (q + j)))
  | 1 => (upFrom 0 3).map (is.windowWord a i)
  | _ => (upFrom 0 6).map (is.windowWord a i)

/-- Registers of the coordinate window. -/
def texRegs (kind : Nat) : Nat := match kind with | 0 => 2 | 1 => 3 | _ => 6

/-- A sampling instruction: TEX 0, TEXL 1, TEXG 2. With no contributing lane a bad descriptor raises nothing, of which R175 says
nothing. DESIGN CHOICE (log 43). -/
def texOp (kind : Nat) (d a : Opnd) (tag : BitVec 4) (c : Opnd) (nofb : Bool) (bias : BitVec 16) (s : State) :
    Host.Outcome State Fault Refusal :=
  let sh : Shape :=
    { slots := [Slot.o d Kinds.vOnly 4 4, Slot.s a Kinds.vt (texRegs kind) 1, Slot.s c Kinds.wOnly 8 8], long := true, tag := some tag,
      bad := c = .w 0 }
  issue s sh (fun is =>
    let desc := is.g.srcs Lane.blank .int c 8
    if !is.lanes.isEmpty && texBad desc then Eff.trap s is Causes.textureDescriptor
    else s.pendOp is tag d 4 (.tex kind desc bias nofb) (is.lanes.map (fun i => PendLane.new i 0 (is.texArgs kind a i))) 0)

/-- TEX. -/
def execTex (d a : Opnd) (tag : BitVec 4) (c : Opnd) (nofb : Bool) (bias : BitVec 16) (s : State) : Host.Outcome State Fault Refusal :=
  texOp 0 d a tag c nofb bias s
/-- TEXL. -/
def execTexl (d a : Opnd) (tag : BitVec 4) (c : Opnd) (nofb : Bool) (bias : BitVec 16) (s : State) : Host.Outcome State Fault Refusal :=
  texOp 1 d a tag c nofb bias s
/-- TEXG. -/
def execTexg (d a : Opnd) (tag : BitVec 4) (c : Opnd) (nofb : Bool) (bias : BitVec 16) (s : State) : Host.Outcome State Fault Refusal :=
  texOp 2 d a tag c nofb bias s

/-- RAYT (`all`) or RAYQ. With no contributing lane a root that is not canonical raises nothing, of which R183 says nothing.
DESIGN CHOICE (log 43). -/
def rayOp (all : Bool) (d a : Opnd) (tag : BitVec 4) (cullb cullf : Bool) (c : Opnd) (mask : BitVec 8) (s : State) :
    Host.Outcome State Fault Refusal :=
  let n := if all then 8 else 1
  let sh : Shape :=
    { slots := [Slot.o d Kinds.vOnly n n, Slot.s a Kinds.vOnly 8 8, Slot.s c Kinds.wOnly 2 2], long := true, tag := some tag }
  issue s sh (fun is =>
    let root := is.g.src64 Lane.blank c
    if !is.lanes.isEmpty && !canonical root then
      .stop s { StopCause.at Causes.nonCanonical is.run.ipc with va := root.toNat % 2 ^ 52 }
    else
      s.pendOp is tag d n (.ray all root mask cullb cullf)
        (is.lanes.map (fun i => PendLane.new i 0 (is.g.srcs (is.g.lane i) .fp a 8))) 0)

/-- RAYT. -/
def execRayt (d a : Opnd) (tag : BitVec 4) (cullb cullf : Bool) (c : Opnd) (mask : BitVec 8) (s : State) :
    Host.Outcome State Fault Refusal := rayOp true d a tag cullb cullf c mask s
/-- RAYQ. -/
def execRayq (d a : Opnd) (tag : BitVec 4) (cullb cullf : Bool) (c : Opnd) (mask : BitVec 8) (s : State) :
    Host.Outcome State Fault Refusal := rayOp false d a tag cullb cullf c mask s

/-! ### The landing of a tag (R47) -/

/-- Perform what an operation still has to do: memory operations in issue order, a sample or a query by itself. -/
def State.performFor (s : State) (k : GroupKey) (o : PendOp) : State :=
  if o.kind.isMem then s.performThrough k o.seq else s.performTap k o.seq

/-- TAG_LANDING: pending operation `i` of a group is performed as far as it can be, and lands once every lane has its words. -/
def execTagLanding (k : GroupKey) (i : Nat) (s : State) : Host.Outcome State Fault Refusal :=
  match (s.group? k).bind (fun g => nth g.pend i) with
  | none => .next s
  | some o =>
    let s := s.performFor k o
    match (s.group? k).bind (fun g => g.pend.find? (fun x => x.seq = o.seq)) with
    | none => .next s
    | some o => .next (if o.complete then s.land1 k o else s)

end Sys2Proof.Machine
end

