-- ==== Sys2Proof/Machine/Integer.lean ====
section
/-! DEFINITION. Integer and address arithmetic, fields, compares and selects of bits, and their IMM and 16-bit forms
(05 R113 to R117, R120; 03 R59). -/

namespace Sys2Proof.Machine

/-! ### Shared forms -/

/-- The prefix fields that IADD, ISUB, IMUL and IMAD honour (R70). -/
def Honour.intSat : Honour := { Honour.guard with sat := true }

/-- The operands of an integer instruction as it reads them: the present D, A, B and the SAT bit. -/
structure IntIn where
  d : W32
  a : W32
  b : W32
  sat : Bool
deriving DecidableEq, Repr

/-- sat(e, INT32) in place of the wrapped result when SAT is set (R69, R113). -/
def IntIn.saturate (x : IntIn) (wrapped : W32) (exact : Int) : W32 :=
  if x.sat then W32.ofInt (clampInt exact (-(2 ^ 31)) (2 ^ 31 - 1)) else wrapped

/-- A three-operand integer instruction; `acc` says that D is also read. -/
def intOp3 (hon : Honour) (acc : Bool) (f : IntIn → W32) (d a b : Opnd) (s : State) : Host.Outcome State Fault Refusal :=
  let sh : Shape := { slots := [if acc then Slot.da d else Slot.d d, Slot.a a, Slot.a b], hon := hon }
  issue s sh (fun is => compute s sh is d (fun l =>
    let rd (o : Opnd) : W32 := is.g.src l .int o 0
    ([f { d := rd d, a := rd a, b := rd b, sat := is.run.pfx.sat }], 0)))

/-- A two-operand integer instruction. -/
def intOp2 (f : W32 → W32) (d a : Opnd) (s : State) : Host.Outcome State Fault Refusal :=
  let sh : Shape := { slots := [Slot.d d, Slot.a a] }
  issue s sh (fun is => compute s sh is d (fun l => ([f (is.g.src l .int a 0)], 0)))

/-- An IMM form: D is the destination and, with `acc`, the first input (R116). -/
def intImm (hon : Honour) (acc : Bool) (f : IntIn → W32) (d : Opnd) (imm : BitVec 16) (s : State) : Host.Outcome State Fault Refusal :=
  let sh : Shape := { slots := [if acc then Slot.da d else Slot.d d], hon := hon }
  issue s sh (fun is => compute s sh is d (fun l =>
    let x := is.g.src l .int d 0
    ([f { d := x, a := x, b := imm.signExtend 32, sat := is.run.pfx.sat }], 0)))

/-- The v register of a five-bit field. -/
def vReg (n : BitVec 5) : Opnd := .v ⟨n.toNat, by omega⟩

/-- The operand of an S field (R58). -/
def srcReg (x : Src16) : Opnd :=
  match x with
  | .v n => .v ⟨n.toNat, by omega⟩
  | .t n => .t n
  | .w n => .w (n.setWidth 5)

/-! ### The functions of R113 to R115 -/

/-- A. -/
def intMov : IntIn → W32 := fun x => x.a
/-- A + B. -/
def intAdd : IntIn → W32 := fun x => x.saturate (x.a + x.b) (x.a.toInt + x.b.toInt)
/-- A − B. -/
def intSub : IntIn → W32 := fun x => x.saturate (x.a - x.b) (x.a.toInt - x.b.toInt)
/-- A × B. -/
def intMul : IntIn → W32 := fun x => x.saturate (x.a * x.b) (x.a.toInt * x.b.toInt)
/-- (sA × sB)[63:32]. -/
def intMulh : IntIn → W32 := fun x => W32.ofInt ((x.a.toInt * x.b.toInt) / 2 ^ 32)
/-- D + A × B. -/
def intMad : IntIn → W32 := fun x => x.saturate (x.d + x.a * x.b) (x.d.toInt + x.a.toInt * x.b.toInt)
/-- the smaller of sA, sB. -/
def intMin : IntIn → W32 := fun x => if x.a.toInt ≤ x.b.toInt then x.a else x.b
/-- the larger of sA, sB. -/
def intMax : IntIn → W32 := fun x => if x.a.toInt ≤ x.b.toInt then x.b else x.a
/-- A & B. -/
def intAnd : IntIn → W32 := fun x => x.a &&& x.b
/-- A | B. -/
def intOr : IntIn → W32 := fun x => x.a ||| x.b
/-- A ^ B. -/
def intXor : IntIn → W32 := fun x => x.a ^^^ x.b
/-- A << B, zero from 32. -/
def intShl : IntIn → W32 := fun x => if x.b.toNat < 32 then x.a <<< x.b.toNat else 0
/-- A >> B, zero from 32. -/
def intShr : IntIn → W32 := fun x => if x.b.toNat < 32 then x.a >>> x.b.toNat else 0
/-- sA shifted right with copies of A[31]. -/
def intSar : IntIn → W32 := fun x => x.a.sshiftRight (min 31 x.b.toNat)
/-- A rotated left by B MOD 32. -/
def intRot : IntIn → W32 := fun x => x.a.rotateLeft (x.b.toNat % 32)
/-- {IMM16, D[15:0]}. -/
def intMovH : IntIn → W32 := fun x => x.b.extractLsb' 0 16 ++ x.d.extractLsb' 0 16

/-- BFX: position B[4:0], length B[13:8] up to 32, sign B[16] (R114). -/
def intBfx (x : IntIn) : W32 :=
  let pos := x.b.toNat % 32
  let len := min 32 (bitsOf x.b 13 8)
  let f := x.a.toNat / 2 ^ pos % 2 ^ len
  if x.b.getLsbD 16 && len > 0 && f / 2 ^ (len - 1) % 2 = 1 then BitVec.ofNat 32 (f + 2 ^ 32 - 2 ^ len) else BitVec.ofNat 32 f

/-- BFI: A[len-1:0] into D at pos; bits past 31 are dropped (R114). -/
def intBfi (x : IntIn) : W32 :=
  let pos := x.b.toNat % 32
  let len := min 32 (bitsOf x.b 13 8)
  let m : W32 := BitVec.ofNat 32 ((2 ^ len - 1) * 2 ^ pos)
  (x.d &&& ~~~m) ||| ((x.a <<< pos) &&& m)

/-- The number of set bits among the lowest `n`. -/
def popc (x : W32) : Nat → Nat
  | 0 => 0
  | n + 1 => popc x n + (if x.getLsbD n then 1 else 0)

/-- Leading zeros of the lowest `n` bits. -/
def clz (x : W32) : Nat → Nat
  | 0 => 0
  | n + 1 => if x.getLsbD n then 0 else clz x n + 1

/-- The lowest `n` bits in reverse order, from bit 31 downward. -/
def brev (x : W32) : Nat → Nat
  | 0 => 0
  | n + 1 => brev x n + (if x.getLsbD n then 2 ^ (31 - n) else 0)

/-! ### REG forms (R113, R114) -/

/-- MOV. -/
def execMov (d a : Opnd) (s : State) : Host.Outcome State Fault Refusal := intOp2 (fun x => x) d a s
/-- IADD. -/
def execIadd (d a b : Opnd) (s : State) : Host.Outcome State Fault Refusal := intOp3 Honour.intSat false intAdd d a b s
/-- ISUB. -/
def execIsub (d a b : Opnd) (s : State) : Host.Outcome State Fault Refusal := intOp3 Honour.intSat false intSub d a b s
/-- IMUL. -/
def execImul (d a b : Opnd) (s : State) : Host.Outcome State Fault Refusal := intOp3 Honour.intSat false intMul d a b s
/-- IMULH. -/
def execImulh (d a b : Opnd) (s : State) : Host.Outcome State Fault Refusal := intOp3 Honour.guard false intMulh d a b s
/-- IMAD. -/
def execImad (d a b : Opnd) (s : State) : Host.Outcome State Fault Refusal := intOp3 Honour.intSat true intMad d a b s
/-- IMIN. -/
def execImin (d a b : Opnd) (s : State) : Host.Outcome State Fault Refusal := intOp3 Honour.guard false intMin d a b s
/-- IMAX. -/
def execImax (d a b : Opnd) (s : State) : Host.Outcome State Fault Refusal := intOp3 Honour.guard false intMax d a b s
/-- AND. -/
def execAnd (d a b : Opnd) (s : State) : Host.Outcome State Fault Refusal := intOp3 Honour.guard false intAnd d a b s
/-- OR. -/
def execOr (d a b : Opnd) (s : State) : Host.Outcome State Fault Refusal := intOp3 Honour.guard false intOr d a b s
/-- XOR. -/
def execXor (d a b : Opnd) (s : State) : Host.Outcome State Fault Refusal := intOp3 Honour.guard false intXor d a b s
/-- SHL. -/
def execShl (d a b : Opnd) (s : State) : Host.Outcome State Fault Refusal := intOp3 Honour.guard false intShl d a b s
/-- SHR. -/
def execShr (d a b : Opnd) (s : State) : Host.Outcome State Fault Refusal := intOp3 Honour.guard false intShr d a b s
/-- SAR. -/
def execSar (d a b : Opnd) (s : State) : Host.Outcome State Fault Refusal := intOp3 Honour.guard false intSar d a b s
/-- ROT. -/
def execRot (d a b : Opnd) (s : State) : Host.Outcome State Fault Refusal := intOp3 Honour.guard false intRot d a b s
/-- BFX. -/
def execBfx (d a b : Opnd) (s : State) : Host.Outcome State Fault Refusal := intOp3 Honour.guard false intBfx d a b s
/-- BFI. -/
def execBfi (d a b : Opnd) (s : State) : Host.Outcome State Fault Refusal := intOp3 Honour.guard true intBfi d a b s

/-- LEA: D and A even pairs, {D+1, D} = {A+1, A} + sB (R114). -/
def execLea (d a b : Opnd) (s : State) : Host.Outcome State Fault Refusal :=
  let sh : Shape := { slots := [Slot.o d Kinds.vwt 2 2, Slot.s a Kinds.vwt 2 2, Slot.a b] }
  issue s sh (fun is => compute s sh is d (fun l =>
    let x := is.g.src64 l a + (is.g.src l .int b 0).signExtend 64
    ([lo32 x, hi32 x], 0)))

/-! ### FUN forms (R115) -/

/-- IABS. -/
def execIabs (d a : Opnd) (s : State) : Host.Outcome State Fault Refusal := intOp2 (fun x => if x.getLsbD 31 then -x else x) d a s
/-- NOT. -/
def execNot (d a : Opnd) (s : State) : Host.Outcome State Fault Refusal := intOp2 (fun x => ~~~x) d a s
/-- POPC. -/
def execPopc (d a : Opnd) (s : State) : Host.Outcome State Fault Refusal := intOp2 (fun x => BitVec.ofNat 32 (popc x 32)) d a s
/-- CLZ. -/
def execClz (d a : Opnd) (s : State) : Host.Outcome State Fault Refusal := intOp2 (fun x => BitVec.ofNat 32 (clz x 32)) d a s
/-- BREV. -/
def execBrev (d a : Opnd) (s : State) : Host.Outcome State Fault Refusal := intOp2 (fun x => BitVec.ofNat 32 (brev x 32)) d a s

/-! ### IMM forms (R116) -/

/-- MOV D, imm. -/
def execMovImm (d : Opnd) (imm : BitVec 16) (s : State) : Host.Outcome State Fault Refusal :=
  intImm Honour.guard false (fun x => x.b) d imm s
/-- MOV.H D, imm. -/
def execMovH (d : Opnd) (imm : BitVec 16) (s : State) : Host.Outcome State Fault Refusal :=
  intImm Honour.guard true intMovH d imm s
/-- IADD D, D, imm. -/
def execIaddImm (d : Opnd) (imm : BitVec 16) (s : State) : Host.Outcome State Fault Refusal :=
  intImm Honour.intSat true intAdd d imm s
/-- IMUL D, D, imm. -/
def execImulImm (d : Opnd) (imm : BitVec 16) (s : State) : Host.Outcome State Fault Refusal :=
  intImm Honour.intSat true intMul d imm s
/-- AND D, D, imm. -/
def execAndImm (d : Opnd) (imm : BitVec 16) (s : State) : Host.Outcome State Fault Refusal :=
  intImm Honour.guard true intAnd d imm s
/-- OR D, D, imm. -/
def execOrImm (d : Opnd) (imm : BitVec 16) (s : State) : Host.Outcome State Fault Refusal :=
  intImm Honour.guard true intOr d imm s
/-- XOR D, D, imm. -/
def execXorImm (d : Opnd) (imm : BitVec 16) (s : State) : Host.Outcome State Fault Refusal :=
  intImm Honour.guard true intXor d imm s

/-! ### ICMP and ISEL (R117, R120) -/

/-- The condition of a CC value. -/
def icmpCond (cc : Nat) (a b : W32) : Bool :=
  match cc with
  | 0 => a = b
  | 1 => a ≠ b
  | 2 => a.toInt < b.toInt
  | 3 => a.toInt ≤ b.toInt
  | 4 => a.toInt > b.toInt
  | 5 => a.toInt ≥ b.toInt
  | 6 => a.toNat < b.toNat
  | 7 => a.toNat ≤ b.toNat
  | 8 => a.toNat > b.toNat
  | _ => a.toNat ≥ b.toNat

/-- ICMP: PD = (A cc B) in each contributing lane. -/
def execIcmp (pd : BitVec 3) (cc : BitVec 5) (a b : Opnd) (s : State) : Host.Outcome State Fault Refusal :=
  issue s { slots := [Slot.a a, Slot.a b], fn := if cc.toNat > 9 then some Causes.unassignedFn else none } (fun is =>
    computePred s is pd (fun l => (icmpCond cc.toNat (is.g.src l .int a 0) (is.g.src l .int b 0), 0)))

/-- A select: D5 = A where PS is true, else B, the value moving as bits; `ty` types inline constants. -/
def selOp (ty : OpTy) (d5 : BitVec 5) (a b : Opnd) (ps : BitVec 3) (s : State) : Host.Outcome State Fault Refusal :=
  let sh : Shape := { slots := [Slot.d (vReg d5), Slot.a a, Slot.a b] }
  issue s sh (fun is => compute s sh is (vReg d5) (fun l =>
    ([is.g.src l ty (if l.pred ps.toNat then a else b) 0], 0)))

/-- ISEL. -/
def execIsel (d5 : BitVec 5) (a b : Opnd) (ps : BitVec 3) (s : State) : Host.Outcome State Fault Refusal := selOp .int d5 a b ps s

/-! ### 16-bit forms (03 R59): each as its 32-bit form with D the first source -/

/-- MOV D, S. -/
def execMov16 (d : BitVec 5) (x : Src16) (s : State) : Host.Outcome State Fault Refusal := intOp2 (fun y => y) (vReg d) (srcReg x) s
/-- IADD D, D, S. -/
def execIadd16 (d : BitVec 5) (x : Src16) (s : State) : Host.Outcome State Fault Refusal :=
  intOp3 Honour.intSat false intAdd (vReg d) (vReg d) (srcReg x) s
/-- ISUB D, D, S. -/
def execIsub16 (d : BitVec 5) (x : Src16) (s : State) : Host.Outcome State Fault Refusal :=
  intOp3 Honour.intSat false intSub (vReg d) (vReg d) (srcReg x) s
/-- IMUL D, D, S. -/
def execImul16 (d : BitVec 5) (x : Src16) (s : State) : Host.Outcome State Fault Refusal :=
  intOp3 Honour.intSat false intMul (vReg d) (vReg d) (srcReg x) s
/-- AND D, D, S. -/
def execAnd16 (d : BitVec 5) (x : Src16) (s : State) : Host.Outcome State Fault Refusal :=
  intOp3 Honour.guard false intAnd (vReg d) (vReg d) (srcReg x) s
/-- OR D, D, S. -/
def execOr16 (d : BitVec 5) (x : Src16) (s : State) : Host.Outcome State Fault Refusal :=
  intOp3 Honour.guard false intOr (vReg d) (vReg d) (srcReg x) s
/-- XOR D, D, S. -/
def execXor16 (d : BitVec 5) (x : Src16) (s : State) : Host.Outcome State Fault Refusal :=
  intOp3 Honour.guard false intXor (vReg d) (vReg d) (srcReg x) s
/-- SHL D, D, S. -/
def execShl16 (d : BitVec 5) (x : Src16) (s : State) : Host.Outcome State Fault Refusal :=
  intOp3 Honour.guard false intShl (vReg d) (vReg d) (srcReg x) s
/-- SHR D, D, S. -/
def execShr16 (d : BitVec 5) (x : Src16) (s : State) : Host.Outcome State Fault Refusal :=
  intOp3 Honour.guard false intShr (vReg d) (vReg d) (srcReg x) s
/-- SAR D, D, S. -/
def execSar16 (d : BitVec 5) (x : Src16) (s : State) : Host.Outcome State Fault Refusal :=
  intOp3 Honour.guard false intSar (vReg d) (vReg d) (srcReg x) s

end Sys2Proof.Machine
end

