-- ==== Sys2Proof/Machine/Fp.lean ====
section
/-! DEFINITION. FP32 and packed-half arithmetic, compares, classification and rounding (05 R116, R118 to R124; 03 R59, R69). -/

namespace Sys2Proof.Machine

/-! ### Inputs and results under a modifier word (R69, R93) -/

/-- The sign bit of an encoding cleared, then inverted. -/
def Fmt.signMod (f : Fmt) (abs neg : Bool) (x : Nat) : Nat :=
  let h := 2 ^ (f.ew + f.p)
  let x := if abs then x % h else x
  if neg then (if x / h % 2 = 1 then x - h else x + h) else x

/-- The sign modifiers of A, B and the accumulated D. -/
structure SignMods where
  aa : Bool
  na : Bool
  ab : Bool
  nb : Bool
  ad : Bool
  nd : Bool
deriving DecidableEq, Repr

def SignMods.of (m : Modifier) : SignMods := { aa := m.aa, na := m.na, ab := m.ab, nb := m.nb, ad := m.ad, nd := m.nd }

/-- What a modifier word and FLUSH do to a result. -/
def ResMod.of (m : Modifier) (flush : Bool) : ResMod :=
  { k := m.k.toInt, mode := Mode.ofRm m.rm.toNat, sat := m.sat, clamp := m.clamp, flush := flush }

/-- Prefix fields of an FP instruction with inputs A and B (R70). -/
def Honour.fp : Honour := { g := true, a := true, b := true, d := false, k := true, sat := true, clamp := true }
/-- Prefix fields of a fused multiply-add. -/
def Honour.fma : Honour := { Honour.fp with d := true }
/-- Prefix fields of FMIN, FMAX and FCMP. -/
def Honour.ab : Honour := { Honour.guard with a := true, b := true }
/-- Prefix fields of FRND and the special functions. -/
def Honour.aOnly : Honour := { Honour.guard with a := true }

/-- An FP operation: the exact value of its result and whether it is invalid, from the values of D, A, B under a mode. -/
abbrev FpFn := Mode → Val → Val → Val → Val × Bool

def fpAdd : FpFn := fun mode _ a b => a.add mode b
def fpSub : FpFn := fun mode _ a b => a.add mode b.neg
def fpMul : FpFn := fun _ _ a b => a.mul b
def fpFma : FpFn := fun mode d a b => a.fma mode b d

/-- One element of an FP operation: encodings of D, A, B to the result's encoding and flags (R69, R121). -/
def fpElem (f : Fmt) (fn : FpFn) (x : SignMods) (m : ResMod) (d a b : Nat) : Nat × Flags :=
  let rd (abs neg : Bool) (y : Nat) : Val := f.value (f.flushIn m.flush (f.signMod abs neg y))
  f.result m (fn m.mode (rd x.ad x.nd d) (rd x.aa x.na a) (rd x.ab x.nb b))

/-- The two halves of a packed operation; the flags are ORed (R124). -/
def packedElem (f : Fmt) (fn : FpFn) (x : SignMods) (m : ResMod) (d a b : W32) : W32 × Flags :=
  let part (sh : Nat) := fpElem f fn x m (bitsOf d (sh + 15) sh) (bitsOf a (sh + 15) sh) (bitsOf b (sh + 15) sh)
  let lo := part 0
  let hi := part 16
  (BitVec.ofNat 16 hi.1 ++ BitVec.ofNat 16 lo.1, lo.2 ||| hi.2)

/-! ### Shared forms -/

/-- The format and operand type of an FP instruction. -/
structure FpKind where
  ty : OpTy
  elem : FpFn → SignMods → ResMod → W32 → W32 → W32 → W32 × Flags

def FpKind.fp32 : FpKind :=
  { ty := .fp, elem := fun fn x m d a b =>
      let r := fpElem Fmt.fp32 fn x m d.toNat a.toNat b.toNat
      (BitVec.ofNat 32 r.1, r.2) }
def FpKind.half : FpKind := { ty := .half, elem := packedElem Fmt.fp16 }
def FpKind.bf : FpKind := { ty := .bf, elem := packedElem Fmt.bf16 }

/-- An FP instruction D, A, B; `acc` says that D is also an input. -/
def fpOp3 (k : FpKind) (hon : Honour) (acc : Bool) (fn : FpFn) (d a b : Opnd) (s : State) : Host.Outcome State Fault Refusal :=
  let sh : Shape := { slots := [if acc then Slot.da d else Slot.d d, Slot.a a, Slot.a b], hon := hon }
  issue s sh (fun is => compute s sh is d (fun l =>
    let r := k.elem fn (SignMods.of is.run.pfx) (ResMod.of is.run.pfx is.team.rec'.flush)
      (is.g.src l k.ty d 0) (is.g.src l k.ty a 0) (is.g.src l k.ty b 0)
    ([r.1], r.2)))

/-- FMIN or FMAX (R122). -/
def fpMinMax (mx : Bool) (d a b : Opnd) (s : State) : Host.Outcome State Fault Refusal :=
  let sh : Shape := { slots := [Slot.d d, Slot.a a, Slot.a b], hon := Honour.ab }
  issue s sh (fun is => compute s sh is d (fun l =>
    let m := is.run.pfx
    let x := Fmt.fp32.signMod m.aa m.na (is.g.src l .fp a 0).toNat
    let y := Fmt.fp32.signMod m.ab m.nb (is.g.src l .fp b 0).toNat
    ([BitVec.ofNat 32 (fminmax mx is.team.rec'.flush x y)], 0)))

/-- The D, D, imm form of an FP instruction, the immediate in bits [31:16] (R116). -/
def fpImm (fn : FpFn) (d : Opnd) (imm : BitVec 16) (s : State) : Host.Outcome State Fault Refusal :=
  let sh : Shape := { slots := [Slot.da d], hon := Honour.fp }
  issue s sh (fun is => compute s sh is d (fun l =>
    let x := is.g.src l .fp d 0
    let r := FpKind.fp32.elem fn (SignMods.of is.run.pfx) (ResMod.of is.run.pfx is.team.rec'.flush) x x (imm ++ 0#16)
    ([r.1], r.2)))

/-! ### FP32 (R121, R122) -/

/-- FADD. -/
def execFadd (d a b : Opnd) (s : State) : Host.Outcome State Fault Refusal := fpOp3 FpKind.fp32 Honour.fp false fpAdd d a b s
/-- FSUB. -/
def execFsub (d a b : Opnd) (s : State) : Host.Outcome State Fault Refusal := fpOp3 FpKind.fp32 Honour.fp false fpSub d a b s
/-- FMUL. -/
def execFmul (d a b : Opnd) (s : State) : Host.Outcome State Fault Refusal := fpOp3 FpKind.fp32 Honour.fp false fpMul d a b s
/-- FFMA. -/
def execFfma (d a b : Opnd) (s : State) : Host.Outcome State Fault Refusal := fpOp3 FpKind.fp32 Honour.fma true fpFma d a b s
/-- FMIN. -/
def execFmin (d a b : Opnd) (s : State) : Host.Outcome State Fault Refusal := fpMinMax false d a b s
/-- FMAX. -/
def execFmax (d a b : Opnd) (s : State) : Host.Outcome State Fault Refusal := fpMinMax true d a b s
/-- FADD D, D, imm. -/
def execFaddImm (d : Opnd) (imm : BitVec 16) (s : State) : Host.Outcome State Fault Refusal := fpImm fpAdd d imm s
/-- FMUL D, D, imm. -/
def execFmulImm (d : Opnd) (imm : BitVec 16) (s : State) : Host.Outcome State Fault Refusal := fpImm fpMul d imm s

/-! ### Packed halves (R124) -/

/-- HADD2. -/
def execHadd2 (d a b : Opnd) (s : State) : Host.Outcome State Fault Refusal := fpOp3 FpKind.half Honour.fp false fpAdd d a b s
/-- HMUL2. -/
def execHmul2 (d a b : Opnd) (s : State) : Host.Outcome State Fault Refusal := fpOp3 FpKind.half Honour.fp false fpMul d a b s
/-- HFMA2. -/
def execHfma2 (d a b : Opnd) (s : State) : Host.Outcome State Fault Refusal := fpOp3 FpKind.half Honour.fma true fpFma d a b s
/-- BFMA2. -/
def execBfma2 (d a b : Opnd) (s : State) : Host.Outcome State Fault Refusal := fpOp3 FpKind.bf Honour.fma true fpFma d a b s

/-! ### Compare, classify, select, round (R118 to R120, R123) -/

/-- The condition of a CC value of FCMP (R118). -/
def fcmpCond (cc : Nat) (a b : Val) : Bool :=
  let un := a.isNan || b.isNan
  match cc with
  | 0 => !un && a.eq b
  | 1 => !un && a.lt b
  | 2 => !un && (a.lt b || a.eq b)
  | 3 => !un && b.lt a
  | 4 => !un && (b.lt a || a.eq b)
  | 5 => !un && !a.eq b
  | 6 => !un
  | 7 => un
  | 8 => un || a.eq b
  | 9 => un || a.lt b
  | 10 => un || a.lt b || a.eq b
  | 11 => un || b.lt a
  | 12 => un || b.lt a || a.eq b
  | _ => un || !a.eq b

/-- FCMP. -/
def execFcmp (pd : BitVec 3) (cc : BitVec 5) (a b : Opnd) (s : State) : Host.Outcome State Fault Refusal :=
  let sh : Shape :=
    { slots := [Slot.a a, Slot.a b], hon := Honour.ab, fn := if cc.toNat > 13 then some Causes.unassignedFn else none }
  issue s sh (fun is => computePred s is pd (fun l =>
      let m := is.run.pfx
      let rd (abs neg : Bool) (o : Opnd) : Val :=
        Fmt.fp32.value (Fmt.fp32.flushIn is.team.rec'.flush (Fmt.fp32.signMod abs neg (is.g.src l .fp o 0).toNat))
      (fcmpCond cc.toNat (rd m.aa m.na a) (rd m.ab m.nb b), 0)))

/-- The class of an FP32 pattern (R119). -/
def fpClass (x : W32) : Nat :=
  let e := bitsOf x 30 23
  let f := bitsOf x 22 0
  let neg := x.getLsbD 31
  if e = 255 then (if f ≠ 0 then 8 else if neg then 0 else 7)
  else if e = 0 then
    (if f = 0 then (if neg then 3 else 4) else if neg then 2 else 5)
  else if neg then 1 else 6

/-- FCLASS: PD = B[class of A]. -/
def execFclass (pd : BitVec 3) (a b : Opnd) (s : State) : Host.Outcome State Fault Refusal :=
  issue s { slots := [Slot.a a, Slot.a b] } (fun is => computePred s is pd (fun l =>
    ((is.g.src l .int b 0).getLsbD (fpClass (is.g.src l .fp a 0)), 0)))

/-- FSEL. -/
def execFsel (d5 : BitVec 5) (a b : Opnd) (ps : BitVec 3) (s : State) : Host.Outcome State Fault Refusal := selOp .fp d5 a b ps s

/-- An FP32 pattern rounded to an integral value under a mode (R123). -/
def frndElem (mode : Mode) (x : Nat) : Nat × Flags :=
  match Fmt.fp32.value x with
  | .nan => (0x7FC00000, 0)
  | .inf _ => (x, 0)
  | .fin neg num den =>
    let (m, inexact) := roundInt mode neg num den 0
    if inexact then ((Fmt.fp32.round .rne (.fin neg m 1)).1, fInexact) else (x, 0)

/-- FRND: the mode comes from FN, 0 RNE, 1 RTZ, 2 RDN, 3 RUP, 4 RNA (R123). -/
def execFrnd (d a : Opnd) (fn : BitVec 8) (s : State) : Host.Outcome State Fault Refusal :=
  let sh : Shape :=
    { slots := [Slot.d d, Slot.a a], hon := Honour.aOnly, fn := if fn.toNat > 4 then some Causes.unassignedFn else none }
  issue s sh (fun is => compute s sh is d (fun l =>
    let m := is.run.pfx
    let x := Fmt.fp32.flushIn is.team.rec'.flush (Fmt.fp32.signMod m.aa m.na (is.g.src l .fp a 0).toNat)
    let r := frndElem (Mode.ofRm fn.toNat) x
    ([BitVec.ofNat 32 r.1], r.2)))

/-! ### 16-bit forms (03 R59) -/

/-- FADD D, D, S. -/
def execFadd16 (d : BitVec 5) (x : Src16) (s : State) : Host.Outcome State Fault Refusal :=
  fpOp3 FpKind.fp32 Honour.fp false fpAdd (vReg d) (vReg d) (srcReg x) s
/-- FSUB D, D, S. -/
def execFsub16 (d : BitVec 5) (x : Src16) (s : State) : Host.Outcome State Fault Refusal :=
  fpOp3 FpKind.fp32 Honour.fp false fpSub (vReg d) (vReg d) (srcReg x) s
/-- FMUL D, D, S. -/
def execFmul16 (d : BitVec 5) (x : Src16) (s : State) : Host.Outcome State Fault Refusal :=
  fpOp3 FpKind.fp32 Honour.fp false fpMul (vReg d) (vReg d) (srcReg x) s
/-- FMIN D, D, S. -/
def execFmin16 (d : BitVec 5) (x : Src16) (s : State) : Host.Outcome State Fault Refusal :=
  fpMinMax false (vReg d) (vReg d) (srcReg x) s
/-- FMAX D, D, S. -/
def execFmax16 (d : BitVec 5) (x : Src16) (s : State) : Host.Outcome State Fault Refusal :=
  fpMinMax true (vReg d) (vReg d) (srcReg x) s
/-- FFMA D, S, t0: D = D + S × t0. -/
def execFfma16 (d : BitVec 5) (x : Src16) (s : State) : Host.Outcome State Fault Refusal :=
  fpOp3 FpKind.fp32 Honour.fma true fpFma (vReg d) (srcReg x) (.t 0) s

end Sys2Proof.Machine
end

