-- ==== Sys2Proof/Machine/Convert.lean ====
section
/-! DEFINITION. Conversions and the moves of parts of a word (05 R127 to R130; 04 R91, R95). -/

namespace Sys2Proof.Machine

/-! ### Format codes (R127) -/

/-- The FP format of a code below 7. -/
def cvtFmt (c : Nat) : Fmt :=
  match c with
  | 0 => Fmt.fp32
  | 1 => Fmt.fp16
  | 2 => Fmt.bf16
  | 3 => Fmt.e4m3
  | 4 => Fmt.e5m2
  | 5 => Fmt.e2m1
  | _ => Fmt.e5m3

/-- Bits of an integer code from 8 upward. -/
def cvtIntBits (c : Nat) : Nat := 2 ^ ((c - 8) / 2 + 3)

/-- Whether an integer code is signed. -/
def cvtSigned (c : Nat) : Bool := c % 2 = 0

/-- The range of an integer code (R86). -/
def cvtRange (c : Nat) : Int × Int :=
  let n := cvtIntBits c
  if cvtSigned c then (-(2 ^ (n - 1)), 2 ^ (n - 1) - 1) else (0, 2 ^ n - 1)

/-- Whether FLUSH acts on a format: FP32, FP16 and BF16 (R93). -/
def cvtFlushes (c : Nat) : Bool := c < 3

/-- widen() of a source under a format code; a 64-bit source comes as one number. -/
def cvtValue (c : Nat) (flush : Bool) (x : Nat) : Val :=
  if c = 7 then e8m0 x
  else if c < 7 then
    let f := cvtFmt c
    f.value (f.flushIn (flush && cvtFlushes c) (x % 2 ^ f.bits))
  else
    let n := cvtIntBits c
    Val.ofInt (if cvtSigned c then (BitVec.ofNat n x).toInt else (x % 2 ^ n : Nat))

/-- The value of a source with AA and NA applied, then times 2^K (R128). -/
def cvtInput (c : Nat) (m : Modifier) (flush : Bool) (x : Nat) : Val :=
  let v := cvtValue c flush x
  let v := if m.aa then v.abs else v
  (if m.na then v.neg else v).scale m.k.toInt

/-- The result of CVT as a 64-bit pattern, filled as R127, with its flags (R128). -/
def cvtResult (dst : Nat) (m : Modifier) (flush : Bool) (x : Val) : Nat × Flags :=
  let mode := Mode.ofRm m.rm.toNat
  if dst < 7 then
    let f := cvtFmt dst
    f.result { k := 0, mode := mode, sat := m.sat, clamp := false, flush := flush && cvtFlushes dst } (x, false)
  else
    let (lo, hi) := cvtRange dst
    let (y, fl) := toIntRange mode lo hi x
    ((y % 2 ^ 64).toNat, fl)

/-- The type of CVT's A operand by its 'from' format (R128). -/
def cvtTy (c : Nat) : OpTy :=
  match c with
  | 0 => .fp
  | 1 => .half
  | 2 => .bf
  | _ => .int

/-- The prefix fields of CVT and CVTEF (R70, R128). -/
def Honour.cvt (fp : Bool) : Honour := { Honour.guard with a := fp, k := true, sat := true }

/-- CVT.to.from. -/
def execCvt (d a : Opnd) (fn : BitVec 8) (s : State) : Host.Outcome State Fault Refusal :=
  let dst := fn.toNat / 16
  let from' := fn.toNat % 16
  let dn := if dst ≥ 14 then 2 else 1
  let an := if from' ≥ 14 then 2 else 1
  let sh : Shape :=
    { slots := [Slot.o d Kinds.vwt dn dn, Slot.s a Kinds.any an an], hon := Honour.cvt (from' < 8),
      fn := if dst = from' || dst = 7 then some Causes.unassignedFn else none }
  issue s sh (fun is => compute s sh is d (fun l =>
    let rd (k : Nat) : W32 := is.g.src l (cvtTy from') a k
    let x := if an = 2 then (pairOf (rd 0) (rd 1)).toNat else (rd 0).toNat
    let flush := is.team.rec'.flush
    let r := cvtResult dst is.run.pfx flush (cvtInput from' is.run.pfx flush x)
    let y : W64 := BitVec.ofNat 64 r.1
    (if dn = 2 then [lo32 y, hi32 y] else [lo32 y], r.2)))

/-- The residual of CVTEF: x less the value that was narrowed to (R129). It raises no flag, and FLUSH does not act on it: R129 applies
FLUSH to A alone and calls the residual exact. DEDUCED (log 14). -/
def cvtResidual (f : Fmt) (x : Val) (n : Nat) : W32 :=
  let w := f.value n
  if x.isNan then 0x7FC00000#32
  else if w.eq x then 0#32
  else
    match w with
    | .inf neg => if neg then 0x7F800000#32 else 0xFF800000#32
    | w => BitVec.ofNat 32 (Fmt.fp32.round .rne (x.add .rne w.neg).1).1

/-- CVTEF.to: the narrowed value, with its flags, and its residual. FLUSH acts on A alone (R129). DEDUCED (log 14). -/
def execCvtef (d a : Opnd) (fn : BitVec 8) (s : State) : Host.Outcome State Fault Refusal :=
  let dst := fn.toNat
  let sh : Shape :=
    { slots := [Slot.o d Kinds.vt 2 2, Slot.a a], hon := Honour.cvt true,
      fn := if dst = 0 || dst > 4 then some Causes.unassignedFn else none }
  issue s sh (fun is => compute s sh is d (fun l =>
    let x := cvtInput 0 is.run.pfx is.team.rec'.flush (is.g.src l .fp a 0).toNat
    let r := cvtResult dst is.run.pfx false x
    ([BitVec.ofNat 32 r.1, cvtResidual (cvtFmt dst) x r.1], r.2)))

/-- PACK: D = {B[15:0], A[15:0]} (R130). -/
def execPack (d a b : Opnd) (s : State) : Host.Outcome State Fault Refusal :=
  intOp3 Honour.guard false (fun x => x.b.extractLsb' 0 16 ++ x.a.extractLsb' 0 16) d a b s

/-- UNPACK: one half, byte or nibble of A, zero- or sign-extended (R130). -/
def execUnpack (d a : Opnd) (width : BitVec 2) (sgn : Bool) (idx : BitVec 4) (s : State) : Host.Outcome State Fault Refusal :=
  let n := 16 / 2 ^ width.toNat
  let sh : Shape :=
    { slots := [Slot.d d, Slot.a a],
      fn := if width = 3 || idx.toNat ≥ 32 / n then some Causes.unassignedFn else none }
  issue s sh (fun is => compute s sh is d (fun l =>
    let x := (is.g.src l .int a 0).toNat / 2 ^ (n * idx.toNat) % 2 ^ n
    ([if sgn then (BitVec.ofNat n x).signExtend 32 else BitVec.ofNat 32 x], 0)))

end Sys2Proof.Machine
end

