-- ==== Sys2Proof/Machine/Matrix.lean ====
section
/-! DEFINITION. Tile operations: operands, formats, exact accumulation, the compatibility mode, panels, and the array's operation
(06 R144 to R162). -/

namespace Sys2Proof.Machine

/-! ### Reading the scratchpad and the Beam as an engine does (R160) -/

/-- The value of a word, or one of the values that it may also read as. -/
def State.oldOr (s : State) (now : W32) (olds : List W32) : State × W32 :=
  match olds with
  | [] => (s, now)
  | olds =>
    let (s, i) := s.choose (olds.length + 1)
    (s, (nth olds i).getD now)

/-- A reader of the scratchpad: the length of the team's log at its issue, its group's index, its place in the issue order, and whether
it is a tile operation. -/
structure PadReader where
  pos : Nat
  idx : Nat
  seq : Nat
  tile : Bool
deriving DecidableEq, Repr

/-- Whether an overwriting is ordered before a reader: an earlier store or atomic of its group, or, for a tile operation, an earlier ACCST
(R145, R160; 10 R249). -/
def PadReader.after (r : PadReader) (e : Overwrite) : Bool := e.idx = some r.idx && decide (e.seq < r.seq) && (r.tile || !e.tile)

/-- The values that a log gives a cell after the last overwriting that is ordered before the reader. -/
def PadReader.olds (r : PadReader) (log : List Overwrite) (cell : Nat) : List W32 :=
  (log.filter (fun e => e.cell = cell)).foldl (fun acc e => if r.after e then [] else acc ++ [e.old]) []

/-- The 4-byte cells at allocation offsets: each as it is, or as it was at issue or since (R160). -/
def cellWords (t : Team) (r : PadReader) : List Nat → State → State × List W32
  | [], s => (s, [])
  | a :: as, s =>
    let (s, w) := s.oldOr (wordOfBytes (Tbl.getList t.scratch a 4)) (r.olds (t.slog.drop r.pos) a)
    let (s, ws) := cellWords t r as s
    (s, w :: ws)

/-- The Beam words at keys. Open points: DESIGN CHOICE (log 8). -/
def beamWords (t : Team) (pos : Nat) : List Nat → State → State × List W32
  | [], s => (s, [])
  | a :: as, s =>
    let (s, w) := s.oldOr (wordOfBytes (Tbl.getList t.beam a 4)) (((t.blog.drop pos).filter (fun e => e.1 = a)).map (fun e => e.2))
    let (s, ws) := beamWords t pos as s
    (s, w :: ws)

/-- Key of a Beam byte: slice and offset within the share. -/
def beamKey (n off : Nat) : Nat := Config.beamSlice * n + off

/-- `n` Beam bytes of a slice, by the words that hold them. -/
def State.beamBytes (s : State) (t : Team) (pos slice off n : Nat) : State × List Byte :=
  let a := off / 4 * 4
  let (s, ws) := beamWords t pos ((upFrom 0 ((off + n + 3 - a) / 4)).map (fun k => beamKey slice (a + 4 * k))) s
  (s, ((bytesOfWords ws).drop (off - a)).take n)

/-- `n` scratchpad bytes from an allocation offset. -/
def State.padBytes (s : State) (t : Team) (r : PadReader) (off n : Nat) : State × List Byte :=
  let a := off / 4 * 4
  let (s, ws) := cellWords t r ((upFrom 0 ((off + n + 3 - a) / 4)).map (fun k => a + 4 * k)) s
  (s, ((bytesOfWords ws).drop (off - a)).take n)

/-- Write Beam bytes of one slice, logging the words they overwrite. -/
def Team.beamStore (t : Team) (slice off : Nat) (bs : List Byte) : Team :=
  let ws := (upFrom 0 bs.length).zip bs |>.map (fun e => (beamKey slice (off + e.1), e.2))
  { t with beam := ws.foldl (fun m w => Tbl.set m w.1 w.2) t.beam, blog := t.blog ++ cellsBefore t.beam ws }

/-! ### Layout of A (R150, R151) -/

/-- The program-address offset of word `w` of lane `i`'s row of an A operand. -/
def aCell (o : Bool) (i w : Nat) : Nat :=
  4096 * (w / 16) + (if o then 4 * (i % 32) + 2048 * (i / 32) + 128 * (w % 16) else 64 * i + 4 * (w % 16))

/-- The allocation offsets of the first `n` bytes of a lane's row, P a program address. -/
def aCells (p : Nat) (o : Bool) (i n : Nat) : List Nat := (upFrom 0 (n / 4)).map (fun w => p + 256 + aCell o i w)

/-- The end of a team's allocation as a program address: SCRATCH + 256 bytes in whole squares, of which 256 precede the program area
(02 R53). -/
def allocEnd (scratch : Nat) : Nat := (scratch + 256 + 4095) / 4096 * 4096 - 256

/-- P names the first of `squares` squares within the allocation (R150, R159). -/
def aFits (scratch p squares : Nat) : Bool := p ≥ 3840 && (p + 256) % 4096 = 0 && p + 4096 * squares ≤ allocEnd scratch

/-! ### Formats (R152) -/

/-- How an operand's elements are stored: 0 plain, 1 with MX codes, 2 TL4. -/
structure Half' where
  f : Fmt
  scl : Nat
deriving DecidableEq, Repr

structure MatFmt where
  a : Half'
  b : Half'
  k : Nat
  aRow : Nat
  bCol : Nat
  int : Bool
deriving DecidableEq, Repr

/-- The formats of the table. -/
def matFmt (fmt : Nat) : MatFmt :=
  let plain (a b : Fmt) (k : Nat) : MatFmt := { a := ⟨a, 0⟩, b := ⟨b, 0⟩, k := k, aRow := 64, bCol := 64, int := false }
  let mx (a b : Fmt) : MatFmt := { a := ⟨a, 1⟩, b := ⟨b, 1⟩, k := 64, aRow := 64, bCol := 64, int := false }
  match fmt with
  | 0 => plain Fmt.bf16 Fmt.bf16 32
  | 1 => plain Fmt.fp16 Fmt.fp16 32
  | 2 => plain Fmt.e4m3 Fmt.e4m3 64
  | 3 => plain Fmt.e4m3 Fmt.e5m2 64
  | 4 => plain Fmt.e5m2 Fmt.e4m3 64
  | 5 => plain Fmt.e5m2 Fmt.e5m2 64
  | 6 => { plain Fmt.e4m3 Fmt.e4m3 64 with int := true }
  | 7 => { a := ⟨Fmt.bf16, 0⟩, b := ⟨Fmt.e2m1, 1⟩, k := 32, aRow := 64, bCol := 16, int := false }
  | 8 => { a := ⟨Fmt.e4m3, 0⟩, b := ⟨Fmt.e2m1, 1⟩, k := 128, aRow := 128, bCol := 64, int := false }
  | 9 => { a := ⟨Fmt.e4m3, 1⟩, b := ⟨Fmt.e2m1, 1⟩, k := 128, aRow := 128, bCol := 64, int := false }
  | 10 => mx Fmt.e4m3 Fmt.e4m3
  | 11 => mx Fmt.e4m3 Fmt.e5m2
  | 12 => mx Fmt.e5m2 Fmt.e4m3
  | 13 => mx Fmt.e5m2 Fmt.e5m2
  | _ => { a := ⟨Fmt.e2m1, 2⟩, b := ⟨Fmt.e2m1, 2⟩, k := 128, aRow := 64, bCol := 64, int := false }

/-- Element `k` of width `b` bits of packed bytes (R87). -/
def elemAt (bs : List Byte) (b k : Nat) : Nat :=
  ofBytes ((bs.drop (k * b / 8)).take ((b + 7) / 8)) / 2 ^ (k * b % 8) % 2 ^ b

/-- Bytes of a TL4 or MX scale record that an operation reads: MX codes, or the whole TL4 record. -/
def recBytes (scl k : Nat) (sparse : Bool) : Nat := if scl = 0 then 0 else if scl = 1 then k / 32 else if sparse then 8 else 4

/-- The value of an element at logical index `lk`, scaled by its record (R97, R99, R154). -/
def scaled (h : Half') (rec' : List Byte) (lk : Nat) (x : Val) : Val :=
  match h.scl with
  | 0 => x
  | 1 => ((e8m0 ((nth rec' (lk / 32)).getD 0).toNat).mul x).1
  | _ =>
    let sv := Fmt.bf16.value (ofBytes (rec'.drop (rec'.length - 2)))
    let bs := Fmt.e5m3.value ((nth rec' (lk / 64)).getD 0).toNat
    ((sv.mul bs).1.mul x).1

/-- The elements of a row or column: stored index to value, `pos` giving the logical index. -/
def elements (h : Half') (int : Bool) (bs rec' : List Byte) (pos : Nat → Nat) (n : Nat) : List Val :=
  (upFrom 0 n).map (fun k =>
    if int then Val.ofInt ((nth bs k).getD 0).toInt
    else scaled h rec' (pos k) (h.f.value (elemAt bs h.f.bits k)))

/-- The logical index of a stored element of a sparse operand (R158). -/
def sparsePos (md : List Byte) (k : Nat) : Nat :=
  let nib := elemAt md 4 (k / 2)
  4 * (k / 2) + (if k % 2 = 0 then nib % 4 else nib / 4)

/-! ### Accumulation (R154, R156) -/

/-- The exact sum of finite values, as a numerator over the largest denominator, a power of two. -/
def exactSum (xs : List Val) : Int × Nat :=
  let den := xs.foldl (fun m v => match v with | .fin _ _ d => max m d | _ => m) 1
  (sumInt (xs.map (fun v => match v with | .fin s n d => signedNum s (n * (den / d)) | _ => 0)), den)

/-- The special result of terms, if one of them is not finite. Open points: DEDUCED (log 14). -/
def specialTerms (xs : List Val) : Option W32 :=
  let pos := xs.any (fun v => v.isInf && !v.sign)
  let neg := xs.any (fun v => v.isInf && v.sign)
  if xs.any Val.isNan || (pos && neg) then some 0x7FC00000#32
  else if pos then some 0x7F800000#32
  else if neg then some 0xFF800000#32
  else none

/-- The exact sum of finite values as a value, a zero signed by R90. Open points: DEDUCED (log 14). -/
def sumVal (xs : List Val) : Val :=
  let (n, d) := exactSum xs
  if n = 0 then .fin (xs.all (fun v => v.sign && v.isZero)) 0 1 else .fin (n < 0) n.natAbs d

/-- combine() of R154. -/
def combine (xs : List Val) : W32 :=
  match specialTerms xs with
  | some w => w
  | none => BitVec.ofNat 32 (Fmt.fp32.round .rne (sumVal xs)).1

/-- The compatibility mode of the TXL-9400 (R156). -/
def combineCompat (c : Val) (ps : List Val) : W32 :=
  match specialTerms (c :: ps) with
  | some w => w
  | none =>
    let n := ps.length
    let part (g : Nat) : Val :=
      Fmt.fp32.value (Fmt.fp32.round .rtz (sumVal ((ps.drop (g * n / 8)).take ((g + 1) * n / 8 - g * n / 8)))).1
    let add (r : Nat) (g : Nat) : Nat := (Fmt.fp32.round .rne ((Fmt.fp32.value r).add .rne (part g)).1).1
    BitVec.ofNat 32 ((upFrom 0 8).foldl add (Fmt.fp32.round .rne c).1)

/-- A new element from the old one and the two operands' values for the products, in stored order (R154 to R156). -/
def accumulate (m : MatFmt) (compat : Bool) (c : W32) (as bs : List Val) : W32 :=
  let ps := (as.zip bs).map (fun e => (e.1.mul e.2).1)
  if m.int then BitVec.ofInt 32 (clampInt (c.toInt + (exactSum ps).1) (-(2 ^ 31)) (2 ^ 31 - 1))
  else
    let v := Fmt.fp32.value c.toNat
    if compat then combineCompat v ps else combine (v :: ps)

/-! ### Operands of a multiply (R153, R157, R159) -/

/-- A multiply's operands: formats, dense depth, bytes of a row of A and a column of B, sparsity, addresses. -/
structure MulOp where
  m : MatFmt
  o : Bool
  k : Nat
  aRow : Nat
  bCol : Nat
  spA : Bool
  spB : Bool
  p : Nat
  sa : Nat
  boff : Nat
  bsoff : Nat
  md : Nat
deriving DecidableEq, Repr

/-- The operands of a queued multiply. M is the whole of wm: one with bits [31:19] set, of which R159 lists no failure, fails R159's test
of M. DESIGN CHOICE (log 53). -/
def MulOp.of (fmt : Nat) (o : Bool) (pat : Option Bool) (wa wa1 wb wm : W32) : MulOp :=
  let m := matFmt fmt
  let spA := pat = some false
  let spB := pat = some true
  { m := m, o := o, k := if pat.isSome then 2 * m.k else m.k, aRow := if spB then 2 * m.aRow else m.aRow,
    bCol := if spA then 2 * m.bCol else m.bCol, spA := spA, spB := spB, p := bitsOf wa 18 0, sa := bitsOf wa1 18 0,
    boff := bitsOf wb 15 0, bsoff := bitsOf wb 31 16, md := wm.toNat }

/-- Bytes of the A scale record of a lane. -/
def MulOp.aRec (x : MulOp) : Nat := if x.m.a.scl = 0 then 0 else if x.spA || x.spB then 8 else 4

/-- Bytes of the B scale record of a column. -/
def MulOp.bRec (x : MulOp) : Nat := recBytes x.m.b.scl x.k (x.spA || x.spB)

/-- The failures of R159 for a multiply, beyond the zero bits of its registers. -/
def MulOp.bad (x : MulOp) (scratch share : Nat) : Bool :=
  !aFits scratch x.p (x.aRow / 64)
  || (x.aRec ≠ 0 && (x.sa % x.aRec ≠ 0 || x.sa + 64 * x.aRec > scratch))
  || x.boff % 16 ≠ 0 || x.boff + x.bCol > share
  || (x.bRec ≠ 0 && (x.bsoff + x.bRec > share || (x.m.b.scl = 2 && x.bsoff % 2 ≠ 0)))
  || (x.spA && (x.md % 32 ≠ 0 || x.md + 2048 > scratch))
  || (x.spB && (x.md % 32 ≠ 0 || x.md + x.k / 8 > share))

/-- Bytes of a team's Beam share in a slice (R147, R148). -/
def Team.share (t : Team) : Nat := t.rec'.tiles * ((Config.beamSlice - t.bob) / 8)

/-- Stored elements of an operand. -/
def MulOp.stored (x : MulOp) : Nat := if x.spA || x.spB then x.k / 2 else x.k

/-- Read the row of A of a lane: the values of its stored elements, and where they stand. -/
def State.readRow (s : State) (t : Team) (r : PadReader) (x : MulOp) (i : Nat) : State × List Val × List Nat :=
  let (s, ws) := cellWords t r (aCells x.p x.o i x.aRow) s
  let (s, rec') := if x.aRec = 0 then (s, []) else s.padBytes t r (x.sa + 256 + x.aRec * i) x.aRec
  let (s, md) := if x.spA then s.padBytes t r (x.md + 256 + 32 * i) (x.k / 8) else (s, [])
  let n := if x.spA then x.k / 2 else x.k
  let at' (k : Nat) : Nat := if x.spA then sparsePos md k else k
  (s, elements x.m.a x.m.int (bytesOfWords ws) rec' at' n, (upFrom 0 n).map at')

/-- Read column `n` of B. -/
def State.readCol (s : State) (t : Team) (pos : Nat) (x : MulOp) (n : Nat) : State × List Val × List Nat :=
  let (s, bs) := s.beamBytes t pos n x.boff x.bCol
  let (s, rec') := if x.bRec = 0 then (s, []) else s.beamBytes t pos n x.bsoff x.bRec
  let (s, md) := if x.spB then s.beamBytes t pos n x.md (x.k / 8) else (s, [])
  let c := if x.spB then x.k / 2 else x.k
  let at' (k : Nat) : Nat := if x.spB then sparsePos md k else k
  (s, elements x.m.b x.m.int bs rec' at' c, (upFrom 0 c).map at')

/-- The factors of the products, in stored order. -/
def MulOp.factors (x : MulOp) (row col : List Val × List Nat) : List Val × List Val :=
  let pick (vs : List Val) (ks : List Nat) : List Val := ks.map (fun k => (nth vs k).getD .nan)
  if x.spA then (row.1, pick col.1 row.2) else if x.spB then (pick row.1 col.2, col.1) else (row.1, col.1)

/-- All columns of B. -/
def readCols (t : Team) (pos : Nat) (x : MulOp) : List Nat → State → State × List (Nat × List Val × List Nat)
  | [], s => (s, [])
  | n :: ns, s =>
    let (s, c) := s.readCol t pos x n
    let (s, cs) := readCols t pos x ns s
    (s, (n, c) :: cs)

/-- The tile after the multiply, row by row of the contributing lanes. -/
def mulRows (t : Team) (r : PadReader) (x : MulOp) (cols : List (Nat × List Val × List Nat)) : List Nat → Tbl 32 → State → State × Tbl 32
  | [], tile, s => (s, tile)
  | i :: is, tile, s =>
    let (s, row) := s.readRow t r x i
    let tile := cols.foldl (fun tl c =>
      let f := x.factors row c.2
      Tbl.set tl (128 * i + c.1) (accumulate x.m t.rec'.compat (Tbl.get tl (128 * i + c.1)) f.1 f.2)) tile
    mulRows t r x cols is tile s

/-- Columns of a tile. -/
def tileCols : List Nat := upFrom 0 128

/-! ### Panels (R162) -/

/-- Bytes of a panel element: 4 for .F32, else 2. -/
def panelBytes (fmt : Nat) : Nat := if fmt = 0 then 4 else 2

/-- Squares of a tile's panels. -/
def panelSquares (fmt : Nat) : Nat := 2 * panelBytes fmt

/-- The allocation offset of the cell that holds element (i, n), and the byte within it. -/
def panelCell (fmt p : Nat) (o : Bool) (i n : Nat) : Nat × Nat :=
  let e := 64 / panelBytes fmt
  let b := n % e * panelBytes fmt
  (p + 256 + 4096 * (n / e) + aCell o i (b / 4), b % 4)

/-- The half format of ACCLD and ACCST. -/
def panelFmt (fmt : Nat) : Fmt := if fmt = 1 then Fmt.bf16 else Fmt.fp16

/-- ACCLD's element from its cell. -/
def panelLoad (fmt : Nat) (w : W32) (b : Nat) : W32 :=
  if fmt = 0 then w else BitVec.ofNat 32 (Fmt.fp32.round .rne ((panelFmt fmt).value (bitsOf w (8 * b + 15) (8 * b)))).1

/-- ACCST's bytes. -/
def panelStore (fmt : Nat) (w : W32) : List Byte :=
  if fmt = 0 then bytesOf 4 w.toNat else bytesOf 2 ((panelFmt fmt).round .rne (Fmt.fp32.value w.toNat)).1

/-- Load the rows of the contributing lanes; a cell that holds two elements is read once (R160). -/
def panelRows (t : Team) (r : PadReader) (fmt p : Nat) (o : Bool) : List Nat → Tbl 32 → State → State × Tbl 32
  | [], tile, s => (s, tile)
  | i :: is, tile, s =>
    let cells := tileCols.map (panelCell fmt p o i)
    let keys := sortNat (cells.map Prod.fst)
    let (s, ws) := cellWords t r keys s
    let vals := (cells.map (fun e => panelLoad fmt ((kget e.1 (keys.zip ws)).getD 0) e.2)).zip tileCols
    panelRows t r fmt p o is (vals.foldl (fun tl e => Tbl.set tl (128 * i + e.2) e.1) tile) s

/-! ### Performing a tile operation -/

/-- Replace a tile. -/
def Team.setTile (t : Team) (mt : Nat) (x : Tbl 32) : Team := { t with tiles := updNth (fun _ => x) t.tiles mt }

/-- Tile `mt` of a team. -/
def Team.tile (t : Team) (mt : Nat) : Tbl 32 := (nth t.tiles mt).getD []

/-- The reads of a tile operation. -/
def TileJob.reader (j : TileJob) : PadReader := { pos := j.sPos, idx := j.group.idx, seq := j.seq, tile := true }

/-- The bytes of a cell that an ACCST stores for a contributing lane's element, at allocation offsets. -/
def accBytes (tile : Tbl 32) (fmt p : Nat) (o : Bool) (i n : Nat) : List (Nat × Byte) :=
  let c := panelCell fmt p o i n
  let bs := panelStore fmt (Tbl.get tile (128 * i + n))
  (upFrom (c.1 + c.2) bs.length).zip bs

/-- An ACCST writes bytes of the scratchpad, in its group's issue order (R145). -/
def State.accStore (s : State) (j : TileJob) (bytes : List (Nat × Byte)) : State :=
  s.scratchStore j.group.team { idx := some j.group.idx, seq := j.seq, tile := true } bytes

/-- A multiply on a team's tile. -/
def State.doMul (s : State) (t : Team) (j : TileJob) (mt : Nat) (x : MulOp) : State :=
  let lanes := lanesOf j.mask
  if lanes.isEmpty then s
  else
    let (s, cols) := readCols t j.bPos x tileCols s
    let (s, tile) := mulRows t j.reader x cols lanes (t.tile mt) s
    s.updTeam t.key (fun t => t.setTile mt tile)

/-- A tile operation is performed (R145). -/
def State.doTile (s : State) (j : TileJob) : State :=
  match s.team? j.group.team with
  | none => s
  | some t =>
    let lanes := lanesOf j.mask
    match j.kind with
    | .mma mt fmt o wa wa1 wb => s.doMul t j mt (MulOp.of fmt o none wa wa1 wb 0)
    | .mmas mt fmt o patB wa wa1 wb wm => s.doMul t j mt (MulOp.of fmt o (some patB) wa wa1 wb wm)
    | .accld mt fmt o wa =>
      let (s, tile) := panelRows t j.reader fmt (bitsOf wa 18 0) o lanes (t.tile mt) s
      s.updTeam t.key (fun t => t.setTile mt tile)
    | .accst mt fmt o wa =>
      let bytes (i : Nat) : List (Nat × Byte) := tileCols.flatMap (accBytes (t.tile mt) fmt (bitsOf wa 18 0) o i)
      lanes.foldl (fun s i => s.accStore j ((bytes i).filter (fun b => !j.stored.contains (b.1 / 4 * 4)))) s
    | .mzero mt =>
      s.updTeam t.key (fun t => t.setTile mt ((t.tile mt).filter (fun e => !lanes.contains (e.1 / 128))))

/-! ### Issue (R145, R146, R159) -/

/-- Queue a tile operation, checked first; a full matrix queue holds it. Open points: DEDUCED (log 24). -/
def tileIssue (sh : Shape) (bad : Iss → Bool) (kind : Iss → TileKind) (s : State) : Host.Outcome State Fault Refusal :=
  issue s { sh with noHandler := true } (fun is =>
    if bad is then Eff.trap s is Causes.matrixOperand
    else if (s.core is.core).tiles.length ≥ Config.matrixQueue then .hold s
    else
      let job : TileJob :=
        { group := is.key, op := is.g.seq, seq := is.g.seq, kind := kind is, mask := maskOf is.lanes,
          stored := [], sPos := is.team.slog.length, bPos := is.team.blog.length }
      .go ((s.bulkAdd is true).updCore is.core (fun c => { c with tiles := c.tiles ++ [job] })))

/-- A word of a w operand at issue. -/
def Iss.w (is : Iss) (o : Opnd) (k : Nat) : W32 := is.g.src Lane.blank .int o k

/-- Registers that A names: a pair for a scaled-A format. -/
def aRegs (fmt : BitVec 4) : Nat := if fmt.toNat ≥ 9 then 2 else 1

/-- The second register of A, read for a scaled-A format. -/
def Iss.wa1 (is : Iss) (fmt : BitVec 4) (a : Opnd) : W32 := if fmt.toNat ≥ 9 then is.w a 1 else 0

/-- The failures of a multiply at issue. Open points: DEDUCED (log 24). -/
def Iss.mulBad (is : Iss) (fmt : BitVec 4) (x : MulOp) (wa wa1 : W32) : Bool :=
  bitsOf wa 31 19 ≠ 0 || (fmt.toNat ≥ 9 && bitsOf wa1 31 19 ≠ 0) || x.bad is.team.rec'.scratch is.team.share

/-- MMA. -/
def execMma (mt : BitVec 3) (o : Bool) (fmt : BitVec 4) (d a : Opnd) (s : State) : Host.Outcome State Fault Refusal :=
  let n := aRegs fmt
  tileIssue { slots := [Slot.s a Kinds.wOnly n n, Slot.s d Kinds.wOnly 1 1], tile := some mt.toNat,
              fn := if fmt = 15 then some Causes.unassignedFn else none }
    (fun is => is.mulBad fmt (MulOp.of fmt.toNat o none (is.w a 0) (is.wa1 fmt a) (is.w d 0) 0) (is.w a 0) (is.wa1 fmt a))
    (fun is => .mma mt.toNat fmt.toNat o (is.w a 0) (is.wa1 fmt a) (is.w d 0)) s

/-- MMAS. -/
def execMmas (mt : BitVec 3) (o : Bool) (fmt : BitVec 4) (d a : Opnd) (pat : BitVec 2) (c : Opnd) (s : State) :
    Host.Outcome State Fault Refusal :=
  let n := aRegs fmt
  tileIssue { slots := [Slot.s a Kinds.wOnly n n, Slot.s d Kinds.wOnly 1 1, Slot.s c Kinds.wOnly 1 1], tile := some mt.toNat,
              fn := if fmt = 15 || pat.toNat > 1 then some Causes.unassignedFn else none }
    (fun is => is.mulBad fmt (MulOp.of fmt.toNat o (some (pat = 1)) (is.w a 0) (is.wa1 fmt a) (is.w d 0) (is.w c 0))
      (is.w a 0) (is.wa1 fmt a))
    (fun is => .mmas mt.toNat fmt.toNat o (pat = 1) (is.w a 0) (is.wa1 fmt a) (is.w d 0) (is.w c 0)) s

/-- The form of ACCLD and ACCST. -/
def panelShape (mt : BitVec 3) (fmt : BitVec 4) (a : Opnd) : Shape :=
  { slots := [Slot.s a Kinds.wOnly 1 1], tile := some mt.toNat, fn := if fmt.toNat > 2 then some Causes.unassignedFn else none }

/-- A tile's panels break R159. Open points: DEDUCED (log 24). -/
def Iss.panelBad (is : Iss) (fmt : BitVec 4) (a : Opnd) : Bool :=
  bitsOf (is.w a 0) 31 19 ≠ 0 || !aFits is.team.rec'.scratch (bitsOf (is.w a 0) 18 0) (panelSquares fmt.toNat)

/-- ACCLD. -/
def execAccld (mt : BitVec 3) (o : Bool) (fmt : BitVec 4) (a : Opnd) (s : State) : Host.Outcome State Fault Refusal :=
  tileIssue (panelShape mt fmt a) (fun is => is.panelBad fmt a) (fun is => .accld mt.toNat fmt.toNat o (is.w a 0)) s

/-- ACCST. -/
def execAccst (mt : BitVec 3) (o : Bool) (fmt : BitVec 4) (a : Opnd) (s : State) : Host.Outcome State Fault Refusal :=
  tileIssue (panelShape mt fmt a) (fun is => is.panelBad fmt a) (fun is => .accst mt.toNat fmt.toNat o (is.w a 0)) s

/-- MZERO. -/
def execMzero (mt : BitVec 3) (s : State) : Host.Outcome State Fault Refusal :=
  tileIssue { slots := [], tile := some mt.toNat } (fun _ => false) (fun _ => .mzero mt.toNat) s

/-! ### The array (R146, R166; 14 R321) -/

/-- The tile operation at the head of a core's matrix queue, once the group's stores before it have been performed (R160;
13 R309). -/
def State.arrayHead (s : State) (c : CoreKey) : State × Option TileJob :=
  match (s.core c).tiles with
  | [] => (s, none)
  | j :: _ =>
    match s.storesBefore j.group c j.seq with
    | (s, true) => (s, some j)
    | (s, false) => (s, none)

/-- The set of a tile on a core's Bobbin, once it has been fetched. -/
def Core.setOf (x : Core) (t : HTile) : Option BobSet :=
  x.sets.find? (fun b => b.part = t.part && b.handle = t.handle && b.ready)

/-- The cores of a cluster. -/
def clusterCores (c : ClusterKey) : List CoreKey := (upFrom (4 * c.cluster) 4).map (fun k => { die := c.die, core := k })

/-- When a launch's first team was placed. -/
def State.launchStart (s : State) (l : Nat) : Nat := (minBy (fun n => n) ((s.teams.filter (fun t => t.launch = l)).map (fun t => t.placed))).getD 0

/-- Whether a copy may serve the calls of launches: under a shared key always, else only when it was filled after they began
(R267). -/
def State.usable (s : State) (b : BobSet) (launches : List Nat) : Bool :=
  (b.key ≠ 0 || launches.all (fun l => s.launchStart l < b.filler))

/-- The launches that have a call in a tile. -/
def State.callLaunches (s : State) (cs : List Call) : List Nat :=
  sortNat (cs.filterMap (fun c => (s.team? c.group.team).map (fun t => t.launch)))

/-- The core of a cluster whose Bobbin holds a usable copy of a set. -/
def State.holder (s : State) (c : ClusterKey) (part : Nat) (h : Addr) (launches : List Nat) : Option CoreKey :=
  (clusterCores c).find? (fun k => (s.core k).sets.any (fun b => b.part = part && b.handle = h && s.usable b launches))

/-- Whether a tile that has no core yet will run on a core, whose Bobbin holds its set. -/
def State.comesTo (s : State) (c : CoreKey) (t : HTile) : Bool :=
  t.core.isNone && s.holder (clusterOf c) t.part t.handle (s.callLaunches t.calls) = some c

/-- The Heddle's tile on a core: the one it runs, or the first in queue order whose set is resident (14 R320); none while an earlier tile
that is to run on the core has not been given it. -/
def State.heddleTile (s : State) (c : CoreKey) : Option (Nat × HTile) :=
  let ts := (mapIdx (fun i t => (i, t)) (s.cluster (clusterOf c)).tiles 0).filter (fun e =>
    (e.2.core = some c.core || s.comesTo c e.2) && e.2.parked.isNone && ((s.core c).setOf e.2).isSome)
  match ts.find? (fun e => e.2.step ≠ 0) with
  | some e => some e
  | none => ts.head?.filter (fun e => e.2.core.isSome)

/-- Whether the wheel's slot belongs to the Heddle at weight `w` (14 R321). -/
def wheelOwns (w slot : Nat) : Bool := decide ((slot + 1) * w / 16 > slot * w / 16)

/-- The Heddle's weight on a core: that of the partition whose tile is at work there. -/
def State.heddleWeight (s : State) (t : HTile) : Nat := ((s.part? t.part).map (fun p => p.hw)).getD 0

/-- Whether the array's next operation is the Heddle's: its slot of the wheel, or one whose owner has nothing ready (14 R321). -/
def State.heddleTurn (s : State) (c : CoreKey) : Bool :=
  match s.heddleTile c with
  | none => false
  | some (_, t) => wheelOwns (s.heddleWeight t) (s.core c).wheel || (s.arrayHead c).2.isNone

/-- The wheel moves to its next slot. -/
def State.turnWheel (s : State) (c : CoreKey) : State := s.updCore c (fun x => { x with wheel := (x.wheel + 1) % 16 })

/-- ARRAY_OPERATION: the array performs the operation at the head of the matrix queue, unless it waits for its group's stores or the
wheel's slot is the Heddle's (R145, R160; 13 R309; 14 R321). -/
def execArrayOperation (c : CoreKey) (s : State) : Host.Outcome State Fault Refusal :=
  if s.heddleTurn c then .next s
  else
    match s.arrayHead c with
    | (_, none) => .next s
    | (s, some j) =>
      .next ((((s.doTile j).updCore c (fun x => { x with tiles := x.tiles.tail })).turnWheel c).bulkDone j.group j.op false)

/-- A cell of the ACCST at the head of the queue is stored before the others, so that a load that does not await it may find the old or
the new value of each cell (R160). Open points: DESIGN CHOICE (log 8). -/
def State.tileCell (s : State) (c : CoreKey) (cell : Nat) : State :=
  match s.arrayHead c with
  | (_, none) => s
  | (s, some j) =>
    match j.kind, s.team? j.group.team with
    | .accst mt fmt o wa, some t =>
      if j.stored.contains cell then s
      else
        let bytes := ((lanesOf j.mask).flatMap (fun i => tileCols.flatMap (accBytes (t.tile mt) fmt (bitsOf wa 18 0) o i))).filter
          (fun b => b.1 / 4 * 4 = cell)
        if bytes.isEmpty then s
        else (s.accStore j bytes).updCore c (fun x => { x with tiles := updNth (fun y => { y with stored := cell :: y.stored }) x.tiles 0 })
    | _, _ => s

end Sys2Proof.Machine
end

