-- ==== Sys2Proof/Machine/Shuttle.lean ====
section
/-! DEFINITION. The Shuttle: shape records, conversions, the copies CPT, CPB and CPS, GWIN, TRQ and transform bindings
(10 R242 to R250; 06 R163 to R165; 02 R52). -/

namespace Sys2Proof.Machine

/-! ### Tensor shape records (R243, R244, R248) -/

structure ShapeRec where
  ndim : Nat
  efmt : Nat
  blk : Nat
  scl : Nat
  base : Nat
  size : List Nat
  stride : List Int
  sca : Nat
  aux : Nat
  fold : Nat
deriving DecidableEq, Repr

/-- An address held in two words, bits [51:0]. -/
def addrWords (ws : List W32) (k : Nat) : Nat := ((nth ws k).getD 0).toNat + 2 ^ 32 * bitsOf ((nth ws (k + 1)).getD 0) 19 0

/-- The fields of a record of 32 words; absent sizes are 1. -/
def ShapeRec.ofWords (ws : List W32) : ShapeRec :=
  let w (k : Nat) : W32 := (nth ws k).getD 0
  let nd := bitsOf (w 0) 10 8
  { ndim := nd, efmt := bitsOf (w 0) 15 12, blk := bitsOf (w 0) 18 16, scl := bitsOf (w 0) 20 19, base := addrWords ws 2,
    size := (upFrom 0 5).map (fun d => if d < nd then (w (4 + 2 * d)).toNat else 1),
    stride := (upFrom 0 5).map (fun d => (w (5 + 2 * d)).toInt), sca := addrWords ws 14, aux := addrWords ws 16,
    fold := addrWords ws 18 }

/-- The failures that raise the shape-record cause. -/
def shapeBad (ws : List W32) : Bool :=
  let w (k : Nat) : W32 := (nth ws k).getD 0
  let r := ShapeRec.ofWords ws
  let hiBad (k : Nat) : Bool := bitsOf (w k) 31 20 ≠ 0
  bitsOf (w 0) 7 0 ≠ 1 || (w 0).getLsbD 11 || bitsOf (w 0) 31 21 ≠ 0 || w 1 ≠ 0 || hiBad 3 || hiBad 15 || hiBad 17 || hiBad 19
  || (upFrom 20 12).any (fun k => w k ≠ 0) || r.ndim = 0 || r.ndim > 5
  || (upFrom 0 5).any (fun d => if d < r.ndim then w (4 + 2 * d) = 0 || (d = 0 && w 5 ≠ 0) else w (4 + 2 * d) ≠ 0 || w (5 + 2 * d) ≠ 0)
  || r.efmt = 6 || r.efmt = 7 || r.scl = 3
  || (r.scl = 1 && !(r.efmt = 3 || r.efmt = 4 || r.efmt = 5)) || (r.scl = 2 && (r.efmt ≠ 5 || r.blk ≠ 0))
  || r.blk ≥ r.ndim || (r.blk ≠ 0 && r.scl = 0)

/-- Element width of a format code (R127). -/
def codeBits (c : Nat) : Nat := if c < 8 then (cvtFmt c).bits else cvtIntBits c

/-- Size along a dimension. -/
def ShapeRec.sz (r : ShapeRec) (d : Nat) : Nat := (nth r.size d).getD 1

/-- Rows of the tensor. -/
def ShapeRec.rows (r : ShapeRec) : Nat := r.sz 1 * r.sz 2 * r.sz 3 * r.sz 4

/-- Index along dimension `d ≥ 1` of a row. -/
def ShapeRec.idx (r : ShapeRec) (row d : Nat) : Nat :=
  match d with
  | 1 => row % r.sz 1
  | 2 => row / r.sz 1 % r.sz 2
  | 3 => row / (r.sz 1 * r.sz 2) % r.sz 3
  | _ => row / (r.sz 1 * r.sz 2 * r.sz 3)

/-- A signed exact address as the accesses take it: one outside 52 bits stays outside (09 R424). -/
def exactAddr (x : Int) : Nat := if 0 ≤ x && x < 2 ^ 52 then x.toNat else 2 ^ 52 + (x % 2 ^ 52).toNat

/-- Address of the first element of a row. -/
def ShapeRec.rowAddr (r : ShapeRec) (row : Nat) : Int :=
  (r.base : Int) + sumInt ((upFrom 1 4).map (fun d => (r.idx row d : Int) * (nth r.stride d).getD 0))

/-- Blocks of 32 along the blocking dimension, other dimensions unchanged. -/
def ShapeRec.bsz (r : ShapeRec) (d : Nat) : Nat := if d = r.blk then (r.sz d + 31) / 32 else r.sz d

/-- Bytes of the MX scale array. -/
def ShapeRec.scales (r : ShapeRec) : Nat := r.bsz 0 * r.bsz 1 * r.bsz 2 * r.bsz 3 * r.bsz 4

/-- Position of the MX scale of element `k` of a row (R244). -/
def ShapeRec.mxIndex (r : ShapeRec) (row k : Nat) : Nat :=
  let i (d : Nat) : Nat := let x := if d = 0 then k else r.idx row d; if d = r.blk then x / 32 else x
  i 0 + r.bsz 0 * (i 1 + r.bsz 1 * (i 2 + r.bsz 2 * (i 3 + r.bsz 3 * i 4)))

/-! ### Control words (R245) -/

structure CopyCtl where
  dir : Nat
  spa : Nat
  o : Bool
  lay : Bool
  kind : Nat
  sfmt : Nat
  ssc : Nat
  boff : Nat
  bsoff : Nat
deriving DecidableEq, Repr

def CopyCtl.of (c : CopyOp) : CopyCtl :=
  { dir := c.dir, spa := bitsOf c.wc 18 0, o := c.wc.getLsbD 19, lay := c.wc.getLsbD 20,
    kind := if c.dir = 1 then bitsOf c.wc1 24 21 else bitsOf c.wc 24 21, sfmt := bitsOf c.wc 28 25, ssc := bitsOf c.wc1 18 0,
    boff := bitsOf c.wc 15 0, bsoff := bitsOf c.wc 31 16 }

/-- Control bits that are reserved or must be zero (R245, R248). -/
def ctlReserved (c : CopyOp) : Bool :=
  if c.dir = 1 then bitsOf c.wc1 20 0 ≠ 0 || bitsOf c.wc1 31 25 ≠ 0
  else bitsOf c.wc 31 29 ≠ 0 || (c.dir = 0 && bitsOf c.wc 28 25 ≠ 0) || bitsOf c.wc1 31 19 ≠ 0

/-! ### Conversions (R246) -/

/-- Whether a code is FP32, FP16 or BF16. -/
def wideFp (c : Nat) : Bool := c < 3

/-- Output format code of a kind, the source's for kind 0. -/
def outCode (kind src : Nat) : Nat :=
  match kind with
  | 0 => src | 1 => 2 | 2 => 0 | 3 => 3 | 4 => 4 | 5 => 5 | 6 => 3 | 7 => 4 | _ => 5

/-- Scales of the output: 0 none, 1 MX, 2 TL4. -/
def outScl (kind srcScl : Nat) : Nat :=
  if kind = 0 then srcScl else if 3 ≤ kind && kind ≤ 5 then 1 else if kind = 8 then 2 else 0

/-- Whether a kind is allowed for a direction and a record (R246). -/
def kindAllowed (x : CopyCtl) (r : ShapeRec) : Bool :=
  if x.dir = 2 then
    match x.kind with
    | 0 => x.sfmt = r.efmt && r.scl = 0
    | 3 | 4 | 5 => wideFp x.sfmt && r.efmt = outCode x.kind 0 && r.scl = 1 && r.blk = 0
    | 6 | 7 => wideFp x.sfmt && r.efmt = outCode x.kind 0 && r.scl = 0
    | 8 => wideFp x.sfmt && r.efmt = 5 && r.scl = 2
    | _ => false
  else
    match x.kind with
    | 0 => true
    | 1 | 2 => r.efmt < 6
    | 3 | 4 | 5 | 6 | 7 | 8 => wideFp r.efmt && r.scl = 0
    | _ => false

/-- Source format code. -/
def CopyCtl.src (x : CopyCtl) (r : ShapeRec) : Nat := if x.dir = 2 then x.sfmt else r.efmt

/-- Bits of an output element. -/
def CopyCtl.outBits (x : CopyCtl) (r : ShapeRec) : Nat := codeBits (outCode x.kind (x.src r))

/-- Bits of the elements on the scratchpad or Beam side. -/
def CopyCtl.padBits (x : CopyCtl) (r : ShapeRec) : Nat := if x.dir = 2 then codeBits x.sfmt else x.outBits r

/-- L: bytes of a row on that side (R247). -/
def CopyCtl.rowBytes (x : CopyCtl) (r : ShapeRec) : Nat := ((r.sz 0 * x.padBits r + 7) / 8 + 3) / 4 * 4

/-- Scales that the scratchpad or Beam side holds: none for CPS. -/
def CopyCtl.padScl (x : CopyCtl) (r : ShapeRec) : Nat := if x.dir = 2 then 0 else outScl x.kind r.scl

/-- Whether the scale bytes are one dense array (R247). -/
def CopyCtl.dense (x : CopyCtl) (r : ShapeRec) : Bool := x.dir ≠ 2 && x.kind = 0 && r.scl = 1 && r.blk ≠ 0

/-- Blocks of a row. -/
def blocksOf (scl n : Nat) : Nat := if scl = 2 then (n + 63) / 64 else (n + 31) / 32

/-- RB: bytes of a row's scale record in LAY 0. -/
def recRow (scl nb : Nat) : Nat := if scl = 2 then 4 * ((nb + 2 + 3) / 4) else 4 * ((nb + 3) / 4)

/-- The end of the bytes that LAY 1 touches: the squares before the last, and in the last one those of the lanes of the last rows. -/
def lay1End (rows squares square : Nat) (lane : Nat → Nat) : Nat :=
  square * (((rows - 1) / 64 + 1) * squares - 1) + (upFrom 0 ((rows - 1) % 64 + 1)).foldl (fun m i => max m (lane i)) 0

/-- The end of the element bytes that a copy touches after SPA; then of its scale bytes after SSC. -/
def CopyCtl.padEnd (x : CopyCtl) (r : ShapeRec) : Nat :=
  let l := x.rowBytes r
  if x.lay then lay1End r.rows (l / 64) 4096 (fun i => aCell x.o i 15 + 4) else r.rows * l

def CopyCtl.sscBytes (x : CopyCtl) (r : ShapeRec) : Nat :=
  let l := x.rowBytes r
  if x.padScl r = 0 then 0
  else if x.dense r then r.scales
  else if x.lay then lay1End r.rows (l / 64) 256 (fun i => 4 * (i + 1))
  else r.rows * recRow (x.padScl r) (blocksOf (x.padScl r) (r.sz 0))

/-- Scale bytes of a Beam column. -/
def CopyCtl.beamScale (x : CopyCtl) (r : ShapeRec) : Nat :=
  match x.padScl r with | 0 => 0 | 1 => blocksOf 1 (r.sz 0) | _ => 4

/-- The failures that raise the copy-operand cause (R248). -/
def copyBad (x : CopyCtl) (r : ShapeRec) (t : Team) : Bool :=
  let l := x.rowBytes r
  let scratch := t.rec'.scratch
  !kindAllowed x r
  || (if x.dir = 1 then
        r.rows > 128 || x.boff % 16 ≠ 0 || x.boff + l > t.share || x.bsoff + x.beamScale r > t.share && x.beamScale r ≠ 0
        || x.dense r || (x.padScl r = 2 && r.sz 0 ≠ 128)
      else
        (x.lay && (l % 64 ≠ 0 || x.dense r || x.spa < 3840 || (x.spa + 256) % 4096 ≠ 0))
        || x.spa + x.padEnd r > scratch
        || (x.padScl r ≠ 0 && (x.ssc % (if x.lay then 256 else 4) ≠ 0 || x.ssc + x.sscBytes r > scratch)))

/-! ### One row -/

/-- Elements packed by R87. -/
def packElems (b : Nat) (xs : List Nat) : List Byte :=
  bytesOf ((xs.length * b + 7) / 8) (xs.reverse.foldl (fun acc x => acc * 2 ^ b + x % 2 ^ b) 0)

/-- Convert the values of a row: kind, present scale P, TL4 row scale S (R246). -/
def convertRow (kind p s : Nat) (xs : List Val) : RowOut :=
  let plain (f : Fmt) : RowOut := { data := packElems f.bits (xs.map (fun v => (f.round .rne v).1)), codes := [], s := 0, max := 0 }
  let mx (f : Fmt) : RowOut :=
    let bs := (chunks 32 xs.length xs).map (fun b => mxBlock f b b)
    { data := packElems f.bits (bs.flatMap (fun b => b.2)), codes := bs.map (fun b => b.1), s := 0, max := 0 }
  let fall (f : Fmt) : RowOut := { data := packElems 8 (xs.map (fallback f p)), codes := [], s := 0, max := foldMax xs }
  match kind with
  | 1 => plain Fmt.bf16
  | 2 => plain Fmt.fp32
  | 3 => mx Fmt.e4m3
  | 4 => mx Fmt.e5m2
  | 5 => mx Fmt.e2m1
  | 6 => fall Fmt.e4m3
  | 7 => fall Fmt.e5m2
  | _ =>
    let r := tl4Row s xs
    { data := packElems 4 r.2.2, codes := r.2.1, s := r.1, max := 0 }

/-- `n` source words of an engine: zeros under return zero, poison words under return poison (R249), unless it stops at them (02 R52);
what a window gathers is read once for a line (09 R215). -/
def srcRun (r : Reader) (buf : PeerBuf) (memo : Memo) (va : Nat) : Nat → Eng (List W32)
  | 0 => pure []
  | n + 1 => fun s =>
    let rest (w : W32) (memo : Memo) : Eng (List W32) := do
      let ws ← srcRun r buf memo (va + 4) n
      pure (w :: ws)
    match readStep r buf (if va % 128 = 0 then [] else memo) va s with
    | (s, memo, .ok w) => rest w memo s
    | (s, memo, .error (.fault a pol absent)) =>
      if r.strict then .error (.fault a pol absent) s
      else if pol = 1 then rest 0 memo s
      else if pol = 2 then rest poisonWord memo s
      else .error (.fault a pol absent) s
    | (s, _, .error e) => .error e s

/-- `n` source words from a word-aligned address. -/
def srcWords (r : Reader) (buf : PeerBuf) (va n : Nat) : Eng (List W32) := srcRun r buf [] va n

/-- `n` source bytes at an exact address. -/
def srcBytes (r : Reader) (buf : PeerBuf) (a : Int) (n : Nat) : Eng (List Byte) := do
  if n = 0 then pure []
  else
    let va := exactAddr a
    let lo := va / 4 * 4
    let ws ← srcWords r buf lo ((va + n + 3 - lo) / 4)
    pure (((bytesOfWords ws).drop (va - lo)).take n)

/-- The MX scale bytes that elements `lo` to `hi` of a row need, as (position, byte). -/
def mxScaleBytes (r : Reader) (buf : PeerBuf) (x : ShapeRec) (row lo hi : Nat) : Eng (List (Nat × Byte)) :=
  let ks := sortNat ((upFrom lo (hi - lo)).map (x.mxIndex row))
  ks.foldlM (fun (acc : List (Nat × Byte)) (k : Nat) => do
    let b ← srcBytes r buf ((x.sca : Int) + k) 1
    pure (acc ++ [(k, (nth b 0).getD 0)])) []

/-- Read elements `lo` to `hi` of a global source row (CPT, CPB, bindings) and convert them; `lo` begins a block and a byte. -/
def readGlobalRow (r : Reader) (buf : PeerBuf) (x : ShapeRec) (kind p row lo hi : Nat) : Eng RowOut := do
  let b := codeBits x.efmt
  let n := hi - lo
  let bs ← srcBytes r buf (x.rowAddr row + (lo * b / 8 : Nat)) ((n * b + 7) / 8)
  let tl4 : List Byte × List Byte ←
    if x.scl = 2 then do
      let c ← srcBytes r buf ((x.sca : Int) + row * blocksOf 2 (x.sz 0) + (lo / 64 : Nat)) ((hi + 63) / 64 - lo / 64)
      let s ← srcBytes r buf ((x.aux : Int) + 2 * row) 2
      pure (c, s)
    else pure ([], [])
  let mx ← if x.scl = 1 && (kind ≠ 0 || x.blk = 0) then mxScaleBytes r buf x row lo hi else pure []
  if kind = 0 then
    let codes : List Nat := if x.scl = 1 then mx.map (fun e => e.2.toNat) else tl4.1.map BitVec.toNat
    let pack := packElems b ((upFrom 0 n).map (elemAt bs b))
    pure { data := pack, codes := codes, s := ofBytes tl4.2, max := 0 }
  else
    let f := cvtFmt x.efmt
    let val (k : Nat) : Val :=
      let v := f.value (elemAt bs b k)
      if x.scl = 1 then ((e8m0 ((kget (x.mxIndex row (lo + k)) mx).getD 0).toNat).mul v).1
      else if x.scl = 2 then
        (((Fmt.bf16.value (ofBytes tl4.2)).mul (Fmt.e5m3.value ((nth tl4.1 ((lo + k) / 64 - lo / 64)).getD 0).toNat)).1.mul v).1
      else v
    let s8 ← if kind = 8 then srcBytes r buf ((x.aux : Int) + 2 * row) 2 else pure []
    pure (convertRow kind p (ofBytes s8) ((upFrom 0 n).map val))

/-- The program offsets of a row's words on the scratchpad side (R247). -/
def padCells (x : CopyCtl) (l row : Nat) : List Nat :=
  (upFrom 0 (l / 4)).map (fun w =>
    256 + x.spa + (if x.lay then 4096 * (row / 64 * (l / 64)) + aCell x.o (row % 64) w else row * l + 4 * w))

/-- Elements of a block that a scale of the scratchpad or Beam side serves. -/
def blockElems (scl : Nat) : Nat := if scl = 2 then 64 else 32

/-- A row's scale record on the scratchpad side, as bytes at allocation offsets: the codes of the blocks of elements `lo` to `hi`, and the
bytes that are no code once the row ends. -/
def padRecord (x : CopyCtl) (r : ShapeRec) (l row lo hi : Nat) (codes : List Nat) (s : Nat) : List (Nat × Byte) :=
  let scl := x.padScl r
  let nb := blocksOf scl (r.sz 0)
  let first := lo / blockElems scl
  let code (k : Nat) : Option Byte := if k < first then none else (nth codes (k - first)).map (BitVec.ofNat 8)
  let other (b : Byte) : Option Byte := if hi = r.sz 0 then some b else none
  let put (a : Nat) (bs : List (Option Byte)) : List (Nat × Byte) :=
    ((upFrom a bs.length).zip bs).filterMap (fun e => e.2.map (fun b => (e.1, b)))
  if scl = 0 || x.dense r then []
  else if x.lay then
    (upFrom 0 (l / 64)).flatMap (fun sq =>
      let bc := if x.outBits r = 8 then 2 else 4
      put (256 + x.ssc + 256 * (row / 64 * (l / 64) + sq) + 4 * (row % 64))
        (if scl = 2 then [code (2 * sq), code (2 * sq + 1)] ++ (bytesOf 2 s).map other
         else (upFrom 0 4).map (fun j => if j < bc && sq * bc + j < nb then code (sq * bc + j) else other 0)))
  else
    let rb := recRow scl nb
    put (256 + x.ssc + row * rb) ((upFrom 0 rb).map (fun j =>
      if j < nb then code j else other (if scl = 2 && j ≥ rb - 2 then BitVec.ofNat 8 (s / 2 ^ (8 * (j - (rb - 2)))) else 0)))

/-- Bytes of a list padded with zeros to a length. -/
def padTo (n : Nat) (bs : List Byte) : List Byte := bs ++ List.replicate (n - bs.length) 0

/-- Put converted elements `lo` to `hi` of a row on the scratchpad or Beam side, with the bytes that end the row after its last; gives
the bytes of a whole row with its scales. -/
def State.putRow (s : State) (t : Team) (x : CopyCtl) (r : ShapeRec) (row lo hi : Nat) (o : RowOut) : State × Nat :=
  let l := x.rowBytes r
  let off := lo * x.outBits r / 8
  let bs := if hi = r.sz 0 then padTo (l - off) o.data else o.data
  if x.dir = 1 then
    let first := lo / blockElems (x.padScl r)
    let codes : List Byte := if x.padScl r = 0 then [] else o.codes.map (fun c => BitVec.ofNat 8 c)
    let sc : List Byte := codes ++ (if x.padScl r = 2 && hi = r.sz 0 then bytesOf 2 o.s else [])
    (s.updTeam t.key (fun t => (t.beamStore row (x.boff + off) bs).beamStore row (x.bsoff + first) sc), l + x.beamScale r)
  else
    let cells := (padCells x l row).flatMap (fun a => upFrom a 4)
    (s.scratchStore t.key Writer.copy ((cells.drop off).zip bs ++ padRecord x r l row lo hi o.codes o.s),
      l + (padRecord x r l row 0 (r.sz 0) (List.replicate (blocksOf (x.padScl r) (r.sz 0)) 0) 0).length)

/-! ### CPS (R246, R247) -/

/-- Read a scratchpad source row of CPS and convert it. -/
def readPadRow (t : Team) (pr : PadReader) (rd : Reader) (buf : PeerBuf) (x : CopyCtl) (r : ShapeRec) (p row : Nat) : Eng RowOut := do
  let l := x.rowBytes r
  let ws ← (fun s => match cellWords t pr (padCells x l row) s with | (s, ws) => .ok ws s : Eng (List W32))
  let bs := bytesOfWords ws
  let b := codeBits x.sfmt
  if x.kind = 0 then pure { data := packElems b ((upFrom 0 (r.sz 0)).map (elemAt bs b)), codes := [], s := 0, max := 0 }
  else
    let s8 ← if x.kind = 8 then srcBytes rd buf ((r.aux : Int) + 2 * row) 2 else pure []
    pure (convertRow x.kind p (ofBytes s8) ((upFrom 0 (r.sz 0)).map (fun k => (cvtFmt x.sfmt).value (elemAt bs b k))))

/-- Bytes at an exact address cut into the parts of 4-byte words. -/
def wordParts (a : Int) : List Byte → Nat → List (Nat × List Byte)
  | _, 0 => []
  | bs, n + 1 =>
    if bs.isEmpty then []
    else
      let k := 4 - (a % 4).toNat
      (exactAddr a, bs.take k) :: wordParts (a + k) (bs.drop k) n

/-- The word writes of a row of CPS: elements, block scales, row scale (R244). -/
def globalWrites (r : ShapeRec) (row : Nat) (o : RowOut) : List (Nat × List Byte) :=
  let parts (a : Int) (bs : List Byte) := wordParts a bs (bs.length + 1)
  let nb := blocksOf r.scl (r.sz 0)
  parts (r.rowAddr row) o.data
  ++ (if r.scl = 0 then [] else parts ((r.sca : Int) + row * nb) (o.codes.map (fun c => BitVec.ofNat 8 c)))
  ++ (if r.scl = 2 then parts ((r.aux : Int) + 2 * row) (bytesOf 2 o.s) else [])

/-- What an engine's write of one word comes to. -/
inductive Wrote where
  | done
  | stop (e : EngStop)
deriving DecidableEq, Repr

/-- Write bytes of one word for an engine; dropped under return zero and return poison (R249). A word of memory
is on its way to its home, behind the stores of the issuing group's core; that core's L1 fetches it again once the group has waited (10
R241, 11 R265). Open points: DEDUCED (log 17). -/
def State.engWrite (s : State) (r : Reader) (g : GroupKey) (buf : PeerBuf) (va : Nat) (bs : List Byte) : State × Wrote :=
  let fault (pol : Nat) (absent : Bool) : Wrote := if pol = 1 || pol = 2 then .done else .stop (.fault va pol absent)
  match r.faultAt va true with
  | some { fault := some (pol, absent), .. } => (s, fault pol absent)
  | some { fault := none, .. } => (s, .stop (.error va))
  | none =>
  match s.access r.pt r.part .wr va with
  | (s, .error) => (s, .stop (.error va))
  | (s, .fault pol absent) => (s, fault pol absent)
  | (s, .ok (.mem key home owner _)) =>
    (match s.coreOf g with
     | some c => (s.updCore c (fun x => { x with flights := x.flights ++ [.bytes g key bs owner home] })).stain c g key bs.length
     | none => s.store key bs owner home, .done)
  | (s, .ok (.peer session addr pol _)) =>
    match kget va buf.got with
    | some (some _) => (s, .done)
    | some none => (s, if pol = 1 || pol = 2 then .done else .stop (.fault va pol false))
    | none => (s, .stop (.wait va session addr))
  | (s, .ok _) => (s, .stop (.error va))

/-! ### The service of the queue (R242, R249) -/

/-- Change a job of a core's Shuttle queue. -/
def State.updJob (s : State) (c : CoreKey) (j : ShuttleJob) (f : ShuttleJob → ShuttleJob) : State :=
  s.updCore c (fun x => { x with shuttle := updWhere (fun y => y.group = j.group && y.op = j.op) f x.shuttle })

/-- A job leaves the queue. -/
def State.dropJob (s : State) (c : CoreKey) (j : ShuttleJob) : State :=
  s.updCore c (fun x => { x with shuttle := x.shuttle.filter (fun y => !(y.group = j.group && y.op = j.op)) })

/-- PC of a bulk operation. -/
def State.bulkPc (s : State) (k : GroupKey) (op : Nat) : Addr :=
  (((s.group? k).bind (fun g => g.bulk.find? (fun b => b.id = op))).map (fun b => b.pc)).getD 0

/-- A cause that the Shuttle finds after issue stops the team; the operation ends (R248, 18 R398). Open points: DESIGN CHOICE (log 22). -/
def State.jobStop (s : State) (c : CoreKey) (j : ShuttleJob) (cause : Cause) (va acc pol : Nat) (absent : Bool) : State :=
  let pc := s.bulkPc j.group j.op
  ((s.dropJob c j).bulkDone j.group j.op false).lateStop j.group
    { StopCause.at cause pc with va := va % 2 ^ 52, acc := acc, pol := pol, np := absent, async := true }

/-- A parked job leaves the Shuttle's service, with a notice (R249). Open points: DESIGN CHOICE (log 22). -/
def State.jobPark (s : State) (c : CoreKey) (j : ShuttleJob) (va acc : Nat) (absent : Bool) : State :=
  let s := s.updJob c j (fun x => { x with parked := some (BitVec.ofNat 64 va) })
  match s.team? j.group.team with
  | none => s
  | some t =>
    let r := s.groupRec j.group kNotice (if absent then Causes.parkAbsent else Causes.parkPermission)
    s.emit t.part { r with parked := true, pc := s.bulkPc j.group j.op, va := va, acc := acc, np := absent } (some j.group) none

/-- What a stop of an engine's read or write does to a job; a write gives the bytes that a peer is to be sent. -/
def State.jobEng (s : State) (c : CoreKey) (j : ShuttleJob) (part : Nat) (acc : Nat) (bytes : Option (List Byte)) (e : EngStop) : State :=
  match e with
  | .fault va pol absent => if pol = 0 then s.jobPark c j va acc absent else s.jobStop c j Causes.copyFault va acc pol absent
  | .error va => s.jobStop c j Causes.copyFault va acc 3 false
  | .wait va session addr =>
    (match bytes with
     | none =>
       let (s, buf) := s.askWord part j.buf va session addr
       s.updJob c j (fun x => { x with buf := buf })
     | some bs =>
       let (s, id) := s.ask part session (fun id => .pstore id (BitVec.ofNat 64 addr) bs)
       s.updJob c j (fun x => { x with buf := { j.buf with asked := some (va, id) } }))
  | .swap va session addr cmp new =>
    let (s, id) := s.ask part session (atomBody 0 false .cas [new] [cmp] addr)
    s.updJob c j (fun x => { x with buf := { j.buf with asked := some (va, id) } })

/-- Credit an object with bytes, if one is named: a release of the copy's writes, at .dev for a global object; says whether the operation
goes on (R237, R238, R249). -/
def State.credit (s : State) (c : CoreKey) (j : ShuttleJob) (t : Team) (ref : Option W64) (bytes : Nat) : State × Bool :=
  match ref with
  | none => (s, true)
  | some x =>
    match s.reach (.shuttle c) t x .rw with
    | (s, .obj o home) =>
      let s := match o with | .phys _ => s.flushAll c | _ => s
      ((s.reveal c j.group).updObjAt c o home (.add (-(bytes : Int))), true)
    | (s, .park va absent) => (s.jobPark c j va 2 absent, false)
    | (s, .bad va pol absent) => (s.jobStop c j Causes.barrierFault va 2 pol absent, false)

/-- A job is done: it leaves the queue and completes in its batch. -/
def State.jobDone (s : State) (c : CoreKey) (j : ShuttleJob) : State := (s.dropJob c j).bulkDone j.group j.op false

/-- The next row begins. -/
def State.jobRow (s : State) (c : CoreKey) (j : ShuttleJob) (n fold : Nat) : State :=
  s.updJob c j (fun x => { x with pos := x.pos + 1, within := 0, bytes := x.bytes + n, fold := max x.fold fold, row := none,
                                  buf := { got := [], asked := none } })

/-- The reader that a job's reads of memory are. -/
def ShuttleJob.reader (j : ShuttleJob) (c : CoreKey) (t : Team) : Reader :=
  { pt := .shuttle c, part := t.part, since := some j.logPos, held := j.held, tags := j.tags }

/-- The reader that a job's reads of the scratchpad are. -/
def ShuttleJob.padReader (j : ShuttleJob) : PadReader := { pos := j.sPos, idx := j.group.idx, seq := j.seq, tile := false }

/-- W = max(W, M) as an unsigned atomic at its bank (04 R102). -/
def State.foldMaxAt (s : State) (c : CoreKey) (j : ShuttleJob) (r : Reader) (va m : Nat) : State × Option EngStop :=
  match s.access r.pt r.part .rw va with
  | (s, .error) => (s, some (.error va))
  | (s, .fault pol absent) => (s, if pol = 1 || pol = 2 then none else some (.fault va pol absent))
  | (s, .ok (.mem key home owner _)) =>
    let (s, bs) := (s.catchUp key 4).keyRead key 4 owner
    (if ofBytes bs < m then (s.store key (bytesOf 4 m) owner home).stain c j.group key 4 else s, none)
  | (s, .ok (.peer session addr pol _)) =>
    (match kget va j.buf.got with
     | some (some _) => (s, none)
     | some none => (s, if pol = 1 || pol = 2 then none else some (.fault va pol false))
     | none => (s, some (.wait va session addr)))
  | (s, .ok _) => (s, some (.error va))

/-- The write side of a row of CPS: the words after those already written, until one cannot be. -/
def State.writeWords (s : State) (c : CoreKey) (j : ShuttleJob) (r : Reader) : List (Nat × List Byte) → State × Bool
  | [] => (s, true)
  | (va, bs) :: rest =>
    match s.engWrite r j.group j.buf va bs with
    | (s, .done) => State.writeWords (s.updJob c j (fun x => { x with within := x.within + 1 })) c j r rest
    | (s, .stop e) => (s.jobEng c j r.part 5 (some bs) e, false)

/-- The present-scale word of the fallback kinds (04 R101). -/
def presentScale (r : Reader) (buf : PeerBuf) (x : ShapeRec) (kind : Nat) : Eng Nat := do
  if kind = 6 || kind = 7 then
    let w ← srcBytes r buf x.aux 4
    pure (ofBytes w)
  else pure 0

/-- Read elements `lo` to `hi` of a row of a copy, with the present scale that the copy has read (04 R101). -/
def readElems (rd : Reader) (j : ShuttleJob) (x : CopyCtl) (r : ShapeRec) (lo hi : Nat) : Eng RowOut :=
  readGlobalRow rd j.buf r x.kind (j.scale.getD 0) j.pos lo hi

/-- The elements that are converted as one: a block of the output's scales, or those of a whole byte. -/
def CopyCtl.unit (x : CopyCtl) (r : ShapeRec) : Nat :=
  if x.padScl r ≠ 0 then blockElems (x.padScl r) else if codeBits r.efmt = 4 || x.outBits r = 4 then 2 else 1

/-- Perform the units of a row from element `lo`, in order, until one cannot be read. -/
def copyUnits (c : CoreKey) (t : Team) (x : CopyCtl) (r : ShapeRec) (j : ShuttleJob) (lo : Nat) : Nat → State → State
  | 0, s => s
  | n + 1, s =>
    let hi := min (lo + x.unit r) (r.sz 0)
    if lo ≥ hi then s
    else
      match readElems (j.reader c t) j x r lo hi s with
      | .ok o s =>
        copyUnits c t x r j hi n ((s.putRow t x r j.pos lo hi o).1.updJob c j (fun y => { y with within := hi, fold := max y.fold o.max }))
      | .error _ s => s

/-- A copy that a fault stops in a row has performed the elements before the faulting page (R249; 09 R217); a TL4 row's scale and
elements depend on all of its elements, and it is performed whole (04 R100). Open points: DESIGN CHOICE (log 22). -/
def State.copyBefore (s : State) (c : CoreKey) (j : ShuttleJob) (t : Team) (x : CopyCtl) (r : ShapeRec) (e : EngStop) : State :=
  match e with
  | .fault _ _ _ | .error _ => if x.kind = 8 then s else copyUnits c t x r j j.within (r.sz 0) s
  | .wait _ _ _ | .swap _ _ _ _ _ => s

/-- One row of a copy. Open points: DESIGN CHOICE (log 22). -/
def State.copyRow (s : State) (c : CoreKey) (j : ShuttleJob) (t : Team) (x : CopyCtl) (r : ShapeRec) : State :=
  let rd := j.reader c t
  if x.dir = 2 then
    match j.row with
    | none =>
      (match readPadRow t j.padReader rd j.buf x r (j.scale.getD 0) j.pos s with
       | .error e s => s.jobEng c j t.part 4 none e
       | .ok o s => s.updJob c j (fun y => { y with row := some o, buf := { got := [], asked := none } }))
    | some o =>
      match s.writeWords c j rd ((globalWrites r j.pos o).drop j.within) with
      | (s, false) => s
      | (s, true) => s.jobRow c j (sumNat ((globalWrites r j.pos o).map (fun w => w.2.length))) o.max
  else
    match readElems rd j x r j.within (r.sz 0) s with
    | .error e s => (s.copyBefore c j t x r e).jobEng c j t.part 4 none e
    | .ok o s =>
      let (s, n) := s.putRow t x r j.pos j.within (r.sz 0) o
      s.jobRow c j n o.max

/-- The dense scale array of a copy with blocks along another dimension (R247), then the fold, the credit and the end. -/
def State.copyEnd (s : State) (c : CoreKey) (j : ShuttleJob) (t : Team) (x : CopyCtl) (r : ShapeRec) (ref : Option W64) : State :=
  let rd := j.reader c t
  if x.dense r && j.pos = r.rows then
    match srcBytes rd j.buf r.sca r.scales s with
    | .error e s => s.jobEng c j t.part 4 none e
    | .ok bs s => (s.scratchStore t.key Writer.copy ((upFrom (256 + x.ssc) bs.length).zip bs)).jobRow c j bs.length 0
  else
    let finish (s : State) : State :=
      match s.credit c j t ref j.bytes with
      | (s, true) => s.jobDone c j
      | (s, false) => s
    if (x.kind = 6 || x.kind = 7) && j.within = 0 then
      match s.foldMaxAt c j rd r.fold j.fold with
      | (s, none) => finish (s.updJob c j (fun y => { y with within := 1 }))
      | (s, some (.wait va session addr)) =>
        let (s, id) := s.ask t.part session (fun id => .patom id (BitVec.ofNat 64 addr) 4 false .atom (BitVec.ofNat 64 j.fold) 0)
        s.updJob c j (fun y => { y with buf := { j.buf with asked := some (va, id) } })
      | (s, some e) => s.jobEng c j t.part 2 none e
    else finish s

/-- Serve a copy: read and check its record, read its present scale, move a row, or end. Open points: DESIGN CHOICE (log 22). -/
def State.serveCopy (s : State) (c : CoreKey) (j : ShuttleJob) (t : Team) (op : CopyOp) : State :=
  match j.rec' with
  | none =>
    (match srcWords (j.reader c t) j.buf op.record.toNat 32 s with
     | .error e s => s.jobEng c j t.part 4 none e
     | .ok ws s =>
       if shapeBad ws then s.jobStop c j Causes.shapeRecord 0 0 0 false
       else if copyBad (CopyCtl.of op) (ShapeRec.ofWords ws) t then s.jobStop c j Causes.copyOperand 0 0 0 false
       else s.updJob c j (fun x => { x with rec' := some ws, buf := { got := [], asked := none } }))
  | some ws =>
    let r := ShapeRec.ofWords ws
    let x := CopyCtl.of op
    if j.scale.isNone then
      match presentScale (j.reader c t) j.buf r x.kind s with
      | .error e s => s.jobEng c j t.part 4 none e
      | .ok p s => s.updJob c j (fun y => { y with scale := some p, buf := { got := [], asked := none } })
    else if j.pos < r.rows then s.copyRow c j t x r
    else s.copyEnd c j t x r op.ref

/-! ### GWIN (R250) -/

/-- Write a descriptor image whole into the partition's table. Open points: DESIGN CHOICE (log 22). -/
def State.serveGwin (s : State) (c : CoreKey) (j : ShuttleJob) (t : Team) (image : Addr) (n : Nat) : State :=
  match srcWords (j.reader c t) j.buf image.toNat 8 s with
  | .error e s => s.jobEng c j t.part 4 none e
  | .ok ws s =>
    match s.part? t.part with
    | none => s.jobDone c j
    | some p =>
      let a := p.win + 32 * n
      let s := if s.ownsKey t.part a then s.store a (bytesOfWords ws) (.part t.part) (a / 2 ^ 35) else s
      s.jobDone c j

/-! ### TRQ (06 R163 to R165) -/

/-- TRQ's control: input and output codes, pruning, pitch. -/
structure TrqCtl where
  inp : Nat
  out : Nat
  prune : Bool
  pitch : Nat
deriving DecidableEq, Repr

def TrqCtl.of (w : W32) : TrqCtl := { inp := bitsOf w 2 0, out := bitsOf w 6 4, prune := w.getLsbD 7, pitch := bitsOf w 26 8 }

/-- Input format and bits of a row element. -/
def TrqCtl.inFmt (x : TrqCtl) : Fmt :=
  match x.inp with | 0 => Fmt.bf16 | 1 => Fmt.fp32 | 2 => Fmt.e4m3 | 3 => Fmt.e5m2 | _ => Fmt.e2m1

def TrqCtl.outFmt (x : TrqCtl) : Fmt :=
  match x.out with | 0 => Fmt.bf16 | 1 => Fmt.fp16 | 2 => Fmt.e4m3 | 3 => Fmt.e5m2 | 4 => Fmt.e4m3 | 5 => Fmt.e5m2 | _ => Fmt.e2m1

/-- KL, the logical depth. -/
def TrqCtl.depth (x : TrqCtl) : Nat :=
  let k := if x.out ≤ 1 then 32 else if x.out = 6 then 128 else 64
  if x.prune then 2 * k else k

/-- Bytes of a source row. -/
def TrqCtl.rowBytes (x : TrqCtl) : Nat := 128 * x.inFmt.bits / 8

/-- The failures of R163. Bits [31:19] of wa or wa+1, which R163 calls zero and does not list, count among them. DESIGN CHOICE
(log 42). -/
def trqBad (ctl wa wa1 wd : W32) (scratch share : Nat) : Bool :=
  let x := TrqCtl.of ctl
  let p := bitsOf wa 18 0
  let ss := bitsOf wa1 18 0
  let boff := bitsOf wd 15 0
  let bs := bitsOf wd 31 16
  bitsOf wa 31 19 ≠ 0 || bitsOf wa1 31 19 ≠ 0 || ctl.getLsbD 3 || bitsOf ctl 31 27 ≠ 0 || x.inp > 4 || x.out > 6
  || x.pitch % 4 ≠ 0 || x.pitch < x.rowBytes || p % 4 ≠ 0 || p + (x.depth - 1) * x.pitch + x.rowBytes > scratch
  || (x.inp ≥ 2 && (ss % 4 ≠ 0 || ss + 4 * x.depth > scratch)) || boff % 16 ≠ 0 || boff + 64 > share
  || (x.out ≥ 4 && bs + x.depth / 32 > share) || (x.prune && (bs % 32 ≠ 0 || bs + 32 + x.depth / 8 > share))

/-- The rank of a magnitude: NaN above infinity above every finite value (R165). -/
def rankLt (a b : Val) : Bool :=
  match a.abs, b.abs with
  | _, .nan => !a.isNan
  | .nan, _ => false
  | x, y => x.lt y

/-- The two kept positions of a group of four, rising (R165). -/
def keptPair (xs : List Val) : Nat × Nat :=
  let at' (k : Nat) : Val := (nth xs k).getD (.fin false 0 1)
  let best (skip : Option Nat) : Nat :=
    (upFrom 0 4).foldl (fun m k =>
      if some k = skip then m else if some m = skip then k else if rankLt (at' m) (at' k) then k else m) (if skip = some 0 then 1 else 0)
  let a := best none
  let b := best (some a)
  (min a b, max a b)

/-- A column of TRQ: packed elements, scale codes, metadata bytes (R164). An MX input can derive a scale code above 0xFE, of which
R98 says nothing: the byte stored is the code modulo 256, and the elements are scaled by the code itself. DESIGN CHOICE (log 42). -/
def trqColumn (x : TrqCtl) (xs : List Val) : List Byte × List Byte × List Byte :=
  let pairs := (chunks 4 xs.length xs).map keptPair
  let kept : List Nat := if x.prune then (mapIdx (fun g p => [4 * g + p.1, 4 * g + p.2]) pairs 0).flatMap id else upFrom 0 xs.length
  let at' (k : Nat) : Val := (nth xs k).getD (.fin false 0 1)
  let md := if x.prune then packElems 4 (pairs.map (fun p => p.1 + 4 * p.2)) else []
  let f := x.outFmt
  if x.out ≥ 4 then
    let blocks := (upFrom 0 (x.depth / 32)).map (fun j =>
      let vs := (kept.filter (fun k => k / 32 = j)).map at'
      mxBlock f vs vs)
    (packElems f.bits (blocks.flatMap (fun b => b.2)), blocks.map (fun b => BitVec.ofNat 8 b.1), md)
  else (packElems f.bits (kept.map (fun k => (f.round .rne (at' k)).1)), [], md)

/-- The rows of the source, each with its values. -/
def trqRows (t : Team) (pr : PadReader) (x : TrqCtl) (p ss : Nat) : List Nat → State → State × List (List Val)
  | [], s => (s, [])
  | k :: ks, s =>
    let (s, bs) := s.padBytes t pr (256 + p + k * x.pitch) x.rowBytes
    let (s, sc) := if x.inp ≥ 2 then s.padBytes t pr (256 + ss + 4 * k) 4 else (s, [])
    let val (n : Nat) : Val :=
      let v := x.inFmt.value (elemAt bs x.inFmt.bits n)
      if x.inp ≥ 2 then ((e8m0 ((nth sc (n / 32)).getD 0).toNat).mul v).1 else v
    let (s, rest) := trqRows t pr x p ss ks s
    (s, (upFrom 0 128).map val :: rest)

/-- Perform a TRQ. Open points: DESIGN CHOICE (log 22). -/
def State.serveTrq (s : State) (c : CoreKey) (j : ShuttleJob) (t : Team) (ctl wa wa1 wd : W32) : State :=
  let x := TrqCtl.of ctl
  let (s, rows) := trqRows t j.padReader x (bitsOf wa 18 0) (bitsOf wa1 18 0) (upFrom 0 x.depth) s
  let put (t : Team) (n : Nat) : Team :=
    let col := trqColumn x (rows.map (fun r => (nth r n).getD (.fin false 0 1)))
    let bs := bitsOf wd 31 16
    ((t.beamStore n (bitsOf wd 15 0) col.1).beamStore n bs col.2.1).beamStore n (bs + 32) col.2.2
  (s.updTeam t.key (fun t => tileCols.foldl put t)).jobDone c j

/-! ### The service -/

/-- The entry that the Shuttle serves: the first that is not parked (R249, R309). -/
def Core.serving (x : Core) : Option ShuttleJob := x.shuttle.find? (fun j => j.parked.isNone)

/-- Serve an entry once its group's earlier stores have been performed and the peer word it waits for has come. -/
def State.serve (s : State) (c : CoreKey) (j : ShuttleJob) : State :=
  let (s, buf, ready) := s.pollBuf j.buf
  if !ready then s
  else
    match s.storesBefore j.group c j.seq, s.team? j.group.team with
    | (_, false), _ => s
    | (s, true), none => s.dropJob c j
    | (s, true), some _ =>
      let j := { j with buf := buf }
      match s.team? j.group.team with
      | none => s
      | some t =>
        let s := s.updJob c j (fun _ => j)
        match j.kind with
        | .copy op => s.serveCopy c j t op
        | .gwin image n => s.serveGwin c j t image n
        | .trq w0 w1 w2 w3 => s.serveTrq c j t w0 w1 w2 w3
        | .bobbin _ _ => s

/-- The pages that `n` bytes from an exact address touch, in order. -/
def spanPages (a : Int) (n : Nat) : List Nat :=
  if n = 0 then []
  else
    (upFrom 0 (n / 4096 + 1)).map (fun k => exactAddr (a + min (4096 * k) (n - 1)) / 4096) ++ [exactAddr (a + (n - 1 : Nat)) / 4096]

/-- The pages of the first `n` elements of a row and of their block scales. -/
def ShapeRec.rowPages (r : ShapeRec) (row n : Nat) : List Nat :=
  let first := r.mxIndex row 0
  let scales : List Nat :=
    if n = 0 then []
    else if r.scl = 2 then spanPages ((r.sca : Int) + row * blocksOf 2 (r.sz 0)) (blocksOf 2 n)
    else if r.scl = 1 then spanPages ((r.sca : Int) + first) (r.mxIndex row (n - 1) + 1 - first)
    else []
  spanPages (r.rowAddr row) ((n * codeBits r.efmt + 7) / 8) ++ scales

/-- The pages of elements and block scales that rows of a copy touch in memory, in order. -/
def ShapeRec.pages (r : ShapeRec) (rows : List Nat) : List Nat := rows.flatMap (fun row => r.rowPages row (r.sz 0))

/-- The pages of memory that a copy has read elements, block scales and row scales of, or written. -/
def ShuttleJob.donePages (j : ShuttleJob) : List Nat :=
  match j.kind, j.rec' with
  | .copy op, some ws =>
    let r := ShapeRec.ofWords ws
    let n := if op.dir = 2 then (if j.row.isSome then r.sz 0 else 0) else j.within
    let rows := min j.pos r.rows
    let scaled (k : Nat) : List Nat := if r.scl = 2 || (CopyCtl.of op).kind = 8 then spanPages ((r.aux : Int) + 2 * k) 2 else []
    sortNat ((upFrom 0 rows).flatMap (fun k => r.rowPages k (r.sz 0) ++ scaled k)
      ++ (if n = 0 then [] else r.rowPages j.pos n ++ scaled j.pos))
  | _, _ => []

/-- The walk-ahead TLB translates a page among those that a copy will touch next, and holds a fault that it finds (R217). Open points:
DESIGN CHOICE (log 22). -/
def State.runAhead (s : State) (c : CoreKey) (i page : Nat) : State :=
  match nth (s.core c).shuttle i with
  | none => s
  | some j =>
    match j.kind, j.rec', s.team? j.group.team with
    | .copy op, some ws, some t =>
      let r := ShapeRec.ofWords ws
      let ahead := (r.pages ((upFrom j.pos Config.walkAhead).filter (fun k => k < r.rows))).foldl
        (fun ps p => if ps.contains p then ps else ps ++ [p]) []
      if !(ahead.take Config.walkAhead).contains page || j.held.any (fun f => f.page = page) then s
      else
        let w : Bool := op.dir = 2
        let hold (s : State) (f : Option (Nat × Bool)) : State :=
          s.updJob c j (fun y => { y with held := { page := page, write := w, fault := f } :: y.held })
        match s.access (.shuttle c) t.part (if w then .wr else .rd) (4096 * page) with
        | (s, .fault pol absent) => hold s (some (pol, absent))
        | (s, .error) => hold s none
        | (s, .ok _) => s
    | _, _, _ => s

/-- Serve the entry in turn if it is of a sort. -/
def serveIf (p : ShuttleKind → Bool) (c : CoreKey) (s : State) : Host.Outcome State Fault Refusal :=
  match (s.core c).serving with
  | none => .next s
  | some j => .next (if p j.kind then s.serve c j else s)

/-- SHUTTLE_COPY. -/
def execShuttleCopy (c : CoreKey) (s : State) : Host.Outcome State Fault Refusal :=
  serveIf (fun k => match k with | .copy _ => true | _ => false) c s
/-- GWIN_DESCRIPTOR_WRITE. -/
def execGwinDescriptorWrite (c : CoreKey) (s : State) : Host.Outcome State Fault Refusal :=
  serveIf (fun k => match k with | .gwin _ _ => true | _ => false) c s
/-- TRQ_TRANSPOSE. -/
def execTrqTranspose (c : CoreKey) (s : State) : Host.Outcome State Fault Refusal :=
  serveIf (fun k => match k with | .trq _ _ _ _ => true | _ => false) c s

/-! ### Issue -/

/-- Queue a Shuttle operation of the issuer. -/
def State.queueJob (s : State) (is : Iss) (kind : ShuttleKind) : Eff :=
  if (s.core is.core).shuttle.length ≥ Config.shuttleQueue then .hold s
  else
    let clear := s.storesClear is.key is.core
    let job : ShuttleJob :=
      { group := is.key, op := is.g.seq, seq := is.g.seq, kind := kind, rec' := none, pos := 0, within := 0, bytes := 0, fold := 0,
        scale := none, row := none, parked := none, held := [], tags := [], logPos := posOf clear s.wlog.length, sPos := is.team.slog.length, bPos := is.team.blog.length,
        buf := { got := [], asked := none } }
    .go ((s.bulkAdd is false).updCore is.core (fun c => { c with shuttle := c.shuttle ++ [job] }))

/-- A barrier reference field that may be none: a w pair, or the constant 0. -/
def refOptSlots (b : Opnd) : List Slot := if b = .inl 0 then [] else [refSlot b]

/-- The reference that the field names. -/
def Iss.refOpt (is : Iss) (b : Opnd) : Option W64 := if b = .inl 0 then none else some (is.g.src64 Lane.blank b)

/-- CPT (0), CPB (1) and CPS (2). -/
def copyIssue (dir : Nat) (d a b : Opnd) (s : State) : Host.Outcome State Fault Refusal :=
  issue s { slots := [refSlot d, refSlot a] ++ refOptSlots b, noHandler := true } (fun is =>
    if is.lanes.isEmpty then .go s
    else
      let record := is.g.src64 Lane.blank a
      let op : CopyOp := { dir := dir, wc := is.w d 0, wc1 := is.w d 1, record := record, ref := is.refOpt b }
      if ctlReserved op || !canonical record || record.toNat % 64 ≠ 0 then Eff.trap s is Causes.copyOperand
      else
        match op.ref with
        | some x => if s.refAllowed is x false then s.queueJob is (.copy op) else Eff.trap s is Causes.barrierOperand
        | none => s.queueJob is (.copy op))

/-- CPT. -/
def execCpt (d a b : Opnd) (s : State) : Host.Outcome State Fault Refusal := copyIssue 0 d a b s
/-- CPB. -/
def execCpb (d a b : Opnd) (s : State) : Host.Outcome State Fault Refusal := copyIssue 1 d a b s
/-- CPS. -/
def execCps (d a b : Opnd) (s : State) : Host.Outcome State Fault Refusal := copyIssue 2 d a b s

/-- GWIN. -/
def execGwin (a b : Opnd) (s : State) : Host.Outcome State Fault Refusal :=
  issue s { slots := [refSlot a, Slot.s b Kinds.wImm 1 1], noHandler := true } (fun is =>
    let image := is.g.src64 Lane.blank a
    let n := (is.w b 0).toNat
    if is.lanes.isEmpty then .go s
    else if n > 255 || !canonical image || image.toNat % 32 ≠ 0 then Eff.trap s is Causes.windowOperand
    else s.queueJob is (.gwin image n))

/-- TRQ: checked whether or not any lane contributes (R159). Open points: DEDUCED (log 24). -/
def execTrq (d a b : Opnd) (s : State) : Host.Outcome State Fault Refusal :=
  issue s { slots := [Slot.s d Kinds.wOnly 1 1, refSlot a, Slot.s b Kinds.wImm 1 1], noHandler := true } (fun is =>
    if trqBad (is.w b 0) (is.w a 0) (is.w a 1) (is.w d 0) is.team.rec'.scratch is.team.share then Eff.trap s is Causes.matrixOperand
    else if is.lanes.isEmpty then .go s
    else s.queueJob is (.trq (is.w b 0) (is.w a 0) (is.w a 1) (is.w d 0)))

end Sys2Proof.Machine
end

