-- ==== Sys2Proof/Machine/Launch.lean ====
section
/-! DEFINITION. Launch records, queues, LAUNCH, the start and the completion of a launch, and transform bindings
(02 R49 to R52; 10 R253, R254; 11 R269; 13 R290 to R293). -/

namespace Sys2Proof.Machine

/-! ### Launch records (R49 to R52) -/

/-- Word `k` of a record. -/
def word (ws : List W32) (k : Nat) : W32 := (nth ws k).getD 0

/-- An address in two words whose upper word's bits [31:20] are checked elsewhere. -/
def addrOf (ws : List W32) (k : Nat) : Addr := BitVec.ofNat 64 ((word ws k).toNat + 2 ^ 32 * bitsOf (word ws (k + 1)) 19 0)

/-- Role entry `k` (R50), if it is in range. -/
def roleOf (ws : List W32) (k : Nat) : Option RoleEntry :=
  let b := 8 + 4 * k
  let n := bitsOf (word ws (b + 2)) 4 0
  let g := bitsOf (word ws (b + 2)) 11 8
  if (word ws b).getLsbD 0 || bitsOf (word ws (b + 1)) 31 20 ≠ 0 || bitsOf (word ws (b + 2)) 7 5 ≠ 0
     || bitsOf (word ws (b + 2)) 31 12 ≠ 0 || word ws (b + 3) ≠ 0 || n = 0 || n > 16 || g = 0 || g > 12 then none
  else some { pc := addrOf ws b, ngroups := n, budget := 16 * g }

/-- Queue dependence `d` (R51): none if it breaks the record. -/
def depOf (ws : List W32) (owned : Nat → Bool) (d : Nat) : Option (Option (Nat × Nat)) :=
  let a := word ws (24 + 2 * d)
  let b := word ws (25 + 2 * d)
  if a.getLsbD 31 then
    if bitsOf a 30 8 ≠ 0 || !owned (bitsOf a 7 0) then none else some (some (bitsOf a 7 0, b.toNat))
  else if a ≠ 0 || b ≠ 0 then none else some none

/-- Transform binding `n` (R52). -/
def bindOf (ws : List W32) (scratch n : Nat) : Option (Option Binding) :=
  let b := 32 + 4 * n
  let c := word ws (b + 2)
  if c.getLsbD 31 then
    let dest := bitsOf c 18 0
    if (word ws b).toNat % 64 ≠ 0 || bitsOf (word ws (b + 1)) 31 20 ≠ 0 || bitsOf c 30 24 ≠ 0 || word ws (b + 3) ≠ 0
       || bitsOf c 23 20 > 5 || dest % 4 ≠ 0 || dest ≥ scratch then none
    else some (some { shape := addrOf ws b, dest := dest, o := c.getLsbD 19, kind := bitsOf c 23 20 })
  else if (upFrom b 4).any (fun k => word ws k ≠ 0) then none else some none

/-- All of a list of options, or none. -/
def allSome {α : Type} : List (Option α) → Option (List α)
  | [] => some []
  | none :: _ => none
  | some a :: l => (allSome l).map (fun r => a :: r)

/-- The launch record in 64 words, if R49 accepts it; `owned` says which queues the partition owns (R293). Open points: DEDUCED (log 26). -/
def LaunchRec.ofWords (ws : List W32) (owned : Nat → Bool) : Option LaunchRec :=
  let w0 := word ws 0
  let nr := bitsOf w0 9 8 + 1
  let gx := (word ws 1).toNat
  let gy := (word ws 2).toNat
  let gz := (word ws 3).toNat
  let scratch := (word ws 5).toNat
  let tb := bitsOf (word ws 50) 3 0
  match allSome ((upFrom 0 nr).map (roleOf ws)), allSome ((upFrom 0 4).map (depOf ws owned)),
        allSome ((upFrom 0 4).map (bindOf ws scratch)) with
  | some roles, some deps, some binds =>
    if bitsOf w0 7 0 ≠ 1 || bitsOf w0 31 21 ≠ 0 || gx = 0 || gy = 0 || gz = 0 || gx * gy * gz > 2 ^ 32
       || bitsOf (word ws 4) 7 5 ≠ 0 || bitsOf (word ws 4) 31 12 ≠ 0 || bitsOf (word ws 4) 4 0 > 16
       || bitsOf (word ws 4) 4 0 ≠ sumNat (roles.map (fun r => r.ngroups)) || bitsOf (word ws 4) 11 8 > 8 || scratch > 524032
       || bitsOf (word ws 7) 31 20 ≠ 0 || (upFrom (8 + 4 * nr) (16 - 4 * nr)).any (fun k => word ws k ≠ 0)
       || (word ws 48).getLsbD 0 || bitsOf (word ws 49) 31 20 ≠ 0 || bitsOf (word ws 50) 31 4 ≠ 0 || tb = 1 || tb > 12
       || (upFrom 51 13).any (fun k => word ws k ≠ 0) then none
    else
      some { prio := bitsOf w0 11 10, coop := w0.getLsbD 12, overlap := w0.getLsbD 13, compat := w0.getLsbD 14, flush := w0.getLsbD 15,
             fptrap := w0.extractLsb' 16 5, gx := gx, gy := gy, gz := gz, tiles := bitsOf (word ws 4) 11 8, scratch := scratch,
             arg := addrOf ws 6, roles := roles, deps := deps.filterMap id, binds := binds.filterMap id, tvec := addrOf ws 48,
             tbudget := tb }
  | _, _, _ => none

/-- Teams of a grid. -/
def LaunchRec.total (r : LaunchRec) : Nat := r.gx * r.gy * r.gz

/-! ### Queues -/

/-- A queue of a partition. -/
def State.queue? (s : State) (part q : Nat) : Option Queue := (s.part? part).bind (fun p => p.queues.find? (fun x => x.id = q))

/-- Change a queue. -/
def State.updQueue (s : State) (part q : Nat) (f : Queue → Queue) : State :=
  s.updPart part (fun p => { p with queues := updWhere (fun x => x.id = q) f p.queues })

/-- Whether the pending-launch store of a partition is full (R253). -/
def State.pendingFull (s : State) (part : Nat) : Bool :=
  (s.launches.filter (fun l => l.part = part && l.pending)).length ≥ Config.pendingLaunches

/-- Whether a partition takes no submission and starts no launch: it is frozen or being reset (18 R397, R407). -/
def Part.halted (p : Part) : Bool := p.frozen.isSome || p.resetting

/-- A record enters the pending-launch store and the queue (R253, R293). -/
def State.addLaunch (s : State) (part q : Nat) (bytes : List Byte) : State :=
  let key := s.serial
  let l : Launch :=
    { key := key, part := part, queue := q, bytes := bytes, rec' := none, stage := .queued, pending := true, nextTeam := 0,
      poisoned := false, logPos := s.wlog.length, recordDue := none, killClock := none }
  ({ s with serial := key + 1, launches := s.launches ++ [l] }).updQueue part q (fun x => { x with launches := x.launches ++ [key] })

/-- Send a message on the supervisor session of a partition. -/
def State.sendSup (s : State) (part : Nat) (b : Body) : State :=
  match s.sessions.find? (fun x => x.kind = .supervisor && x.part = part) with
  | some x => s.send x.id b
  | none => s

/-! ### LAUNCH (R253, R254) -/

/-- The group's earlier accesses are performed for a release at a scope; says whether they all are (11 R260, R264). Open points: DEDUCED (log 16). -/
def State.releaseAt (s : State) (is : Iss) (scope : Nat) : State × Bool :=
  let s := s.settle is.key
  let s := (if scope ≥ 3 then s.flushAll is.core else s).dropAcked is.core
  let clear := match s.group? is.key with | some g => g.allPerformed | none => true
  (s, clear && !(scope = 5 && s.peerUnacked is.core))

/-- A fault of a word that an instruction reads for its group: park holds the run, kill and a walk error stop the team. -/
def State.readFault (s : State) (is : Iss) (va pol : Nat) (absent : Bool) : Eff :=
  if pol = 0 then .hold ((s.suspend is.key { is.run with next := is.run.ipc } va).noteSplit is is.run.ipc va 0 absent)
  else
    .stop s { StopCause.at (if absent then Causes.killAbsent else Causes.killPermission) is.run.ipc with
                va := va, pol := 3, np := absent }

/-- Copy the record and submit it; a poisoned read of it counts as one poisoned access (18 R403). Open points: DEDUCED (log 18), DEDUCED (log 26). -/
def State.launchGo (s : State) (is : Iss) (a : Addr) (q : Nat) (answer : State → Bool → State) : Eff :=
  let (s, clear) := s.releaseAt is 3
  let (s, buf, ready) := s.pollBuf is.run.buf
  let s := s.updRun is.key (fun r => { r with buf := buf })
  if !clear || !ready then .hold s
  else
    let rd : Reader := { pt := .lane is.core, part := is.team.part, since := none }
    match engWords rd buf a.toNat 64 s with
    | .ok ws s => .go (answer (s.addLaunch is.team.part q (bytesOfWords ws)) true)
    | .error (.fault va pol absent) s =>
      if pol = 1 || pol = 2 then
        let w : W32 := if pol = 1 then 0 else poisonWord
        let f : From := { key := is.key, team := is.team, core := is.core, pc := is.run.ipc, acc := 0 }
        let s := if pol = 2 then s.poisoned f va absent else s
        .go (answer (s.addLaunch is.team.part q (bytesOfWords (List.replicate 64 w))) true)
      else s.readFault is va pol absent
    | .error (.error va) s => .stop s { StopCause.at Causes.walkError is.run.ipc with va := va, pol := 3 }
    | .error (.wait va session addr) s =>
      let (s, buf) := s.askWord is.team.part buf va session addr
      .hold (s.updRun is.key (fun r => { r with buf := buf }))
    | .error (.swap _ _ _ _ _) s => .hold s

/-- LAUNCH. -/
def execLaunch (pd : BitVec 3) (a b : Opnd) (s : State) : Host.Outcome State Fault Refusal :=
  issue s { slots := [refSlot a, Slot.s b Kinds.wImm 1 1], noHandler := true } (fun is =>
    let addr := is.g.src64 Lane.blank a
    let q := (is.w b 0).toNat
    let answer (s : State) (x : Bool) : State := s.updGroup is.key (fun g => g.updLanes is.lanes (fun _ l => l.setPred pd.toNat x))
    if is.lanes.isEmpty then .go s
    else
      match (if q > 255 || !canonical addr || addr.toNat % 64 ≠ 0 then none else s.queue? is.team.part q) with
      | none => Eff.trap s is Causes.launchOperand
      | some x => if !x.en || s.pendingFull is.team.part then .go (answer s false) else s.launchGo is addr q answer)

/-! ### The host's submission (17 R387) -/

/-- Submit a record to a queue; gives the cause that STATUS answers with, 0 when it is accepted. -/
def State.submit (s : State) (part q : Nat) (bytes : List Byte) : State × Nat :=
  match s.part? part, s.queue? part q with
  | some p, some x =>
    if !x.en || p.halted then (s, Causes.queueDisabled.toNat)
    else if s.pendingFull part then (s, Causes.pendingFull.toNat)
    else (s.addLaunch part q bytes, 0)
  | _, _ => (s, Causes.notOwned.toNat)

/-! ### The end of teams and launches (02 R42; 11 R269) -/

/-- Whether a team has ended: each of its groups has (R110). -/
def State.teamOver (s : State) (t : Team) : Bool :=
  let fl := match t.core with | some c => (s.core c).flights | none => []
  t.groups.all (fun g => g.ended { team := t.key, idx := g.idx } fl)

/-- The teams of a launch that hold a place, or a saved state. -/
def State.liveTeams (s : State) (l : Nat) : List Team := s.teams.filter (fun t => t.launch = l && !s.teamOver t)

/-- A launch ends with a record: it is due until it stands in the ring (R292, R394). -/
def State.launchEnd (s : State) (l : Launch) (c : Cause) (va : Nat) : State :=
  let s := s.updLaunch l.key (fun x => { x with recordDue := some (c, va), pending := false })
  s.emit l.part { cause := c, kind := kLaunchEnd, queue := some l.queue, va := va, lseq := s.lseq l.part l.queue l.key } none (some l.key)

/-- Whether launch `k` may start with respect to the launches before it that have not completed: each is one that every launch
after it up to `k` overlaps (R269). `prior` is in queue order. Open points: DEDUCED (log 26). -/
def mayStart (overlap : List Bool) : Bool := overlap.all id

/-- The first queued launch of a queue, with the launches before it. -/
def firstQueued : List Launch → List Launch → Option (List Launch × Launch)
  | _, [] => none
  | before, l :: ls => if l.stage = .queued then some (before, l) else firstQueued (before ++ [l]) ls

/-- The launches of a queue, in order. -/
def State.queueLaunches (s : State) (x : Queue) : List Launch := x.launches.filterMap s.launch?

/-- Whether the dependence on a queue's completion count is satisfied (R292). -/
def State.depMet (s : State) (part : Nat) (d : Nat × Nat) : Bool :=
  match s.queue? part d.1 with
  | some q => (q.count - BitVec.ofNat 32 d.2).toNat < 2 ^ 31
  | none => false

/-! ### Fit on an empty core (R294, R296) -/

/-- The squares of a team's allocation (R53). -/
def LaunchRec.squares (r : LaunchRec) : Nat := (r.scratch + 256 + 4095) / 4096

/-- The budgets of a team's groups in GROUPID order (R30). -/
def LaunchRec.budgets (r : LaunchRec) : List Nat := r.roles.flatMap (fun x => List.replicate x.ngroups x.budget)

/-- What a core has free: per quarter its registers and its resident groups; its used squares; its free tiles; its teams. -/
structure Room where
  quarters : List (Nat × Nat)
  used : List Nat
  tiles : Nat
  teams : Nat
deriving DecidableEq, Repr

/-- An empty core. -/
def Room.empty : Room :=
  { quarters := [(Config.quarterRegs, 0), (Config.quarterRegs, 0), (Config.quarterRegs, 0), (Config.quarterRegs, 0)], used := [],
    tiles := 8, teams := 0 }

/-- The quarter that takes a group of a budget: the one with the most free registers, the lowest of equals (R32, R294). -/
def bestQuarter (qs : List (Nat × Nat)) (b : Nat) : Option Nat :=
  let ok := (upFrom 0 4).filter (fun q => match nth qs q with | some x => x.1 ≥ b && x.2 < 16 | none => false)
  minBy (fun q => Config.quarterRegs - ((nth qs q).map Prod.fst).getD 0) ok

/-- Quarters for groups in order, if each finds one. -/
def placeGroups : List Nat → List (Nat × Nat) → Option (List Nat × List (Nat × Nat))
  | [], qs => some ([], qs)
  | b :: bs, qs =>
    match bestQuarter qs b with
    | none => none
    | some q =>
      (placeGroups bs (updNth (fun x => (x.1 - b, x.2 + 1)) qs q)).map (fun r => (q :: r.1, r.2))

/-- Physical squares for allocation squares `i` onward: each the lowest free one of its residue modulo 4 (R197). -/
def placeSquares (used : List Nat) (i : Nat) : Nat → Option (List Nat)
  | 0 => some []
  | n + 1 =>
    match ((upFrom 0 32).map (fun k => 4 * k + i % 4)).find? (fun x => !used.contains x) with
    | none => none
    | some x => (placeSquares (x :: used) (i + 1) n).map (fun r => x :: r)

/-- Where groups of given budgets, squares and tiles go on a core: quarters and physical squares. -/
def Room.fit (r : Room) (budgets : List Nat) (squares tiles : Nat) : Option (List Nat × List Nat) :=
  match placeGroups budgets r.quarters, placeSquares r.used 0 squares with
  | some (qs, _), some sq => if tiles ≤ r.tiles then some (qs, sq) else none
  | _, _ => none

/-- The room after a team is placed. -/
def Room.take (r : Room) (budgets : List Nat) (squares tiles : Nat) : Room :=
  match placeGroups budgets r.quarters, placeSquares r.used 0 squares with
  | some (_, qs), some sq => { quarters := qs, used := sq ++ r.used, tiles := r.tiles - tiles, teams := r.teams + 1 }
  | _, _ => r

/-- How many teams of one kind an empty core takes. -/
def fillCount (budgets : List Nat) (squares tiles : Nat) : Nat → Room → Nat
  | 0, _ => 0
  | n + 1, r => if (r.fit budgets squares tiles).isSome then fillCount budgets squares tiles n (r.take budgets squares tiles) + 1 else 0

/-- The cores of a partition, by die and logical number. -/
def Part.cores (p : Part) : List CoreKey :=
  (sortBy (fun (c : ClusterKey) => 64 * c.die + c.cluster) p.clusters).flatMap
    (fun c => (upFrom (4 * c.cluster) 4).map (fun k => ({ die := c.die, core := k } : CoreKey)))

/-- Whether a cooperative grid would fit on the partition's cores if they were empty (R296). -/
def Part.coopFits (p : Part) (r : LaunchRec) : Bool :=
  fillCount r.budgets r.squares r.tiles 64 Room.empty * p.cores.length ≥ r.total

/-! ### LAUNCH_ELIGIBLE (R293) -/

/-- Check the record of the next launch of a queue to start. -/
def State.checkLaunch (s : State) (p : Part) (l : Launch) : State :=
  match LaunchRec.ofWords (wordsOfBytes 64 l.bytes) (fun q => p.queues.any (fun x => x.id = q)) with
  | none => (s.updLaunch l.key (fun x => { x with stage := .rejected })).launchEnd l Causes.invalidLaunch 0
  | some r =>
    if r.coop && !p.coopFits r then (s.updLaunch l.key (fun x => { x with stage := .rejected })).launchEnd l Causes.coopCapacity 0
    else s.updLaunch l.key (fun x => { x with rec' := some r })

/-- LAUNCH_ELIGIBLE: the queue's next launch to start has its record checked, and becomes eligible once its order and its
dependences allow. -/
def execLaunchEligible (part q : Nat) (s : State) : Host.Outcome State Fault Refusal :=
  match s.part? part, s.queue? part q with
  | some p, some x =>
    if p.halted || !x.en then .next s
    else
      match firstQueued [] (s.queueLaunches x) with
      | none => .next s
      | some (before, l) =>
        match l.rec' with
        | none => .next (s.checkLaunch p l)
        | some r =>
          let chain := ((before.drop 1).map (fun (y : Launch) => (y.rec'.map (fun z => z.overlap)).getD false)) ++ [r.overlap]
          if (before.isEmpty || mayStart chain) && r.deps.all (s.depMet part) then
            .next (s.updLaunch l.key (fun y => { y with stage := .eligible, logPos := s.wlog.length }))
          else .next s
  | _, _ => .next s

/-! ### Completion (R269, R292) -/

/-- Forget a launch: its teams, replicas, hints and pins. -/
def State.dropLaunch (s : State) (l : Nat) : State :=
  { s with teams := s.teams.filter (fun t => t.launch ≠ l), replicas := s.replicas.filter (fun r => r.launch ≠ l),
           launches := s.launches.filter (fun x => x.key ≠ l),
           clusters := s.clusters.map (fun c => (c.1, { c.2 with hints := c.2.hints.filter (fun h => h.launch ≠ l) })),
           cores := s.cores.map (fun c => (c.1, { c.2 with sets := c.2.sets.map (fun b => { b with pins := b.pins.filter (fun n => n ≠ l) }) })) }

/-- Store a word for an engine of the hub through the partition's page table; one that faults is dropped. -/
def State.hubStore (s : State) (part va : Nat) (bs : List Byte) : State :=
  match s.access .hub part .wr va with
  | (s, .ok (.mem key home owner _)) => s.store key bs owner home
  | (s, .ok (.peer session addr _ _)) => (s.ask part session (fun id => .pstore id (BitVec.ofNat 64 addr) bs)).1
  | (s, _) => s

/-- The stores of the cores of a launch's teams are performed, for its completion is a release of all its groups (11 R260, R264). -/
def State.publish (s : State) (l : Nat) : State :=
  ((s.teams.filter (fun t => t.launch = l)).filterMap (fun t => t.core)).foldl (fun s c => s.flushAll c) s

/-- The first launch of a queue completes: its writes and the count are published, the count advances, and the host is told. -/
def State.completeHead (s : State) (part q l : Nat) : State :=
  let s := ((s.publish l).dropLaunch l).updQueue part q (fun x => { x with launches := x.launches.filter (fun k => k ≠ l), count := x.count + 1, watch := 0 })
  match s.queue? part q with
  | none => s
  | some x => (s.hubStore part x.cw (bytesOf 4 x.count.toNat)).sendSup part (.complete q x.count)

/-- Whether a launch has nothing left to do. -/
def State.launchDone (s : State) (l : Launch) : Bool :=
  match l.stage with
  | .queued => false
  | .rejected => l.recordDue.isNone
  | .eligible => l.nextTeam = ((l.rec'.map LaunchRec.total).getD 0) && (s.liveTeams l.key).isEmpty
  | .killed _ _ => false
  | .ended => l.recordDue.isNone

/-- LAUNCH_COMPLETE. -/
def execLaunchComplete (part q : Nat) (s : State) : Host.Outcome State Fault Refusal :=
  match s.queue? part q with
  | none => .next s
  | some x =>
    match s.queueLaunches x with
    | l :: _ => .next (if s.launchDone l then s.completeHead part q l.key else s)
    | [] => .next s

/-! ### Transform bindings (R52) -/

/-- The copy that a binding acts as: a linear CPT at DEST. Its scales, if its kind makes any, start at program address 0.
Open points: DEDUCED (log 27). -/
def Binding.copy (b : Binding) : CopyOp :=
  { dir := 0, wc := BitVec.ofNat 32 (b.dest + b2n b.o * 2 ^ 19 + b.kind * 2 ^ 21), wc1 := 0, record := b.shape, ref := none }

/-- A cause of a binding stops the team before any group issues, for its bindings never all land: GROUPID 0 raises it, at its role's
entry PC. -/
def State.bindStop (s : State) (t : Team) (c : Cause) (va pol : Nat) (absent : Bool) : State :=
  let pc := ((t.rec'.roles.head?).map (fun r => r.pc)).getD 0
  s.lateStop { team := t.key, idx := 0 }
    { StopCause.at c pc with va := va % 2 ^ 52, acc := if va = 0 && pol = 0 then 0 else 4, pol := pol, np := absent, async := true }

/-- What a stop of the binding's reads does. -/
def State.bindEng (s : State) (t : Team) (e : EngStop) : State :=
  match e with
  | .fault va pol absent =>
    if pol = 0 then
      let k : GroupKey := { team := t.key, idx := 0 }
      let r := s.groupRec k kNotice (if absent then Causes.parkAbsent else Causes.parkPermission)
      let pc := ((t.rec'.roles.head?).map (fun r => r.pc)).getD 0
      (s.updTeam t.key (fun t => { t with bindParked := some va })).emit t.part
        { r with parked := true, pc := pc, va := va, acc := 4, np := absent } (some k) none
    else s.bindStop t Causes.copyFault va pol absent
  | .error va => s.bindStop t Causes.copyFault va 3 false
  | .wait va session addr =>
    let (s, buf) := s.askWord t.part t.bindBuf va session addr
    s.updTeam t.key (fun t => { t with bindBuf := buf })
  | .swap _ _ _ _ _ => s

/-- Rows of a binding, from a row. -/
def bindRows (rd : Reader) (t : Team) (x : CopyCtl) (r : ShapeRec) (row : Nat) : Nat → Eng Unit
  | 0 => pure ()
  | n + 1 => do
    let o ← readGlobalRow rd t.bindBuf r x.kind 0 row 0 (r.sz 0)
    let _ ← (fun s => .ok () (s.putRow t x r row 0 (r.sz 0) o).1 : Eng Unit)
    bindRows rd t x r (row + 1) n

/-- Perform a binding whose record has been read. Open points: DEDUCED (log 27). -/
def bindData (rd : Reader) (t : Team) (x : CopyCtl) (r : ShapeRec) : Eng Unit := do
  bindRows rd t x r 0 r.rows
  if x.dense r then
    let bs ← srcBytes rd t.bindBuf r.sca r.scales
    (fun s => .ok () (s.scratchStore t.key Writer.copy ((upFrom (256 + x.ssc) bs.length).zip bs)) : Eng Unit)
  else pure ()

/-- Once the last binding of a launch's first team has landed, the launch's pending-launch entry is freed (13 R297). -/
def State.freeEntry (s : State) (team : Nat) : State :=
  match s.team? team with
  | some t => if t.id = 0 && t.bindPos ≥ t.bindings.length then s.updLaunch t.launch (fun l => { l with pending := false }) else s
  | none => s

/-- TRANSFORM_BINDING: the Shuttle performs a placed team's next binding. Open points: DEDUCED (log 27). -/
def execTransformBinding (team : Nat) (s : State) : Host.Outcome State Fault Refusal :=
  match s.team? team with
  | none => .next s
  | some t =>
    match t.core, nth t.bindings t.bindPos with
    | some c, some b =>
      if t.bindParked.isSome || t.stop.isSome then .next s
      else
        let (s, buf, ready) := s.pollBuf t.bindBuf
        if !ready then .next s
        else
          let t := { t with bindBuf := buf }
          let s := s.updTeam team (fun _ => t)
          let rd : Reader := { pt := .shuttle c, part := t.part, since := none, strict := true }
          (match srcWords rd buf b.shape.toNat 32 s with
           | .error e s => .next (s.bindEng t e)
           | .ok ws s =>
             if shapeBad ws then .next (s.bindStop t Causes.shapeRecord 0 0 false)
             else
               let x := CopyCtl.of b.copy
               let r := ShapeRec.ofWords ws
               if copyBad x r t then .next (s.bindStop t Causes.copyOperand 0 0 false)
               else
                 match bindData rd t x r s with
                 | .error e s => .next (s.bindEng t e)
                 | .ok () s =>
                   .next ((s.updTeam team (fun t => { t with bindPos := t.bindPos + 1, bindBuf := { got := [], asked := none } })).freeEntry team))
    | _, _ => .next s

end Sys2Proof.Machine
end

