-- ==== Sys2Proof/Machine/Coll.lean ====
section
/-! DEFINITION. Collectives: COLL, the messages along the tree of ranks, completion and abort (10 R251, R252; 17 R389; 18 R410). -/

namespace Sys2Proof.Machine

/-! ### The record (R251) -/

structure CollRec where
  op : Nat
  dt : Nat
  set : Nat
  root : Nat
  src : Nat
  dst : Nat
  count : Nat
  cid : W32
deriving DecidableEq, Repr

def CollRec.of (ws : List W32) : CollRec :=
  { op := bitsOf (word ws 0) 11 8, dt := bitsOf (word ws 0) 15 12, set := bitsOf (word ws 0) 21 16, root := bitsOf (word ws 1) 15 0,
    src := (addrOf ws 2).toNat, dst := (addrOf ws 4).toNat, count := (word ws 6).toNat, cid := word ws 7 }

/-- A record that breaks the table, whatever the stripe set. -/
def collBad (ws : List W32) : Bool :=
  let r := CollRec.of ws
  bitsOf (word ws 0) 7 0 ≠ 1 || bitsOf (word ws 0) 31 22 ≠ 0 || r.op > 5 || r.dt > 2
  || (r.dt = 2 && !(r.op = 2 || r.op = 3 || r.op = 5)) || bitsOf (word ws 1) 31 16 ≠ 0 || r.src % 4 ≠ 0 || r.dst % 4 ≠ 0
  || bitsOf (word ws 3) 31 20 ≠ 0 || bitsOf (word ws 5) 31 20 ≠ 0 || (r.count = 0 && r.op ≠ 5)
  || (upFrom 8 8).any (fun k => word ws k ≠ 0)

/-- What every rank must agree on: OP and DT, ROOT, COUNT (R252). Open points: DESIGN CHOICE (log 23). -/
def CollRec.head (r : CollRec) : List W32 :=
  [BitVec.ofNat 32 (r.op + 16 * r.dt), BitVec.ofNat 32 r.root, BitVec.ofNat 32 (if r.op = 5 then 0 else r.count)]

/-! ### Ranks (R251, R388, R389) -/

/-- The rank of this module in a stripe set: its position in the chip list. -/
def rankFrom (part modno : Nat) (st : Stripe) : Nat → Nat → State → State × Option Nat
  | _, 0, s => (s, none)
  | k, n + 1, s =>
    match s.chip part st k with
    | (s, some (m, _, _)) => if m = modno then (s, some k) else rankFrom part modno st (k + 1) n s
    | (s, none) => rankFrom part modno st (k + 1) n s

/-- The rank and size of a partition's stripe set for this module, if the set is valid and lists it. -/
def State.rankOf (s : State) (part set : Nat) : State × Option (Nat × Nat) :=
  match s.part? part, s.stripe? part set with
  | some p, some st =>
    if !st.v || st.m = 0 then (s, none)
    else match rankFrom part p.modno st 0 st.m s with
      | (s, some r) => (s, some (r, st.m))
      | (s, none) => (s, none)
  | _, _ => (s, none)

/-- Send a body to a rank of a set. -/
def State.sendRank (s : State) (part set rank : Nat) (b : Body) : State :=
  match s.stripe? part set with
  | none => s
  | some st =>
    match s.chip part st rank with
    | (s, some (_, session, _)) => s.send session b
    | (s, none) => s

/-- The renumbered rank r' and its inverse. -/
def toTree (m root rank : Nat) : Nat := (rank + m - root % m) % m
def fromTree (m root r' : Nat) : Nat := (r' + root) % m

/-- The children of r' in the tree. -/
def treeKids (m r' : Nat) : List Nat := (upFrom (4 * r' + 1) 4).filter (fun k => k < m)

/-! ### Cells (R229, R389) -/

/-- The cell of a word: FP32 terms exact, INT32 signed, raw words unsigned. -/
def cellOf (dt : Nat) (w : W32) : CellMsg :=
  if dt = 0 then
    let c := ReduceCell.start w
    { v := c.v, nan := c.nan, pinf := c.pinf, ninf := c.ninf, negz := c.negz, n := 1 }
  else { v := if dt = 1 then w.toInt else w.toNat, nan := false, pinf := false, ninf := false, negz := false, n := 1 }

def cellAdd (a b : CellMsg) : CellMsg :=
  { v := a.v + b.v, nan := a.nan || b.nan, pinf := a.pinf || b.pinf, ninf := a.ninf || b.ninf, negz := a.negz && b.negz, n := a.n + b.n }

/-- The word of a finished cell: leave(), or the low 32 bits. -/
def cellWord (dt : Nat) (c : CellMsg) : W32 :=
  if dt = 0 then
    ({ v := c.v, nan := c.nan, pinf := c.pinf, ninf := c.ninf, negz := c.negz, n := c.n, touched := true } : ReduceCell).leave 0
  else W32.ofInt c.v

/-- How cells travel: 0 as FP32 sums, 1 as INT32 sums, 2 as words. -/
def cellSize (ty : Nat) : Nat := if ty = 0 then 48 else if ty = 1 then 8 else 4

/-- The bytes of a cell (R389). -/
def cellBytes (ty : Nat) (c : CellMsg) : List Byte :=
  if ty = 0 then
    bytesOf 40 (c.v % 2 ^ 320).toNat ++ [BitVec.ofNat 8 (b2n c.nan + 2 * b2n c.pinf + 4 * b2n c.ninf + 8 * b2n c.negz), 0, 0, 0] ++ bytesOf 4 c.n
  else bytesOf (cellSize ty) (c.v % 2 ^ (8 * cellSize ty)).toNat

/-- The number that `n` bytes hold in two's complement. -/
def signedBytes (bs : List Byte) : Int :=
  let x := ofBytes bs
  if 2 * x < 2 ^ (8 * bs.length) then x else (x : Int) - 2 ^ (8 * bs.length)

/-- The cell that bytes hold. -/
def cellFrom (ty : Nat) (bs : List Byte) : CellMsg :=
  if ty = 0 then
    let f := (nth bs 40).getD 0
    { v := signedBytes (bs.take 40), nan := f.getLsbD 0, pinf := f.getLsbD 1, ninf := f.getLsbD 2, negz := f.getLsbD 3,
      n := ofBytes ((bs.drop 44).take 4) }
  else { v := if ty = 1 then signedBytes bs else ofBytes bs, nan := false, pinf := false, ninf := false, negz := false, n := 1 }

/-- The cells of a message. -/
def cellsFrom (ty : Nat) (bs : List Byte) : List CellMsg := (chunks (cellSize ty) bs.length bs).map (cellFrom ty)

/-- The messages' parts of a list of cells, each of 960 bytes at most, with its first element: a packet's payload is 1,024 bytes (R383);
no cells make one empty part. Open points: DESIGN CHOICE (log 23). -/
def cellParts (ty : Nat) (cs : List CellMsg) : List (Nat × List Byte) :=
  let n := 960 / cellSize ty
  match mapIdx (fun i part => (n * i, part.flatMap (cellBytes ty))) (chunks n cs.length cs) 0 with
  | [] => [(0, [])]
  | ps => ps

/-- Words of the source that a rank reads. -/
def CollRec.srcWords (r : CollRec) (m rank : Nat) : Nat :=
  match r.op with
  | 2 => if rank = r.root then r.count else 0
  | 4 => m * r.count
  | 5 => 0
  | _ => r.count

/-- Words that come down the tree to a rank. -/
def CollRec.total (r : CollRec) (m : Nat) : Nat :=
  match r.op with
  | 0 | 2 => r.count
  | 3 | 4 => m * r.count
  | _ => 0

/-- The data type in which cells of an operation add: gathered words do not mix. -/
def CollRec.ty (r : CollRec) : Nat := if r.op = 2 || r.op = 3 then 2 else r.dt

/-- The rank's own cells, in the array that travels up. -/
def CollRec.own (r : CollRec) (m rank : Nat) (ws : List W32) : List CellMsg :=
  match r.op with
  | 3 =>
    let zero (k : Nat) : List CellMsg := List.replicate (k * r.count) (cellOf 2 0)
    zero rank ++ ws.map (cellOf 2) ++ zero (m - 1 - rank)
  | _ => ws.map (cellOf r.ty)

/-- Where the rank's words go: destination address and words. -/
def CollRec.dest (r : CollRec) (rank : Nat) (ws : List W32) : List (Nat × W32) :=
  let ws := match r.op with
    | 1 => if rank = r.root then ws else []
    | 4 => slice ws (rank * r.count) r.count
    | 5 => []
    | _ => ws
  (upFrom 0 ws.length).zip ws |>.map (fun e => (r.dst + 4 * e.1, e.2))

/-! ### A rank's progress -/

/-- Change a collective, named by its issuer and operation. -/
def State.updColl (s : State) (c : Coll) (f : Coll → Coll) : State :=
  { s with colls := updWhere (fun x => x.issued && x.group = c.group && x.op = c.op) f s.colls }

def State.dropColl (s : State) (c : Coll) : State :=
  { s with colls := s.colls.filter (fun x => !(x.issued && x.group = c.group && x.op = c.op)) }

def State.collPc (s : State) (c : Coll) : Addr := s.bulkPc c.group c.op

/-- A cause that the collective engine finds stops the team; the operation ends. -/
def State.collStop (s : State) (c : Coll) (cause : Cause) (va acc pol : Nat) (absent : Bool) : State :=
  let pc := s.collPc c
  ((s.dropColl c).bulkDone c.group c.op false).lateStop c.group
    { StopCause.at cause pc with va := va % 2 ^ 52, acc := acc, pol := pol, np := absent, async := true }

/-- A parked collective is held, with a notice. -/
def State.collPark (s : State) (c : Coll) (va acc : Nat) (absent : Bool) : State :=
  let s := s.updColl c (fun x => { x with parked := some va })
  let r := s.groupRec c.group kNotice (if absent then Causes.parkAbsent else Causes.parkPermission)
  s.emit c.part { r with parked := true, pc := s.collPc c, va := va, acc := acc, np := absent } (some c.group) none

/-- What a stop of an engine's read or write does. -/
def State.collEng (s : State) (c : Coll) (acc : Nat) (bytes : Option (List Byte)) (e : EngStop) : State :=
  match e with
  | .fault va pol absent => if pol = 0 then s.collPark c va acc absent else s.collStop c Causes.copyFault va acc pol absent
  | .error va => s.collStop c Causes.copyFault va acc 3 false
  | .wait va session addr =>
    (match bytes with
     | none =>
       let (s, buf) := s.askWord c.part c.buf va session addr
       s.updColl c (fun x => { x with buf := buf })
     | some bs =>
       let (s, id) := s.ask c.part session (fun id => .pstore id (BitVec.ofNat 64 addr) bs)
       s.updColl c (fun x => { x with buf := { c.buf with asked := some (va, id) } }))
  | .swap _ _ _ _ _ => s

/-- The object of a collective is updated, as a release of what the collective has written; says whether the collective goes on (R252). -/
def State.collObject (s : State) (c : Coll) (u : ObjUpd) : State × Bool :=
  match c.ref, s.team? c.group.team with
  | some x, some t =>
    (match s.reach (.shuttle c.core) t x .rw with
     | (s, .obj o home) => (((s.flushAll c.core).reveal c.core c.group).updObjAt c.core o home u, true)
     | (s, .park va absent) => (s.collPark c va 2 absent, false)
     | (s, .bad va pol absent) => (s.collStop c Causes.barrierFault va 2 pol absent, false))
  | _, _ => (s, true)

/-- The collective leaves the engine as aborted, with ERR in its batch. -/
def State.collFailed (s : State) (c : Coll) : State := (s.dropColl c).bulkDone c.group c.op true

/-- The collective ends as aborted on this rank: complete(1) on its object, held while the object's page parks, then ERR in its batch
(R238, R252). -/
def State.collAbort (s : State) (c : Coll) : State :=
  let s := s.updColl c (fun x => { x with aborting := true })
  match s.collObject { c with aborting := true } .fail with
  | (s, true) => s.collFailed c
  | (s, false) => s

/-- Tell every other rank that the collective is aborted (R410). -/
def State.sendKills (s : State) (c : Coll) : State :=
  match s.rankOf c.part c.set with
  | (s, some (rank, m)) =>
    ((upFrom 0 m).filter (fun k => k ≠ rank)).foldl (fun s k => s.sendRank c.part c.set k (.kill c.set c.cid)) s
  | (s, none) => s

/-- The reader that a collective's reads are (R249). -/
def Coll.reader (c : Coll) : Reader := { pt := .shuttle c.core, part := c.part, since := some c.logPos }

/-- What a collective's record names, read now if it has not been (18 R410). -/
def State.collKnown (s : State) (c : Coll) : State × Option Coll :=
  if !c.record.isEmpty then (s, some c)
  else
    match srcWords c.reader c.buf c.addr.toNat 16 s with
    | .ok ws s => (s, some { c with set := (CollRec.of ws).set, cid := (CollRec.of ws).cid, record := ws })
    | .error _ s => (s, none)

/-- Abort here and everywhere, unless it is aborted already. -/
def State.killColl (s : State) (c : Coll) : State :=
  if c.aborting then s
  else
    match s.collKnown c with
    | (s, some k) => (s.sendKills k).collAbort c
    | (s, none) => s.collAbort c

/-- Tell every other rank the operation of a collective (R252). Open points: DESIGN CHOICE (log 23). -/
def State.sendHeads (s : State) (c : Coll) (r : CollRec) (rank m : Nat) : State :=
  ((upFrom 0 m).filter (fun k => k ≠ rank)).foldl (fun s k => s.sendRank c.part r.set k (.cell r.set r.cid rank .agree r.head 0 [])) s

/-- Read and check the record; a collective whose abort came first ends at once, and messages that came early are taken over. -/
def State.collRecord (s : State) (c : Coll) : State :=
  match srcWords c.reader c.buf c.addr.toNat 16 s with
  | .error e s => s.collEng c 4 none e
  | .ok ws s =>
    let r := CollRec.of ws
    match s.rankOf c.part r.set with
    | (s, none) => s.collStop c Causes.collOperand 0 0 0 false
    | (s, some (rank, m)) =>
      if collBad ws || r.root ≥ m then s.collStop c Causes.collOperand 0 0 0 false
      else
        let key := (c.part, r.set, r.cid)
        let hold (x : Coll) : Bool := !x.issued && x.part = c.part && x.set = r.set && x.cid = r.cid
        let early := ((s.colls.find? hold).map (fun x => x.early)).getD []
        let s := { s with colls := s.colls.filter (fun x => !hold x) }
        let s := s.updColl c (fun x => { x with set := r.set, cid := r.cid, record := ws, early := early, buf := { got := [], asked := none } })
        if s.aborts.contains key then
          ({ s with aborts := s.aborts.erase key }).collAbort { c with set := r.set, cid := r.cid, record := ws }
        else s.sendHeads c r rank m

/-- Whether all of a child's cells have been heard. -/
def Coll.hasAll (c : Coll) (k : Nat) : Bool :=
  let mine := c.heard.filter (fun e => e.1 = k)
  !mine.isEmpty && decide (sumNat (mine.map (fun e => e.2.2)) ≥ c.acc.length)

/-- Take a message into a collective whose source has been read. -/
def Coll.hear (c : Coll) (r : CollRec) (m r' : Nat) (e : EarlyCell) : Coll :=
  match e.way with
  | .agree => { c with agreed := insertNat e.rank c.agreed }
  | .up =>
    let cells := cellsFrom r.ty e.cells
    if (treeKids m r').contains (toTree m r.root e.rank) && !c.heard.any (fun h => h.1 = e.rank && h.2.1 = e.first) then
      let mine := slice c.acc e.first cells.length
      { c with heard := (e.rank, e.first, cells.length) :: c.heard, acc := splice c.acc e.first ((mine.zip cells).map (fun x => cellAdd x.1 x.2)) }
    else c
  | .down =>
    let ws := (cellsFrom 2 e.cells).map (cellWord 2)
    if r' = 0 || c.final.isSome || c.got.any (fun g => g.1 = e.first) then c
    else
      let got := (e.first, ws) :: c.got
      let all := (sortBy (fun (g : Nat × List W32) => g.1) got).flatMap (fun g => g.2)
      { c with got := got, final := if all.length ≥ r.total m then some all else none }

/-- Whether a message disagrees with this rank's record (R252). -/
def EarlyCell.clash (e : EarlyCell) (r : CollRec) : Bool := e.head ≠ r.head

/-- The messages that have come are heard. Open points: DESIGN CHOICE (log 23). -/
def State.collHear (s : State) (c : Coll) (r : CollRec) (m r' : Nat) : State :=
  s.updColl c (fun x => x.early.foldl (fun x e => x.hear r m r' e) { x with early := [] })

/-- The rank's cells are complete: send them up, or finish them at the root. -/
def State.collUp (s : State) (c : Coll) (r : CollRec) (m r' : Nat) : State :=
  if r' = 0 then s.updColl c (fun x => { x with final := some (x.acc.map (cellWord r.ty)) })
  else
    let rank := fromTree m r.root r'
    let up := fromTree m r.root ((r' - 1) / 4)
    let s := (cellParts r.ty c.acc).foldl (fun s e => s.sendRank c.part c.set up (.cell c.set c.cid rank .up r.head e.1 e.2)) s
    s.updColl c (fun x => { x with sentUp := true, final := if r.op = 1 then some [] else x.final })

/-- The finished words go to the children. -/
def State.collDown (s : State) (c : Coll) (r : CollRec) (m r' : Nat) (ws : List W32) : State :=
  let rank := fromTree m r.root r'
  let to' (s : State) (k : Nat) : State :=
    (cellParts 2 (ws.map (cellOf 2))).foldl (fun s e =>
      s.sendRank c.part c.set (fromTree m r.root k) (.cell c.set c.cid rank .down r.head e.1 e.2)) s
  let s := if r.op = 1 then s else (treeKids m r').foldl to' s
  s.updColl c (fun x => { x with sentDown := true })

/-- The rank's destination writes, one after another. -/
def State.collWrite (s : State) (c : Coll) : List (Nat × W32) → State × Bool
  | [] => (s, true)
  | (va, w) :: rest =>
    let bs := bytesOf 4 w.toNat
    match s.engWrite c.reader c.group c.buf va bs with
    | (s, .done) => State.collWrite (s.updColl c (fun x => { x with written := x.written + 1 })) c rest
    | (s, .stop e) => (s.collEng c 5 (some bs) e, false)

/-- One act of a collective whose record has been read. -/
def State.collAct (s : State) (c : Coll) (r : CollRec) (rank m : Nat) : State :=
  let r' := toTree m r.root rank
  let agreed : Bool := (upFrom 0 m).all (fun k => k = rank || c.agreed.contains k)
  if c.early.any (fun e => e.clash r) then s.killColl c else
  match c.src with
  | none =>
    (match srcWords c.reader c.buf r.src (r.srcWords m rank) s with
     | .error e s => s.collEng c 4 none e
     | .ok ws s =>
       s.updColl c (fun x => { x with src := some ws, acc := r.own m rank ws, buf := { got := [], asked := none },
                                      final := if r.op = 2 && rank = r.root then some ws else x.final }))
  | some _ =>
    if !c.early.isEmpty then s.collHear c r m r'
    else
      match c.final with
      | some ws =>
        if !c.sentDown then s.collDown c r m r' ws
        else if !agreed then s
        else
          (match s.collWrite c ((r.dest rank ws).drop c.written) with
           | (s, false) => s
           | (s, true) =>
             match s.collObject c (.arrive 0) with
             | (s, true) => (s.dropColl c).bulkDone c.group c.op false
             | (s, false) => s)
      | none =>
        if r.op ≠ 2 && !c.sentUp && (treeKids m r').all (fun k => c.hasAll (fromTree m r.root k)) then s.collUp c r m r'
        else s

/-- Whether a group's launch has been killed. -/
def State.launchKilled (s : State) (k : GroupKey) : Bool :=
  match (s.team? k.team).bind (fun t => s.launch? t.launch) with
  | some l => (match l.stage with | .killed _ _ => true | _ => false)
  | none => false

/-- Serve a collective: its group's earlier stores are performed first; one whose launch is killed aborts (18 R405). Open points: DESIGN CHOICE (log 23). -/
def State.collServe (s : State) (c : Coll) : State :=
  let (s, buf, ready) := s.pollBuf c.buf
  if !ready then s
  else
    match s.storesBefore c.group c.core c.seq with
    | (_, false) => s
    | (s, true) =>
      let c := { c with buf := buf }
      let s := s.updColl c (fun _ => c)
      if c.aborting then s.collAbort c
      else if s.launchKilled c.group then s.killColl c
      else if c.record.isEmpty then s.collRecord c
      else
        match s.rankOf c.part c.set with
        | (s, some (rank, m)) => s.collAct c (CollRec.of c.record) rank m
        | (s, none) => s.collStop c Causes.collOperand 0 0 0 false

/-- COLLECTIVE_COMPLETE: the collective of a partition, set and CID goes on towards its completion, as does one whose record the
engine has still to read. -/
def execCollectiveComplete (part set : Nat) (cid : W32) (s : State) : Host.Outcome State Fault Refusal :=
  let mine (c : Coll) : Bool := c.issued && c.part = part && c.parked.isNone && (c.record.isEmpty || (c.set = set && c.cid = cid))
  let go (c : Coll) : Option State := let s' := s.collServe c; if s' = s then none else some s'
  .next ((firstSome go (s.colls.filter mine)).getD s)

/-- COLL. -/
def execColl (a b : Opnd) (s : State) : Host.Outcome State Fault Refusal :=
  issue s { slots := [refSlot a] ++ refOptSlots b, noHandler := true } (fun is =>
    let addr := is.g.src64 Lane.blank a
    if is.lanes.isEmpty then .go s
    else if !canonical addr || addr.toNat % 64 ≠ 0 then Eff.trap s is Causes.collOperand
    else if ((is.refOpt b).map (fun x => s.refAllowed is x false)).getD true = false then Eff.trap s is Causes.barrierOperand
    else if (s.colls.filter (fun c => c.issued && c.core.die = is.core.die)).length ≥ Config.collQueue then .hold s
    else
      let clear := s.storesClear is.key is.core
      let c : Coll :=
        { part := is.team.part, set := 0, cid := 0, issued := true, group := is.key, op := is.g.seq, seq := is.g.seq, core := is.core,
          addr := addr, ref := is.refOpt b, record := [], src := none, acc := [], heard := [], agreed := [], got := [], sentUp := false, final := none,
          sentDown := false, written := 0, aborting := false, parked := none, logPos := posOf clear s.wlog.length, buf := { got := [], asked := none },
          early := [] }
      let s := s.bulkAdd is false
      .go { s with colls := s.colls ++ [c] })

/-! ### Messages (R389, R410) -/

/-- A collective that this rank has not issued. -/
def Coll.keeper (part set : Nat) (cid : W32) (e : EarlyCell) : Coll :=
  { part := part, set := set, cid := cid, issued := false, group := { team := 0, idx := 0 }, op := 0, seq := 0,
    core := { die := 0, core := 0 }, addr := 0, ref := none, record := [], src := none, acc := [], heard := [], agreed := [], got := [], sentUp := false,
    final := none, sentDown := false, written := 0, aborting := false, parked := none, logPos := 0, buf := { got := [], asked := none }, early := [e] }

/-- A CELL message reaches a rank. Open points: DESIGN CHOICE (log 23). -/
def State.cellIn (s : State) (part set : Nat) (cid : W32) (e : EarlyCell) : State :=
  let known (c : Coll) : Bool := c.part = part && c.set = set && c.cid = cid && !(c.issued && c.record.isEmpty)
  if s.colls.any known then { s with colls := updWhere known (fun c => { c with early := c.early ++ [e] }) s.colls }
  else { s with colls := s.colls ++ [Coll.keeper part set cid e] }

/-- A KILL message reaches a rank: it aborts the collective, or is kept for a COLL still to come, the oldest of 256 dropped.
Open points: DESIGN CHOICE (log 23). -/
def State.killIn (s : State) (part set : Nat) (cid : W32) : State :=
  match s.colls.find? (fun c => c.issued && c.part = part && c.set = set && c.cid = cid && !c.record.isEmpty) with
  | some c => s.collAbort c
  | none =>
    let keep (c : Coll) : Bool := c.issued || c.part ≠ part || c.set ≠ set || c.cid ≠ cid
    let l := if s.aborts.length ≥ 256 then s.aborts.drop 1 else s.aborts
    { s with colls := s.colls.filter keep, aborts := l ++ [(part, set, cid)] }

end Sys2Proof.Machine
end

