-- ==== Sys2Proof/Machine/Real.lean ====
section
/-! DEFINITION. Enclosures of real functions in fixed point: exp, log2, sin, cos, sigmoid, square roots; used for the bounds of the
special functions (05 R126) and for the activations of the Heddle (14 R315). Everything is exact integer arithmetic: a value
lies strictly between `lo / 2^p` and `hi / 2^p`, or at an end. -/

namespace Sys2Proof.Machine

/-- An enclosure in units of 2^-p. -/
structure Iv where
  lo : Int
  hi : Int
deriving DecidableEq, Repr

/-! ### Square roots -/

/-- floor(sqrt n), digit by digit from bit `b`. -/
def isqrtFrom (n : Nat) : Nat → Nat → Nat
  | 0, r => r
  | b + 1, r =>
    let t := r + 2 ^ b
    isqrtFrom n b (if t * t ≤ n then t else r)

/-- floor(sqrt n). -/
def isqrt (n : Nat) : Nat := isqrtFrom n (Nat.log2 n / 2 + 1) 0

/-! ### Logarithms -/

/-- 2·atanh(t) = 2(t + t³/3 + …), `t` and the present power in units of 2^-p, rounded down; `k` is the present odd number. -/
def atanhLo (p t2 : Nat) : Nat → Nat → Nat → Nat
  | 0, _, _ => 0
  | n + 1, pw, k => pw / k + atanhLo p t2 n (pw * t2 / 2 ^ p) (k + 2)

/-- ln(num / den) for 1 ≤ num/den ≤ 2; the error of each of the `p` terms is below two units. -/
def lnIv (p num den : Nat) : Iv :=
  let t := (num - den) * 2 ^ p / (num + den)
  let s := atanhLo p (t * t / 2 ^ p) p t 1
  { lo := (2 * s : Nat), hi := (2 * s + 8 * p + 16 : Nat) }

/-- Quotient of enclosures, the divisor positive. -/
def Iv.div (p : Nat) (a b : Iv) : Iv :=
  let q (x y : Int) : Int := (x * 2 ^ p) / y
  { lo := (if a.lo ≥ 0 then q a.lo b.hi else q a.lo b.lo) - 1, hi := (if a.hi ≥ 0 then q a.hi b.lo else q a.hi b.hi) + 1 }

/-- log2 of a positive fraction that is no power of two. -/
def log2Iv (p num den : Nat) : Iv :=
  let e := floorLog2 num den
  let n := if e ≥ 0 then num else num * 2 ^ (-e).toNat
  let d := if e ≥ 0 then den * 2 ^ e.toNat else den
  let f := Iv.div p (lnIv p n d) (lnIv p 2 1)
  { lo := f.lo + e * 2 ^ p, hi := f.hi + e * 2 ^ p }

/-! ### Exponentials -/

/-- The terms r^k/k! from `k`, `t` being the present one, rounded down. -/
def expTerms (p r : Nat) : Nat → Nat → Nat → Nat
  | 0, _, _ => 0
  | n + 1, t, k => t + expTerms p r n (t * r / 2 ^ p / k) (k + 1)

/-- The same rounded up. -/
def expTermsUp (p r : Nat) : Nat → Nat → Nat → Nat
  | 0, _, _ => 2
  | n + 1, t, k => t + expTermsUp p r n (t * r / 2 ^ p / k + 1) (k + 1)

/-- Square `n` times, rounded down. -/
def sqDown (p : Nat) : Nat → Nat → Nat
  | 0, x => x
  | n + 1, x => sqDown p n (x * x / 2 ^ p)

/-- Square `n` times, rounded up. -/
def sqUp (p : Nat) : Nat → Nat → Nat
  | 0, x => x
  | n + 1, x => sqUp p n (x * x / 2 ^ p + 1)

/-- e^a for 0 ≤ a, as numbers of units of 2^-p. -/
def expIv (p : Nat) (lo hi : Nat) : Nat × Nat :=
  let m := Nat.log2 (hi / 2 ^ p + 1) + 9
  (sqDown p m (expTerms p (lo / 2 ^ m) (p / 8 + 8) (2 ^ p) 1), sqUp p m (expTermsUp p (hi / 2 ^ m + 1) (p / 8 + 8) (2 ^ p) 1))

/-! ### π, sine and cosine -/

/-- atan(1/q), by Σ (-1)^k / ((2k+1) q^(2k+1)); `pw` is the present power. -/
def atanInv (q2 : Nat) : Nat → Nat → Nat → Int
  | 0, _, _ => 0
  | n + 1, pw, k => (pw / k : Nat) - atanInv q2 n (pw / q2) (k + 2)

/-- π = 16 atan(1/5) − 4 atan(1/239). -/
def piIv (p : Nat) : Iv :=
  let x := 16 * atanInv 25 p (2 ^ p / 5) 1 - 4 * atanInv (239 * 239) p (2 ^ p / 239) 1
  { lo := x - 40 * p, hi := x + 40 * p }

/-- Terms of the sine or cosine series of `x` from `k`. -/
def trigTerms (p : Nat) (x2 : Int) : Nat → Int → Nat → Int
  | 0, _, _ => 0
  | n + 1, t, k => t + trigTerms p x2 n (-(t * x2 / 2 ^ p / ((k + 1) * (k + 2) : Nat))) (k + 2)

/-- sin(num/den), or cos: the argument is reduced by multiples of π/2 at a precision that covers its magnitude. -/
def trigIv (p : Nat) (cos : Bool) (neg : Bool) (num den : Nat) : Iv :=
  let q := p + Nat.log2 (num / den + 1) + 8
  let z := num * 2 ^ q / den
  let pi := piIv q
  let k := z * 2 / pi.lo.toNat
  let a : Int := z - (k : Int) * pi.hi / 2 - 1
  let b : Int := z + 1 - (k : Int) * pi.lo / 2 + 1
  let m := (k + (if cos then 1 else 0)) % 4
  let x2 := a * a / 2 ^ q
  let v : Int := if m % 2 = 0 then trigTerms q x2 (q / 2) a 1 else trigTerms q x2 (q / 2) (2 ^ q) 0
  let v : Int := if m ≥ 2 then -v else v
  let v : Int := if neg && !cos then -v else v
  let err : Int := b - a + 4 * (q : Int) + 8
  { lo := (v - err) / 2 ^ (q - p) - 1, hi := (v + err) / 2 ^ (q - p) + 1 }

/-! ### The logistic function -/

/-- 1/(1 + e^-u) for an argument of a sign and a magnitude enclosed by units of 2^-p. -/
def sigmoidIv (p : Nat) (neg : Bool) (lo hi : Nat) : Iv :=
  let cap := 4 * p * 2 ^ p
  if lo ≥ cap then (if neg then { lo := 0, hi := 1 } else { lo := 2 ^ p - 1, hi := 2 ^ p })
  else
    let e := expIv p lo (min hi (cap + 2 ^ p))
    let one : Nat := 2 ^ p
    if neg then { lo := (one * one / (e.2 + one) : Nat), hi := (one * one / (e.1 + one) + 1 : Nat) }
    else { lo := (e.1 * one / (e.1 + one) : Nat), hi := (e.2 * one / (e.2 + one) + 1 : Nat) }

/-- Product of a positive enclosure and an exact positive fraction; an exact end stays exact. -/
def Iv.scaleBy (x : Iv) (num den : Nat) : Iv :=
  { lo := x.lo * num / den, hi := (x.hi * num + (den - 1 : Nat)) / den }

/-! ### Rounding an enclosure -/

/-- The value at an odd number of units of 2^-(p+1). -/
def ivPoint (p : Nat) (n : Int) : Val := .fin (n < 0) n.natAbs (2 ^ (p + 1))

/-- The encoding that every value strictly inside an enclosure rounds to, if it is one. No rounding boundary of a format lies
strictly between two neighbouring units. Open points: DESIGN CHOICE (log 11). -/
def Iv.round (f : Fmt) (p : Nat) (x : Iv) : Option Nat :=
  let a := (f.round .rne (ivPoint p (2 * x.lo + 1))).1
  let b := (f.round .rne (ivPoint p (2 * x.hi - 1))).1
  if a = b then some a else none

end Sys2Proof.Machine
end

