-- ==== Sys2Proof/Machine/Heddle.lean ====
section
/-! DEFINITION. The Heddle: weight sets, layer arithmetic, neural calls, bins, tiles and the Bobbin (14 R310 to R324). -/

namespace Sys2Proof.Machine

/-! ### Weight-set records (R310 to R312) -/

structure Layer where
  inp : Nat
  out : Nat
  wfmt : Nat
  act : Nat
  woff : Nat
  boff : Nat
  soff : Nat
deriving DecidableEq, Repr

/-- Bytes of a row of weights. -/
def Layer.rp (l : Layer) : Nat := (l.inp + 31) / 32 * (if l.wfmt = 0 then 64 else if l.wfmt = 1 then 32 else 16)

/-- The layers of a record in words, from layer `l` with input width `n`. -/
def layersFrom (ws : List W32) (l n : Nat) : Nat → List Layer
  | 0 => []
  | k + 1 =>
    let d := word ws (16 + 4 * l)
    let o := bitsOf d 6 0 + 1
    { inp := n, out := o, wfmt := bitsOf d 9 8, act := bitsOf d 12 10, woff := (word ws (17 + 4 * l)).toNat,
      boff := (word ws (18 + 4 * l)).toNat, soff := (word ws (19 + 4 * l)).toNat } :: layersFrom ws (l + 1) o k

/-- Input width of a record. -/
def netInputs (ws : List W32) : Nat := bitsOf (word ws 0) 17 12 + 1

/-- The layers of a record. -/
def netLayers (ws : List W32) : List Layer := layersFrom ws 0 (netInputs ws) (bitsOf (word ws 0) 10 8 + 1)

/-- Words of header and descriptors. -/
def netHead (ws : List W32) : Nat := 16 + 4 * (bitsOf (word ws 0) 10 8 + 1)

/-- A malformed record (R312). -/
def netBad (ws : List W32) : Bool :=
  let ls := netLayers ws
  let ext := (word ws 1).toNat
  let layerBad (l : Layer) : Bool :=
    l.wfmt = 3 || l.act > 5 || l.woff % 64 ≠ 0 || l.boff % 4 ≠ 0 || (l.wfmt ≠ 2 && l.soff ≠ 0)
    || l.woff + l.out * l.rp > ext || l.boff + 4 * l.out > ext || (l.wfmt = 2 && l.soff + l.out * ((l.inp + 31) / 32) > ext)
  bitsOf (word ws 0) 7 0 ≠ 1 || (word ws 0).getLsbD 11 || bitsOf (word ws 0) 31 18 ≠ 0 || ext % 64 ≠ 0 || ext > 65536
  || ext < 64 * (bitsOf (word ws 0) 10 8 + 5) || (upFrom 2 14).any (fun k => word ws k ≠ 0)
  || (upFrom 0 ls.length).any (fun l => let d := word ws (16 + 4 * l); d.getLsbD 7 || bitsOf d 31 13 ≠ 0)
  || ls.any layerBad || ((ls.getLast?).map (fun l => decide (l.out > 32))).getD true

/-- Whether a call's widths are those of the record. -/
def netFits (ws : List W32) (nin nout : Nat) : Bool := netInputs ws = nin && ((netLayers ws).getLast?).map (fun l => l.out) = some nout

/-- S: the K-32 steps of a tile (R321, R322). -/
def netSteps (ws : List W32) : Nat := sumNat ((netLayers ws).map (fun l => (l.inp + 31) / 32))

/-- F: bytes of a Beam slice that the set takes (R314). -/
def netFoot (ws : List W32) : Nat :=
  sumNat ((netLayers ws).map (fun l => (l.rp + 4 + (if l.wfmt = 2 then (l.inp + 31) / 32 else 0) + 63) / 64 * 64))

/-! ### Activations (R315) -/

/-- √(2/π) times a positive fraction, doubled, in units of 2^-p. -/
def geluArg (p num den : Nat) : Nat × Nat :=
  let pi := piIv p
  let lo := isqrt (2 * 2 ^ (3 * p) / pi.hi.toNat)
  let hi := isqrt (2 * 2 ^ (3 * p) / pi.lo.toNat) + 1
  (2 * lo * num / den, 2 * hi * num / den + 1)

/-- The magnitude of an activation of a non-zero finite input, enclosed at a precision; and whether it is negative. -/
def actIv (p act : Nat) (neg : Bool) (num den : Nat) : Iv × Bool :=
  let u := num * 2 ^ p / den
  match act with
  | 2 => ((sigmoidIv p neg u (u + 1)).scaleBy num den, neg)
  | 3 =>
    let a := geluArg p (num * (1000000 * den * den + 44715 * num * num)) (1000000 * den * den * den)
    ((sigmoidIv p neg a.1 a.2).scaleBy num den, neg)
  | 4 => (sigmoidIv p neg u (u + 1), false)
  | _ =>
    let x := trigIv p false false num den
    if x.hi ≤ 0 then ({ lo := -x.hi, hi := -x.lo }, !neg) else (x, neg)

/-- Round the magnitude of an activation at the first precision that decides it. Open points: DESIGN CHOICE (log 11). -/
def actTry (f : Fmt) (act : Nat) (neg : Bool) (num den : Nat) : List Nat → Option Nat
  | [] => none
  | p :: ps =>
    let x := actIv p act neg num den
    if x.1.lo < 0 then actTry f act neg num den ps
    else
      match x.1.round f p with
      | some m => some (m + f.signBit x.2)
      | none => actTry f act neg num den ps

/-- round(act(z), f, RNE). Open points: DESIGN CHOICE (log 11). -/
def actRound (f : Fmt) (act : Nat) (z : W32) : Nat :=
  let v := Fmt.fp32.value z.toNat
  let zero (neg : Bool) : Nat := f.signBit neg
  match v with
  | .nan => (f.round .rne .nan).1
  | .inf neg =>
    (match act with
     | 0 => (f.round .rne v).1
     | 4 => if neg then 0 else (f.round .rne (.fin false 1 1)).1
     | 5 => (f.round .rne .nan).1
     | 1 => if neg then 0 else (f.round .rne v).1
     | _ => if neg then zero true else (f.round .rne v).1)
  | .fin neg num den =>
    if act = 0 then (f.round .rne v).1
    else if act = 1 then (if neg || num = 0 then 0 else (f.round .rne v).1)
    else if num = 0 then (if act = 4 then (f.round .rne (.fin false 1 2)).1 else zero neg)
    else
      match actTry f act neg num den [512, 1024, 2048] with
      | some x => x
      | none => (Config.actTie act z).toNat % 2 ^ f.bits

/-! ### Layer arithmetic (R313) -/

/-- The value of weight `k` of unit `j`. -/
def weightVal (bs : List Byte) (l : Layer) (j k : Nat) : Val :=
  let row := bs.drop (l.woff + j * l.rp)
  match l.wfmt with
  | 0 => Fmt.bf16.value (elemAt row 16 k)
  | 1 => Fmt.e4m3.value (elemAt row 8 k)
  | _ => ((e8m0 ((nth bs (l.soff + j * ((l.inp + 31) / 32) + k / 32)).getD 0).toNat).mul (Fmt.e2m1.value (elemAt row 4 k))).1

/-- z of output unit `j`: K-32 steps over the inputs. -/
def unitSum (bs : List Byte) (l : Layer) (xs : List Val) (j : Nat) : W32 :=
  let prod (k : Nat) : Val := if k < l.inp then (((nth xs k).getD .nan).mul (weightVal bs l j k)).1 else .fin false 0 1
  (upFrom 0 ((l.inp + 31) / 32)).foldl
    (fun z s => combine (Fmt.fp32.value z.toNat :: (upFrom (32 * s) 32).map prod)) (wordOfBytes ((bs.drop (l.boff + 4 * j)).take 4))

/-- Evaluate layers on inputs; `mid` rounds between layers. -/
def evalLayers (bs : List Byte) (mid : Nat → W32 → Val) : List Layer → List Val → List W32
  | [], _ => []
  | [l], xs => (upFrom 0 l.out).map (fun j => BitVec.ofNat 32 (actRound Fmt.fp32 l.act (unitSum bs l xs j)))
  | l :: ls, xs => evalLayers bs mid ls ((upFrom 0 l.out).map (fun j => mid l.act (unitSum bs l xs j)))

/-- A call's results (R313). -/
def evalNet (ws : List W32) (inputs : List W32) : List W32 :=
  let bf (x : Nat) : Val := Fmt.bf16.value x
  evalLayers (bytesOfWords ws) (fun act z => bf (actRound Fmt.bf16 act z)) (netLayers ws)
    (inputs.map (fun x => bf (Fmt.bf16.round .rne (Fmt.fp32.value x.toNat)).1))

/-! ### Settling calls (R318) -/

/-- A call's results reach its pending operation. -/
def State.callDone (s : State) (c : Call) (ws : List W32) : State :=
  s.updOp c.group c.seq (fun o => { o with lanes := updWhere (fun l => l.lane = c.lane) (fun l => { l with acc := .done ws }) o.lanes })

/-- A call that cannot be evaluated writes NaN; its lane takes a lane trap, but a handler lane does not (R332). -/
def State.settleCall (s : State) (cause : Option Cause) (c : Call) : State :=
  let s := s.callDone c (List.replicate c.nout 0x7FC00000#32)
  match cause, s.group? c.group with
  | some x, some g => if g.handler.isSome then s else s.updOp c.group c.seq (fun o => { o with causes := o.causes ++ [(c.lane, x)] })
  | _, _ => s

def State.settleCalls (s : State) (cause : Option Cause) (cs : List Call) : State := cs.foldl (fun s c => s.settleCall cause c) s

/-! ### Bins (R319) -/

/-- Closed bins become tiles while the tile queue has room. -/
def dispatchBins : Nat → Cluster → Cluster
  | 0, x => x
  | n + 1, x =>
    if x.tiles.length ≥ Config.heddleBins then x
    else
      match x.bins.find? (fun b => b.closed) with
      | none => x
      | some b =>
        dispatchBins n { x with bins := x.bins.erase b,
                                tiles := x.tiles ++ [{ part := b.part, handle := b.handle, calls := b.calls, core := none, step := 0,
                                                       parked := none, buf := { got := [], asked := none } }] }

def Cluster.dispatch (x : Cluster) : Cluster := dispatchBins Config.heddleBins x

/-- Tile `i` leaves the queue of a cluster, and a closed bin takes the entry (R320). -/
def State.dropTile (s : State) (c : ClusterKey) (i : Nat) : State :=
  s.updCluster c (fun x => ({ x with tiles := dropNth x.tiles i } : Cluster).dispatch)

/-- A call enters the open bin of its handle, or opens one; when all 16 bins are open, the one opened earliest dispatches first. Says
whether the call has entered: it has not while no bin is free, a closed bin waiting for the tile queue. Open points: DEDUCED (log 28). -/
def Cluster.enterCall (x : Cluster) (part clock : Nat) (h : Addr) (c : Call) : Cluster × Bool :=
  let same (b : Bin) : Bool := !b.closed && b.part = part && b.handle = h
  let fresh : Bin := { part := part, handle := h, calls := [c], opened := clock, closed := false }
  let join (x : Cluster) : Cluster := { x with bins := x.bins ++ [fresh] }
  let x := x.dispatch
  if x.bins.any same then
    (({ x with bins := updWhere same (fun b => { b with calls := b.calls ++ [c], closed := b.calls.length + 1 ≥ 64 }) x.bins } : Cluster).dispatch, true)
  else if x.bins.length < Config.heddleBins then (join x, true)
  else if x.bins.any (fun b => b.closed) then (x, false)
  else
    match minBy (fun (b : Bin) => b.opened) x.bins with
    | some o =>
      let y := ({ x with bins := updWhere (fun b => b == o) (fun b => { b with closed := true }) x.bins } : Cluster).dispatch
      if y.bins.length < Config.heddleBins then (join y, true) else (y, false)
    | none => (x, false)

/-- Calls enter bins in lane order until one must wait; gives the lanes whose calls have not entered. -/
def enterCalls (c : ClusterKey) (part clock : Nat) (call : Nat → Addr × Call) : List Nat → State → State × List Nat
  | [], s => (s, [])
  | i :: is, s =>
    match (s.cluster c).enterCall part clock (call i).1 (call i).2 with
    | (x, true) => enterCalls c part clock call is (s.updCluster c (fun _ => x))
    | (x, false) => (s.updCluster c (fun _ => x), i :: is)

/-- The calls of lanes enter; the instruction holds while one has to wait (R319). -/
def State.enterAll (s : State) (is : Iss) (seq : Nat) (call : Nat → Addr × Call) (lanes : List Nat) : Eff :=
  match enterCalls (clusterOf is.core) is.team.part (s.coreClock is.core) call lanes s with
  | (s, []) => .go (s.updGroup is.key (fun g => { g with entering := none }))
  | (s, rest) => .hold (s.updGroup is.key (fun g => { g with entering := some (seq, rest) }))

/-- NCALL. -/
def execNcall (d a : Opnd) (tag : BitVec 4) (c : Opnd) (nin : BitVec 6) (nout : BitVec 5) (s : State) :
    Host.Outcome State Fault Refusal :=
  let ni := nin.toNat + 1
  let no := nout.toNat + 1
  let sh : Shape :=
    { slots := [Slot.o d Kinds.vOnly no 1, Slot.s a Kinds.vOnly ni 1, Slot.s c Kinds.vw 2 2], long := true, tag := some tag }
  issue s sh (fun is =>
    let handle (i : Nat) : Addr := is.g.src64 (is.g.lane i) c
    let ins (i : Nat) : List W32 := is.g.srcs (is.g.lane i) .fp a ni
    let call (seq i : Nat) : Addr × Call := (handle i, { group := is.key, seq := seq, lane := i, inputs := ins i, nout := no })
    match is.g.entering with
    | some (seq, rest) => s.enterAll is seq (call seq) rest
    | none =>
      if is.lanes.any (fun i => !canonical (handle i) || (handle i).toNat % 64 ≠ 0) then Eff.trap s is Causes.neuralOperand
      else
        match s.pendOp is tag d no (.neural ni no) (is.lanes.map (fun i => PendLane.new i (handle i) (ins i))) 0 with
        | .go s => s.enterAll is is.g.seq (call is.g.seq) is.lanes
        | e => e)

/-- Whether a bin holds a call of a draining group or of a stopping team. -/
def State.binForced (s : State) (b : Bin) : Bool :=
  b.calls.any (fun c => match s.group? c.group, s.team? c.group.team with
    | some g, some t => g.draining || t.stop.isSome || g.stopped
    | _, _ => true)

/-- NCALL_BIN_TIMEOUT: a bin that has been open for 256 core clocks, or that holds a call of a draining group or a stopping team,
dispatches. Open points: DEDUCED (log 28). -/
def execNcallBinTimeout (c : ClusterKey) (i : Nat) (s : State) : Host.Outcome State Fault Refusal :=
  match nth (s.cluster c).bins i with
  | none => .next s
  | some b =>
    if b.closed || s.clock c.die ≥ b.opened + Config.binAge || s.binForced b then
      .next (s.updCluster c (fun x => ({ x with bins := updNth (fun b => { b with closed := true }) x.bins i } : Cluster).dispatch))
    else .next s

/-! ### The Bobbin (R314, R320, R267) -/

/-- The key index of the page that holds a record, where it translates. -/
def State.pageKey (s : State) (pt : Point) (part va : Nat) : Nat :=
  match (s.translate pt part va).2 with | .leaf p _ _ => p.key | _ => 0

/-- Whether a tile of the cluster runs on a core with a set. -/
def Cluster.runsOn (x : Cluster) (core : Nat) (b : BobSet) : Bool := x.tiles.any (fun t => t.core = some core && t.part = b.part && t.handle = b.handle)

/-- Whether a queued or running tile of the cluster uses a set of a core: it runs there, or it has no core yet (R320). -/
def Cluster.uses (x : Cluster) (core : Nat) (b : BobSet) : Bool :=
  x.tiles.any (fun t => (t.core = some core || t.core.isNone) && t.part = b.part && t.handle = b.handle)

/-- The lowest offset of a Bobbin slice of `bob` bytes at which `f` bytes are free between sets in offset order. Open points:
DESIGN CHOICE (log 46). -/
def gapFrom (bob f : Nat) : Nat → List BobSet → Option Nat
  | at', [] => if at' + f ≤ bob then some at' else none
  | at', b :: bs => if at' + f ≤ b.off then some at' else gapFrom bob f (max at' (b.off + b.foot)) bs

/-- The offset for `f` bytes among resident sets (R314). -/
def gapFor (bob f : Nat) (sets : List BobSet) : Option Nat := gapFrom bob f 0 (sortBy (fun (b : BobSet) => b.off) sets)

/-- The sets that make room for `f` bytes on a core, taken from a list in order, with the offset; none if they do not suffice. -/
def roomFor (bob f : Nat) (sets : List BobSet) : List BobSet → List BobSet → Option (List BobSet × Nat)
  | [], gone => (gapFor bob f (sets.filter (fun b => !gone.contains b))).map (fun o => (gone, o))
  | b :: bs, gone =>
    match gapFor bob f (sets.filter (fun b => !gone.contains b)) with
    | some o => some (gone, o)
    | none => roomFor bob f sets bs (gone ++ [b])

/-- The sets to remove from a core for a set of `f` bytes, least recently used first and pinned ones last, and its offset; an older copy
of the same set goes as well. Open points: DEDUCED (log 28). -/
def State.removals (s : State) (x : Cluster) (k : CoreKey) (part : Nat) (h : Addr) (f : Nat) : Option (List BobSet × Nat) :=
  let core := s.core k
  let same := core.sets.filter (fun b => b.part = part && b.handle = h)
  if core.bob < f || same.any (x.runsOn k.core) then none
  else
    let others := core.sets.filter (fun b => !same.contains b)
    let order := sortBy (fun (b : BobSet) => b2n (!b.pins.isEmpty) * 2 ^ 64 + b.used) (others.filter (fun b => !x.uses k.core b))
    (roomFor core.bob f others order []).map (fun g => (g.1 ++ same, g.2))

/-- The core that a set of `f` bytes goes to, with what it removes and the offset; none while its Shuttle queue has no room for the fetch
(R320). -/
def State.placeSet (s : State) (c : ClusterKey) (part : Nat) (h : Addr) (f : Nat) : Option (CoreKey × List BobSet × Nat) :=
  let x := s.cluster c
  let opts := (clusterCores c).filterMap (fun k => (s.removals x k part h f).map (fun g => (k, g)))
  (minBy (fun (e : CoreKey × List BobSet × Nat) => sumNat (e.2.1.map (fun b => b.foot))) opts).filter (fun e =>
    (s.core e.1).shuttle.length < Config.shuttleQueue)

/-- Place a set whose record is `ws`, and queue its fetch in the core's Shuttle, under an issuer that is no group (R320). -/
def State.putSet (s : State) (c : ClusterKey) (k : CoreKey) (gone : List BobSet) (off part : Nat) (h : Addr) (ws : List W32)
    (pins : List Nat) : State :=
  let n := s.serial
  let b : BobSet :=
    { handle := h, part := part, key := s.pageKey (.shuttle k) part h.toNat, off := off, foot := netFoot ws, words := ws, ready := false,
      pins := pins, used := (s.cluster c).use, filler := n, evict := false }
  let j : ShuttleJob :=
    { group := { team := n, idx := 0 }, op := n, seq := 0, kind := .bobbin part h, rec' := none, pos := 0, within := 0, bytes := 0, fold := 0,
      scale := none, row := none, parked := none, held := [], tags := [], logPos := 0, sPos := 0, bPos := 0, buf := { got := [], asked := none } }
  let s := { s with serial := n + 1 }
  (s.updCluster c (fun x => { x with use := x.use + 1 })).updCore k (fun y =>
    { y with sets := b :: y.sets.filter (fun z => !gone.contains z), shuttle := y.shuttle ++ [j] })

/-- The reader of a weight fetch: engine reads of no scope, each word one it has held since the latest start of a launch that may use
the copy (R267). Open points: DEDUCED (log 28). -/
def State.weightReader (s : State) (k : CoreKey) (part : Nat) : Reader :=
  let pos := (s.launches.filter (fun l => l.part = part && l.stage = .eligible)).map (fun l => l.logPos)
  { pt := .shuttle k, part := part, since := some (pos.foldl max 0) }

/-- Read a record: its header and its descriptors. -/
def readNet (r : Reader) (buf : PeerBuf) (va : Nat) : Eng (List W32) := do
  let h ← engWords r buf va 16
  engWords r buf va (netHead h)

/-- A kill fault of a weight fetch stops every team that has a call in the tile (R318). Open points: DEDUCED (log 28). -/
def State.killTile (s : State) (calls : List Call) (va : Nat) (absent : Bool) : State :=
  let firsts := (sortNat (calls.map (fun c => c.group.team))).filterMap (fun t => calls.find? (fun c => c.group.team = t))
  firsts.foldl (fun s c =>
    let pc := (((s.group? c.group).bind (fun g => g.pend.find? (fun o => o.seq = c.seq))).map (fun o => o.pc)).getD 0
    s.lateStop c.group { StopCause.at Causes.weightFault pc with va := va, acc := 4, pol := 3, np := absent, async := true }) s

/-- A park of a weight fetch holds the tile, with a notice about its first call. Open points: DEDUCED (log 28). -/
def State.parkTile (s : State) (c : ClusterKey) (i : Nat) (t : HTile) (va : Nat) (absent : Bool) : State :=
  let s := s.updCluster c (fun x => { x with tiles := updNth (fun y => { y with parked := some va }) x.tiles i })
  match t.calls with
  | [] => s
  | a :: _ =>
    let pc := (((s.group? a.group).bind (fun g => g.pend.find? (fun o => o.seq = a.seq))).map (fun o => o.pc)).getD 0
    let r := s.groupRec a.group kNotice (if absent then Causes.parkAbsent else Causes.parkPermission)
    s.emit t.part { r with parked := true, pc := pc, va := va, acc := 4, np := absent } (some a.group) none

/-- The record of a tile has been read: its calls settle, or the set is placed. Open points: DEDUCED (log 28). -/
def State.tileRecord (s : State) (c : ClusterKey) (i : Nat) (t : HTile) (ws : List W32) : State :=
  if netBad ws then (s.settleCalls (some Causes.weightRecord) t.calls).dropTile c i
  else
    let fits (k : Call) : Bool := netFits ws k.inputs.length k.nout
    let s := s.settleCalls (some Causes.weightRecord) (t.calls.filter (fun k => !fits k))
    let calls := t.calls.filter fits
    let f := netFoot ws
    if calls.isEmpty then s.dropTile c i
    else if (clusterCores c).all (fun k => (s.core k).bob < f) then (s.settleCalls (some Causes.bobbinCapacity) calls).dropTile c i
    else
      match s.placeSet c t.part t.handle f with
      | none => s.updCluster c (fun x => { x with tiles := updNth (fun y => { y with calls := calls }) x.tiles i })
      | some (k, gone, off) =>
        (s.putSet c k gone off t.part t.handle ws []).updCluster c (fun x =>
          { x with tiles := updNth (fun y => { y with calls := calls, core := some k.core, buf := { got := [], asked := none } }) x.tiles i })

/-- What a fault of a weight fetch means for a tile that waits for it (R318). -/
def State.tileFault (s : State) (c : ClusterKey) (i : Nat) (t : HTile) (e : EngStop) : State :=
  match e with
  | .fault va 0 absent => s.parkTile c i t va absent
  | .fault va 3 absent => ((s.killTile t.calls va absent).settleCalls none t.calls).dropTile c i
  | .fault _ _ _ | .error _ => (s.settleCalls (some Causes.weightFault) t.calls).dropTile c i
  | .wait va session addr =>
    let (s, buf) := s.askWord t.part t.buf va session addr
    s.updCluster c (fun x => { x with tiles := updNth (fun y => { y with buf := buf }) x.tiles i })
  | .swap _ _ _ _ _ => s

/-- Tile `i`, which has no core: it takes one whose Bobbin holds its set, or its record is read and checked and its set is placed. A tile
whose set has left its core is to be placed again. -/
def State.settleTile (s : State) (c : ClusterKey) (i : Nat) (t : HTile) : State :=
  let setTile (s : State) (f : HTile → HTile) : State := s.updCluster c (fun x => { x with tiles := updNth f x.tiles i })
  match t.core with
  | some n =>
    let k : CoreKey := { die := c.die, core := n }
    if (s.core k).sets.any (fun b => b.part = t.part && b.handle = t.handle) then s
    else setTile s (fun y => { y with core := none, step := 0 })
  | none =>
    let ls := s.callLaunches t.calls
    match s.holder c t.part t.handle ls with
    | some k =>
      let ws := (((s.core k).sets.find? (fun b => b.part = t.part && b.handle = t.handle && s.usable b ls)).map (fun b => b.words)).getD []
      let fits (k : Call) : Bool := netFits ws k.inputs.length k.nout
      let s := s.settleCalls (some Causes.weightRecord) (t.calls.filter (fun k => !fits k))
      if (t.calls.filter fits).isEmpty then s.dropTile c i
      else setTile s (fun y => { y with calls := t.calls.filter fits, core := some k.core })
    | none =>
      let (s, buf, ready) := s.pollBuf t.buf
      if !ready then s
      else
        let t := { t with buf := buf }
        let s := setTile s (fun _ => t)
        match readNet (s.weightReader { die := c.die, core := 4 * c.cluster } t.part) buf t.handle.toNat s with
        | .ok ws s => s.tileRecord c i t ws
        | .error e s => s.tileFault c i t e

/-- Hint `i`: its set is pinned if it is there, or its record is read and its set is placed; one that cannot be followed is dropped (R323). -/
def State.settleHint (s : State) (c : ClusterKey) (i : Nat) (h : Hint) : State :=
  let drop (s : State) : State := s.updCluster c (fun x => { x with hints := dropNth x.hints i })
  let pins := if h.pin then [h.launch] else []
  match s.holder c h.part h.handle [h.launch] with
  | some k =>
    let keep (b : BobSet) : BobSet := { b with pins := pins.foldl (fun l n => insertNat n l) b.pins, evict := b.evict && !h.pin }
    drop (s.updCore k (fun y => { y with sets := updWhere (fun b => b.part = h.part && b.handle = h.handle) keep y.sets }))
  | none =>
    let (s, buf, ready) := s.pollBuf h.buf
    if !ready then s
    else
      match readNet (s.weightReader { die := c.die, core := 4 * c.cluster } h.part) buf h.handle.toNat s with
      | .ok ws s =>
        let f := netFoot ws
        if netBad ws || (clusterCores c).all (fun k => (s.core k).bob < f) then drop s
        else
          (match s.placeSet c h.part h.handle f with
           | none => s
           | some (k, gone, off) => drop (s.putSet c k gone off h.part h.handle ws pins))
      | .error (.wait va session addr) s =>
        let (s, buf) := s.askWord h.part buf va session addr
        s.updCluster c (fun x => { x with hints := updNth (fun y => { y with buf := buf }) x.hints i })
      | .error _ s => drop s

/-- The sets that an NEVICT named leave once no tile uses them (R323). -/
def State.sweepSets (s : State) (c : ClusterKey) : State :=
  let x := s.cluster c
  (clusterCores c).foldl (fun s k =>
    if (s.core k).sets.any (fun b => b.evict && !x.uses k.core b) then
      s.updCore k (fun y => { y with sets := y.sets.filter (fun b => !(b.evict && !x.uses k.core b)) })
    else s) s

/-- The tiles of a cluster that wait for a set of a core, by position, the last first. -/
def State.waitingTiles (s : State) (k : CoreKey) (part : Nat) (h : Addr) : List (Nat × HTile) :=
  ((mapIdx (fun i t => (i, t)) (s.cluster (clusterOf k)).tiles 0).filter (fun e =>
    e.2.core = some k.core && e.2.part = part && e.2.handle = h)).reverse

/-- The set that a weight fetch fills. -/
def BobSet.filling (part : Nat) (h : Addr) (b : BobSet) : Bool := b.part = part && b.handle = h && !b.ready

/-- A weight fetch ends without its set. -/
def State.dropFetch (s : State) (k : CoreKey) (j : ShuttleJob) (part : Nat) (h : Addr) : State :=
  (s.dropJob k j).updCore k (fun y => { y with sets := y.sets.filter (fun b => !b.filling part h) })

/-- The Shuttle serves a weight fetch: the arrays are read, and the set is resident; a fault acts on every tile that waits for the set, and
drops a fetch that none waits for. Open points: DEDUCED (log 28). -/
def State.serveFetch (s : State) (k : CoreKey) (j : ShuttleJob) (part : Nat) (h : Addr) : State :=
  match (s.core k).sets.find? (BobSet.filling part h) with
  | none => s.dropJob k j
  | some b =>
    let (s, buf, ready) := s.pollBuf j.buf
    if !ready then s
    else
      let n := b.words.length
      let s := s.updJob k j (fun x => { x with buf := buf })
      match engWords (s.weightReader k part) buf (h.toNat + 4 * n) ((word b.words 1).toNat / 4 - n) s with
      | .ok ws s =>
        let mine (t : HTile) : Bool := t.core = some k.core && t.part = part && t.handle = h
        ((s.dropJob k j).updCore k (fun y =>
          { y with sets := updWhere (BobSet.filling part h) (fun x => { x with words := b.words ++ ws, ready := true }) y.sets })).updCluster
          (clusterOf k) (fun x => { x with tiles := updWhere mine (fun t => { t with parked := none }) x.tiles })
      | .error (.wait va session addr) s =>
        let (s, buf) := s.askWord part buf va session addr
        s.updJob k j (fun x => { x with buf := buf })
      | .error e s =>
        let ts := s.waitingTiles k part h
        let parks := match e with | .fault _ 0 _ => !ts.isEmpty | _ => false
        let s := ts.foldl (fun s t => s.tileFault (clusterOf k) t.1 t.2 e) s
        (if parks then s.updJob k j (fun x => { x with parked := some h }) else s.dropFetch k j part h).sweepSets (clusterOf k)

/-- Parked weight fetches go on once some tile that waits for their set is not parked, or none waits (R318; 18 R402). -/
def State.wakeFetches (s : State) : State :=
  let idle (k : CoreKey) (j : ShuttleJob) : Bool :=
    match j.kind with
    | .bobbin part h =>
      let ts := s.waitingTiles k part h
      j.parked.isSome && (ts.isEmpty || ts.any (fun e => e.2.parked.isNone))
    | _ => false
  { s with cores := s.cores.map (fun c => (c.1, { c.2 with shuttle := updWhere (idle c.1) (fun j => { j with parked := none }) c.2.shuttle })) }

/-- Calls have left the tiles of the clusters: fetches that none waits for go on, and sets that an NEVICT named leave. -/
def State.callsLeft (s : State) : State := s.clusters.foldl (fun s c => s.sweepSets c.1) s.wakeFetches

/-- The first weight fetch that a Shuttle of a cluster serves next. -/
def State.fetchTurn (s : State) (c : ClusterKey) : Option (CoreKey × ShuttleJob × Nat × Addr) :=
  firstSome (fun k =>
    match (s.core k).serving with
    | some j => (match j.kind with | .bobbin part h => some (k, j, part, h) | _ => none)
    | none => none) (clusterCores c)

/-- BOBBIN_FETCH: tile `i` of a cluster finds its core; beyond the tiles, a hint does; beyond those, a Shuttle of the cluster serves the
weight fetch that is its next entry. Open points: DEDUCED (log 28). -/
def execBobbinFetch (c : ClusterKey) (i : Nat) (s : State) : Host.Outcome State Fault Refusal :=
  let x := s.cluster c
  match nth x.tiles i, nth x.hints (i - x.tiles.length), s.fetchTurn c with
  | some t, _, _ => .next (if t.parked.isSome then s else (s.settleTile c i t).sweepSets c)
  | none, some h, _ => .next (s.settleHint c (i - x.tiles.length) h)
  | none, none, some (k, j, part, h) => .next (s.serveFetch k j part h)
  | none, none, none => .next s

/-- A tile ends: each call's results are written. -/
def State.finishTile (s : State) (c : ClusterKey) (k : CoreKey) (i : Nat) (t : HTile) (b : BobSet) : State :=
  let s := t.calls.foldl (fun s (x : Call) => s.callDone x (evalNet b.words x.inputs)) s
  let now := (s.cluster c).use
  let s := s.updCore k (fun y => { y with sets := updWhere (fun z => z.filler = b.filler) (fun z => { z with used := now }) y.sets })
  ((s.dropTile c i).updCluster c (fun x => { x with use := x.use + 1 })).sweepSets c

/-- HEDDLE_TILE: tile `i`, when it is the Heddle's tile on its core and the wheel's slot falls to the Heddle, takes its next K-32 step
(R320, R321); after the last one its results are written. -/
def execHeddleTile (c : ClusterKey) (i : Nat) (s : State) : Host.Outcome State Fault Refusal :=
  match nth (s.cluster c).tiles i with
  | none => .next s
  | some t =>
    match t.core with
    | none => .next s
    | some n =>
      let k : CoreKey := { die := c.die, core := n }
      match s.heddleTile k, (s.core k).setOf t with
      | some (m, _), some b =>
        if m ≠ i || !s.heddleTurn k then .next s
        else
          let s := s.turnWheel k
          .next (if t.step + 1 < netSteps b.words then
              s.updCluster c (fun x => { x with tiles := updNth (fun y => { y with step := y.step + 1 }) x.tiles i })
            else s.finishTile c k i t b)
      | _, _ => .next s

/-! ### Hints (R323) -/

/-- A hint on each handle that the contributing lanes name, one that no record can stand at dropped. -/
def hintOp (a : Opnd) (f : ClusterKey → Iss → Addr → State → State) (s : State) : Host.Outcome State Fault Refusal :=
  issue s { slots := [Slot.s a Kinds.vw 2 2] } (fun is =>
    let hs := is.lanes.map (fun i => is.g.src64 (is.g.lane i) a)
    let ok (h : Addr) : Bool := canonical h && h.toNat % 64 = 0
    .go (((pcsOf (hs.map (fun h => (0, h)))).filter ok).foldl (fun s h => f (clusterOf is.core) is h s) s))

/-- A set is asked for. -/
def State.askSet (s : State) (c : ClusterKey) (is : Iss) (h : Addr) (pin : Bool) : State :=
  s.updCluster c (fun x => { x with hints := x.hints ++
    [{ part := is.team.part, handle := h, launch := is.team.launch, pin := pin, buf := { got := [], asked := none } }] })

/-- A set is to go: its pin is cleared, and it leaves unless a tile uses it (R323). -/
def State.releaseSet (s : State) (c : ClusterKey) (is : Iss) (h : Addr) : State :=
  let mine (b : BobSet) : Bool := b.part = is.team.part && b.handle = h
  let s := s.updCluster c (fun x => { x with hints := x.hints.filter (fun y => !(y.part = is.team.part && y.handle = h)) })
  ((clusterCores c).foldl (fun s k =>
    s.updCore k (fun y => { y with sets := updWhere mine (fun b => { b with pins := [], evict := true }) y.sets })) s).sweepSets c

/-- NPIN. -/
def execNpin (a : Opnd) (s : State) : Host.Outcome State Fault Refusal := hintOp a (fun c is h s => s.askSet c is h true) s
/-- NPREF. -/
def execNpref (a : Opnd) (s : State) : Host.Outcome State Fault Refusal := hintOp a (fun c is h s => s.askSet c is h false) s
/-- NEVICT. -/
def execNevict (a : Opnd) (s : State) : Host.Outcome State Fault Refusal := hintOp a (fun c is h s => s.releaseSet c is h) s

end Sys2Proof.Machine
end

