-- ==== Sys2Proof/Machine/Control.lean ====
section
/-! DEFINITION. Framing and control flow: RUN, TRAIL, branches, calls, rejoin barriers, EXIT, NOP, YIELD, TRAP, BRK, and the words
that the decoder refuses (03 R66, R67, R71, R73; 05 R107 to R112). -/

namespace Sys2Proof.Machine

/-- Open the issuer's run: its split takes the quarter, its temporaries become unwritten (R46, R66). -/
def State.openRun (s : State) (is : Iss) (len : Nat) : State :=
  let slot := is.run.slot
  s.updGroup is.key (fun g =>
    { (g.updSplit slot (fun x => { x with ready := none, since := none, low := false, promoted := false })).updLanes is.active
        (fun _ l => { l with t := [] }) with
      run := g.run.map (fun r => { r with opened := true, left := len, stalled := false }), lastSlot := slot })

/-- RUN (R66): at a run boundary it opens a run of `len` instructions, once the awaited tags are clear; at an instruction
position it is a misplaced framing word. Open points: DEDUCED (log 15). -/
def execRun (len : BitVec 5) (await : BitVec 16) (s : State) : Host.Outcome State Fault Refusal :=
  match s.issuer with
  | none => .fault .noIssuer
  | some is =>
    if is.run.opened then .next (s.teamStop is.key (StopCause.at Causes.misplacedFraming is.run.ipc))
    else if len.toNat = 0 || len.toNat > 24 then .next (s.teamStop is.key (StopCause.at Causes.runLength is.run.ipc))
    else if await &&& is.g.tagPend ≠ 0 then .next (s.updGroup is.key (fun g => { g with run := none }))
    else .next (s.openRun is len.toNat)

/-- TRAIL (R67): at the end of the stated length it ends the run; at an instruction position it is a misplaced framing word. -/
def execTrail (post : BitVec 16) (s : State) : Host.Outcome State Fault Refusal :=
  match s.issuer with
  | none => .fault .noIssuer
  | some is =>
    if !is.run.opened || is.run.left ≠ 0 then .next (s.teamStop is.key (StopCause.at Causes.misplacedFraming is.run.ipc))
    else .next (s.trail is post)

/-- A word that the decoder refuses stops the team with its cause (R72, R73). A reserved bit of the modifier word is found
before an unassigned value or an operand of the word. Open points: DEDUCED (log 13). -/
def execUnassignedMajorOpcode (c : Cause) (s : State) : Host.Outcome State Fault Refusal :=
  match s.issuer with
  | none => .fault .noIssuer
  | some is =>
    let late := c = Causes.unassignedFn || c = Causes.illegalOperand || c = Causes.encoding
    let c := if late && is.run.pfx.reserved ≠ 0 then Causes.reservedField else c
    .next (s.teamStop is.key (StopCause.at c is.run.ipc))

/-- A modifier word that no instruction follows (R71). -/
def execMisplacedPrefix (s : State) : Host.Outcome State Fault Refusal :=
  match s.issuer with
  | none => .fault .noIssuer
  | some is => .next (s.teamStop is.key (StopCause.at Causes.misplacedModifier is.run.ipc))

/-- FALL, the address after the run's TRAIL, as the last instruction sees it (R108). -/
def Run.fallThrough (r : Run) : Addr := r.next + 4

/-- The form of a control instruction without operands that ends a run or not. -/
def Shape.control (ender : Bool) : Shape := { slots := [], ender := ender }

/-- BRA: contributing lanes go to RUNADDR + 2·OFF24 (R108). -/
def execBra (off : BitVec 24) (s : State) : Host.Outcome State Fault Refusal :=
  issue s (Shape.control true) (fun is =>
    let target : Addr := is.run.addr + 2 * off.signExtend 64
    .go (s.setEnder is (.jump (is.lanes.map (fun i => (i, target))))))

/-- The form of BRX and RET: A an even v or w pair. -/
def Shape.target (a : Opnd) : Shape := { slots := [Slot.s a Kinds.vw 2 2], ender := true }

/-- Contributing lanes go to the address in their pair (R108). -/
def jumpReg (s : State) (a : Opnd) (is : Iss) : Eff :=
  .go (s.setEnder is (.jump (is.lanes.map (fun i => (i, is.g.src64 (is.g.lane i) a)))))

/-- BRX. -/
def execBrx (a : Opnd) (s : State) : Host.Outcome State Fault Refusal := issue s (Shape.target a) (jumpReg s a)

/-- RET has exactly the effect of BRX (R108). -/
def execRet (a : Opnd) (s : State) : Host.Outcome State Fault Refusal := issue s (Shape.target a) (jumpReg s a)

/-- CALL: D takes FALL, and contributing lanes go to RUNBASE + 16·OFF16 (R108). -/
def execCall (d : Opnd) (off : BitVec 16) (s : State) : Host.Outcome State Fault Refusal :=
  let sh : Shape := { slots := [Slot.o d Kinds.vw 2 2], ender := true }
  issue s sh (fun is =>
    let target : Addr := (is.run.addr &&& ~~~(15 : Addr)) + 16 * off.signExtend 64
    let fall := is.run.fallThrough
    match compute s sh is d (fun _ => ([lo32 fall, hi32 fall], 0)) with
    | .go s => .go (s.setEnder is (.jump (is.lanes.map (fun i => (i, target)))))
    | e => e)

/-- The form of JOINE and JOINW: k from 0 to 3. -/
def Shape.join (k : BitVec 8) (ender : Bool) : Shape :=
  { slots := [], ender := ender, fn := if k.toNat > 3 then some Causes.unassignedFn else none }

/-- JOINE enrols the contributing lanes (R43, R109). -/
def execJoine (k : BitVec 8) (s : State) : Host.Outcome State Fault Refusal :=
  issue s (Shape.join k false) (fun is =>
    .go (s.updGroup is.key (fun g => { g with joins := updNth (fun j => { j with enrol := j.enrol ||| maskOf is.lanes }) g.joins k.toNat })))

/-- JOINW: at the TRAIL the enrolled contributing lanes arrive (R43, R109). -/
def execJoinw (k : BitVec 8) (s : State) : Host.Outcome State Fault Refusal :=
  issue s (Shape.join k true) (fun is => .go (s.setEnder is (.joinw k.toNat (maskOf is.lanes))))

/-- EXIT: at the TRAIL the contributing lanes become Exited (R110). -/
def execExit (s : State) : Host.Outcome State Fault Refusal :=
  issue s (Shape.control true) (fun is => .go (s.setEnder is (.exit (maskOf is.lanes))))

/-- NOP (R111). -/
def execNop (s : State) : Host.Outcome State Fault Refusal := issue s (Shape.control false) (fun _ => .go s)

/-- YIELD (R111). -/
def execYield (s : State) : Host.Outcome State Fault Refusal :=
  issue s (Shape.control true) (fun is => .go (s.setEnder is (.yield (maskOf is.lanes))))

/-- A software stop with its argument; a NOP when no lane contributes (R112). -/
def softStop (s : State) (c : Cause) (n : BitVec 16) (is : Iss) : Eff :=
  if is.lanes.isEmpty then .go s else .stop s { StopCause.at c is.run.ipc with arg := n.toNat }

/-- TRAP. -/
def execTrap (n : BitVec 16) (s : State) : Host.Outcome State Fault Refusal :=
  issue s (Shape.control false) (softStop s Causes.softwareTrap n)

/-- BRK. -/
def execBrk (n : BitVec 16) (s : State) : Host.Outcome State Fault Refusal :=
  issue s (Shape.control false) (softStop s Causes.breakpoint n)

end Sys2Proof.Machine
end

