-- ==== Sys2Proof/Machine/Schedule.lean ====
section
/-! DEFINITION. The choice of the next run on a quarter, and the fetch of what it issues (03 R66, R67, R71; 13 R305 to R307). -/

namespace Sys2Proof.Machine

/-- Whether a team's splits may begin runs: its transform bindings have landed (02 R52), and its partition is not frozen (18 R397)
nor being reset. -/
def State.mayRun (s : State) (t : Team) : Bool :=
  t.bindPos ≥ t.bindings.length &&
  match s.part? t.part with
  | some p => p.frozen.isNone && !p.resetting
  | none => true

/-- A RUN word that its decoding refuses (R66). -/
def badRun (w : W32) : Bool := bitsOf w 15 13 ≠ 0 || bitsOf w 12 8 = 0 || bitsOf w 12 8 > 24

/-- Whether the tags that a split's next RUN word awaits are clear; a word that is not RUN, that does not answer, or that its
decoding refuses is met when the split issues. -/
def State.awaitClear (s : State) (c : CoreKey) (t : Team) (g : Group) (pc : Addr) : Bool :=
  match s.fetchWord (.lane c) t { got := [], asked := none } pc.toNat with
  | (_, .ok w) => !isRun w || badRun w || fHi w &&& g.tagPend = 0
  | _ => true

/-- A split is ready (R305); one whose group runs another split stands at a run boundary (R41). -/
def State.isReady (s : State) (c : CoreKey) (t : Team) (g : Group) (x : Split) : Bool :=
  x.block.isNone && g.run.all (fun r => r.slot ≠ x.slot) && !g.stopped && g.held.isNone && s.mayRun t
  && (match x.fetch with
      | some f => !f.held && (!g.draining || f.run.isSome)
      | none => !g.draining && s.awaitClear c t g x.pc)

/-- The waiting lanes of a quarter's groups that hold no slot form splits as slots become free (R41 step 5, R304). -/
def State.formIdle (s : State) (c : CoreKey) (q : Nat) : State :=
  ((s.onQuarter c q).filter (fun e => e.2.splits.isEmpty && e.2.lanes.any Lane.isWaiting)).foldl
    (fun s e => s.updGroup e.1 (fun g => g.step5 (s.slotEnv e.1))) s

/-- A split whose readiness is judged at a clock: when it last became ready, and its promotion once it has stayed so (R305, R306). -/
def Split.noted (x : Split) (ready : Bool) (clock : Nat) : Split :=
  let r := x.ready.getD clock
  if ready then { x with ready := some r, promoted := x.promoted || decide (r + Config.ageLimit ≤ clock) } else { x with ready := none }

/-- The age of a split (R305, R307). -/
def Split.age (x : Split) : Nat := x.since.getD (x.ready.getD 0)

/-- Note on every split of a quarter the clock at which it last became ready (R305). -/
def State.noteReady (s : State) (c : CoreKey) (q : Nat) : State :=
  let clock := s.clock c.die
  let s := s.formIdle c q
  (s.onQuarter c q).foldl (fun st e =>
    match s.team? e.1.team with
    | none => st
    | some t =>
      st.updGroup e.1 (fun g =>
        { g with splits := g.splits.map (fun x => x.noted (s.isReady c t e.2 x) clock) })) s

/-- Note it on every quarter of a die, before its clock moves on. -/
def State.noteDie (s : State) (d : Nat) : State :=
  let cs := (upFrom 0 (Config.clusters * Config.coresPerCluster)).filter (fun k => s.teams.any (fun t => t.core = some { die := d, core := k }))
  cs.foldl (fun s k => (upFrom 0 4).foldl (fun s q => s.noteReady { die := d, core := k } q) s) s

/-- The class of a split: its launch's priority, 0 after YIELD, 3 once promoted (R305 to R307). -/
def Split.cls (x : Split) (prio : Nat) : Nat := if x.promoted then 3 else if x.low then 0 else prio

/-- The ready split of highest class, oldest age, lowest slot (R305). -/
def State.pick (s : State) (c : CoreKey) (q : Nat) : Option (GroupKey × Split) :=
  let cands := (s.onQuarter c q).flatMap (fun e =>
    match s.team? e.1.team with
    | none => []
    | some t => (e.2.splits.filter (fun x => x.ready.isSome)).map (fun x => (e.1, x, x.cls t.rec'.prio)))
  (minBy (fun (e : GroupKey × Split × Nat) => ((3 - e.2.2) * 2 ^ 128 + e.2.1.age) * 16 + e.2.1.slot) cands).map
    (fun e => (e.1, e.2.1))

/-- A run about to be opened at a split's PC. -/
def Run.before (slot : Nat) (pc : Addr) : Run :=
  { slot := slot, addr := pc, next := pc, ipc := pc, left := 0, named := 0, temps := 0, pfx := Modifier.none, ender := none,
    stalled := false, opened := false, buf := { got := [], asked := none } }

/-- Give the quarter to a split: it opens a run, or goes on with the one that a parked fetch interrupted. -/
def State.take (s : State) (k : GroupKey) (x : Split) : State :=
  let run := match x.fetch.bind (fun f => f.run) with
    | some r => r
    | none => Run.before x.slot x.pc
  s.updGroup k (fun g => { (g.updSplit x.slot (fun y => { y with fetch := none })) with run := some run })

/-- The address that is recorded when a split's PC holds no RUN word: the transfer by which its lowest lane came, or the PC itself (R45).
Open points: DEDUCED (log 15). -/
def Iss.blame (is : Iss) : Addr := (((is.active.head?).bind (fun i => (is.g.lane i).came.via))).getD is.run.addr

/-- What the fetch finds for the issuer: an instruction with its modifier, its address and the next address, or the cause of a
stop with the PC recorded. -/
inductive Found where
  | instr (i : Instr) (pfx : Modifier) (next : Addr)
  | stop (c : Cause) (pc : Addr)
deriving DecidableEq, Repr

/-- What a word at an instruction position stands for: a reserved bit of a framing word does not matter there (R66, R67, R72).
Open points: DEDUCED (log 13). -/
def positionInstr (i : Instr) (hs : List Half) : Instr :=
  match i, hs with
  | .unassignedMajorOpcode c, h :: _ =>
    if h.toNat % 256 = 3 || h.toNat % 256 = 5 then .unassignedMajorOpcode Causes.misplacedFraming else .unassignedMajorOpcode c
  | i, _ => i

/-- Fetch at an instruction position (R56, R71). -/
def State.fetchAt (s : State) (is : Iss) : State × Fetch Found :=
  let pc := is.run.next
  let pt : Point := .lane is.core
  match s.fetchWord pt is.team is.run.buf pc.toNat with
  | (s, .ok w) =>
    if isModifier w then
      match fetchInstr pt is.team is.run.buf (pc.toNat + 4) 7 [] s with
      | (s, .ok (i, n, h :: _)) =>
        let m := h.toNat % 256
        if m = 3 || m = 5 || m = 7 then (s, .ok (.instr .misplacedPrefix (decModifier w) pc))
        else (s, .ok (.instr i (decModifier w) (pc + 4 + 2 * BitVec.ofNat 64 n)))
      | (s, .ok (i, n, [])) => (s, .ok (.instr i (decModifier w) (pc + 4 + 2 * BitVec.ofNat 64 n)))
      | (s, .fault a p x) => (s, .fault a p x)
      | (s, .error a) => (s, .error a)
      | (s, .wait a x y) => (s, .wait a x y)
    else
      match fetchInstr pt is.team is.run.buf pc.toNat 7 (if fBit w 0 then halves w else [w.extractLsb' 0 16]) s with
      | (s, .ok (i, n, hs)) => (s, .ok (.instr (positionInstr i hs) Modifier.none (pc + 2 * BitVec.ofNat 64 n)))
      | (s, .fault a p x) => (s, .fault a p x)
      | (s, .error a) => (s, .error a)
      | (s, .wait a x y) => (s, .wait a x y)
  | (s, .fault a p x) => (s, .fault a p x)
  | (s, .error a) => (s, .error a)
  | (s, .wait a x y) => (s, .wait a x y)

/-- Fetch at a framing position: a RUN word where a run begins, a TRAIL word where one ends (R45, R66, R67). -/
def State.fetchFrame (s : State) (is : Iss) : State × Fetch Found :=
  let pc := is.run.next
  match s.fetchWord (.lane is.core) is.team is.run.buf pc.toNat with
  | (s, .ok w) =>
    if !is.run.opened && !isRun w then (s, .ok (.stop Causes.transferTarget is.blame))
    else if is.run.opened && !isTrail w then (s, .ok (.stop Causes.missingTrail pc))
    else (s, .ok (.instr (dec32 w 0 0) Modifier.none (pc + 4)))
  | (s, .fault a p x) => (s, .fault a p x)
  | (s, .error a) => (s, .error a)
  | (s, .wait a x y) => (s, .wait a x y)

/-- Fetch what the issuer executes next. -/
def State.fetchNext (s : State) (is : Iss) : State × Fetch Found :=
  if is.run.opened && is.run.left ≠ 0 then s.fetchAt is else s.fetchFrame is

/-- The issuer's run, set to the instruction it is about to execute. -/
def State.atInstr (s : State) (is : Iss) (pfx : Modifier) (next : Addr) : State :=
  s.updRun is.key (fun r => { r with ipc := is.run.next, pfx := pfx, next := next })

end Sys2Proof.Machine
end

