-- ==== Sys2Proof/Machine/Place.lean ====
section
/-! DEFINITION. The distributor: placing teams, pre-emption by partial eviction, resumption, promotion, and a change of BOB
(02 R32, R36, R38, R53, R54; 13 R294 to R303, R306; 06 R147). -/

namespace Sys2Proof.Machine

/-! ### A group that starts (R29, R33, R36, R38) -/

/-- The lanes of a group before it has a slot. -/
def startLanes (team : W32) (group : Nat) (pc : Addr) : List Lane :=
  (upFrom 0 Config.gw).map (fun i =>
    { Lane.blank with st := .waiting 0, pc := pc, origin := { team := team, lane := i, group := group, pc := pc } })

/-- Rejoin barriers without members. -/
def noJoins : List Join := [⟨0, 0, 0⟩, ⟨0, 0, 0⟩, ⟨0, 0, 0⟩, ⟨0, 0, 0⟩]

/-- A group on a quarter, before its lanes have a slot. -/
def Group.start (idx role widx budget quarter : Nat) (lanes : List Lane) (w : Tbl 32) : Group :=
  { idx := idx, role := role, widx := widx, budget := budget, quarter := some quarter, handler := none, lanes := lanes, w := w,
    splits := [], stamp := 0, joins := noJoins, entering := none, pend := [], queue := [], seq := 0, batchNo := 0, bulk := [], run := none, held := none,
    tlbinv := none, draining := false, evicted := none, cause := none, stopped := false, skid := 0, trapRun := none, trapLanes := 0, recorded := none,
    lastSlot := 0 }

/-- A group enters its team, its first `n` lanes in one split at a PC; when the quarter has no free slot, they wait for one.
Open points: DEDUCED (log 26). -/
def State.enterGroup (s : State) (team : Nat) (g : Group) (n : Nat) (pc : Addr) : State :=
  let k : GroupKey := { team := team, idx := g.idx }
  let s := s.updTeam team (fun t => { t with groups := t.groups ++ [g] })
  s.updGroup k (fun g => g.place (s.slotEnv k) ((upFrom 0 n).map (fun i => (i, pc))))

/-- w0 to w7 of a group (R36). -/
def teamRegs (r : LaunchRec) (id role idx : Nat) : Tbl 32 :=
  Tbl.setList [] 0 [BitVec.ofNat 32 id, BitVec.ofNat 32 (id % r.gx), BitVec.ofNat 32 (id / r.gx % r.gy), BitVec.ofNat 32 (id / (r.gx * r.gy)),
                    lo32 r.arg, hi32 r.arg, BitVec.ofNat 32 role, BitVec.ofNat 32 idx]

/-- The groups of a team: GROUPID, role, index in role, budget, entry PC (R30). -/
def LaunchRec.groups (r : LaunchRec) : List (Nat × Nat × Nat × Nat × Addr) :=
  mapIdx (fun i x => (i, x)) ((mapIdx (fun k (x : RoleEntry) => (upFrom 0 x.ngroups).map (fun n => (k, n, x.budget, x.pc))) r.roles 0).flatMap id) 0

/-- The batch-counter objects at the start of an allocation (R53): EXPA 1, ARRP 1. -/
def counters : Tbl 8 := Tbl.setList [] 0 ((List.replicate 16 ([1, 1, 0, 0] : List W32)).flatMap bytesOfWords)

/-! ### Room on a core (R294) -/

/-- Teams that hold squares and tiles of a core. -/
def State.teamsOn (s : State) (c : CoreKey) : List Team := s.teams.filter (fun t => t.core = some c && !s.teamOver t)

/-- The resident groups of a team. -/
def State.residentOf (s : State) (c : CoreKey) (t : Team) : List GroupKey := ((s.residents c).filter (fun e => e.1.team = t.key)).map Prod.fst

/-- What a core has free when some of its groups are counted as gone (R299). -/
def State.room (s : State) (c : CoreKey) (gone : List GroupKey) : Room :=
  let here := (s.residents c).filter (fun e => !gone.contains e.1)
  let per (q : Nat) : Nat × Nat :=
    let gs := here.filter (fun e => e.2.quarter = some q)
    (Config.quarterRegs - sumNat (gs.map (fun e => e.2.budget)), gs.length)
  let ts := (s.teamsOn c).filter (fun t => !(gone.any (fun k => k.team = t.key) && (s.residentOf c t).all (fun k => gone.contains k)))
  { quarters := [per 0, per 1, per 2, per 3], used := ts.flatMap (fun t => t.squares), tiles := 8 - sumNat (ts.map (fun t => t.rec'.tiles)),
    teams := ts.length }

/-- Cores on which the partition may place: not in a cluster that is being removed. -/
def Part.open' (p : Part) : List CoreKey := p.cores.filter (fun c => !p.removing.contains (clusterOf c))

/-- The groups that a team needs placed: all of a new team, the evicted ones of one that resumes. -/
structure Need where
  budgets : List Nat
  squares : Nat
  tiles : Nat
  prio : Nat
deriving DecidableEq, Repr

/-- The need of a new team. -/
def LaunchRec.need (r : LaunchRec) : Need := { budgets := r.budgets, squares := r.squares, tiles := r.tiles, prio := r.prio }

/-- A pre-emption ends when what it was for is placed. -/
def State.endClaim (s : State) (part : Nat) (w : Waiting) : State :=
  s.updPart part (fun p => { p with claims := p.claims.filter (fun x => x.who ≠ w) })

/-- Groups of a team that wait to resume, in the order they were evicted. -/
def Team.away (t : Team) : List Group := sortBy (fun (g : Group) => g.evicted.getD 0) (t.groups.filter (fun g => g.evicted.isSome))

/-- The need of a team that resumes whole, its groups in GROUPID order. -/
def Team.need (t : Team) : Need :=
  { budgets := (t.groups.filter (fun g => g.evicted.isSome)).map (fun g => g.budget), squares := t.rec'.squares, tiles := t.rec'.tiles,
    prio := t.rec'.prio }

/-- Whether a team may leave a cluster that its partition loses: no handler group of it is live, and no lane is held at a reorder site
or Trap-held (17 R378). Open points: DEDUCED (log 35). -/
def State.mayLeave (s : State) (t : Team) : Bool :=
  let fl := match t.core with | some c => (s.core c).flights | none => []
  t.groups.all (fun g =>
    (g.handler.isNone || g.ended { team := t.key, idx := g.idx } fl) && g.held.isNone && g.lanes.all (fun l => l.st ≠ .trapHeld)
    && (!g.stopped || g.recorded.isSome))

/-- The evicted groups of the partly evicted teams of a core, in the order they were evicted (R302); on a cluster that the partition
loses only those of teams that may not leave it yet (17 R378). Open points: DEDUCED (log 35). -/
def State.awayOn (s : State) (p : Part) (c : CoreKey) : List (Team × Group) :=
  let leaves := p.removing.contains (clusterOf c)
  let ts := s.teams.filter (fun t => t.core = some c && !s.teamOver t && !(leaves && s.mayLeave t))
  sortBy (fun (e : Team × Group) => e.2.evicted.getD 0) (ts.flatMap (fun t => t.away.map (fun g => (t, g))))

/-- Whether a victim of a pre-emption is still to be saved (R300). -/
def State.claimBusy (s : State) (x : Claim) : Bool :=
  x.victims.any (fun k => match s.group? k with | some g => g.draining | none => false)

/-- The pre-emption in progress for a waiting team, while a victim of it is still to be saved. -/
def State.claimFor (s : State) (p : Part) (w : Waiting) : Option Claim := p.claims.find? (fun x => x.who = w && s.claimBusy x)

/-- Whether what a pre-emption is for still waits. -/
def State.stillWaits (s : State) (w : Waiting) : Bool :=
  match w with
  | .new l id => s.launches.any (fun x => x.key = l && x.stage = .eligible && x.nextTeam = id)
  | .back t => s.teams.any (fun x => x.key = t && x.core.isNone)
  | .trap t g l => s.clusters.any (fun c => c.2.traps.any (fun b => b.team = t && b.lanes.head? = some (g, l)))

/-- Whether a pre-emption for work of a higher priority holds a core: what its victims leave is not theirs to take back before that
work is placed (R300). -/
def State.claimed (s : State) (p : Part) (c : CoreKey) (prio : Nat) : Bool :=
  p.claims.any (fun x => prio < x.prio && x.cores.contains c && s.stillWaits x.who)

/-- The group that resumes on a core now, with its quarter: the one of its partly evicted teams' groups that was evicted first, if it has
room and no pre-emption holds the core (R302). Open points: DEDUCED (log 26). -/
def State.backOn (s : State) (p : Part) (c : CoreKey) : Option (GroupKey × Nat) :=
  match s.awayOn p c with
  | [] => none
  | (t, g) :: _ =>
    if s.claimed p c t.rec'.prio then none
    else (bestQuarter (s.room c []).quarters g.budget).map (fun q => ({ team := t.key, idx := g.idx }, q))

/-- A group of a partly evicted team that resumes now; it goes ahead of every placement on its core (R302). -/
def State.groupToResume (s : State) (p : Part) : Option (GroupKey × CoreKey × Nat) :=
  firstSome (fun c => (s.backOn p c).map (fun x => (x.1, c, x.2))) p.cores

/-- The cores on which a waiting team may not be placed yet: those whose victims are not all saved (R300). -/
def State.shut (s : State) (p : Part) (w : Waiting) : List CoreKey := ((s.claimFor p w).map (fun x => x.cores)).getD []

/-- The core for a team: of those it fits, the one with the fewest teams, lowest die, lowest core (R295). Open points: DEDUCED (log 26). -/
def State.coreFor (s : State) (p : Part) (shut : List CoreKey) (n : Need) : Option (CoreKey × List Nat × List Nat) :=
  let fits := p.open'.filterMap (fun c =>
    let r := s.room c []
    if shut.contains c then none
    else (r.fit n.budgets n.squares n.tiles).map (fun f => (r.teams, c, f.1, f.2)))
  (minBy (fun (x : Nat × CoreKey × List Nat × List Nat) => x.1) fits).map (fun x => x.2)

/-! ### Placing (R297) -/

/-- Put a new team's groups on their quarters, one after another. -/
def placeEach (t : Nat) (r : LaunchRec) (id : Nat) : List ((Nat × Nat × Nat × Nat × Addr) × Nat) → State → State
  | [], s => s
  | ((i, role, n, budget, pc), q) :: rest, s =>
    let g := Group.start i role n budget q (startLanes (BitVec.ofNat 32 id) i pc) (teamRegs r id role n)
    placeEach t r id rest (s.enterGroup t g Config.gw pc)

/-- Place team `id` of a launch on a core. -/
def State.placeTeam (s : State) (p : Part) (l : Launch) (r : LaunchRec) (id : Nat) (c : CoreKey) (qs sq : List Nat) : State :=
  let sup := (p.queues.find? (fun x => x.id = l.queue)).map (fun x => x.sup)
  let key := s.serial
  let t : Team :=
    { key := key, part := p.id, queue := l.queue, launch := l.key, id := id, sup := sup.getD false, rec' := r, core := some c, squares := sq,
      scratch := counters, tiles := List.replicate r.tiles [], beam := [], slog := [], blog := [], bob := (s.core c).bob,
      bindings := r.binds, bindPos := 0, bindParked := none, bindBuf := { got := [], asked := none }, groups := [], stop := none,
      ended := false, sites := [], placed := key }
  let s := { s.dropL1 c with serial := key + 1, teams := s.teams ++ [t] }
  let s := placeEach key r id (r.groups.zip qs) s
  ((s.updLaunch l.key (fun x => { x with nextTeam := id + 1 })).freeEntry key).endClaim p.id (.new l.key id)

/-! ### Eviction (R300) -/

/-- Whether a draining group has nothing left in progress. -/
def Group.quiet (g : Group) (k : GroupKey) (fl : List Flight) : Bool :=
  g.run.isNone && g.pend.isEmpty && g.queue.isEmpty && g.bulk.all (fun b => b.done) && !fl.any (flightOf k)
  && g.splits.all (fun x => match x.fetch with | some f => !f.held && f.run.isNone | none => true)

/-- The save area takes a group's state in a layout that the spec does not give: its bytes read as any values (R301). Open points:
DESIGN CHOICE (log 5). -/
def State.scrambleSave (s : State) (part : Nat) : State :=
  match s.part? part with
  | none => s
  | some p => (upFrom (p.save / 2 ^ 21) p.saveGr).foldl State.scramble s

/-- Save a group: it gives up its quarter; the last resident group of a team gives up the core, its squares and its tiles. -/
def State.saveGroup (s : State) (k : GroupKey) : State :=
  match s.team? k.team with
  | none => s
  | some t =>
    let stamp := s.serial
    let s := { s with serial := stamp + 1 }
    let s := (s.scrambleSave t.part).updGroup k (fun g => { g with quarter := none, draining := false, evicted := some stamp })
    match t.core with
    | none => s
    | some c =>
      match s.team? k.team with
      | none => s
      | some t =>
        if (s.residentOf c t).isEmpty then s.updTeam k.team (fun t => { t with core := none, squares := [] }) else s

/-- Whether a group's team has taken a stop. -/
def State.stopping (s : State) (k : GroupKey) : Bool := match s.team? k.team with | some t => t.stop.isSome | none => false

/-- Whether a group on a cluster that its partition loses has to stay: a lane of it is Trap-held, for the cluster's handler groups end
first (17 R378). -/
def State.bound (s : State) (k : GroupKey) (c : CoreKey) (g : Group) : Bool :=
  g.lanes.any (fun l => l.st = .trapHeld)
  && ((s.team? k.team).bind (fun t => s.part? t.part)).any (fun p => p.removing.contains (clusterOf c))

/-- GROUP_EVICT: a victim that has drained is saved, the stores of its core being performed first, for its accesses are ordered as by
FENCE.dev (11 R267). One whose team stops, that has ended, or that reaches a reorder site, is no victim any more (R303). -/
def execGroupEvict (k : GroupKey) (s : State) : Host.Outcome State Fault Refusal :=
  match s.group? k, s.coreOf k with
  | some g, some c =>
    if !g.draining then .next s
    else if (s.stopping k && g.recorded.isNone) || g.held.isSome || g.ended k (s.core c).flights then
      .next (s.updGroup k (fun g => { g with draining := false }))
    else if g.quiet k (s.core c).flights && !s.bound k c g then .next ((s.flushAll c).saveGroup k)
    else .next s
  | _, _ => .next s

/-! ### The choice of victims (R298, R299, R301) -/

/-- A group that may be evicted for a waiting team of a priority. -/
def isCandidate (t : Team) (g : Group) (prio : Nat) : Bool :=
  t.rec'.prio < prio && !t.rec'.coop && g.handler.isNone && g.held.isNone && g.lanes.all (fun l => l.st ≠ .trapHeld)

/-- The victim order as one number. -/
def victimKey (t : Team) (g : Group) : Nat :=
  let live := g.lanes.any (fun l => match l.st with | .active _ => true | .waiting _ => true | _ => false)
  ((t.rec'.prio * 2 + b2n live) * 2 ^ 64 + (2 ^ 64 - 1 - t.placed)) * 16 + (15 - g.idx % 16)

/-- Bytes that a saved group and a saved team take (R301). -/
def saveGroupBytes (g : Group) : Nat := 1024 + 256 * g.budget
def saveTeamBytes (t : Team) : Nat := 4096 * t.rec'.squares + t.rec'.tiles * (32768 + 128 * ((Config.beamSlice - t.bob) / 8))

/-- Bytes of the save area in use, groups that are to be evicted counted as saved. -/
def State.saveUsed (s : State) (part : Nat) (gone : List GroupKey) : Nat :=
  sumNat ((s.teams.filter (fun t => t.part = part && !s.teamOver t)).map (fun t =>
    let away (g : Group) : Bool := g.evicted.isSome || gone.contains { team := t.key, idx := g.idx }
    sumNat ((t.groups.filter away).map saveGroupBytes)
    + (if t.groups.any away && t.groups.all (fun g => away g || (g.allExited && g.cause.isNone)) then saveTeamBytes t else 0)))

/-- Add victims in order until the need fits; counts those added. -/
def addVictims (s : State) (c : CoreKey) (n : Need) : List GroupKey → List GroupKey → List GroupKey → Option (List GroupKey)
  | [], gone, added => if ((s.room c gone).fit n.budgets n.squares n.tiles).isSome then some added else none
  | k :: ks, gone, added =>
    if ((s.room c gone).fit n.budgets n.squares n.tiles).isSome then some added
    else addVictims s c n ks (gone ++ [k]) (added ++ [k])

/-- The groups of a partition that drain to be saved. -/
def State.drainingOf (s : State) (part : Nat) : List GroupKey :=
  (s.teams.filter (fun t => t.part = part)).flatMap (fun t =>
    (t.groups.filter (fun g => g.draining)).map (fun g => ({ team := t.key, idx := g.idx } : GroupKey)))

/-- The victims that a core needs for a team; groups that already drain are counted as gone and as saved. -/
def State.victimsOn (s : State) (p : Part) (c : CoreKey) (n : Need) : Option (List GroupKey) :=
  let rs := s.residents c
  let drain := (rs.filter (fun e => e.2.draining)).map Prod.fst
  let cands := rs.filterMap (fun e =>
    match s.team? e.1.team with
    | some t => if !e.2.draining && isCandidate t e.2 n.prio then some (victimKey t e.2, e.1) else none
    | none => none)
  match addVictims s c n ((sortBy Prod.fst cands).map Prod.snd) drain [] with
  | some vs => if s.saveUsed p.id (s.drainingOf p.id ++ vs) ≤ p.saveGr * 2 ^ 21 then some vs else none
  | none => none

/-- The victims for a waiting team, on the core that needs the fewest (R298). Open points: DEDUCED (log 26). -/
def State.victims (s : State) (p : Part) (n : Need) : Option (CoreKey × List GroupKey) :=
  let qs := p.open'.filterMap (fun c => (s.victimsOn p c n).map (fun v => (c, v)))
  minBy (fun (x : CoreKey × List GroupKey) => x.2.length) qs

/-- Groups begin to drain to make room for what waits; the draining groups of its cores are waited for as well (R300). -/
def State.claimRoom (s : State) (p : Part) (w : Waiting) (n : Need) (cs : List CoreKey) (ks : List GroupKey) : State :=
  let old := cs.flatMap (fun c => ((s.residents c).filter (fun e => e.2.draining)).map Prod.fst)
  (ks.foldl (fun s k => s.updGroup k (fun g => { g with draining := true })) s).updPart p.id (fun p =>
    { p with claims := { who := w, prio := n.prio, victims := old ++ ks, cores := cs } :: p.claims.filter (fun x => x.who ≠ w) })

/-! ### The distributor's turn (R295, R296) -/

/-- The next team of a queue: its first eligible launch, in queue order, with teams left to place. -/
def State.nextOf (s : State) (x : Queue) : Option (Launch × LaunchRec) :=
  firstSome (fun (l : Launch) =>
    match l.stage, l.rec' with
    | .eligible, some r => if l.nextTeam < r.total then some (l, r) else none
    | _, _ => none) (s.queueLaunches x)

/-- Teams that were evicted whole, in the order of their first eviction. -/
def State.wholeAway (s : State) (part : Nat) : List Team :=
  sortBy (fun (t : Team) => ((t.away.head?).bind (fun g => g.evicted)).getD 0)
    (s.teams.filter (fun t => t.part = part && t.core.isNone && !s.teamOver t && !t.away.isEmpty))

/-- The highest priority that waits to be placed or resumed. -/
def State.waitingPrio (s : State) (p : Part) : Option Nat :=
  let ps := p.queues.filterMap (fun x => (s.nextOf x).map (fun l => l.2.prio)) ++ (s.wholeAway p.id).map (fun t => t.rec'.prio)
  (minBy (fun n => 3 - n) ps)

/-- Place `n` teams of a cooperative launch from `id`, evicted groups counted as gone; gives the victims, or none (R296).
Open points: DEDUCED (log 26). -/
def coopTry (p : Part) (lk : Nat) (r : LaunchRec) : Nat → State → List (CoreKey × List GroupKey) →
    Option (State × List (CoreKey × List GroupKey))
  | 0, s, vs => some (s, vs)
  | n + 1, s, vs =>
    match s.launch? lk with
    | none => none
    | some l =>
      match s.coreFor p [] r.need with
      | some (c, qs, sq) => coopTry p lk r n (s.placeTeam p l r l.nextTeam c qs sq) vs
      | none =>
        match s.victims p r.need with
        | none => none
        | some new =>
          let s := new.2.foldl State.saveGroup s
          match s.coreFor p [] r.need with
          | some (c, qs, sq) => coopTry p lk r n (s.placeTeam p l r l.nextTeam c qs sq) (vs ++ [new])
          | none => none

/-- The victims that make room for what waits begin to drain, unless others already do (R298, R300); none if none would. -/
def State.preempt (s : State) (p : Part) (w : Waiting) (n : Need) : Option State :=
  match s.claimFor p w with
  | some _ => some s
  | none => (s.victims p n).map (fun v => s.claimRoom p w n [v.1] v.2)

/-- Place the next team of a launch, or make the room for it; none if neither is possible. -/
def State.placeNext (s : State) (p : Part) (l : Launch) (r : LaunchRec) : Option State :=
  let w : Waiting := .new l.key l.nextTeam
  if r.coop then
    match s.claimFor p w with
    | some _ => some s
    | none =>
      match coopTry p l.key r r.total s [] with
      | some (t, []) => some t
      | some (_, vs) => some (s.claimRoom p w r.need (vs.map Prod.fst) (vs.flatMap Prod.snd))
      | none => none
  else
    match s.coreFor p (s.shut p w) r.need with
    | some (c, qs, sq) => some (s.placeTeam p l r l.nextTeam c qs sq)
    | none => s.preempt p w r.need

/-- A queue's weight minus one in the rotation of a priority (R291). -/
def Queue.weight (x : Queue) (prio : Nat) : Nat := (kget prio x.cur).getD x.wgt

/-- Queues in the order in which the rotation of a priority visits them, with the turns each has had and whether it begins a new
rotation: the one served last, while it has turns left, then the others in increasing number. -/
def visitOrder (prio : Nat) (qs : List Queue) (pos turns : Nat) : List (Queue × Nat × Bool) :=
  let sorted := sortBy (fun (x : Queue) => x.id) qs
  let here := (sorted.filter (fun x => x.id = pos && turns ≤ x.weight prio)).map (fun x => (x, turns, false))
  here ++ (sorted.filter (fun x => x.id > pos)).map (fun x => (x, 0, false))
    ++ (sorted.filter (fun x => x.id ≤ pos)).map (fun x => (x, 0, true))

/-- A team of a queue has been placed at a priority; a new rotation takes the weights as they are now (R291). -/
def Part.served (p : Part) (prio : Nat) (x : Queue) (turns : Nat) (anew : Bool) : Part :=
  { p with rotation := kput prio (x.id * 32 + turns + 1) p.rotation,
           queues := if anew then p.queues.map (fun (y : Queue) => { y with cur := kput prio y.wgt y.cur }) else p.queues }

/-- The first queue of a rotation that can be served; one whose team waits for its victims keeps its turn. Open points: DEDUCED (log 26). -/
def serveQueue (s : State) (p : Part) (prio : Nat) : List (Queue × Nat × Bool) → State
  | [] => s
  | (x, turns, anew) :: rest =>
    match s.nextOf x with
    | none => serveQueue s p prio rest
    | some (l, r) =>
      if r.prio ≠ prio then serveQueue s p prio rest
      else
        match s.placeNext p l r with
        | none => serveQueue s p prio rest
        | some s' =>
          let placed : Bool := match s'.launch? l.key with | some l' => l'.nextTeam ≠ l.nextTeam | none => true
          if placed then s'.updPart p.id (fun p => p.served prio x turns anew) else s'

/-! ### Resumption (R302) -/

/-- Put the splits of a resuming group into slots, a trapping split first; lanes whose split finds none wait, each split's with a stamp of
its own, registered where their split was blocked. A run set aside keeps the split's new slot; without one, the group remembers its
lanes. The stamps: DESIGN CHOICE (log 54). -/
def reslot (env : SlotEnv) (old : Group) : List Split → Group → Group
  | [], g => g
  | x :: xs, g =>
    let is := old.active x.slot
    match g.freeSlot env with
    | some n =>
      let g := g.updLanes is (fun _ l => { l with st := .active n })
      let move (r : Run) : Run := { r with slot := n }
      let y : Split := { x with slot := n, ready := none, since := none, low := false, promoted := false,
                                fetch := x.fetch.map (fun f => { f with run := f.run.map move }) }
      let trap := if old.trapRun.any (fun r => r.slot = x.slot) then old.trapRun.map move else g.trapRun
      let last := if old.lastSlot = x.slot then n else g.lastSlot
      reslot env old xs { g with splits := g.splits ++ [y], lastSlot := last, trapRun := trap }
    | none =>
      let st : LaneSt :=
        match x.block with
        | some (.phase obj par _) => .yielded obj par false
        | _ => .waiting g.stamp
      let g := if old.trapRun.any (fun r => r.slot = x.slot) then
          { g with trapRun := old.trapRun.map (fun r => { r with slot := Config.quarterSlots }), trapLanes := maskOf is }
        else g
      reslot env old xs (g.updLanes is (fun _ l => { l with st := st, pc := x.pc })).bump

/-- What has happened to origin lanes while their group was away: handler lanes that exited end them, and a TRET that waited goes on
(14 R333). Open points: DEDUCED (log 29). -/
def State.settleHandlers (s : State) (k : GroupKey) : State :=
  match s.team? k.team with
  | none => s
  | some t =>
    (t.groups.filter (fun h => h.handler.isSome)).foldl (fun s h =>
      let hk : GroupKey := { team := k.team, idx := h.idx }
      let gone := (idxWhere Lane.isExited h.lanes 0).filter (fun i => match h.originOf i with | some (gi, _) => gi = k.idx | none => false)
      let s := s.exitHandlers hk gone
      s.updGroup hk (fun h => { h with splits := h.splits.map (fun x =>
        if x.block = some .tret then { x with block := none, fetch := x.fetch.map (fun f => { f with held := false }) } else x) })) s

/-- A group resumes on a quarter of a core with its saved state. -/
def State.resumeGroup (s : State) (k : GroupKey) (c : CoreKey) (q : Nat) : State :=
  match s.group? k with
  | none => s
  | some g0 =>
    let s := s.dropL1 c
    let s := s.updGroup k (fun g => { g with quarter := some q, evicted := none, splits := [],
                                             lanes := g.lanes.map (fun l => { l with came := { l.came with since := none } }) })
    let env := s.slotEnv k
    let trapped (x : Split) : Bool := g0.trapRun.any (fun r => r.slot = x.slot)
    let s := s.updGroup k (fun g => reslot env g0 (g0.splits.filter trapped ++ g0.splits.filter (fun x => !trapped x)) g)
    let freed := idxWhere (fun l => match l.st with | .yielded _ _ f => f | _ => false) g0.lanes 0
    let s := s.releaseLanes k (freed.filterMap (fun i => (nth g0.lanes i).map (fun l => (i, l.pc))))
    let s := s.updGroup k (fun g => g.step5 (s.slotEnv k))
    s.settleHandlers k

/-- Groups of a whole team resume, one after another. -/
def resumeEach (t : Nat) (c : CoreKey) : List (Nat × Nat) → State → State
  | [], s => s
  | (i, q) :: rest, s => resumeEach t c rest (s.resumeGroup { team := t, idx := i } c q)

/-- Resume a whole team on a core (R297, R302). Its Beam share keeps the U of the grant, whatever BOB the core has now, which R148
does not settle. DESIGN CHOICE (log 51). -/
def State.resumeTeam (s : State) (t : Team) (c : CoreKey) (qs sq : List Nat) : State :=
  let s := (s.dropL1 c).updTeam t.key (fun t => { t with core := some c, squares := sq, placed := s.serial })
  let s := { s with serial := s.serial + 1 }
  (resumeEach t.key c (((t.groups.filter (fun g => g.evicted.isSome)).map (fun g => g.idx)).zip qs) s).endClaim t.part (.back t.key)

/-- The first team evicted whole, of the priority that is to be placed, that fits a core. -/
def State.teamToResume (s : State) (p : Part) : Option (Team × CoreKey × List Nat × List Nat) :=
  firstSome (fun (t : Team) =>
    if some t.rec'.prio ≠ s.waitingPrio p then none
    else (s.coreFor p (s.shut p (.back t.key)) t.need).map (fun f => (t, f.1, f.2.1, f.2.2))) (s.wholeAway p.id)

/-- GROUP_RESUME: an evicted group, or a team evicted whole, is restored when room appears. -/
def execGroupResume (part : Nat) (s : State) : Host.Outcome State Fault Refusal :=
  match s.part? part with
  | none => .next s
  | some p =>
    if p.halted then .next s
    else
      match s.groupToResume p, s.teamToResume p with
      | some (k, c, q), _ => .next (s.resumeGroup k c q)
      | none, some (t, c, qs, sq) => .next (s.resumeTeam t c qs sq)
      | none, none => .next s

/-- TEAM_PLACE: the distributor places the next team of the highest waiting priority, or begins the evictions that make room. A team
evicted whole goes ahead of every new team of its priority, and a group that can resume ahead of them all (R302). -/
def execTeamPlace (part : Nat) (s : State) : Host.Outcome State Fault Refusal :=
  match s.part? part with
  | none => .next s
  | some p =>
    match s.waitingPrio p with
    | none => .next s
    | some prio =>
      if p.halted || (s.groupToResume p).isSome then .next s
      else
        match (s.wholeAway part).filter (fun t => t.rec'.prio = prio) with
        | t :: ts =>
          if (t :: ts).any (fun t => (s.coreFor p (s.shut p (.back t.key)) t.need).isSome) then .next s
          else .next ((s.preempt p (.back t.key) t.need).getD s)
        | [] =>
          let pos := (kget prio p.rotation).getD 0
          .next (serveQueue s p prio (visitOrder prio p.queues (pos / 32) (pos % 32)))

/-! ### Promotion (R306), BOB (06 R147) -/

/-- SPLIT_PROMOTION: a split that has stayed ready for 4,096 core clocks competes in class 3 for its next run. -/
def execSplitPromotion (k : GroupKey) (slot : Nat) (s : State) : Host.Outcome State Fault Refusal :=
  match s.coreOf k with
  | none => .next s
  | some c =>
    let late (x : Split) : Bool := x.slot = slot && match x.ready with | some n => s.clock c.die ≥ n + Config.ageLimit | none => false
    .next (s.updGroup k (fun g => { g with splits := updWhere late (fun x => { x with promoted := true }) g.splits }))

/-- BOB_CHANGE: a new Bobbin size takes effect on a core on which no team is resident, and empties its Bobbin. -/
def execBobChange (c : CoreKey) (s : State) : Host.Outcome State Fault Refusal :=
  let x := s.core c
  if x.bob = x.bobNew || !(s.teamsOn c).isEmpty then .next s
  else .next (s.updCore c (fun x => { x with bob := x.bobNew, sets := [] }))

end Sys2Proof.Machine
end

