-- ==== Sys2Proof/Machine/Reorder.lean ====
section
/-! DEFINITION. Reorder sites, lane traps, handler groups and TRET (14 R325 to R334; 11 R267). -/

namespace Sys2Proof.Machine

/-! ### REORDER (R325, R326) -/

/-- REORDER: the contributing lanes' keys are read at issue; the rest happens at the TRAIL. -/
def execReorder (a b : Opnd) (s : State) : Host.Outcome State Fault Refusal :=
  issue s { slots := [Slot.s a Kinds.vwt 1 1, Slot.s b Kinds.wImm 1 1], ender := true, noHandler := true } (fun is =>
    .go (s.setEnder is (.reorder (is.w b 0) (is.lanes.map (fun i => (i, is.g.src (is.g.lane i) .int a 0))))))

/-! ### Moving lanes (R327) -/

/-- A group is held at a site once its tags are clear. -/
def Group.heldAt (g : Group) (site : Nat) : Option Held :=
  match g.held with
  | some h => if h.site = site && g.pend.isEmpty then some h else none
  | none => none

/-- A lane on its way: key, old GROUPID, old LANEID, the lane. Open points: DEDUCED (log 29). -/
structure Mover where
  key : Nat
  gid : Nat
  id : Nat
  lane : Lane
deriving DecidableEq, Repr

/-- The live lanes of a held group with their keys. -/
def Group.movers (g : Group) (h : Held) : List Mover :=
  (idxWhere (fun l => !l.isExited) g.lanes 0).map (fun i =>
    { key := ((kget i h.keys).getD 0).toNat, gid := g.idx, id := i, lane := g.lane i })

/-- What a lane carries to its new place: v0 to v(N-1), predicates, flags, ORIGIN, its PC, and traps that have landed for it. -/
def Lane.carry (n : Nat) (l : Lane) : Lane :=
  { l with v := l.v.filter (fun e => e.1 < n), t := [], st := .exited }

/-- A participant after the move, before its lanes have slots. -/
def Group.refill (g : Group) (n : Nat) (ms : List Mover) : Group :=
  { g with lanes := (ms.map (fun m => m.lane.carry n)) ++ List.replicate (Config.gw - ms.length) Lane.blank,
           w := g.w.filter (fun e => e.1 < 8), joins := noJoins, stamp := 0, splits := [], held := none, run := none }

/-- Give the participants their lanes, `gw` to each in order. -/
def refillAll (team n : Nat) : List Nat → List Mover → State → State
  | [], _, s => s
  | i :: is, ms, s =>
    refillAll team n is (ms.drop Config.gw)
      (s.updGroup { team := team, idx := i } (fun g => g.refill n (ms.take Config.gw)))

/-- The first `n` lanes of a participant form splits at their continuation PCs (R41 step 3). -/
def State.resplit (s : State) (k : GroupKey) (n : Nat) : State :=
  s.updGroup k (fun g => g.place (s.slotEnv k) ((upFrom 0 n).map (fun i => (i, (g.lane i).pc))))

/-- Every participant in turn forms its splits, `n` lanes being left to it and those after it. -/
def resplitAll (team : Nat) : List Nat → Nat → State → State
  | [], _, s => s
  | i :: is, n, s => resplitAll team is (n - Config.gw) (s.resplit { team := team, idx := i } (min n Config.gw))

/-- Move the lanes of the held participants. -/
def State.moveLanes (s : State) (team site n : Nat) (gs : List Group) : State :=
  let ms := gs.flatMap (fun g => match g.heldAt site with | some h => g.movers h | none => [])
  let ms := sortBy (fun (m : Mover) => (m.key * 2 ^ 8 + m.gid) * 2 ^ 8 + m.id) ms
  let is := gs.map (fun g => g.idx)
  resplitAll team is ms.length (refillAll team n is ms s)

/-- The group's accesses so far are performed for its team (R267). -/
def State.settled (s : State) (k : GroupKey) : State × Bool :=
  let s := s.settle k
  (s, ((s.group? k).map Group.allPerformed).getD true)

/-- The accesses of several groups are performed for their team. -/
def settleAll : List GroupKey → State → State × Bool
  | [], s => (s, true)
  | k :: ks, s =>
    match s.settled k with
    | (s, b) =>
      match settleAll ks s with
      | (s, c) => (s, b && c)

/-- REORDER_SITE_COMPLETE: once every participant of a site of a team is held there or has ended, and their accesses are performed,
the lanes move. Open points: DEDUCED (log 29). -/
def execReorderSiteComplete (team site : Nat) (s : State) : Host.Outcome State Fault Refusal :=
  match s.team? team with
  | none => .next s
  | some t =>
    let fl := match t.core with | some c => (s.core c).flights | none => []
    match firstSome (fun (g : Group) => g.heldAt site) t.groups with
    | none => .next s
    | some h =>
      let roles := bitsOf h.ctl 15 12
      let part (g : Group) : Bool := g.handler.isNone && roles / 2 ^ g.role % 2 = 1
      let ready (g : Group) : Bool := (g.heldAt site).isSome || g.ended { team := team, idx := g.idx } fl
      let stopped := t.groups.any (fun g => g.stopped)
      if stopped || !(t.groups.filter part).all ready then .next s
      else
        let gs := t.groups.filter (fun g => part g && (g.heldAt site).isSome)
        (match settleAll (gs.map (fun g => { team := team, idx := g.idx })) s with
         | (s, true) => .next (s.moveLanes team site (bitsOf h.ctl 7 0) (gs.filterMap (fun g => s.group? { team := team, idx := g.idx })))
         | (s, false) => .next s)

/-! ### LTRAP (R328, R329) -/

/-- LTRAP: each contributing lane takes a lane trap. -/
def execLtrap (n : BitVec 16) (s : State) : Host.Outcome State Fault Refusal :=
  issue s { slots := [], noHandler := true } (fun is =>
    .go (s.laneTraps is.key (is.lanes.map (fun i =>
      (i, { cause := Causes.laneTrap, pc := is.run.ipc, arg := n.setWidth 32, runAddr := is.run.addr, fall := 0 })))))

/-! ### Trap bins and handler groups (R330, R331) -/

/-- Whether a trap bin holds a lane of a draining group or of a stopping team. -/
def State.trapForced (s : State) (b : TrapBin) : Bool :=
  match s.team? b.team with
  | none => true
  | some t => t.stop.isSome || b.lanes.any (fun e => match t.group? e.1 with | some g => g.draining | none => true)

/-- TRAP_BIN_TIMEOUT: a trap bin that has been open for 256 core clocks, or that holds a lane of a draining group or a stopping team,
dispatches. -/
def execTrapBinTimeout (c : ClusterKey) (i : Nat) (s : State) : Host.Outcome State Fault Refusal :=
  match nth (s.cluster c).traps i with
  | none => .next s
  | some b =>
    if s.clock c.die ≥ b.opened + Config.binAge || s.trapForced b then
      .next (s.updCluster c (fun x => { x with traps := updNth (fun b => { b with closed := true }) x.traps i }))
    else .next s

/-- A handler lane as a copy of its origin lane (R331). -/
def Lane.handlerOf (o : Lane) (pc : Addr) : Lane :=
  { o with v := o.v.filter (fun e => e.1 < 32), came := { via := none, since := none }, t := [], mark := none, landed := [], origin := { o.origin with pc := pc } }

/-- The registers of a handler group: w0 to w5 as the team's, the cause, the argument, and three addresses (R331). -/
def handlerRegs (t : Team) (tr : LaneTrap) : Tbl 32 :=
  Tbl.setList (teamRegs t.rec' t.id 0 0) 8
    [tr.cause.setWidth 32, tr.arg, lo32 tr.pc, hi32 tr.pc, lo32 tr.runAddr, hi32 tr.runAddr, lo32 tr.fall, hi32 tr.fall]

/-- The handler group of a dispatched bin. -/
def handlerGroup (t : Team) (b : TrapBin) (idx quarter : Nat) : Group :=
  let lane (e : Nat × Nat) : Lane :=
    match t.group? e.1 with
    | some g => (g.lane e.2).handlerOf b.trap.pc
    | none => Lane.blank
  let gid := ((b.lanes.head?).map Prod.fst).getD 0
  let ls := b.lanes.map lane ++ List.replicate (Config.gw - b.lanes.length) Lane.blank
  let g := Group.start idx 0 gid (16 * t.rec'.tbudget) quarter ls (handlerRegs t b.trap)
  { g with handler := some (b.lanes.map some ++ List.replicate (Config.gw - b.lanes.length) none) }

/-- Indices of handler groups, from 16. Open points: DESIGN CHOICE (log 20). -/
def Team.handlerIdx (t : Team) : Nat :=
  (((upFrom 16 256).find? (fun i => t.groups.all (fun g => g.idx ≠ i)))).getD 272

/-- Whether a group is a handler group that has ended and no lane of which has an origin lane to end any more (R333). -/
def Group.handlerOver (g : Group) (k : GroupKey) (fl : List Flight) : Bool :=
  g.handler.any (fun os => os.all Option.isNone) && g.ended k fl

/-- HANDLER_GROUP_START: a dispatched trap bin becomes a handler group on its team's core, where a quarter has room; if none has,
groups of lower priority on that core begin to drain. A group that can resume there goes ahead (13 R302). Open points: DEDUCED (log 29). -/
def execHandlerGroupStart (c : ClusterKey) (i : Nat) (s : State) : Host.Outcome State Fault Refusal :=
  match nth (s.cluster c).traps i with
  | none => .next s
  | some b =>
    let drop (s : State) : State := s.updCluster c (fun x => ({ x with traps := dropNth x.traps i } : Cluster).trapIn (s.clock c.die) [])
    match s.team? b.team with
    | none => .next (if b.closed then drop s else s)
    | some t =>
      match t.core, s.part? t.part with
      | some k, some p =>
        let fl := (s.core k).flights
        let live := t.groups.filter (fun g => g.handler.isSome && !g.ended { team := t.key, idx := g.idx } fl)
        if !b.closed || p.halted || (s.backOn p k).isSome || t.groups.any (fun g => g.stopped) || live.length ≥ 4 then .next s
        else
          (match settleAll ((sortNat (b.lanes.map Prod.fst)).map (fun i => { team := t.key, idx := i })) s with
           | (s, false) => .next s
           | (s, true) =>
             let budget := 16 * t.rec'.tbudget
             let first := (b.lanes.head?).getD (0, 0)
             let w : Waiting := .trap b.team first.1 first.2
             let n : Need := { budgets := [budget], squares := 0, tiles := 0, prio := 3 }
             match (if (s.claimFor p w).isSome then none else some (bestQuarter (s.room k []).quarters budget)) with
             | none => .next s
             | some (some q) =>
               let s := s.updTeam t.key (fun t => { t with
                 groups := t.groups.filter (fun g => !g.handlerOver { team := t.key, idx := g.idx } fl) })
               (match s.team? t.key with
                | none => .next s
                | some t =>
                  .next ((drop (s.enterGroup t.key (handlerGroup t b t.handlerIdx q) b.lanes.length t.rec'.tvec)).endClaim t.part w))
             | some none => .next ((s.victimsOn p k n).elim s (fun v => s.claimRoom p w n [k] v)))
      | _, _ => .next s

/-! ### TRET (R333) -/

/-- TRET: a handler lane's earlier accesses are performed for the team before it returns; the return happens at the TRAIL. -/
def execTret (a : Opnd) (s : State) : Host.Outcome State Fault Refusal :=
  issue s { slots := [Slot.s a Kinds.vOnly 2 2], ender := true, onlyHandler := true } (fun is =>
    let ts := is.lanes.map (fun i => (i, is.g.src64 (is.g.lane i) a))
    if is.lanes.isEmpty then .go (s.setEnder is (.tret []))
    else
      match s.settled is.key with
      | (s, true) => .go (s.setEnder is (.tret ts))
      | (s, false) => .hold s)

end Sys2Proof.Machine
end

