-- ==== Sys2Proof/Machine/Selvage.lean ====
section
/-! DEFINITION. Selvage: heads, bands, PRESENT, motion estimation, reports and encoder streams (15 R335 to R351). -/

namespace Sys2Proof.Machine

/-! ### Heads -/

def State.head? (s : State) (part h : Nat) : Option Head := (s.part? part).bind (fun p => p.heads.find? (fun x => x.id = h))
def State.updHead (s : State) (part h : Nat) (f : Head → Head) : State :=
  s.updPart part (fun p => { p with heads := updWhere (fun x => x.id = h) f p.heads })
def State.stream? (s : State) (part h : Nat) : Option Stream := (s.part? part).bind (fun p => p.streams.find? (fun x => x.id = h))
def State.updStream (s : State) (part h : Nat) (f : Stream → Stream) : State :=
  s.updPart part (fun p => { p with streams := updWhere (fun x => x.id = h) f p.streams })

/-- Fields of the timing registers (R336). -/
def Head.hact (h : Head) : Nat := bitsOf (word h.timing 0) 13 0 + 1
def Head.vact (h : Head) : Nat := bitsOf (word h.timing 0) 27 14 + 1
def Head.htot (h : Head) : Nat := bitsOf (word h.timing 1) 15 0
def Head.vtot (h : Head) : Nat := bitsOf (word h.timing 1) 31 16
def Head.pclk (h : Head) : Nat := (word h.timing 2).toNat

/-- Bands of a frame. -/
def Head.count (h : Head) : Nat := h.vact / 16

/-- The synthesis ratio. -/
def Head.ratio (h : Head) : Nat := h.sr + 2

/-- The frame's number since EN was set, without wrapping (R350). -/
def Head.number (h : Head) : Nat := h.frameClocks / (h.htot * h.vtot)

/-- The present line relative to line 0 of the frame whose bands are at work (R338). -/
def Head.rel (h : Head) : Int := if h.ahead then (h.line : Int) - h.vtot else h.line

/-- A buffer that holds nothing. -/
def PeerBuf.none : PeerBuf := { got := [], asked := .none }

/-- An empty band. -/
def Band.fresh : Band := { slice := none, rung1 := none, rung0 := none, faulted := false, fixed := false }

/-- What a read for a head gave: a value, a fault, or a peer chip's answer to wait for. -/
inductive HeadGot (α : Type) where
  | ok (a : α)
  | fault
  | wait

/-- Run a head's reads. -/
def State.headRun {α : Type} (s : State) (part : Nat) (h : Head) (m : Eng α) : State × HeadGot α :=
  match m s with
  | .ok a s => (s, .ok a)
  | .error (.wait va session addr) s =>
    let (s, buf) := s.askWord part h.buf va session addr
    (s.updHead part h.id (fun x => { x with buf := buf }), .wait)
  | .error _ s => (s, .fault)

/-- A reader of the hub; words may be as old as a log position. -/
def hubReader (part : Nat) (since : Option Nat) : Reader := { pt := .hub, part := part, since := since }

/-- An arrival for no team's instruction: arrive(0) on the object of a reference, dropped when it faults (10 R238). Open points: DEDUCED (log 30). -/
def State.hubArrive (s : State) (part : Nat) (team : Option Nat) (x : W64) : State :=
  match Ref.ofPair x with
  | none => s
  | some r =>
    if r.sp then
      match team.bind s.team? with
      | some t => (match r.offset t.rec'.scratch with | some o => s.updObj (.scratch t.key o) 0 (.arrive 0) | none => s)
      | none => s
    else
      match s.access .hub part .rw r.addr with
      | (s, .ok (.mem key home _ _)) => s.updObj (.phys key) home (.arrive 0)
      | (s, _) => s

/-! ### PRESENT (R345, R347) -/

/-- An entry joins the present queue of four; the oldest of a full one is dropped. -/
def Head.enqueue (h : Head) (a : Addr) (pos : Nat) : Head :=
  if h.queue.length < 4 then { h with queue := h.queue ++ [(a, pos)] }
  else
    { h with queue := h.queue.drop 1 ++ [(a, pos)], drops := h.drops ++ (h.queue.take 1).map Prod.fst, drop := h.drop + 1,
             dropped := true }

/-- PRESENT. -/
def execPresent (a b : Opnd) (s : State) : Host.Outcome State Fault Refusal :=
  issue s { slots := [refSlot a, Slot.s b Kinds.wImm 1 1] } (fun is =>
    let addr := is.g.src64 Lane.blank a
    let h := (is.w b 0).toNat
    if is.lanes.isEmpty then .go s
    else if !canonical addr || addr.toNat % 64 ≠ 0 || h > 63 || (s.head? is.team.part h).isNone then Eff.trap s is Causes.presentOperand
    else
      match s.releaseAt is 3 with
      | (s, false) => .hold s
      | (s, true) => .go (s.updHead is.team.part h (fun x => x.enqueue addr s.wlog.length)))

/-! ### Surfaces (R341, R346) -/

/-- A descriptor that R346 rejects. An object reference is a whole word pair there: one with bits that R233 wants zero is accepted, and
its arrival is dropped. DESIGN CHOICE (log 49). -/
def surfBad (ws : List W32) : Bool :=
  let fmt := bitsOf (word ws 3) 31 28
  let w := bitsOf (word ws 3) 13 0 + 1
  (word ws 0).toNat % 256 ≠ 0 || bitsOf (word ws 1) 31 20 ≠ 0 || bitsOf (word ws 2) 31 20 ≠ 0 || (word ws 2).toNat % 16 ≠ 0
  || !(fmt = 0 || fmt = 3) || (word ws 2).toNat < w * (if fmt = 0 then 4 else 8) || (upFrom 6 10).any (fun k => word ws k ≠ 0)
  || (word ws 5).getLsbD 31

/-- The surface of a descriptor. -/
def Surface.ofWords (desc : Addr) (pos : Nat) (ws : List W32) : Surface :=
  let obj := pairOf (word ws 4) (word ws 5)
  { desc := desc, base := addrOf ws 0, pitch := bitsOf (word ws 2) 19 0, width := bitsOf (word ws 3) 13 0 + 1,
    height := bitsOf (word ws 3) 27 14 + 1, fmt := bitsOf (word ws 3) 31 28, obj := if obj = 0 then none else some obj, logPos := pos }

/-- A rejected descriptor: counted, with a notice (R346, 18 R393). -/
def State.rejectSurf (s : State) (part h : Nat) (a : Addr) : State :=
  (s.updHead part h (fun x => { x with rej := x.rej + 1 })).emit part
    { cause := Causes.surfaceDescriptor, kind := kNotice, va := a.toNat } none none

/-! ### Samples (R340) -/

/-- The Eng results of a list, in order. -/
def engMap {α β : Type} (f : α → Eng β) : List α → Eng (List β)
  | [] => pure []
  | a :: l => do
    let b ← f a
    let bs ← engMap f l
    pure (b :: bs)

/-- R, G and B of a pixel of a surface. -/
def surfTexel (part : Nat) (buf : PeerBuf) (f : Surface) (x y : Nat) : Eng (List Val) := do
  let n := if f.fmt = 0 then 1 else 2
  let ws ← engWords (hubReader part (some f.logPos)) buf (f.base.toNat + y * f.pitch + 4 * n * x) n
  pure ((texChannels f.fmt (bytesOfWords ws)).take 3)

/-- Along one axis, at position num/den: the pixels with their weights in 1/256, and the fraction (R179, clamp addressing). -/
def axisTaps (linear : Bool) (num : Int) (den n : Nat) : List (Nat × Nat) × Nat :=
  if !linear then ([(texAddr 1 (num / (den : Int)) n, 256)], 0)
  else
    let z := 2 * num - den
    let k := z / (2 * den : Int)
    let f := ((z - k * (2 * den)) * 256 / (2 * den : Int)).toNat
    ([(texAddr 1 k n, 256 - f), (texAddr 1 (k + 1) n, f)], f)

/-- A sample: R, G, B clamped to [0, 1], and the two fractions. -/
def surfSample (part : Nat) (buf : PeerBuf) (f : Surface) (linear : Bool) (x y : Int) (den : Nat) : Eng (List W32 × Nat × Nat) := do
  let (xs, fx) := axisTaps linear x den f.width
  let (ys, fy) := axisTaps linear y den f.height
  let taps := ys.flatMap (fun v => xs.map (fun u => (u.1, v.1, u.2 * v.2 * 256)))
  let got ← engMap (fun (p : Nat × Nat × Nat) => do
    let c ← surfTexel part buf f p.1 p.2.1
    pure (p.2.2, c)) taps
  pure ((upFrom 0 3).map (fun k => BitVec.ofNat 32 (Fmt.fp32.clamp (texChannel got k).toNat)), fx, fy)

/-- A vector as its two signed components, x first. -/
def vecOf (w : W32) : Int × Int := ((w.extractLsb' 0 16).toInt, (w.extractLsb' 16 16).toInt)

/-- The vector of surface B's block at an output pixel; a block that B does not have is any vector; one not found is a fault. -/
def headVec (h : Head) (b : Surface) (x y : Nat) : Eng (Int × Int) := fun s =>
  if h.surfA.isNone then .ok (0, 0) s
  else if x / 8 ≥ (b.width + 7) / 8 || y / 8 ≥ (b.height + 7) / 8 then
    let (s, w) := s.anyWord
    .ok (vecOf w) s
  else
    match nth h.vectors (y / 8) with
    | some (some ws) => .ok (vecOf (word ws (x / 8))) s
    | _ => .error (.error 0) s

/-- The source surface of rung 1. -/
def Head.source (h : Head) : Option Surface := if h.mode = 3 then h.surfB else h.latched

/-- The pose in units of 2^-149, if every word is finite. -/
def Head.poseUnits (h : Head) : Option (List Int) := (h.poseWords).bind (fun ws => allSome ((upFrom 0 6).map (fun k => finUnits (word ws k))))

/-- Rung 1 of an output pixel with its fractions (R340). -/
def rungPixel (part : Nat) (h : Head) (f : Surface) (x y : Nat) : Eng (List W32 × Nat × Nat) :=
  let x2 : Int := 2 * x + 1
  let y2 : Int := 2 * y + 1
  match h.mode with
  | 0 => surfSample part h.buf f false x2 y2 2
  | 1 =>
    let (n, d) : Nat × Nat := if h.upf = 0 then (3, 2) else if h.upf = 1 then (2, 1) else (3, 1)
    surfSample part h.buf f true (x2 * d) (y2 * d) (2 * n)
  | 2 =>
    match h.poseUnits with
    | some a =>
      let c (k : Nat) : Int := (nth a k).getD 0
      surfSample part h.buf f true (c 0 * x2 + c 1 * y2 + 2 * c 2) (c 3 * x2 + c 4 * y2 + 2 * c 5) (2 * unitDen)
    | none => throw (.error 0)
  | _ =>
    let r := h.ratio
    if h.phase ≥ r then surfSample part h.buf f false x2 y2 2
    else do
      let (mx, my) ← headVec h f x y
      let k : Int := 2 * ((r - h.phase : Nat) : Int)
      surfSample part h.buf f true (x2 * r + k * mx) (y2 * r + k * my) (2 * r)

/-- The output pixels of a band. -/
def Head.pixels (h : Head) (b : Nat) : List (Nat × Nat) := (upFrom (16 * b) 16).flatMap (fun y => (upFrom 0 h.hact).map (fun x => (x, y)))

/-- Rung 1 of a band: three words a pixel. -/
def bandRung1 (part : Nat) (h : Head) (f : Surface) (b : Nat) : Eng (List W32) := do
  let ps ← engMap (fun (p : Nat × Nat) => rungPixel part h f p.1 p.2) (h.pixels b)
  pure (ps.flatMap (fun p => p.1))

/-! ### The band network (R343) -/

/-- A record that R343 takes. -/
def bandNetOk (ws : List W32) : Bool :=
  let ls := netLayers ws
  !netBad ws && netInputs ws = 29 && ls.all (fun l => l.wfmt = 1 && l.out ≤ 32) && (ls.getLast?).map (fun l => l.out) = some 3

/-- An E4M3 value, saturated. -/
def toE4 (v : Val) : Val := Fmt.e4m3.value (Fmt.e4m3.satRound v)

/-- The network's outputs for a pixel. -/
def bandNet (ws : List W32) (xs : List Val) : List W32 :=
  evalLayers (bytesOfWords ws) (fun act z => Fmt.e4m3.value (Fmt.e4m3.sat (actRound Fmt.e4m3 act z))) (netLayers ws) (xs.map toE4)

/-- A neighbour inside the frame. -/
def inside (x d n : Nat) : Nat := min (x + d - 1) (n - 1)

/-- Rung 0 of a pixel: the neighbourhood's rung-1 values and the centre's fractions go through the network. -/
def netPixel (part : Nat) (h : Head) (f : Surface) (ws : List W32) (x y : Nat) : Eng (List W32) := do
  let spots := (upFrom 0 3).flatMap (fun j => (upFrom 0 3).map (fun i => (inside x i h.hact, inside y j h.vact)))
  let around ← engMap (fun (p : Nat × Nat) => rungPixel part h f p.1 p.2) spots
  let centre := (nth around 4).getD ([], 0, 0)
  let xs := around.flatMap (fun a => a.1.map (fun w => Fmt.fp32.value w.toNat))
            ++ [Val.fin false centre.2.1 256, Val.fin false centre.2.2 256]
  let ys := bandNet ws xs
  pure ((upFrom 0 3).map (fun c => BitVec.ofNat 32 (Fmt.fp32.clamp (fadd32 (word centre.1 c) (word ys c)).toNat)))

/-- Rung 0 of a band. -/
def bandRung0 (part : Nat) (h : Head) (f : Surface) (ws : List W32) (b : Nat) : Eng (List W32) := do
  let ps ← engMap (fun (p : Nat × Nat) => netPixel part h f ws p.1 p.2) (h.pixels b)
  pure ps.flatten

/-! ### Jobs of a band (R338, R339, R344) -/

/-- Change a band of a head. -/
def State.updBand (s : State) (part h b : Nat) (f : Band → Band) : State := s.updHead part h (fun x => { x with bands := updNth f x.bands b })

/-- Whether a band's window is open and its content not yet chosen. A fault of the pose record's read leaves no band rung 0 or 1 in any
mode (R344); a word of it that is NaN or infinite only where the pose acts (R340). Open points: DEDUCED (log 30). -/
def Head.openBand (h : Head) (b : Nat) : Bool :=
  h.en && h.rel ≥ 16 * ((b : Int) - 3) && h.poseWords.isSome && (h.mode ≠ 2 || h.poseUnits.isSome) && (match nth h.bands b with | some x => !x.fixed && !x.faulted | none => false)

/-- Whether the vectors that a band needs are found, in block rows 2b − 1 to 2b + 2 clamped to the surface, none of whose reads faulted
(R342, R344). -/
def Head.vectorsReady (h : Head) (b : Nat) : Bool :=
  h.mode ≠ 3 || h.phase ≥ h.ratio || h.surfA.isNone
  || (match h.surfB with
      | none => true
      | some f => (upFrom (2 * b) 4).all (fun y => ((nth h.vectors (min (y - 1) ((f.height + 7) / 8 - 1))).join).isSome))

/-- Whether a read for the vectors that a band needs has faulted (R344). -/
def Head.vectorsLost (h : Head) (b : Nat) : Bool :=
  h.mode = 3 && h.phase < h.ratio && h.surfA.isSome
  && (match h.surfB with
      | none => false
      | some f => (upFrom (2 * b) 4).any (fun y => nth h.vectors (min (y - 1) ((f.height + 7) / 8 - 1)) = some none))

/-- A fault of a read for a frame: FAULT in its report, or in the next one when its own has been stored (R348). -/
def State.headFault (s : State) (part h : Nat) : State := s.updHead part h (fun x => { x with report := x.report ||| 0x40000 })

/-- A job of a band runs to its end; a fault removes rungs 0 and 1. -/
def State.bandRun (s : State) (part : Nat) (h : Head) (b : Nat) (m : Head → Surface → Eng (List W32)) (put : List W32 → Band → Band) : State :=
  match h.source with
  | none => s
  | some f =>
    let (s, buf, ready) := s.pollBuf h.buf
    if !ready then s
    else
      let h := { h with buf := buf }
      let s := s.updHead part h.id (fun x => { x with buf := buf })
      match s.headRun part h (m h f) with
      | (s, .ok ws) => (s.updBand part h.id b (put ws)).updHead part h.id (fun x => { x with buf := PeerBuf.none })
      | (s, .fault) =>
        ((s.headFault part h.id).updBand part h.id b (fun x => { x with slice := none, rung1 := none, rung0 := none, faulted := true })).updHead part h.id
          (fun x => { x with buf := PeerBuf.none })
      | (s, .wait) => s

/-- The fixed-path job of a band: rung 1. -/
def State.bandWork (s : State) (part hid b : Nat) : State :=
  match s.head? part hid with
  | none => s
  | some h =>
    match nth h.bands b with
    | some x =>
      if h.openBand b && x.rung1.isNone && h.vectorsReady b then
        s.bandRun part h b (fun h f => bandRung1 part h f b) (fun ws x => { x with rung1 := some ws })
      else s
    | none => s

/-- The hub on which a head sits (R335). -/
def Head.hub (h : Head) : Nat := h.phys / 32

/-- Whether a band has a network job that waits for a slice. -/
def Head.jobWaits (h : Head) (b : Nat) : Bool :=
  h.netWords.isSome && h.openBand b && h.vectorsReady b
  && (match nth h.bands b with | some x => x.slice.isNone && x.rung0.isNone | none => false)

/-- The network jobs of a hub that wait, and its slices that are taken (R335, R339). -/
def State.jobsOf (s : State) (hub : Nat) : List (Head × Nat) :=
  s.parts.flatMap (fun p => (p.heads.filter (fun h => h.hub = hub)).flatMap (fun h =>
    ((upFrom 0 h.bands.length).filter h.jobWaits).map (fun b => (h, b))))
def State.slicesOf (s : State) (hub : Nat) : List Nat :=
  s.parts.flatMap (fun p => (p.heads.filter (fun h => h.hub = hub)).flatMap (fun h => h.bands.filterMap (fun b => b.slice)))

/-- Head clocks from the beginning of the present line to a band's deadline (R338). -/
def Head.slack (h : Head) (b : Nat) : Int := (16 * ((b : Int) - 1) - h.rel) * h.htot

/-- Whether a job comes before another: the earlier deadline, in time by the heads' clocks, then the lower head (R339). Open points:
DEDUCED (log 30). -/
def jobBefore (x y : Head × Nat) : Bool :=
  let a := x.1.slack x.2 * y.1.pclk
  let b := y.1.slack y.2 * x.1.pclk
  a < b || (a = b && (x.1.phys < y.1.phys || (x.1.phys = y.1.phys && x.2 < y.2)))

/-- BAND_JOB: the network job of a band: it takes a free slice of its hub, if no waiting job comes before it, and then ends with rung 0. -/
def execBandJob (part hid b : Nat) (s : State) : Host.Outcome State Fault Refusal :=
  match s.head? part hid with
  | none => .next s
  | some h =>
    match nth h.bands b, h.netWords with
    | some x, some ws =>
      if x.slice.isSome && h.openBand b then
        .next (s.bandRun part h b (fun h f => bandRung0 part h f ws b) (fun r x => { x with slice := none, rung0 := some r }))
      else if !h.jobWaits b || (s.jobsOf h.hub).any (fun y => jobBefore y (h, b)) then .next s
      else
        let used := s.slicesOf h.hub
        .next (match (upFrom 0 4).find? (fun n => !used.contains n) with
          | some n => s.updBand part hid b (fun x => { x with slice := some n })
          | none => s)
    | _, _ => .next s

/-- The band whose content is due to be chosen. -/
def Head.dueBand (h : Head) : Option Nat :=
  (upFrom 0 h.count).find? (fun b => h.rel ≥ 16 * ((b : Int) - 1) && (match nth h.bands b with | some x => !x.fixed | none => false))

/-- Count a rung in the report. -/
def countRung (r : W32) (two : Bool) : W32 := if two then r + 0x100 else r + 1

/-- Fix the content of a band by the ladder; a band that lacks rungs for vectors whose reads faulted sets FAULT in its frame's report
(R344). Open points: DEDUCED (log 30). -/
def Head.fixBand (h : Head) (b : Nat) : Head :=
  let h := if h.vectorsLost b then { h with report := h.report ||| 0x40000 } else h
  match nth h.bands b with
  | none => h
  | some x =>
    let mark (ws : List W32) (h : Head) : Head :=
      { h with bands := updNth (fun y => { y with fixed := true, slice := none }) h.bands b, prev := updNth (fun _ => ws) h.prev b }
    match x.rung0, x.rung1 with
    | some ws, _ => mark ws h
    | none, some ws => mark ws (if h.netOn then { h with f1 := h.f1 + 1, report := countRung h.report false } else h)
    | none, none => mark ((nth h.prev b).getD []) { h with f2 := h.f2 + 1, report := countRung h.report true }

/-- BAND_DEADLINE: the content of the band whose deadline has come is chosen. Open points: DEDUCED (log 30). -/
def execBandDeadline (part hid : Nat) (s : State) : Host.Outcome State Fault Refusal :=
  match s.head? part hid with
  | none => .next s
  | some h =>
    if !h.en then .next s
    else
      match h.dueBand with
      | some b => .next (s.updHead part hid (fun x => x.fixBand b))
      | none => .next s

/-! ### Enabling and disabling (R337) -/

/-- The registers pass the check of R337. -/
def Head.valid (h : Head) : Bool :=
  h.upf ≠ 3 && h.sr ≠ 3 && h.hact % 2 = 0 && h.hact ≤ 3840 && h.vact % 16 = 0 && h.vact ≤ 2160 && h.htot ≥ h.hact + 64
  && h.vtot ≥ h.vact + 48 && 1 ≤ h.pclk && h.pclk ≤ 1188000 && h.pclk * 1000 ≤ 120 * h.htot * h.vtot
  && h.netRec.toNat % 64 = 0 && h.pose.toNat % 32 = 0 && h.rep.toNat % 4096 = 0 && h.mv.toNat % 4 = 0

/-- The raster starts at line 0 of frame 0, past the deadline of that frame's band 0. -/
def Head.start (h : Head) : Head :=
  let h := { h with en := true, line := 0, frame := 0, frameClocks := 0, latched := none, surfA := none, surfB := none, phase := h.ratio,
                    poseWords := none, netWords := none, netOn := false, repNow := h.rep, mvNow := h.mv, ahead := false, reported := false,
                    bands := List.replicate h.count Band.fresh, prev := List.replicate h.count (List.replicate (48 * h.hact) 0),
                    vectors := [], report := 0, aFreed := false, estimating := false }
  h.fixBand 0

/-- Surface A while it is held: once estimation has ended nothing reads it (R347). -/
def Head.heldA (h : Head) : List Surface := if h.aFreed then [] else h.surfA.toList

/-- The raster stops: band work is discarded, and every held and queued surface is to be released. -/
def Head.stop (h : Head) : Head :=
  { h with en := false, bands := [], vectors := [], buf := PeerBuf.none, leaving := h.leaving ++ h.latched.toList ++ h.heldA ++ h.surfB.toList,
           latched := none, surfA := none, aFreed := false, surfB := none, drops := h.drops ++ h.queue.map Prod.fst, queue := [], ahead := false,
           reported := false, estimating := false }

/-! ### The raster (R337, R338) -/

/-- Whether the latch for the next frame is due (R347). -/
def Head.latchDue (h : Head) : Bool := h.en && h.line + 48 = h.vtot && !h.ahead && (h.line ≠ h.vact || h.reported)

/-- Whether the frame's report is due (R348). -/
def Head.reportDue (h : Head) : Bool := h.en && h.line = h.vact && !h.reported

/-- Superblock rows of a frame. -/
def Head.rows (h : Head) : Nat := (h.vact + 63) / 64

/-- Whether a stream still has rows of the frame to encode. -/
def Stream.behind (t : Stream) (h : Head) : Bool := t.en && t.cur = h.number && t.row < h.rows

/-- Whether the next frame that a stream encodes is a key frame: a forced one, or by the interval. -/
def Stream.isKey (t : Stream) : Bool :=
  let n := (word t.words 3).toNat
  t.keyNext || (if n = 0 then t.frames = 0 else t.frames % n = 0)

/-- The stream turns to a frame that has begun, if it encodes it. Open points: DEDUCED (log 30). -/
def Stream.newFrame (t : Stream) (n rows : Nat) : Stream :=
  let div := bitsOf (word t.words 0) 5 4 + 1
  if n % div = 0 then { t with cur := n, row := 0, key := t.isKey, keyNext := false, buf := PeerBuf.none }
  else { t with cur := n, row := rows, buf := PeerBuf.none }

/-- Set EN of a head whose registers are written; gives the cause. A stream of it that is enabled turns to frame 0. -/
def State.enableHead (s : State) (part h : Nat) (f : Head → Head) : State × Nat :=
  match s.head? part h with
  | none => (s, Causes.notOwned.toNat)
  | some x =>
    if (f x).valid then
      ((s.updHead part h (fun x => (f x).start)).updStream part h (fun t => if t.en then t.newFrame 0 (f x).rows else t), 0)
    else (s, Causes.headControl.toNat)

/-- HEAD_ENABLE: EN is set with the registers as they stand. -/
def execHeadEnable (part h : Nat) (s : State) : Host.Outcome State Fault Refusal :=
  match s.head? part h with
  | none => .next s
  | some x => .next (if x.en then s else (s.enableHead part h id).1)

/-- HEAD_DISABLE. -/
def execHeadDisable (part h : Nat) (s : State) : Host.Outcome State Fault Refusal :=
  match s.head? part h with
  | none => .next s
  | some x => .next (if x.en then s.updHead part h Head.stop else s)

/-- Whether a stream must encode its next row before the line ends: 64 lines have passed since the row's last, the frame ends, or for row 0
the next frame's band 0 takes the place of its content (R350). Open points: DEDUCED (log 30). -/
def Stream.due (t : Stream) (h : Head) : Bool :=
  t.behind h && (h.line + 1 ≥ h.vtot || h.line + 1 ≥ min (64 * (t.row + 1)) h.vact + 64 || (t.row = 0 && h.line + 17 ≥ h.vtot))

/-- The next line begins; after the last, the next frame. -/
def Head.advance (h : Head) : Head :=
  if h.line + 1 < h.vtot then { h with line := h.line + 1 }
  else { h with line := 0, frame := (h.frame + 1) % 2 ^ 32, frameClocks := (h.frameClocks + h.htot * h.vtot) % 2 ^ 64, ahead := false, reported := false }

/-- RASTER_LINE: HTOT head clocks pass, once everything due at the present line has happened. Open points: DEDUCED (log 30). -/
def execRasterLine (part hid : Nat) (s : State) : Host.Outcome State Fault Refusal :=
  match s.head? part hid with
  | none => .next s
  | some h =>
    let late : Bool := match s.stream? part hid with | some t => t.due h | none => false
    if !h.en || h.latchDue || h.reportDue || h.dueBand.isSome || late then .next s
    else
      let n := { h.advance with linePos := s.wlog.length }
      let s := s.updHead part hid (fun _ => n)
      .next (if n.line = 0 then s.updStream part hid (fun t => if t.en then t.newFrame n.number n.rows else t) else s)

/-! ### The latch (R347) -/

/-- The newest queued entry is taken, older ones are dropped. Open points: DEDUCED (log 30). -/
def Head.takeNewest (h : Head) : Head :=
  let older := (h.queue.dropLast).map Prod.fst
  { h with queue := [], drops := h.drops ++ older, drop := h.drop + BitVec.ofNat 32 older.length,
           dropped := h.dropped || !older.isEmpty }

/-- The frame's state with nothing latched for it yet; its report begins with a FAULT that came too late for the one before. -/
def Head.newFrame (h : Head) : Head :=
  { h with ahead := true, bands := List.replicate h.count Band.fresh, report := h.report &&& 0x40000, repNow := h.rep, mvNow := h.mv, netOn := false,
           netWords := none, poseWords := none, buf := PeerBuf.none }

/-- A new surface, if there is one, is latched; in synthesis the pair and the phase advance. -/
def Head.takeSurface (h : Head) (f : Option Surface) : Head :=
  if h.mode = 3 then
    match f with
    | some f => { h with leaving := h.leaving ++ h.heldA, surfA := h.surfB, surfB := some f, aFreed := false, phase := 1, vectors := [],
                         estimating := false,
                         report := h.report ||| 0x10000 }
    | none =>
      if h.phase < h.ratio then { h with phase := h.phase + 1 }
      else { h with report := if h.surfB.isSome then h.report ||| 0x20000 else h.report }
  else
    match f with
    | some f => { h with leaving := h.leaving ++ h.latched.toList, latched := some f, report := h.report ||| 0x10000 }
    | none => h

/-- The entry that the latch takes: in synthesis only after the last phase. -/
def Head.wanted (h : Head) : Option (Addr × Nat) := if h.mode = 3 && h.phase < h.ratio then none else h.queue.getLast?

/-- What the latch reads: the descriptor, the pose, the network. Each is some of what was read, or none on a fault. -/
structure Latch where
  desc : Option (List W32)
  pose : Option (List W32)
  net : Option (List W32)
deriving DecidableEq, Repr

/-- The reads of a latch. -/
def latchReads (part : Nat) (h : Head) : Eng Latch := do
  let rd := hubReader part none
  let old := hubReader part (some h.linePos)
  let desc ← match h.wanted with
    | some (a, _) => engTry (engWords rd h.buf a.toNat 16)
    | none => pure none
  let pose ← engTry (engWords old h.buf h.pose.toNat 6)
  let net ← if h.net then engTry (readNet old h.buf h.netRec.toNat) else pure none
  pure { desc := desc, pose := pose, net := net }

/-- The head takes what the latch read. Open points: DEDUCED (log 30). -/
def State.latch (s : State) (part : Nat) (h : Head) (l : Latch) : State :=
  let want := h.wanted
  let s := s.updHead part h.id (fun x => (if want.isSome then x.takeNewest else x).newFrame)
  let surf : Option Surface := match want, l.desc with
    | some (a, pos), some ws => if surfBad ws then none else some (Surface.ofWords a pos ws)
    | _, _ => none
  let s := match want with
    | some (a, _) => if surf.isNone then s.rejectSurf part h.id a else s
    | none => s
  let s := if want.isSome && l.desc.isNone then s.headFault part h.id else s
  let s := s.updHead part h.id (fun x => x.takeSurface surf)
  let s := match l.pose with
    | some ws => s.updHead part h.id (fun x => { x with poseWords := some ws })
    | none => s.headFault part h.id
  if !h.net then s
  else
    match l.net with
    | none => (s.headFault part h.id).updHead part h.id (fun x => { x with netOn := true })
    | some ws =>
      if bandNetOk ws then s.updHead part h.id (fun x => { x with netOn := true, netWords := some ws })
      else s.updHead part h.id (fun x => { x with rej := x.rej + 1 })

/-- SURFACE_LATCH. -/
def execSurfaceLatch (part hid : Nat) (s : State) : Host.Outcome State Fault Refusal :=
  match s.head? part hid with
  | none => .next s
  | some h =>
    if !h.latchDue || h.dueBand.isSome then .next s
    else
      let (s, buf, ready) := s.pollBuf h.buf
      if !ready then .next s
      else
        let h := { h with buf := buf }
        let s := s.updHead part hid (fun x => { x with buf := buf })
        match s.headRun part h (latchReads part h) with
        | (s, .ok l) => .next (s.latch part h l)
        | (s, _) => .next s

/-! ### Motion estimation (R342) -/

/-- The 8-bit luma of a pixel. -/
def luma (cs : List Val) : Nat :=
  let c8 (v : Val) : Nat :=
    match v with
    | .fin s n d => if s then 0 else if n ≥ d then 255 else (roundInt .rne false (n * 255) d 0).1
    | .inf s => if s then 0 else 255
    | .nan => 0
  let c (k : Nat) : Nat := c8 ((nth cs k).getD .nan)
  (77 * c 0 + 150 * c 1 + 29 * c 2 + 128) / 256

/-- The lumas of a window of a surface, pixels outside clamped to the edge: rows of `w` from (x, y). -/
def lumaWin (part : Nat) (buf : PeerBuf) (f : Surface) (x y : Int) (w h : Nat) : Eng (List (List Nat)) :=
  engMap (fun (j : Nat) => engMap (fun (i : Nat) => do
    let c ← surfTexel part buf f (texAddr 1 (x + (i : Int)) f.width) (texAddr 1 (y + (j : Int)) f.height)
    pure (luma c)) (upFrom 0 w)) (upFrom 0 h)

/-- The sum of absolute differences of an 8×8 block and the window at an offset. -/
def sad (blk win : List (List Nat)) (dx dy : Nat) : Nat :=
  sumNat ((blk.zip (win.drop dy)).map (fun r => sumNat ((r.1.zip (r.2.drop dx)).map (fun e => max e.1 e.2 - min e.1 e.2))))

/-- The vector of a block as its word: least difference, then least |dx| + |dy|, then dy, then dx. -/
def bestVector (blk win : List (List Nat)) : W32 :=
  let offs := (upFrom 0 129).flatMap (fun dy => (upFrom 0 129).map (fun dx => (dx, dy)))
  let away (n : Nat) : Nat := max n 64 - min n 64
  let key (e : Nat × Nat) : Nat := ((sad blk win e.1 e.2 * 2 ^ 8 + (away e.1 + away e.2)) * 2 ^ 8 + e.2) * 2 ^ 8 + e.1
  match minBy key offs with
  | some e => BitVec.ofInt 16 ((e.2 : Int) - 64) ++ BitVec.ofInt 16 ((e.1 : Int) - 64)
  | none => 0

/-- The vectors of block row `row`. -/
def vectorRow (part : Nat) (buf : PeerBuf) (a b : Surface) (row : Nat) : Eng (List W32) :=
  engMap (fun (col : Nat) => do
    let blk ← lumaWin part buf b (8 * (col : Int)) (8 * (row : Int)) 8 8
    let win ← lumaWin part buf a (8 * (col : Int) - 64) (8 * (row : Int) - 64) 136 136
    pure (bestVector blk win)) (upFrom 0 ((b.width + 7) / 8))

/-- Whether the motion-estimation block of a head's hub is on a block row of another head (R335). -/
def State.blockTaken (s : State) (h : Head) : Bool :=
  s.parts.any (fun p => p.heads.any (fun x => x.hub = h.hub && x.phys ≠ h.phys && x.estimating))

/-- MOTION_ESTIMATION: once the hub's block is free, the vectors of the next block row of the pair are found, and stored where MV says;
after the last, surface A is released. Open points: DEDUCED (log 30). -/
def execMotionEstimation (part hid : Nat) (s : State) : Host.Outcome State Fault Refusal :=
  match s.head? part hid with
  | none => .next s
  | some h =>
    match h.surfA, h.surfB with
    | some a, some b =>
      let row := h.vectors.length
      if !h.en || h.mode ≠ 3 || row ≥ (b.height + 7) / 8 || s.blockTaken h then .next s
      else
        let (s, buf, ready) := s.pollBuf h.buf
        if !ready then .next s
        else
          let h := { h with buf := buf }
          let s := s.updHead part hid (fun x => { x with buf := buf, estimating := true })
          let last : Bool := row + 1 ≥ (b.height + 7) / 8
          let put (s : State) (r : Option (List W32)) : State :=
            s.updHead part hid (fun x =>
              { x with vectors := x.vectors ++ [r], buf := PeerBuf.none, estimating := false,
                       leaving := if last then x.leaving ++ x.heldA else x.leaving, aFreed := x.aFreed || last })
          (match s.headRun part h (vectorRow part buf a b row) with
           | (s, .ok ws) =>
             let s := put s (some ws)
             .next (if h.mvNow = 0 then s
                    else (upFrom 0 ws.length).foldl (fun s k =>
                      s.hubStore part (h.mvNow.toNat + 4 * (row * ws.length + k)) (bytesOf 4 (word ws k).toNat)) s)
           | (s, .fault) => .next (put (s.headFault part hid) none)
           | (s, .wait) => .next s)
    | _, _ => .next s

/-! ### Releases (R347) -/

/-- SURFACE_RELEASE: a surface that nothing will read again, or a dropped or queued entry that was never read, is arrived on.
Open points: DEDUCED (log 30). -/
def execSurfaceRelease (part hid : Nat) (s : State) : Host.Outcome State Fault Refusal :=
  match s.head? part hid with
  | none => .next s
  | some h =>
    match h.leaving, h.drops with
    | f :: fs, _ =>
      let s := s.updHead part hid (fun x => { x with leaving := fs })
      .next (match f.obj with | some o => s.hubArrive part none o | none => s)
    | [], a :: as =>
      let (s, buf, ready) := s.pollBuf h.buf
      if !ready then .next s
      else
        let h := { h with buf := buf }
        let s := s.updHead part hid (fun x => { x with buf := buf })
        let done (s : State) : State := s.updHead part hid (fun x => { x with drops := as, buf := PeerBuf.none })
        (match s.headRun part h (engWords (hubReader part none) buf a.toNat 16) with
         | (s, .ok ws) =>
           let s := done s
           if surfBad ws then .next (s.rejectSurf part hid a)
           else .next (match (Surface.ofWords a 0 ws).obj with | some o => s.hubArrive part none o | none => s)
         | (s, .fault) => .next (((done s).rejectSurf part hid a).headFault part hid)
         | (s, .wait) => .next s)
    | [], [] => .next s

/-! ### The report word (R348) -/

/-- REPORT_WORD. -/
def execReportWord (part hid : Nat) (s : State) : Host.Outcome State Fault Refusal :=
  match s.head? part hid with
  | none => .next s
  | some h =>
    if !h.reportDue || h.dueBand.isSome then .next s
    else
      let w : W32 := (h.report ||| (if h.dropped then 0x80000 else 0)) ||| BitVec.ofNat 32 (h.frame % 256 * 2 ^ 24)
      let s := s.updHead part hid (fun x => { x with reported := true, dropped := false, report := 0 })
      .next (s.hubStore part (h.repNow.toNat + 4 * (h.frame % 1024)) (bytesOf 4 w.toNat))

/-! ### Streams (R349, R350) -/

def Stream.rate (t : Stream) : Nat := (word t.words 1).toNat
def Stream.maxRate (t : Stream) : Nat := (word t.words 2).toNat
def Stream.div (t : Stream) : Nat := bitsOf (word t.words 0) 5 4 + 1
def Stream.toMem (t : Stream) : Bool := (word t.words 0).getLsbD 3
def Stream.ring (t : Stream) : Addr := addrOf t.words 10
def Stream.size (t : Stream) : Nat := (word t.words 12).toNat

/-- The registers of a stream pass the check against its head. -/
def Stream.valid (t : Stream) (h : Head) : Bool :=
  h.en && 100 ≤ t.rate && t.rate ≤ 200000 && t.rate ≤ t.maxRate && 96 ≤ bitsOf (word t.words 8) 22 16 && t.ring.toNat % 4096 = 0
  && 65536 ≤ t.size && t.size = 2 ^ Nat.log2 t.size
  && h.hact * h.vact * h.pclk * 1000 ≤ 497664000 * t.div * h.htot * h.vtot

/-- A stream starts with the next frame that begins. -/
def Stream.start (t : Stream) (h : Head) : Stream :=
  { t with en := true, frames := 0, row := h.rows, keyNext := true, offset := 0, cur := h.number, buf := PeerBuf.none }

/-- Set EN of a stream whose registers are written; gives the cause. -/
def State.enableStream (s : State) (part h : Nat) (f : Stream → Stream) : State × Nat :=
  match s.stream? part h, s.head? part h with
  | some t, some x => if (f t).valid x then (s.updStream part h (fun t => (f t).start x), 0) else (s, Causes.headControl.toNat)
  | _, _ => (s, Causes.notOwned.toNat)

/-- STREAM_ENABLE: EN is set with the registers as they stand. -/
def execStreamEnable (part h : Nat) (s : State) : Host.Outcome State Fault Refusal :=
  match s.stream? part h with
  | none => .next s
  | some t => .next (if t.en then s else (s.enableStream part h id).1)

/-- Packets of at most 1,200 payload bytes; the last of a frame's last row carries the marker. -/
def rtpPackets (t : Stream) (stamp : W32) (last : Bool) : List (List Byte) → List Body
  | [] => []
  | [x] => [.rtp t.id ((upFrom 4 4).map (word t.words)) (bitsOf (word t.words 8) 15 0) (bitsOf (word t.words 8) 22 16) (word t.words 9) stamp last x]
  | x :: xs =>
    .rtp t.id ((upFrom 4 4).map (word t.words)) (bitsOf (word t.words 8) 15 0) (bitsOf (word t.words 8) 22 16) (word t.words 9) stamp false x
      :: rtpPackets t stamp last xs

/-- The RTP timestamp of the frame. -/
def Head.stamp (h : Head) : W32 := BitVec.ofNat 32 (h.frameClocks * 90000 / (h.pclk * 1000))

/-- Append a row to the memory ring, if it fits; its record is the length and the bytes padded to 4. Open points: DEDUCED (log 30). -/
def State.ringRow (s : State) (part : Nat) (t : Stream) (bs : List Byte) (rd : Nat) : State :=
  let padded := bytesOf 4 bs.length ++ bs ++ List.replicate ((4 - bs.length % 4) % 4) 0
  let free := t.size - (t.offset + t.size - rd % t.size) % t.size
  if padded.length ≥ free then s.updStream part t.id (fun x => { x with keyNext := true })
  else
    let words := wordsOfBytes (padded.length / 4) padded
    let s := (upFrom 0 words.length).foldl (fun s k =>
      s.hubStore part (t.ring.toNat + 64 + (t.offset + 4 * k) % t.size) (bytesOf 4 (word words k).toNat)) s
    let off := (t.offset + padded.length) % t.size
    (s.updStream part t.id (fun x => { x with offset := off })).hubStore part t.ring.toNat (bytesOf 4 off)

/-- The stream goes on to its next row. -/
def Stream.step (t : Stream) (rows : Nat) : Stream :=
  if t.row + 1 ≥ rows then { t with row := t.row + 1, frames := t.frames + 1 } else { t with row := t.row + 1 }

/-- A rational rounded to the nearest integer, ties to even. -/
def nearest (num : Int) (den : Nat) : Nat := (roundInt .rne (num < 0) num.toNat den 0).1

/-- R, G and B of a pixel of the scanned frame, in units of 2^-149. -/
def Head.shown (h : Head) (x y : Nat) : Int × Int × Int :=
  let ws := (nth h.prev (y / 16)).getD []
  let c (k : Nat) : Int := (finUnits (word ws (3 * ((y % 16) * h.hact + x) + k))).getD 0
  (c 0, c 1, c 2)

/-- The luma expression of R350 times 10,000. -/
def lumaSum (p : Int × Int × Int) : Int := 2126 * p.1 + 7152 * p.2.1 + 722 * p.2.2

/-- Y of a pixel, with `d` bits. -/
def lumaOf (d : Nat) (p : Int × Int × Int) : Nat :=
  nearest (2 ^ (d - 8) * (16 * 10000 * unitDen + 219 * lumaSum p)) (10000 * unitDen)

/-- Cb or Cr of a 2×2 block whose channels sum to `p`: channel `c` of the sums, divisor times 10,000. -/
def chromaOf (d : Nat) (p : Int × Int × Int) (c : Int) (div : Nat) : Nat :=
  nearest (2 ^ (d - 8) * (128 * div * (4 * unitDen) + 224 * (10000 * c - lumaSum p))) (div * (4 * unitDen))

/-- The planes of a superblock row, whose missing lines repeat the last one (R350). -/
def Head.planes (h : Head) (d row : Nat) : List Nat × List Nat × List Nat :=
  let at' (x y : Nat) : Int × Int × Int := h.shown x (min y (h.vact - 1))
  let sum (x y : Nat) : Int × Int × Int :=
    let ps := [at' x y, at' (x + 1) y, at' x (y + 1), at' (x + 1) (y + 1)]
    ps.foldl (fun a p => (a.1 + p.1, a.2.1 + p.2.1, a.2.2 + p.2.2)) (0, 0, 0)
  let ys := upFrom (64 * row) 64
  let blocks := (upFrom 0 32).flatMap (fun j => (upFrom 0 (h.hact / 2)).map (fun i => sum (2 * i) (64 * row + 2 * j)))
  (ys.flatMap (fun y => (upFrom 0 h.hact).map (fun x => lumaOf d (at' x y))),
   blocks.map (fun p => chromaOf d p p.2.2 18556), blocks.map (fun p => chromaOf d p p.1 15748))

/-- Whether a stream's samples have 10 bits. -/
def Stream.ten (t : Stream) : Bool := (word t.words 0).getLsbD 1

/-- Software's read offset of a stream's memory ring, or none while a peer chip is asked for it (17 R385); where its read faults, one that
leaves no room. A stream that sends reads none. Open points: DEDUCED (log 30). -/
def State.readOffset (s : State) (part : Nat) (t : Stream) : State × Option Nat :=
  if !t.toMem then (s, some 0)
  else
    match s.pollBuf t.buf with
    | (s, _, false) => (s, none)
    | (s, buf, true) =>
      let put (s : State) (b : PeerBuf) : State := s.updStream part t.id (fun x => { x with buf := b })
      match engWords (hubReader part none) buf (t.ring.toNat + 8) 1 s with
      | .ok ws s => (put s PeerBuf.none, some (word ws 0).toNat)
      | .error (.wait va session addr) s =>
        let (s, b) := s.askWord part buf va session addr
        (put s b, none)
      | .error _ s => (put s PeerBuf.none, some (t.offset + 1))

/-- ENCODE_ROW: the next superblock row, whose last line has been scanned out, is encoded. -/
def execEncodeRow (part hid : Nat) (s : State) : Host.Outcome State Fault Refusal :=
  match s.head? part hid, s.stream? part hid with
  | some h, some t =>
    if !h.en || !t.behind h || h.line < min (64 * (t.row + 1)) h.vact then .next s
    else
      match s.readOffset part t with
      | (s, none) => .next s
      | (s, some rd) =>
        let ps := h.planes (if t.ten then 10 else 8) t.row
        let bs := Config.av1Row s.fresh t.key t.ten t.row ps.1 ps.2.1 ps.2.2
        let s := { s with fresh := s.fresh + 1 }
        let s := s.updStream part hid (fun x => x.step h.rows)
        if t.toMem then .next (s.ringRow part t bs rd)
        else
          let last : Bool := t.row + 1 ≥ h.rows
          let pkts := rtpPackets t h.stamp last (chunks 1200 (bs.length / 1200 + 1) bs)
          .next { s with sent := s.sent ++ pkts.map (fun b => { session := 0, seq := 0, ack := 0, body := b }) }
  | _, _ => .next s

end Sys2Proof.Machine
end

