-- ==== Sys2Proof/Machine/Recovery.lean ====
section
/-! DEFINITION. Recovery: replay, the end of stopped teams, kills, partition resets, the freeze and its dump, and the supervisor's actions
(18 R396 to R407, R410 to R412). -/

namespace Sys2Proof.Machine

/-- The clock of a queue's engine (13 R290). -/
def State.engineClock (s : State) (x : Queue) : Nat := (kget (x.phys / 16) s.engines).getD 0

/-- Change every core, and every Heddle. -/
def State.mapCores (s : State) (f : Core → Core) : State := { s with cores := s.cores.map (fun c => (c.1, f c.2)) }
def State.mapClusters (s : State) (f : Cluster → Cluster) : State := { s with clusters := s.clusters.map (fun c => (c.1, f c.2)) }

/-! ### Replay (R402) -/

/-- A parked address satisfies a test. -/
def hitBy (hit : Nat → Bool) (v : Option Nat) : Bool := match v with | some a => hit a | none => false

/-- Reissue the held accesses of a group whose record's address satisfies a test: its lanes' accesses, its copies, its team's
bindings, its collectives, and tiles that hold its calls. -/
def State.replay (s : State) (part : Nat) (k : GroupKey) (hit : Nat → Bool) : State :=
  let job (j : ShuttleJob) : Bool := j.group = k && hitBy hit (j.parked.map (fun a => a.toNat))
  let tile (t : HTile) : Bool := t.part = part && hitBy hit t.parked && t.calls.any (fun c => c.group = k)
  let s := s.mapCores (fun c => { c with shuttle := updWhere job (fun j => { j with parked := none, held := [], buf := j.buf.retry }) c.shuttle })
  let s := (s.mapClusters (fun c => { c with tiles := updWhere tile (fun t => { t with parked := none, buf := t.buf.retry }) c.tiles })).wakeFetches
  let s := { s with colls := updWhere (fun c => c.issued && c.group = k && hitBy hit c.parked) (fun c => { c with parked := none, buf := c.buf.retry }) s.colls }
  let s := if k.idx = 0 then s.updTeam k.team (fun t => if hitBy hit t.bindParked then { t with bindParked := none, bindBuf := t.bindBuf.retry } else t) else s
  s.replayGroup k hit

/-- The groups of a partition. -/
def State.groupsOf (s : State) (part : Nat) : List GroupKey :=
  (s.teams.filter (fun t => t.part = part)).flatMap (fun t => t.groups.map (fun g => { team := t.key, idx := g.idx }))

/-- Reissue the held accesses of a partition whose record's address satisfies a test. -/
def State.replayAll (s : State) (part : Nat) (hit : Nat → Bool) : State :=
  (s.groupsOf part).foldl (fun s k => s.replay part k hit) s

/-! ### Parked accesses are abandoned (R400, R405) -/

/-- The parked calls of a group leave their tiles. -/
def HTile.dropCalls (t : HTile) (k : GroupKey) : HTile :=
  if t.parked.isSome then { t with calls := t.calls.filter (fun c => c.group ≠ k) } else t

/-- The parked lanes of a pending operation are given up; one that has no lane left is gone, and its tag's count falls. -/
def dropLanes (calls : List (Nat × Nat)) (ops : List PendOp) : List PendOp :=
  let out (o : PendOp) (l : PendLane) : Bool := l.acc = .parked || calls.contains (o.seq, l.lane)
  (ops.map (fun o => { o with lanes := o.lanes.filter (fun l => !out o l) })).filter (fun o => !o.lanes.isEmpty)

/-- Abandon a group's parked accesses: none is performed, their tags clear, no register is written, a parked copy credits nothing, and
a parked collective is aborted. -/
def State.dropParked (s : State) (part : Nat) (k : GroupKey) : State :=
  let calls := s.parkedCalls k
  let s := s.mapClusters (fun c =>
    ({ c with tiles := (c.tiles.map (fun t => t.dropCalls k)).filter (fun t => !t.calls.isEmpty) } : Cluster).dispatch)
  let s := s.callsLeft.updGroup k (fun g =>
    { g with pend := dropLanes calls g.pend,
             queue := match g.queue with | e :: es => if e.parked then es else e :: es | [] => [] })
  let jobs (x : Core) : List ShuttleJob := x.shuttle.filter (fun j => j.group = k && j.parked.isSome)
  let s := s.cores.foldl (fun (s : State) (c : CoreKey × Core) => (jobs c.2).foldl (fun s j => s.jobDone c.1 j) s) s
  let held (c : Coll) : Bool := c.issued && c.group = k && c.parked.isSome
  let s := (s.colls.filter held).foldl (fun s c => s.killColl c) s
  let s := (s.colls.filter held).foldl (fun s c => s.collFailed c) s
  let s := if k.idx = 0 then s.updTeam k.team (fun t =>
    if t.bindParked.isSome then { t with bindParked := none, bindPos := t.bindings.length } else t) else s
  s.updPart part (fun p => { p with notices := p.notices.filter (fun n => !(n.group = k && n.parked)) })

/-! ### The end of a team (R400, R405) -/

/-- A group whose run has ended issues no more: its lanes end, its waits and its saved state are gone. Open points: DEDUCED (log 31). -/
def Group.finish (g : Group) : Group :=
  { g with lanes := g.lanes.map (fun l => { l with st := .exited, mark := none, landed := [] }), splits := [], held := none, tlbinv := none,
           draining := false, evicted := none, joins := noJoins, cause := none }

/-- A group of a team that ends: its parked accesses are abandoned; once its run has ended, and the record of a stop that concerns it
has arisen, it ends. -/
def State.endGroup (s : State) (part : Nat) (k : GroupKey) : State :=
  let s := s.dropParked part k
  match s.team? k.team, s.group? k with
  | some t, some g =>
    if g.run.isSome || (t.stop.isSome && g.recorded.isNone) then s else s.updGroup k Group.finish
  | _, _ => s

/-- The keys of a team's groups. -/
def Team.keys (t : Team) : List GroupKey := t.groups.map (fun g => { team := t.key, idx := g.idx })

/-- A team ends: no group begins a run, no trap bin of it waits, and each group ends as soon as it can. -/
def State.endTeam (s : State) (t : Team) : State :=
  let s := s.updTeam t.key (fun t => { t with ended := true, groups := t.groups.map (fun g => { g with stopped := true }) })
  let s := { s with clusters := s.clusters.map (fun c => (c.1, c.2.dropTraps t.key (s.clock c.1.die))) }
  t.keys.foldl (fun s k => s.endGroup t.part k) s

/-! ### GROUP_STOP_RECORD (R398) -/

/-- GROUP_STOP_RECORD: a stopped group that has drained writes its record; in a team that was ended it ends. -/
def execGroupStopRecord (k : GroupKey) (s : State) : Host.Outcome State Fault Refusal :=
  let s := s.stopRecord k
  match s.team? k.team with
  | some t => .next (if t.ended then s.endGroup t.part k else s)
  | none => .next s

/-! ### Kills (R405) -/

/-- Kill a launch with a cause: an eligible one stops placing, and its teams end; a queued one ends at once. -/
def State.killLaunch (s : State) (l : Launch) (cause : Cause) (va : Nat) : State :=
  match l.stage with
  | .queued => (s.updLaunch l.key (fun x => { x with stage := .ended })).launchEnd l cause va
  | .eligible =>
    let clock := ((s.queue? l.part l.queue).map s.engineClock).getD 0
    let s := s.updLaunch l.key (fun x => { x with stage := .killed cause va, pending := false, killClock := some clock })
    let s := (s.teams.filter (fun t => t.launch = l.key)).foldl (fun s t => s.endTeam t) s
    let mine (c : Coll) : Bool := c.issued && (match s.team? c.group.team with | some t => t.launch = l.key | none => false)
    (s.colls.filter mine).foldl (fun s c => s.killColl c) s
  | _ => s

/-- Whether the watchdog of a queue has expired on its next launch to complete (R404). -/
def Queue.expired (x : Queue) : Bool := x.wdog ≠ 0 && x.watch ≥ x.wdog

/-- A partition begins to be reset (R407). -/
def State.beginReset (s : State) (part : Nat) (c : Cause) (info : Option (Nat × W32)) : State :=
  s.updPart part (fun p => if p.resetting then p else { p with resetting := true, resetCause := some (c, info) })

/-- What a reset's record says of a queue's launch. -/
def State.resetInfo (s : State) (part : Nat) (l : Launch) : Option (Nat × W32) := some (l.queue, s.lseq part l.queue l.key)

/-- WATCHDOG_EXPIRY: the queue's next launch to complete is killed, or with WDRST its partition is reset. -/
def execWatchdogExpiry (part q : Nat) (s : State) : Host.Outcome State Fault Refusal :=
  match s.part? part, s.queue? part q with
  | some p, some x =>
    (match s.queueLaunches x with
     | l :: _ =>
       if p.halted || l.stage ≠ .eligible || !x.expired then .next s
       else if x.wdrst then .next (s.beginReset part Causes.resetOnWatchdog (s.resetInfo part l))
       else .next (s.killLaunch l Causes.watchdog 0)
     | [] => .next s)
  | _, _ => .next s

/-- What goes on in a killed launch: stop records arise, groups end, collectives are aborted. Open points: DEDUCED (log 32). -/
def State.killOn (s : State) (l : Launch) : State :=
  (s.teams.filter (fun t => t.launch = l.key)).foldl (fun s t =>
    t.keys.foldl (fun s k => (s.stopRecord k).endGroup t.part k) s) s

/-- A killed launch goes on ending; once every team has ended its record is written. Open points: DEDUCED (log 32). -/
def State.killStep (s : State) (l : Launch) : State :=
  match l.stage with
  | .killed c va =>
    let s := s.killOn l
    if (s.liveTeams l.key).isEmpty then (s.updLaunch l.key (fun x => { x with stage := .ended })).launchEnd l c va else s
  | _ => s

/-- KILL_COMPLETE: the killed launches of a queue go on ending. -/
def execKillComplete (part q : Nat) (s : State) : Host.Outcome State Fault Refusal :=
  match s.queue? part q with
  | none => .next s
  | some x => .next ((s.queueLaunches x).foldl (fun s l => s.killStep l) s)

/-- GRACE_EXPIRY: a kill that has not completed within GRACE queue clocks resets the partition (R406). -/
def execGraceExpiry (part q : Nat) (s : State) : Host.Outcome State Fault Refusal :=
  match s.part? part, s.queue? part q with
  | some p, some x =>
    let late (l : Launch) : Bool :=
      match l.stage, l.killClock with
      | .killed _ _, some c => s.engineClock x ≥ c + x.grace
      | _, _ => false
    (match (s.queueLaunches x).find? late with
     | some l => if p.halted then .next s else .next (s.beginReset part Causes.graceOver (s.resetInfo part l))
     | none => .next s)
  | _, _ => .next s

/-! ### PARTITION_RESET (R407) -/

/-- Steps 2 and 3: collectives are aborted, accesses that are still outstanding are not performed, dirty lines are written back and
every on-die copy is dropped. -/
def State.resetStores (s : State) (p : Part) : State :=
  let mine (c : Coll) : Bool := c.issued && c.part = p.id
  let tell (s : State) (c : Coll) : State :=
    if c.aborting then s else match s.collKnown c with | (s, some k) => s.sendKills k | (s, none) => s
  let s := (s.colls.filter mine).foldl tell s
  let s := (s.l2.filter (fun l => l.owner = .part p.id)).foldl (fun s l => s.evictLine l.line) s
  let cks := p.clusters ++ p.removing
  let launches := (s.launches.filter (fun l => l.part = p.id)).map (fun l => l.key)
  { s with
    colls := s.colls.filter (fun c => !mine c), peers := s.peers.filter (fun x => x.part ≠ p.id),
    replicas := s.replicas.filter (fun r => !launches.contains r.launch),
    dies := s.dies.map (fun d => (d.1, { d.2 with tlb := d.2.tlb.filter (fun e => e.part ≠ p.id) })),
    cores := s.cores.map (fun c => (c.1, if cks.contains (clusterOf c.1) then { Core.init with bob := c.2.bobNew, bobNew := c.2.bobNew } else c.2)),
    clusters := s.clusters.map (fun c => (c.1, if cks.contains c.1 then Cluster.init else c.2)) }

/-- A queue as a reset leaves it (step 5). -/
def Queue.cleared (x : Queue) : Queue := { x with en := false, count := 0, watch := 0, cur := [], launches := [] }

/-- Step 6: the launch-end records, from what was noted before the launches went: cause, address, queue and LSEQ. Open points: DEDUCED (log 32). -/
def State.emitEnds (s : State) (part : Nat) (ends : List (Cause × Nat × Nat × W32)) : State :=
  ends.foldl (fun s e => s.emit part { cause := e.1, kind := kLaunchEnd, queue := some e.2.2.1, va := e.2.1, lseq := e.2.2.2 } none none) s

/-- The launches of a partition that a reset ends: first those whose kill it overtakes, with the kill's own cause, then the others that
were eligible (19 R419). -/
def State.resetEnds (s : State) (p : Part) : List (Cause × Nat × Nat × W32) :=
  let mine := s.launches.filter (fun l => l.part = p.id)
  let endOf (c : Cause) (va : Nat) (l : Launch) : Cause × Nat × Nat × W32 := (c, va, l.queue, s.lseq p.id l.queue l.key)
  mine.filterMap (fun l => match l.stage with | .killed c va => some (endOf c va l) | _ => none)
    ++ (mine.filter (fun l => l.stage = .eligible)).map (endOf Causes.endedByReset 0)

/-- The whole reset of a partition. Open points: DEDUCED (log 32). -/
def State.resetPart (s : State) (p : Part) (cause : Cause) (info : Option (Nat × W32)) : State :=
  let ends := s.resetEnds p
  let s := s.resetStores p
  let s := { s with teams := s.teams.filter (fun t => t.part ≠ p.id), launches := s.launches.filter (fun l => l.part ≠ p.id) }
  let s := s.updPart p.id (fun p =>
    { p with queues := p.queues.map Queue.cleared, heads := p.heads.map (fun h => if h.en then h.stop else h),
             streams := p.streams.map (fun t => { t with en := false }), heldRecs := [], notices := [], frozen := none, dumped := false,
             claims := [], resetCause := none })
  let s := s.emitEnds p.id ends
  let s := s.emit p.id { cause := cause, kind := kReset, queue := info.map Prod.fst, lseq := (info.map Prod.snd).getD 0 } none none
  s.updPart p.id (fun p => if p.frozen.isSome then p else { p with resetting := false, rstCnt := p.rstCnt + 1 })

/-- PARTITION_RESET: a reset that has begun completes. -/
def execPartitionReset (part : Nat) (s : State) : Host.Outcome State Fault Refusal :=
  match s.part? part with
  | none => .next s
  | some p =>
    match p.resetCause with
    | some (c, info) => .next (if p.resetting then s.resetPart p c info else s)
    | none => .next s

/-! ### The freeze (R24, R397) -/

/-- The power manager freezes a partition, with a fatal record. -/
def State.powerFreeze (s : State) (part : Nat) : State :=
  match s.part? part with
  | none => s
  | some p =>
    if p.frozen.isSome then s
    else (s.freeze part Causes.powerFreeze).emit part { cause := Causes.powerFreeze, kind := kFatal } none none

/-! ### FATAL_DUMP (R411, R412) -/

/-- Number of a lane's state in the order of R39. -/
def LaneSt.code : LaneSt → Nat
  | .active _ => 0
  | .waiting _ => 1
  | .joined _ => 2
  | .yielded _ _ _ => 3
  | .trapHeld => 4
  | .exited => 5

/-- A 32-bit word of a number. -/
def w32 (n : Nat) : W32 := BitVec.ofNat 32 n

/-- The two words of a mask or of an address. -/
def twoWords (x : W64) : List W32 := [lo32 x, hi32 x]

/-- Words padded with zeros to a length. -/
def padWords (n : Nat) (ws : List W32) : List W32 := ws ++ List.replicate (n - ws.length) 0

/-- The words of a group record. -/
def groupRecord (t : Team) (g : Group) : List W32 :=
  let split (n : Nat) : List W32 :=
    match nth g.splits n with
    | some x => twoWords x.pc ++ twoWords (maskOf (g.active x.slot))
    | none => [0, 0, 0, 0]
  let lane (l : Lane) : List W32 :=
    [lo32 l.pc, w32 ((hi32 l.pc).toNat % 2 ^ 20 + l.st.code * 2 ^ 20), w32 (l.p.toNat % 128 + l.fl.toNat * 256)]
  let head := [w32 t.id, w32 (g.groupId + g.role * 16 + g.budget / 16 * 256), w32 g.tagPend.toNat, g.batchNo]
    ++ (upFrom 0 4).flatMap split ++ g.joins.flatMap (fun j => twoWords j.enrol ++ twoWords j.arrived)
  padWords 64 head ++ Tbl.getList g.w 0 32 ++ padWords 224 (g.lanes.flatMap lane)
    ++ (upFrom 0 g.budget).flatMap (fun r => g.lanes.map (fun l => Tbl.get l.v r))

/-- The words of a queue's descriptor (13 R291). -/
def Queue.words (x : Queue) : List W32 :=
  [w32 (b2n x.en + x.wgt * 2), 0, w32 x.cw, w32 (x.cw / 2 ^ 32), w32 x.wdog, w32 x.grace, w32 (b2n x.wdrst), 0]

/-- The words of a queue state. The address of the head launch record is any value: the record was copied in (R253). -/
def State.queueRecord (s : State) (x : Queue) : State × List W32 :=
  let tail (a : List W32) : List W32 := x.words ++ padWords 7 ([x.count, w32 x.watch] ++ a) ++ [w32 x.id]
  if x.launches.isEmpty then (s, tail [0, 0])
  else
    let (s, a) := s.anyWords 2
    (s, tail a)

/-- The words of a team state; one that is both stopped and evicted may show either. -/
def State.teamRecord (s : State) (t : Team) : State × List W32 :=
  let c := t.core.getD { die := 0, core := 0 }
  let (s, st) :=
    if t.stop.isSome && t.core.isNone then
      let (s, n) := s.choose 2
      (s, n + 1)
    else (s, if t.stop.isSome then 1 else if t.core.isNone then 2 else 0)
  (s, padWords 8 [w32 t.id, w32 t.queue, s.lseq t.part t.queue t.launch, w32 (c.die * 16 + c.core * 256), w32 t.groups.length, w32 st])

/-- The words of a team's storage. -/
def teamStorage (t : Team) : List W32 :=
  wordsOfBytes (1024 * t.rec'.squares) (Tbl.getList t.scratch 0 (4096 * t.rec'.squares))
    ++ t.tiles.flatMap (fun x => Tbl.getList x 0 8192)

/-- Records made one after another. -/
def recordsOf {α : Type} (f : State → α → State × List W32) : List α → State → State × List (List W32)
  | [], s => (s, [])
  | a :: l, s =>
    let (s, ws) := f s a
    let (s, rest) := recordsOf f l s
    (s, ws :: rest)

/-- The four sections of a partition's dump. Open points: DEDUCED (log 32). -/
def State.dumpSections (s : State) (p : Part) : State × List (List (List W32)) :=
  let ts := s.teams.filter (fun t => t.part = p.id && !s.teamOver t)
  let gs := ts.flatMap (fun t =>
    let fl := match t.core with | some c => (s.core c).flights | none => []
    (t.groups.filter (fun g => !g.ended { team := t.key, idx := g.idx } fl)).map (fun g => groupRecord t g))
  let (s, qs) := recordsOf State.queueRecord (sortBy (fun (x : Queue) => x.id) p.queues) s
  let (s, tr) := recordsOf State.teamRecord ts s
  (s, [qs, tr, gs, ts.map teamStorage])

/-- The records that fit in an area of `room` bytes. -/
def takeFit : Nat → List (List W32) → List (List W32)
  | _, [] => []
  | room, r :: rs => if 4 * r.length ≤ room then r :: takeFit (room - 4 * r.length) rs else []

/-- Bytes of records. -/
def sectionBytes (rs : List (List W32)) : Nat := sumNat (rs.map (fun r => 4 * r.length))

/-- The sections as they fit after the header: once a record is left out, none follows. -/
def fitSections : Nat → List (List (List W32)) → List (List (List W32))
  | _, [] => []
  | room, x :: xs =>
    let y := takeFit room x
    y :: fitSections (if y.length = x.length then room - sectionBytes y else 0) xs

/-- The section table: type, count, offset and length of each. -/
def sectionTable : Nat → Nat → List (List (List W32)) → List W32
  | _, _, [] => []
  | n, off, x :: xs => [w32 n, w32 x.length, w32 off, w32 (sectionBytes x)] ++ sectionTable (n + 1) (off + sectionBytes x) xs

/-- The words of a dump in an area of `room` bytes. Open points: DEDUCED (log 32). -/
def dumpWords (p : Part) (room : Nat) (secs : List (List (List W32))) : List W32 :=
  let fit := fitSections (room - 256) secs
  let total := 256 + sumNat (fit.map sectionBytes)
  let cut := (fit.map (fun x => x.length)) ≠ (secs.map (fun x => x.length))
  let head := [w32 0x44554D50, w32 (1 + b2n cut * 2 ^ 16), w32 ((p.frozen.map (fun c => c.toNat)).getD 0),
               w32 (p.id + p.modno * 2 ^ 16), w32 p.frozeAt.1, w32 p.frozeAt.2, w32 total]
  padWords 64 (padWords 16 head ++ sectionTable 1 256 fit) ++ (fit.flatMap (fun x => x.flatMap (fun r => r)))

/-- Write words at a first-tier address under the partition's own key, where it owns the granule. -/
def writeOwned (part : Nat) : Nat → List W32 → State → State
  | _, [], s => s
  | a, w :: ws, s =>
    writeOwned part (a + 4) ws (if s.ownsKey part a then s.homeWrite a (bytesOf 4 w.toNat) (.part part) (a / 2 ^ 35) else s)

/-- Whether a group is in a run, or has a tag pending that is not parked (R397). -/
def State.unsettled (s : State) (k : GroupKey) : Bool :=
  match s.group? k with
  | some g => g.run.isSome || g.pend.any (fun o => !o.isHeld (s.parkedCalls k))
  | none => false

/-- FATAL_DUMP: once the runs of a frozen partition have ended and its tags are clear, or its firmware's wait of 1 ms is over, which may be
at any time, firmware writes the dump and sets DUMPED. Open points: DEDUCED (log 32). -/
def execFatalDump (part : Nat) (s : State) : Host.Outcome State Fault Refusal :=
  match s.part? part with
  | none => .next s
  | some p =>
    if p.frozen.isNone || p.dumped || p.resetting then .next s
    else
      let busy := (s.groupsOf part).any s.unsettled
      let (s, n) := if busy then s.choose 2 else (s, 1)
      if n = 0 then .next s
      else
        let s := if p.dumpGr = 0 then s
          else
            let (s, secs) := s.dumpSections p
            writeOwned part p.dump (dumpWords p (p.dumpGr * Config.granule1) secs) s
        .next (s.updPart part (fun p => { p with dumped := true }))

/-! ### The supervisor's actions on a stopped team (R400) -/

/-- What TASEQ names: a stopped team by a record of its, or a held access. -/
inductive Named where
  | team (t : Team)
  | notice (n : Notice)
  | nothing
deriving DecidableEq, Repr

/-- Whether a notice still names a held access: of a lane, a store, a fetch, a copy, a binding, a collective or a tile. -/
def State.holds (s : State) (n : Notice) : Bool :=
  let is (v : Option Nat) : Bool := v = some n.va
  ((s.group? n.group).map (fun g => g.parkedAt.contains n.va)).getD false
  || s.cores.any (fun c => c.2.shuttle.any (fun j => j.group = n.group && is (j.parked.map (fun a => a.toNat))))
  || (n.group.idx = 0 && ((s.team? n.group.team).map (fun t => is t.bindParked)).getD false)
  || s.colls.any (fun c => c.issued && c.group = n.group && is c.parked)
  || s.clusters.any (fun c => c.2.tiles.any (fun t => is t.parked && t.calls.any (fun x => x.group = n.group)))

/-- Look TASEQ up. Open points: DEDUCED (log 31). -/
def State.named (s : State) (p : Part) : Named :=
  let has (t : Team) : Bool :=
    t.part = p.id && t.stop.isSome && !t.ended && t.groups.any (fun g => g.recorded = some (some p.taSeq))
  match s.teams.find? has with
  | some t => .team t
  | none =>
    match p.notices.find? (fun n => n.seq = p.taSeq && n.parked && s.holds n) with
    | some n => .notice n
    | none => .nothing

/-- The address after `n` more instructions from an address, and after the TRAIL that follows them. -/
def skipCode (pt : Point) (t : Team) : Nat → Nat → State → State × Option Nat
  | 0, va, s => (s, some (va + 4))
  | n + 1, va, s =>
    let none' : PeerBuf := { got := [], asked := none }
    match s.fetchWord pt t none' va with
    | (s, .ok w) =>
      let from' := if isModifier w then va + 4 else va
      (match fetchInstr pt t none' from' 7 [] s with
       | (s, .ok (_, k, _)) => skipCode pt t n (from' + 2 * k) s
       | (s, _) => (s, none))
    | (s, _) => (s, none)

/-- The group goes on after a stop: its record no longer concerns it. -/
def Group.unstop (g : Group) : Group := { g with cause := none, stopped := false, skid := 0, trapRun := none, recorded := none }

/-- Lanes of a run that has stopped continue at its FALL; a lane trap that the run had marked is taken at their next TRAIL. -/
def Group.fallTo (g : Group) (is : List Nat) (fall : Addr) : Group :=
  g.updLanes is (fun _ l =>
    { l with pc := fall, came := { via := some (fall - 4), since := none }, t := [], mark := none,
             landed := match l.mark with | some m => { m with fall := fall } :: l.landed | none => l.landed })

/-- The trapping split continues at FALL of its run; its lanes, where it found no slot when the group resumed, are placed there. -/
def Group.resumeAt (g : Group) (env : SlotEnv) (slot : Nat) (fall : Addr) : Group :=
  if g.trapLanes = 0 then
    (g.fallTo (g.active slot) fall).updSplit slot (fun x => { x with pc := fall, block := none, ready := none, since := none, fetch := none })
  else
    let is := lanesOf g.trapLanes
    ({ g.fallTo is fall with trapLanes := 0, splits := g.splits.filter (fun x => (g.active x.slot).any (fun i => !is.contains i)) } : Group).placeReleased
      env (is.map (fun i => (i, fall)))

/-- RESUME on a team (R112, R400). Open points: DEDUCED (log 31). -/
def State.resumeTeamStop (s : State) (t : Team) : State × Nat :=
  match t.stop with
  | some (first, gid, _) =>
    let pt : Point := match t.core with | some c => .lane c | none => .hub
    let soft := first.cause = Causes.softwareTrap || first.cause = Causes.breakpoint
    let alone := t.groups.all (fun g => g.idx = gid || g.cause.isNone)
    let fl := match t.core with | some c => (s.core c).flights | none => []
    let written := t.groups.all (fun g =>
      g.ended { team := t.key, idx := g.idx } fl || (match g.recorded with | some (some _) => true | _ => false))
    if !soft || !alone || !written then (s, Causes.notResumable.toNat)
    else
      match (t.group? gid).bind (fun g => g.trapRun) with
      | none => (s, Causes.notResumable.toNat)
      | some r =>
        match skipCode pt t (r.left - 1) r.next.toNat s with
        | (s, none) => (s, Causes.notResumable.toNat)
        | (s, some fall) =>
          let s := s.updTeam t.key (fun t => { t with stop := none, groups := t.groups.map Group.unstop })
          let k : GroupKey := { team := t.key, idx := gid }
          (s.updGroup k (fun g => g.resumeAt (s.slotEnv k) r.slot (BitVec.ofNat 64 fall)), 0)
  | none => (s, Causes.notResumable.toNat)

/-- Apply a team action: 0 END, 1 RESUME, 2 REPLAY; gives the status. Open points: DEDUCED (log 31). -/
def State.teamAction (s : State) (part op : Nat) : State × Nat :=
  match s.part? part with
  | none => (s, Causes.notOwned.toNat)
  | some p =>
    match op, s.named p with
    | 0, .team t => (s.endTeam t, 0)
    | 1, .team t => s.resumeTeamStop t
    | 2, .notice n => (s.replay part n.group (fun a => a = n.va), 0)
    | 0, .notice _ => (s, Causes.notResumable.toNat)
    | 1, .notice _ => (s, Causes.notResumable.toNat)
    | 2, .team _ => (s, Causes.notResumable.toNat)
    | 0, .nothing => (s, Causes.noSuchRecord.toNat)
    | 1, .nothing => (s, Causes.noSuchRecord.toNat)
    | 2, .nothing => (s, Causes.noSuchRecord.toNat)
    | _, _ => (s, Causes.outOfRange.toNat)

/-- TEAM_ACTION_END: the stopped team that TASEQ names ends. -/
def execTeamActionEnd (part : Nat) (s : State) : Host.Outcome State Fault Refusal := .next (s.teamAction part 0).1
/-- TEAM_ACTION_RESUME: the stopped team that TASEQ names goes on. -/
def execTeamActionResume (part : Nat) (s : State) : Host.Outcome State Fault Refusal := .next (s.teamAction part 1).1
/-- TEAM_ACTION_REPLAY: the held access that TASEQ names is reissued. -/
def execTeamActionReplay (part : Nat) (s : State) : Host.Outcome State Fault Refusal := .next (s.teamAction part 2).1

end Sys2Proof.Machine
end

