-- ==== Sys2Proof/Machine/ControlSpace.lean ====
section
/-! DEFINITION. The control spaces: how their words read, and what a write does or why it is rejected (17 R371, R373; 13 R291; 15 R336,
R337, R349; 17 R388; 18 R395). -/

namespace Sys2Proof.Machine

/-! ### Reading -/

/-- The low and high word of an address, the high word cut to 20 bits. -/
def loWord (a : Nat) : W32 := w32 a
def hiWord (a : Nat) : W32 := w32 (a / 2 ^ 32 % 2 ^ 20)

/-- Bytes of the clusters that a partition owns, 32 bits of CLMAP from word `b`. -/
def Part.clmapWord (p : Part) (b : Nat) : W32 :=
  w32 (sumNat ((upFrom 0 32).map (fun i =>
    let n := 32 * b + i
    if p.clusters.contains { die := n / 40, cluster := n % 40 } then 2 ^ i else 0)))

/-- TQST. -/
def Part.tqst (p : Part) : Nat :=
  b2n p.frozen.isSome + 2 * b2n p.resetting + 4 * b2n p.dumped + 8 * b2n (!p.heldRecs.isEmpty)

/-- Word `k` of the partition block; the words of KB and CLMAP apart. -/
def Part.word (p : Part) (k : Nat) : W32 :=
  if 0x10 ≤ k && k < 0x20 then
    (match p.bound (k - 0x10) with | some h => w32 (h + 2 ^ 31) | none => 0)
  else if 0x30 ≤ k && k < 0x3A then p.clmapWord (k - 0x30)
  else
    match k with
    | 0 => w32 p.id
    | 1 => w32 p.modno
    | 2 => loWord p.ptr
    | 3 => hiWord p.ptr
    | 4 => loWord p.save
    | 5 => hiWord p.save
    | 6 => w32 p.saveGr
    | 7 => loWord p.win
    | 8 => hiWord p.win
    | 9 => w32 (p.hw + 256 * p.bobc)
    | 10 => w32 p.l2sh
    | 11 => loWord p.svc
    | 12 => hiWord p.svc
    | 13 => w32 p.svcLg
    | 14 => w32 p.svcWr
    | 15 => w32 p.svcRd
    | 0x20 => loWord (p.tq.getD 0)
    | 0x21 => hiWord (p.tq.getD 0)
    | 0x22 => w32 p.tqLg
    | 0x23 => w32 p.tqWr
    | 0x24 => w32 p.tqRd
    | 0x25 => w32 p.tqst
    | 0x26 => p.tqDrop
    | 0x27 => p.poison
    | 0x28 => loWord p.dump
    | 0x29 => hiWord p.dump
    | 0x2A => w32 p.dumpGr
    | 0x2B => w32 p.taSeq
    | 0x2E => p.rstCnt
    | 0x3A => w32 p.clst
    | 0x3B => w32 p.clreq
    | 0x3C => w32 p.kdie
    | _ => 0

/-- Word `k` of a head's registers (15 R336), if it names one. -/
def Head.word (h : Head) (k : Nat) : Option W32 :=
  match k with
  | 0 => some (w32 (b2n h.en + 2 * h.mode + 8 * h.upf + 32 * h.sr + 128 * b2n h.net))
  | 1 => nth h.timing 0
  | 2 => nth h.timing 1
  | 3 => nth h.timing 2
  | 4 => some (lo32 h.netRec)
  | 5 => some (hi32 h.netRec)
  | 6 => some (lo32 h.pose)
  | 7 => some (hi32 h.pose)
  | 8 => some (lo32 h.rep)
  | 9 => some (hi32 h.rep)
  | 10 => some (lo32 h.mv)
  | 11 => some (hi32 h.mv)
  | 16 => some (w32 h.line)
  | 17 => some (w32 h.frame)
  | 18 => some h.f1
  | 19 => some h.f2
  | 20 => some h.drop
  | 21 => some h.rej
  | _ => none

/-- Word `k` of a stream's registers (15 R349), if it names one. -/
def Stream.reg (t : Stream) (k : Nat) : Option W32 :=
  if k = 0 then some (word t.words 0 ||| (if t.en then 1 else 0)) else if k < 13 then some (word t.words k) else none

/-- Word `k` of a stripe-set entry (R388). -/
def Stripe.word (x : Stripe) (k : Nat) : W32 :=
  match k with | 0 => lo32 x.lst | 1 => hi32 x.lst | 2 => w32 x.m | _ => w32 (b2n x.v)

/-- A stripe set that has not been written. -/
def Stripe.blank : Stripe := { lst := 0, m := 0, v := false }

/-- Bytes of a control space; an offset beyond it, or not a multiple of 4, is no offset. -/
def spaceSize (space : Nat) : Nat :=
  match space with | 0 => 0x100 | 1 => 32 * 256 | 2 => 256 * 64 | 3 => 64 * 64 | 4 => 16 * 64 | _ => 0

/-- The word at an offset of a control space; an offset that names no word of an owned unit reads as zero (R371). -/
def State.ctlRead (s : State) (part space off : Nat) : W32 :=
  match s.part? part with
  | none => 0
  | some p =>
    if off % 4 ≠ 0 || off ≥ spaceSize space then 0
    else
      match space with
      | 0 => p.word (off / 4)
      | 1 => (match p.queues.find? (fun x => x.id = off / 32) with | some x => word x.words (off % 32 / 4) | none => 0)
      | 2 => (match p.heads.find? (fun x => x.id = off / 256) with | some x => (x.word (off % 256 / 4)).getD 0 | none => 0)
      | 3 => (match p.streams.find? (fun x => x.id = off / 64) with | some x => (x.reg (off % 64 / 4)).getD 0 | none => 0)
      | _ => ((kget (off / 16) p.stripes).getD Stripe.blank).word (off % 16 / 4)

/-! ### The partition block -/

/-- Offsets of LO words, with the alignment of their address. -/
def loOffsets : List (Nat × Nat) := [(0x08, 2 ^ 16), (0x10, 2 ^ 21), (0x1C, 2 ^ 13), (0x2C, 2 ^ 12), (0x80, 2 ^ 12), (0xA0, 2 ^ 21)]

/-- Read-only words. -/
def isReadOnly (off : Nat) : Bool :=
  [0x00, 0x04, 0x28, 0x38, 0x8C, 0x94, 0x98, 0x9C, 0xB8, 0xE8, 0xEC, 0xF0].contains off
  || (0x44 ≤ off && off < 0x80) || (0xC0 ≤ off && off < 0xE8)

/-- Bits of a word that are defined. -/
def wordMask (off : Nat) : Nat :=
  match off with
  | 0x0C => 2 ^ 20 | 0x14 => 2 ^ 20 | 0x20 => 2 ^ 20 | 0x30 => 2 ^ 20 | 0x84 => 2 ^ 20 | 0xA4 => 2 ^ 20
  | 0x18 => 2 ^ 16
  | 0x24 => 2 ^ 12
  | 0x34 => 2 ^ 4 | 0x88 => 2 ^ 4
  | 0x3C => 2 ^ 31 | 0x90 => 2 ^ 31 | 0xAC => 2 ^ 31
  | 0xA8 => 2 ^ 12
  | 0xB0 => 4
  | 0xB4 => 2
  | _ => 2 ^ 32

/-- Whether a value is within a field's limits. -/
def inLimits (off v : Nat) : Bool :=
  match off with
  | 0x18 => 1 ≤ v && v ≤ 32768
  | 0x24 => 1 ≤ v % 16 && v / 256 ≤ 8
  | 0x34 => v ≤ 8
  | 0x88 => v ≤ 8
  | 0xA8 => v ≤ 2048
  | 0xB0 => v ≤ 2
  | _ => true

/-- Whether a field may not change now (R371, R395): the save area while a group is evicted, a ring while it holds records. -/
def State.fieldBusy (s : State) (p : Part) (off : Nat) : Bool :=
  match off with
  | 0x80 => p.tqWr ≠ p.tqRd
  | 0x14 => s.teams.any (fun t => t.part = p.id && t.groups.any (fun g => g.evicted.isSome))
  | 0x18 => s.teams.any (fun t => t.part = p.id && t.groups.any (fun g => g.evicted.isSome))
  | 0x30 => p.svcWr ≠ p.svcRd
  | 0x34 => p.svcWr ≠ p.svcRd
  | 0x84 => p.tqWr ≠ p.tqRd
  | 0x88 => p.tqWr ≠ p.tqRd
  | _ => false

/-- The cores of a partition get a new Bobbin size once they hold no team (06 R147). -/
def State.setBob (s : State) (p : Part) (bobc : Nat) : State :=
  p.cores.foldl (fun s c => s.updCore c (fun x => { x with bobNew := 2048 * bobc })) s

/-- An address field takes its pair of words. -/
def State.setAddress (s : State) (part off a : Nat) : State :=
  s.updPart part (fun p =>
    match off with
    | 0x08 => { p with ptr := a }
    | 0x10 => { p with save := a }
    | 0x1C => { p with win := a }
    | 0x2C => { p with svc := a }
    | 0x80 => { p with tq := some a }
    | _ => { p with dump := a })

/-- Held records are written as space appears (R396). -/
def State.flushHeld (s : State) (part : Nat) : State :=
  match s.part? part with | some p => Sys2Proof.Machine.flushHeld part p.heldRecs s | none => s

/-- A HI word is written: it and the held LO word are judged and applied as one write, and the LO word is held no longer.
Open points: DEDUCED (log 34). -/
def State.hiWrite (s : State) (p : Part) (off v al : Nat) : State × Nat :=
  let lo := ((kget (off - 4) p.heldLo).map (fun w => w.toNat)).getD (p.word (off / 4 - 1)).toNat
  let a := v * 2 ^ 32 + lo
  let s := s.updPart p.id (fun p => { p with heldLo := p.heldLo.filter (fun e => e.1 ≠ off - 4) })
  if s.fieldBusy p off then (s, Causes.busy.toNat)
  else if a % al ≠ 0 || a ≥ 2 ^ 38 || !s.ownsKey p.id a then (s, Causes.notOwned.toNat)
  else ((s.setAddress p.id (off - 4) a).flushHeld p.id, 0)

/-- A word of the partition block that is not part of an address is written. -/
def State.wordWrite (s : State) (p : Part) (off v : Nat) : State × Nat :=
  if !inLimits off v then (s, Causes.outOfRange.toNat)
  else if s.fieldBusy p off then (s, Causes.busy.toNat)
  else
    match off with
    | 0x18 => (s.updPart p.id (fun p => { p with saveGr := v }), 0)
    | 0x24 => ((s.updPart p.id (fun p => { p with hw := v % 16, bobc := v / 256 })).setBob p (v / 256), 0)
    | 0x34 => (s.updPart p.id (fun p => { p with svcLg := v }), 0)
    | 0x3C => (s.updPart p.id (fun p => { p with svcRd := v }), 0)
    | 0x88 => ((s.updPart p.id (fun p => { p with tqLg := v })).flushHeld p.id, 0)
    | 0x90 =>
      if (v + 2 ^ 31 - p.tqRd) % 2 ^ 31 > (p.tqWr + 2 ^ 31 - p.tqRd) % 2 ^ 31 then (s, Causes.noSuchRecord.toNat)
      else ((s.updPart p.id (fun p => { p with tqRd := v })).flushHeld p.id, 0)
    | 0xA8 => (s.updPart p.id (fun p => { p with dumpGr := v }), 0)
    | 0xAC => (s.updPart p.id (fun p => { p with taSeq := v }), 0)
    | 0xB0 => s.teamAction p.id v
    | 0xB4 => (if v = 1 then s.beginReset p.id Causes.resetRequested none else s, 0)
    | _ => (s, 0)

/-- A write to a word of the partition block. Open points: DEDUCED (log 34). -/
def State.partWrite (s : State) (p : Part) (off : Nat) (w : W32) : State × Nat :=
  let v := w.toNat % wordMask off
  if off = 0x40 then (s, Causes.notOwned.toNat)
  else if isReadOnly off then (s, Causes.readOnly.toNat)
  else if loOffsets.any (fun e => e.1 = off) then
    if s.fieldBusy p off then (s, Causes.busy.toNat) else (s.updPart p.id (fun p => { p with heldLo := kput off w p.heldLo }), 0)
  else
    match kget (off - 4) loOffsets with
    | some al => s.hiWrite p off v al
    | none => s.wordWrite p off v

/-! ### Queues (13 R291) -/

/-- EN of a queue is cleared: launches that have placed no team are discarded, with records of theirs that are held; they count nothing. -/
def State.disableQueue (s : State) (part q : Nat) : State :=
  match s.queue? part q with
  | none => s
  | some x =>
    let ks := ((s.queueLaunches x).filter (fun l => l.nextTeam = 0)).map (fun l => l.key)
    let mine (h : HeldRec) : Bool := match h.launch with | some l => ks.contains l | none => false
    let s := s.updPart part (fun p => { p with heldRecs := p.heldRecs.filter (fun h => !mine h) })
    let s := { s with launches := s.launches.filter (fun l => !ks.contains l.key), replicas := s.replicas.filter (fun r => !ks.contains r.launch) }
    s.updQueue part q (fun x => { x with en := false, launches := x.launches.filter (fun k => !ks.contains k) })

/-- EN of a queue is set. -/
def State.enableQueue (s : State) (part : Nat) (x : Queue) (wgt : Nat) : State × Nat :=
  if !(s.queueLaunches x).isEmpty then (s, Causes.busy.toNat)
  else if x.cw % 8 ≠ 0 then (s, Causes.queueDescriptor.toNat)
  else (s.updQueue part x.id (fun x => { x with en := true, wgt := wgt, count := 0, watch := 0, cur := (upFrom 0 4).map (fun n => (n, wgt)) }), 0)

/-- A write to a word of a queue's descriptor. Open points: DEDUCED (log 34). -/
def State.queueWrite (s : State) (part : Nat) (x : Queue) (k : Nat) (w : W32) : State × Nat :=
  let wgt := bitsOf w 4 1
  if k = 0 then
    if x.en then
      if w.getLsbD 0 then (s.updQueue part x.id (fun x => { x with wgt := wgt }), 0)
      else ((s.updQueue part x.id (fun x => { x with wgt := wgt })).disableQueue part x.id, 0)
    else if w.getLsbD 0 then s.enableQueue part x wgt
    else (s.updQueue part x.id (fun x => { x with wgt := wgt }), 0)
  else if x.en then (s, 0)
  else
    (s.updQueue part x.id (fun x =>
      match k with
      | 2 => { x with cw := x.cw / 2 ^ 32 * 2 ^ 32 + w.toNat }
      | 3 => { x with cw := w.toNat % 2 ^ 20 * 2 ^ 32 + x.cw % 2 ^ 32 }
      | 4 => { x with wdog := w.toNat }
      | 5 => { x with grace := w.toNat }
      | 6 => { x with wdrst := w.getLsbD 0 }
      | _ => x), 0)

/-! ### Heads and streams (15 R336, R337, R349) -/

/-- Word 0 of a head, EN apart. -/
def Head.setMode (h : Head) (w : W32) : Head :=
  { h with mode := bitsOf w 2 1, upf := bitsOf w 4 3, sr := bitsOf w 6 5, net := w.getLsbD 7 }

/-- An address with its low or its high word replaced. -/
def setLo (a : Addr) (w : W32) : Addr := pairOf w (hi32 a)
def setHi (a : Addr) (w : W32) : Addr := pairOf (lo32 a) (w32 (w.toNat % 2 ^ 20))

/-- A register of a head other than word 0 takes a word; the timing stands while the head is enabled. -/
def Head.setReg (h : Head) (k : Nat) (w : W32) : Head :=
  let time (i : Nat) (x : W32) : Head := if h.en then h else { h with timing := updNth (fun _ => x) h.timing i }
  match k with
  | 1 => time 0 (w32 (w.toNat % 2 ^ 28))
  | 2 => time 1 w
  | 3 => time 2 w
  | 4 => { h with netRec := setLo h.netRec w }
  | 5 => { h with netRec := setHi h.netRec w }
  | 6 => { h with pose := setLo h.pose w }
  | 7 => { h with pose := setHi h.pose w }
  | 8 => { h with rep := setLo h.rep w }
  | 9 => { h with rep := setHi h.rep w }
  | 10 => { h with mv := setLo h.mv w }
  | _ => { h with mv := setHi h.mv w }

/-- A write to a word of a head. Open points: DEDUCED (log 34). -/
def State.headWrite (s : State) (part : Nat) (h : Head) (k : Nat) (w : W32) : State × Nat :=
  if (h.word k).isNone then (s, Causes.notOwned.toNat)
  else if k ≥ 16 then (s, Causes.readOnly.toNat)
  else if k = 0 then
    if h.en then
      if w.getLsbD 0 then (s, 0) else (s.updHead part h.id (fun h => h.stop.setMode w), 0)
    else if w.getLsbD 0 then s.enableHead part h.id (fun h => h.setMode w)
    else (s.updHead part h.id (fun h => h.setMode w), 0)
  else (s.updHead part h.id (fun h => h.setReg k w), 0)

/-- Bits of a stream's words that are defined. -/
def streamMask (k : Nat) : W32 :=
  match k with | 0 => 0x3E | 8 => 0x7FFFFF | 11 => 0xFFFFF | _ => 0xFFFFFFFF

/-- A write to a word of a stream. Open points: DEDUCED (log 34). -/
def State.streamWrite (s : State) (part : Nat) (t : Stream) (k : Nat) (w : W32) : State × Nat :=
  let set (t : Stream) : Stream := { t with words := updNth (fun _ => w &&& streamMask k) t.words k }
  if (t.reg k).isNone then (s, Causes.notOwned.toNat)
  else if t.en then
    if k = 0 && !w.getLsbD 0 then (s.updStream part t.id (fun t => { set t with en := false }), 0) else (s, 0)
  else if k = 0 && w.getLsbD 0 then s.enableStream part t.id set
  else (s.updStream part t.id set, 0)

/-! ### Stripe sets (R388) -/

/-- A stripe-set entry with a word replaced. Open points: DEDUCED (log 34). -/
def Stripe.set (x : Stripe) (k : Nat) (w : W32) : Stripe :=
  match k with
  | 0 => { x with lst := setLo x.lst w }
  | 1 => { x with lst := setHi x.lst w }
  | 2 => { x with m := w.toNat % 2 ^ 15 }
  | _ => { x with v := w.getLsbD 0 }

/-- Whether a word keeps the limits of a stripe-set entry's field: a list on a 16-byte boundary, of 1 to 16,384 chips. -/
def stripeInLimits (k : Nat) (w : W32) : Bool :=
  match k with
  | 0 => w.toNat % 16 = 0
  | 2 => 1 ≤ w.toNat % 2 ^ 15 && w.toNat % 2 ^ 15 ≤ 16384
  | _ => true

/-! ### Writing -/

/-- Write a word of a control space; gives 0 when it is accepted, else the cause. Open points: DEDUCED (log 34). -/
def State.ctlWrite (s : State) (part space off : Nat) (w : W32) : State × Nat :=
  match s.part? part with
  | none => (s, Causes.notOwned.toNat)
  | some p =>
    if off % 4 ≠ 0 || off ≥ spaceSize space then (s, Causes.notOwned.toNat)
    else
      match space with
      | 0 => s.partWrite p off w
      | 1 =>
        (match p.queues.find? (fun x => x.id = off / 32) with
         | some x => s.queueWrite part x (off % 32 / 4) w
         | none => (s, Causes.notOwned.toNat))
      | 2 =>
        (match p.heads.find? (fun x => x.id = off / 256) with
         | some x => s.headWrite part x (off % 256 / 4) w
         | none => (s, Causes.notOwned.toNat))
      | 3 =>
        (match p.streams.find? (fun x => x.id = off / 64) with
         | some x => s.streamWrite part x (off % 64 / 4) w
         | none => (s, Causes.notOwned.toNat))
      | _ =>
        if !stripeInLimits (off % 16 / 4) w then (s, Causes.outOfRange.toNat)
        else (s.updPart part (fun p =>
          { p with stripes := kput (off / 16) (((kget (off / 16) p.stripes).getD Stripe.blank).set (off % 16 / 4) w) p.stripes }), 0)

/-- CONTROL_WRITE: a write reaches the hub die and is applied. -/
def execControlWrite (part space offset : Nat) (value : W32) (s : State) : Host.Outcome State Fault Refusal :=
  .next (s.ctlWrite part space offset value).1

/-- TQRD_WRITE: records are consumed, and held ones are written as space appears. -/
def execTqrdWrite (part : Nat) (value : W32) (s : State) : Host.Outcome State Fault Refusal := .next (s.ctlWrite part 0 0x90 value).1

/-- QUEUE_ENABLE: EN of a queue changes from 0 to 1, its descriptor checked as it stands. -/
def execQueueEnable (part q : Nat) (s : State) : Host.Outcome State Fault Refusal :=
  match s.queue? part q with
  | none => .next s
  | some x => .next (if x.en then s else (s.enableQueue part x x.wgt).1)

/-- QUEUE_DISABLE: EN of a queue is cleared. -/
def execQueueDisable (part q : Nat) (s : State) : Host.Outcome State Fault Refusal := .next (s.disableQueue part q)

end Sys2Proof.Machine
end

