-- ==== Sys2Proof/Machine/Retire.lean ====
section
/-! DEFINITION. Retirement of cores and slices, spares, and loss of L2 data (18 R408, R409; 01 R14, R22, R27; 09 R204). -/

namespace Sys2Proof.Machine

/-- The configuration record follows the maps in service (R27). -/
def State.recordMaps (s : State) : State :=
  let c := { s.flash.config with clusterMaps := s.dies.map (fun d => d.2.clusterMap), sliceMaps := s.dies.map (fun d => d.2.sliceMap) }
  { s with flash := { s.flash with config := c } }

/-! ### Teams lost with a core -/

/-- A group that is lost: nothing of it remains. -/
def Group.lost (g : Group) : Group :=
  { g.finish with run := none, pend := [], queue := [], bulk := [], trapRun := none }

/-- A team on a failing core ends, with a team-end record. Open points: DEDUCED (log 33). -/
def State.loseTeam (s : State) (c : CoreKey) (t : Team) : State :=
  let mine (k : GroupKey) : Bool := k.team = t.key
  let s := (s.colls.filter (fun x => x.issued && mine x.group)).foldl (fun s x => s.killColl x) s
  let s := (s.colls.filter (fun x => x.issued && mine x.group)).foldl (fun s x => s.collFailed x) s
  let s := s.mapClusters (fun x => ({ x.dropTraps t.key (s.coreClock c) with
    bins := (x.bins.map (fun b => { b with calls := b.calls.filter (fun k => !mine k.group) })).filter (fun b => !b.calls.isEmpty),
    tiles := (x.tiles.map (fun b => { b with calls := b.calls.filter (fun k => !mine k.group) })).filter (fun b => !b.calls.isEmpty) } :
    Cluster).dispatch)
  let s := s.callsLeft
  let s := s.updCore c (fun x => { x with shuttle := x.shuttle.filter (fun j => !mine j.group), tiles := x.tiles.filter (fun j => !mine j.group) })
  let s := s.updTeam t.key (fun t => { t with stop := none, ended := true, bindPos := t.bindings.length, bindParked := none,
                                              groups := t.groups.map Group.lost })
  let s := s.updPart t.part (fun p => { p with notices := p.notices.filter (fun n => !mine n.group) })
  s.emit t.part
    { cause := Causes.coreRetired, kind := kTeamEnd, queue := some t.queue, team := t.id, die := c.die, core := c.core,
      lseq := s.lseq t.part t.queue t.launch } none none

/-- Stores of a core that are on their way: those to the module's memory are performed; those to peers are waited for no more. -/
def State.flushCore (s : State) (c : CoreKey) : State := (s.flushAll c).updCore c (fun x => { x with flights := [] })

/-! ### Clusters (R408) -/

/-- The record marks the physical cluster of a logical one, or a physical slice, as retired. -/
def State.buryCluster (s : State) (c : ClusterKey) : State :=
  match (nth (s.die c.die).clusterMap c.cluster).join with
  | some n =>
    let config := { s.flash.config with deadClusters := s.flash.config.deadClusters ++ [(c.die, n)] }
    { s with flash := { s.flash with config := config } }
  | none => s

def State.burySlice (s : State) (d n : Nat) : State :=
  let config := { s.flash.config with deadSlices := s.flash.config.deadSlices ++ [(d, n)] }
  { s with flash := { s.flash with config := config } }

/-- What a cluster moved to a spare does not take along: L1, TLBs and Bobbins; tiles in flight look for their sets again.
Open points: DEDUCED (log 33). -/
def State.moveCluster (s : State) (c : ClusterKey) : State :=
  let s := (clusterCores c).foldl (fun s k =>
    (s.flushAll k).updCore k (fun x => { x with l1 := [], tlb := [], ahead := [], sets := [] })) s
  s.updCluster c (fun x => { x with tiles := x.tiles.map (fun t => { t with core := none, step := 0 }) })

/-- The physical cluster that serves a logical one. -/
def State.setServer (s : State) (c : ClusterKey) (phys : Option Nat) : State :=
  s.updDie c.die (fun d => { d with clusterMap := updNth (fun _ => phys) d.clusterMap c.cluster })

/-- A cluster is lost without a spare: its logical number is unserved, its partition loses it, and its teams move as in a SHRINK. -/
def State.loseCluster (s : State) (c : ClusterKey) : State :=
  let s := s.setServer c none
  match s.parts.find? (fun p => p.clusters.contains c) with
  | none => s
  | some p =>
    let s := s.updPart p.id (fun p => { p with clusters := p.clusters.filter (fun x => x ≠ c), removing := (p.removing.filter (fun x => x ≠ c)) ++ [c] })
    s.emit p.id { cause := Causes.sparesExhausted, kind := kNotice } none none

/-- CORE_RETIRE: an uncorrectable error in a core retires its cluster; of several spares the lowest-numbered one replaces it. Open points:
DEDUCED, which spare: DESIGN CHOICE (log 54). -/
def execCoreRetire (c : CoreKey) (s : State) : Host.Outcome State Fault Refusal :=
  let ck := clusterOf c
  if !(s.die c.die).inService || ((nth (s.die c.die).clusterMap ck.cluster).join).isNone then .next s
  else
    let s := s.flushCore c
    let s := s.buryCluster ck
    let s := (s.teamsOn c).foldl (fun s t => s.loseTeam c t) s
    match (s.die c.die).spareClusters with
    | n :: ns =>
      let s := (s.setServer ck (some n)).updDie c.die (fun d => { d with spareClusters := ns })
      .next (s.moveCluster ck).recordMaps
    | [] => .next (s.loseCluster ck).recordMaps

/-! ### Slices (R409) -/

/-- Physical slice that takes logical slice `l` when no spare is left: the first after `l` + 24 that serves only one. -/
def doubled (m : List (Option Nat)) (l : Nat) : Option Nat :=
  let serves (n : Nat) : Nat := (m.filter (fun x => x = some n)).length
  firstSome (fun i =>
    match (nth m ((l + 24 + i) % Config.slices)).join with
    | some n => if serves n = 1 then some n else none
    | none => none) (upFrom 0 Config.slices)

/-- Serve logical slices anew, the lowest-numbered spare first; says whether every one found a server. Which spare: DESIGN CHOICE
(log 54). -/
def serveSlices (d : Nat) : List Nat → State → State × Bool
  | [], s => (s, true)
  | l :: ls, s =>
    let x := s.die d
    match x.spareSlices, doubled x.sliceMap l with
    | n :: ns, _ => serveSlices d ls (s.updDie d (fun x => { x with sliceMap := updNth (fun _ => some n) x.sliceMap l, spareSlices := ns }))
    | [], some n => serveSlices d ls (s.updDie d (fun x => { x with sliceMap := updNth (fun _ => some n) x.sliceMap l }))
    | [], none => (s, false)

/-- Lines leave a set of a doubled slice until it holds no more than its 8 ways, some line of it each time. Open points: DESIGN CHOICE
(log 40). -/
def trimSet (home line : Nat) : Nat → State → State
  | 0, s => s
  | fuel + 1, s =>
    let set := s.l2Set home line
    if set.length ≤ 8 then s
    else
      let (s, i) := s.choose set.length
      match nth set i with
      | some v => trimSet home line fuel (s.evictLine v.line)
      | none => s

/-- The sets of the doubled slices of a die are cut to their 8 ways (R409). -/
def State.trimDoubled (s : State) (d : Nat) : State :=
  (s.l2.filter (fun l => l.home = d && (s.die d).doubledSlice (sliceOf l.line))).foldl (fun s l => trimSet d l.line 16 s) s

/-- A dirty line that cannot be read is lost: its memory keeps the value of its last write-back. -/
def State.loseLine (s : State) (l : L2Line) : State :=
  { s with mem := match l.behind with | some bs => s.mem.writeList (128 * l.line) bs | none => s.mem,
           l2 := s.l2.filter (fun x => x.line ≠ l.line) }

/-- The physical address of a line, within its tier. -/
def linePa (line : Nat) : Nat := if 128 * line < tier2 then 128 * line else 128 * line - tier2

/-- The partitions that own a line: its own partition, or the loading partition of its handle. Open points: DEDUCED (log 33). -/
def State.lineOwner (s : State) (o : Owner) : Option Nat :=
  match o with
  | .none => none
  | .part p => some p
  | .handle h => (s.handles.find? (fun x => x.id = h)).bind (fun x => x.loader)

/-- Kill every running launch of a partition, or every launch, with L2 data loss. -/
def State.killPart (s : State) (part va : Nat) (all : Bool) : State :=
  let hit (l : Launch) : Bool := l.part = part && (l.stage = .eligible || (all && l.stage = .queued))
  (s.launches.filter hit).foldl (fun s l => s.killLaunch l Causes.l2Loss va) s

/-- The failed slice's lines: lost ones are given up and their owners' launches are killed; the others are written back. -/
def State.dropSlice (s : State) (d : Nat) (ls unreadable : List Nat) : State :=
  let mine := sortBy (fun (l : L2Line) => l.line) (s.l2.filter (fun l => l.home = d && ls.contains (sliceOf l.line)))
  let lost := mine.filter (fun l => l.behind.isSome && !l.spoilt && unreadable.contains l.line)
  let s := lost.foldl State.loseLine s
  let s := mine.foldl (fun s l => s.evictLine l.line) s
  let owners := sortNat (lost.filterMap (fun l => s.lineOwner l.owner))
  owners.foldl (fun s p =>
    let pa := ((lost.find? (fun l => s.lineOwner l.owner = some p)).map (fun l => linePa l.line)).getD 0
    s.killPart p pa false) s

/-- Whether a partition owns a granule of a die's first tier. -/
def State.ownsOn (s : State) (p d : Nat) : Bool := s.owners1.any (fun e => e.2 = .part p && e.1 / 2 ^ 14 = d)

/-- Whether a leaf's lines are homed on a die (09 R209, R211): a KIND 0 leaf names the die of each party that uses it. -/
def Part.homedBy (p : Part) (d : Nat) (e : Pte) : Bool :=
  match e.kind with
  | 0 => p.kdie = d || p.clusters.any (fun c => c.die = d)
  | 1 => e.frame * 4096 / 2 ^ 35 = d
  | _ => e.home = d

/-- Whether a table of a partition, with `level` levels below it, leads to a leaf whose lines are homed on a die. -/
def State.tableHomes (s : State) (p : Part) (d : Nat) : Nat → Nat → Bool
  | 0, _ => false
  | level + 1, table =>
    (upFrom 0 (if level = 3 then 2 ^ 13 else 512)).any (fun i =>
      let a := table + 8 * i
      let e := ofBytes (s.keyRead a 8 (.part p.id)).2
      if a + 8 > 2 ^ 38 || !s.ownsKey p.id a || e % 2 = 0 then false
      else if e / 2 % 2 = 1 then !leafBad (level + 1) e && p.homedBy d (Pte.ofNat e)
      else e / 4 % 2 ^ 22 = 0 && e / 2 ^ 50 = 0 && s.tableHomes p d level (e / 2 ^ 24 * 4096))

/-- The launches of the partitions that own memory of a die or have pages homed there are killed (R409). -/
def State.killOnDie (s : State) (d : Nat) : State :=
  (s.parts.filter (fun p => s.ownsOn p.id d || s.tableHomes p d 4 p.ptr)).foldl (fun s p => s.killPart p.id 0 true) s

/-- A die goes out of service. Open points: DEDUCED (log 33). -/
def State.loseDie (s : State) (d : Nat) : State :=
  let s := s.killOnDie d
  let s := (upFrom 0 Config.clusters).foldl (fun s c => s.loseCluster { die := d, cluster := c }) s
  let s := s.updDie d (fun x => { x with inService := false })
  let config := { s.flash.config with dies := updNth (fun _ => false) s.flash.config.dies d }
  { s with flash := { s.flash with config := config } }

/-- SLICE_RETIRE: an uncorrectable error retires the slice that serves a logical number; `unreadable` names the dirty lines of it that
cannot be read. Open points: DEDUCED (log 33). -/
def execSliceRetire (die slice : Nat) (unreadable : List Nat) (s : State) : Host.Outcome State Fault Refusal :=
  match if (s.die die).inService then (nth (s.die die).sliceMap slice).join else none with
  | none => .next s
  | some n =>
    let m := (s.die die).sliceMap
    let ls := (upFrom 0 Config.slices).filter (fun l => (nth m l).join = some n)
    let s := s.updDie die (fun d => { d with sliceMap := d.sliceMap.map (fun x => if x = some n then none else x) })
    let s := (s.dropSlice die ls unreadable).burySlice die n
    match serveSlices die ls s with
    | (s, true) => .next (s.trimDoubled die).recordMaps
    | (s, false) => .next (s.recordMaps.loseDie die)

end Sys2Proof.Machine
end

