-- ==== Sys2Proof/Machine/Supervisor.lean ====
section
/-! DEFINITION. Supervisor instructions, live resizing, service calls, and the module manager's moves of memory and keys
(17 R364, R369, R370, R372 to R379). -/

namespace Sys2Proof.Machine

/-! ### Shared parts (R372) -/

/-- The form of a supervisor instruction: no guard, privileged. -/
def Shape.sys (slots : List Slot) : Shape := { slots := slots, hon := Honour.none, priv := true }

/-- A group's uniform register takes a word. -/
def State.putWord (s : State) (is : Iss) (d : Opnd) (w : W32) : State := s.updGroup is.key (fun g => g.putW d [w])

/-- A release and an acquire at .dev around the hub's answer; the run is held until the group's earlier accesses are performed. -/
def hubCall (s : State) (is : Iss) (f : State → Eff) : Eff :=
  match s.releaseAt is 3 with
  | (s, false) => .hold s
  | (s, true) => f (s.dropL1 is.core)

/-! ### SYSRD and SYSWR (R373) -/

/-- Whether a space and an offset are ones that SYSRD and SYSWR may name. A space above 4 is judged with the operand, after steps 4 to 8 of
R72, though FN is a function value. DESIGN CHOICE (log 53). -/
def sysBad (fn off : Nat) : Bool := fn > 4 || off % 4 ≠ 0 || off ≥ spaceSize fn

/-- SYSRD. -/
def execSysrd (d a : Opnd) (fn : BitVec 8) (s : State) : Host.Outcome State Fault Refusal :=
  issue s (Shape.sys [Slot.o d Kinds.wOnly 1 1, Slot.s a Kinds.wImm 1 1]) (fun is =>
    let off := (is.w a 0).toNat
    if sysBad fn.toNat off then Eff.trap s is Causes.controlOperand
    else hubCall s is (fun s => .go (s.putWord is d (s.ctlRead is.team.part fn.toNat off))))

/-- SYSWR. -/
def execSyswr (d a : Opnd) (fn : BitVec 8) (s : State) : Host.Outcome State Fault Refusal :=
  issue s (Shape.sys [Slot.o d Kinds.wOnly 1 1, Slot.s a Kinds.wOnly 2 2]) (fun is =>
    let off := (is.w a 0).toNat
    if sysBad fn.toNat off then Eff.trap s is Causes.controlOperand
    else hubCall s is (fun s =>
      match s.ctlWrite is.team.part fn.toNat off (is.w a 1) with
      | (s, c) => .go (s.putWord is d (w32 c))))

/-! ### TLBINV (R374) -/

/-- Whether an entry covers a part of a range. -/
def TlbEntry.hit (e : TlbEntry) (part lo hi : Nat) : Bool := e.part = part && e.va < hi && lo < e.va + e.size

/-- A Shuttle entry of a partition forgets the faults that it holds in a range. -/
def State.dropHeld (s : State) (part lo hi : Nat) (j : ShuttleJob) : ShuttleJob :=
  if ((s.team? j.group.team).map (fun t => t.part)) = some part then
    { j with held := j.held.filter (fun f => !(4096 * f.page < hi && lo < 4096 * (f.page + 1))) }
  else j

/-- Remove a partition's entries of a range from every TLB, and the faults that walk-ahead TLBs hold there. -/
def State.dropTlbs (s : State) (part lo hi : Nat) : State :=
  let keep (l : List TlbEntry) : List TlbEntry := l.filter (fun e => !e.hit part lo hi)
  let s := s.mapCores (fun c => { c with tlb := keep c.tlb, ahead := keep c.ahead, shuttle := c.shuttle.map (s.dropHeld part lo hi) })
  { s with dies := s.dies.map (fun d => (d.1, { d.2 with tlb := keep d.2.tlb })) }

/-- Whether a lane's access of the group waits for a peer chip. -/
def Group.askedPeer (g : Group) : Bool := g.pend.any (fun o => o.lanes.any (fun l => match l.acc with | .peer _ => true | _ => false))

/-- TLBINV: the entries are removed, and the run is held until TLBINV_COMPLETE. It waits for no parked access, and for no store behind
one. Open points: DEDUCED (log 35). -/
def execTlbinv (a b : Opnd) (s : State) : Host.Outcome State Fault Refusal :=
  issue s (Shape.sys [Slot.s a Kinds.wOnly 2 2, Slot.s b Kinds.wImm 1 1]) (fun is =>
    let addr := is.g.src64 Lane.blank a
    let ctl := (is.w b 0).toNat
    let size := ctl / 256 % 4
    let page := if size = 0 then 2 ^ 12 else if size = 1 then 2 ^ 21 else 2 ^ 30
    if ctl / 1024 ≠ 0 || (size ≠ 3 && (!canonical addr || addr.toNat % page ≠ 0)) then Eff.trap s is Causes.controlOperand
    else
      match is.g.tlbinv with
      | some x => if x.done then .go ((s.updGroup is.key (fun g => { g with tlbinv := none })).dropL1 is.core) else .hold s
      | none =>
        let s := ((s.settle is.key).flushAll is.core).dropAcked is.core
        if ((s.group? is.key).map Group.askedPeer).getD false then .hold s
        else
          let lo := if size = 3 then 0 else addr.toNat
          let hi := if size = 3 then 2 ^ 64 else addr.toNat + page * (ctl % 256 + 1)
          let stamp := s.serial
          let s := { s.dropTlbs is.team.part lo hi with serial := stamp + 1 }
          .hold (s.updGroup is.key (fun g => { g with tlbinv := some { stamp := stamp, lo := lo, hi := hi, done := false } })))

/-- The cores of a partition, those of clusters that it is losing included. -/
def Part.allCores (p : Part) : List CoreKey := p.cores ++ (p.removing.filter (fun c => !p.clusters.contains c)).flatMap clusterCores

/-- TLBINV_COMPLETE: once every access translated with a removed entry has been performed, the held accesses of the range are reissued and
the group may go on. Open points: DEDUCED (log 35). -/
def execTlbinvComplete (k : GroupKey) (s : State) : Host.Outcome State Fault Refusal :=
  match s.team? k.team, (s.group? k).bind (fun g => g.tlbinv) with
  | some t, some x =>
    match s.part? t.part with
    | none => .next s
    | some p =>
      let s := p.allCores.foldl (fun s c => (s.flushAll c).dropAcked c) s
      let waits := s.peers.any (fun r => r.part = t.part && r.id < x.stamp && r.answer.isNone)
      if x.done || waits then .next s
      else
        let s := s.replayAll t.part (fun a => x.lo ≤ a && a < x.hi)
        .next (s.updGroup k (fun g => { g with tlbinv := some { x with done := true } }))
  | _, _ => .next s

/-! ### KEYSEL (R375) -/

/-- Change every die. -/
def State.mapDies (s : State) (f : Die → Die) : State := { s with dies := s.dies.map (fun d => (d.1, f d.2)) }

/-- Drop what a partition reached through a key index under its old handle. Open points: DEDUCED (log 35). -/
def State.dropKey (s : State) (p : Part) (k : Nat) : State :=
  let clean (l : List TlbEntry) : List TlbEntry := l.filter (fun e => !(e.part = p.id && e.pte.key = k))
  let s := s.mapDies (fun d => { d with tlb := clean d.tlb })
  let s := s.mapCores (fun c => { c with tlb := clean c.tlb, ahead := clean c.ahead, sets := c.sets.filter (fun b => !(b.part = p.id && b.key = k)) })
  match p.bound k with
  | none => s
  | some h =>
    let s := p.allCores.foldl (fun s c => s.updCore c (fun x => { x with l1 := x.l1.filter (fun l => l.owner ≠ .handle h) })) s
    let mine := (s.launches.filter (fun l => l.part = p.id)).map (fun l => l.key)
    let s := { s with replicas := s.replicas.filter (fun (r : Replica) => !(mine.contains r.launch && r.owner = Owner.handle h)) }
    (s.l2.filter (fun (l : L2Line) => l.owner = Owner.handle h)).foldl (fun (s : State) (l : L2Line) => s.evictLine l.line) s

/-- The pages of a key index whose elements a copy has begun to read, with the owner tag under which it goes on (R375, R390). -/
def State.tagsOf (s : State) (c : CoreKey) (p : Part) (k h : Nat) (j : ShuttleJob) : List (Nat × Owner) :=
  let here (page : Nat) : Bool := match (s.translate (.shuttle c) p.id (4096 * page)).2 with
    | .leaf e _ _ => e.key = k
    | _ => false
  (j.donePages.filter (fun page => (kget page j.tags).isNone && here page)).map (fun page => (page, Owner.handle h))

/-- The copies of a partition keep the binding of a key index for the pages that they have begun (R390). -/
def State.keepTags (s : State) (p : Part) (k : Nat) : State :=
  match p.bound k with
  | none => s
  | some h =>
    let mine (j : ShuttleJob) : Bool := match s.team? j.group.team with | some t => t.part = p.id | none => false
    { s with cores := s.cores.map (fun (c : CoreKey × Core) =>
        (c.1, { c.2 with shuttle := c.2.shuttle.map (fun j => if mine j then { j with tags := j.tags ++ s.tagsOf c.1 p k h j } else j) })) }

/-- KEYSEL. Open points: DEDUCED (log 35). -/
def execKeysel (a b : Opnd) (s : State) : Host.Outcome State Fault Refusal :=
  issue s (Shape.sys [Slot.s a Kinds.wImm 1 1, Slot.s b Kinds.wImm 1 1]) (fun is =>
    let k := (is.w a 0).toNat
    let w := is.w b 0
    let h := bitsOf w 5 0
    let granted := s.handles.any (fun x => x.id = h && x.granted.contains is.team.part)
    if k = 0 || k > 15 || bitsOf w 30 6 ≠ 0 then Eff.trap s is Causes.controlOperand
    else if w.getLsbD 31 && !granted then Eff.trap s is Causes.keyGrant
    else hubCall s is (fun s =>
      match s.part? is.team.part with
      | none => .go s
      | some p =>
        .go (((s.keepTags p k).dropKey p k).updPart p.id (fun p =>
          { p with kb := updNth (fun _ => if w.getLsbD 31 then some h else none) p.kb k }))))

/-! ### PARTCTL (R376, R377) -/

/-- The clusters of a die in service that no partition owns and that a physical cluster serves. -/
def State.freeOn (s : State) (d : Nat) : List ClusterKey :=
  if !(s.die d).inService then []
  else
    ((upFrom 0 Config.clusters).map (fun c => ({ die := d, cluster := c } : ClusterKey))).filter (fun c =>
      ((nth (s.die d).clusterMap c.cluster).join).isSome && s.parts.all (fun p => !p.clusters.contains c && !p.removing.contains c))

/-- The free clusters that a request may take. -/
def State.freeClusters (s : State) (die : Option Nat) : List ClusterKey :=
  match die with
  | some d => s.freeOn d
  | none => (upFrom 0 Config.dies).flatMap s.freeOn

/-- Ask for a resize; gives the request number, or a refusal with bit 31 set. -/
def State.askResize (s : State) (p : Part) (r : Resize) : State × W32 :=
  let refuse (c : Cause) : State × W32 :=
    (s.updPart p.id (fun p => { p with clst := if p.resize.isSome then p.clst else 3 }), w32 (2 ^ 31 + c.toNat))
  let c : ClusterKey := { die := r.die.getD 0, cluster := r.arg }
  if p.resize.isSome then refuse Causes.requestPending
  else if !r.shrink && (s.freeClusters r.die).length < r.arg then refuse Causes.tooFewClusters
  else if r.shrink && !p.clusters.contains c then refuse Causes.notOwned
  else if r.shrink && p.clusters.length ≤ 1 then refuse Causes.lastCluster
  else
    let n := (p.clreq + 1) % 2 ^ 31
    (s.updPart p.id (fun p => { p with clst := 1, clreq := n, resize := some r,
                                       removing := if r.shrink then p.removing ++ [c] else p.removing }), w32 n)

/-- Whether an op word breaks R377. Open points: DEDUCED (log 35). -/
def resizeBad (w : W32) : Bool :=
  let arg := bitsOf w 15 8
  bitsOf w 3 0 > 1 || bitsOf w 7 4 ≠ 0 || bitsOf w 31 20 ≠ 0
  || (if bitsOf w 3 0 = 0 then arg = 0 || arg > 40 else arg > 39 || w.getLsbD 19)

/-- The request of an op word. -/
def Resize.of (w : W32) (ref : Option (Nat × W64)) : Resize :=
  { shrink := bitsOf w 3 0 = 1, arg := bitsOf w 15 8, die := if w.getLsbD 19 then none else some (bitsOf w 18 16), ref := ref, moved := [] }

/-- The host asks for a resize by a CTLWR of an op word to CLST or CLREQ, the partition block's request words; gives the status (R377).
Open points: DESIGN CHOICE (log 47). -/
def State.hostResize (s : State) (part : Nat) (w : W32) : State × Nat :=
  match s.part? part with
  | none => (s, Causes.notOwned.toNat)
  | some p =>
    if resizeBad w then (s, Causes.outOfRange.toNat)
    else
      match s.askResize p (Resize.of w none) with
      | (s, x) => (s, if x.getLsbD 31 then x.toNat % 2 ^ 10 else 0)

/-- PARTCTL. Open points: DEDUCED (log 35). -/
def execPartctl (d a b : Opnd) (s : State) : Host.Outcome State Fault Refusal :=
  issue s (Shape.sys ([Slot.o d Kinds.wOnly 1 1, Slot.s b Kinds.wImm 1 1] ++ refOptSlots a)) (fun is =>
    let w := is.w b 0
    if resizeBad w then Eff.trap s is Causes.controlOperand
    else if ((is.refOpt a).map (fun x => s.refAllowed is x false)).getD true = false then Eff.trap s is Causes.barrierOperand
    else hubCall s is (fun s =>
      match s.part? is.team.part with
      | none => .go s
      | some p =>
        match s.askResize p (Resize.of w ((is.refOpt a).map (fun x => (is.key.team, x)))) with
        | (s, x) => .go (s.putWord is d x)))

/-- A resize completes: CLST, the arrival, and the message. -/
def State.endResize (s : State) (part : Nat) (r : Resize) : State :=
  let s := s.updPart part (fun p => { p with clst := 2, resize := none })
  let s := match r.ref with | some (t, x) => s.hubArrive part (some t) x | none => s
  match s.part? part with | some p => s.sendSup part (.ctlDone p.clreq 0) | none => s

/-- A cluster joins a partition in a reset state. -/
def State.joinCluster (s : State) (p : Part) (c : ClusterKey) : State :=
  let s := s.updCluster c (fun _ => Cluster.init)
  let s := (clusterCores c).foldl (fun s k => s.updCore k (fun _ => { Core.init with bob := 2048 * p.bobc, bobNew := 2048 * p.bobc })) s
  s.updPart p.id (fun p => { p with clusters := p.clusters ++ [c] })

/-- CLUSTER_GROW: the module manager gives a partition the free clusters that it asked for. -/
def execClusterGrow (part : Nat) (s : State) : Host.Outcome State Fault Refusal :=
  match s.part? part with
  | none => .next s
  | some p =>
    match p.resize with
    | none => .next s
    | some r =>
      let cs := (s.freeClusters r.die).take r.arg
      if r.shrink || cs.length < r.arg then .next s
      else .next ((cs.foldl (fun s c => s.joinCluster p c) s).endResize part r)

/-! ### SHRINK (R378) -/

/-- Whether a Bobbin of a cluster has a weight fetch under way. -/
def State.fetching (s : State) (c : ClusterKey) : Bool :=
  (clusterCores c).any (fun k => (s.core k).shuttle.any (fun j => match j.kind with | .bobbin _ _ => true | _ => false))

/-- Whether a group is the victim of a pre-emption whose work still waits. -/
def State.isVictim (s : State) (p : Part) (k : GroupKey) : Bool := p.claims.any (fun x => x.victims.contains k && s.stillWaits x.who)

/-- The groups of a team on a cluster that its partition loses begin to drain once the team may leave; one that may not goes on, but for
its groups that a pre-emption takes (R378). The last resident group of a team being gone, the team is away whole. -/
def State.drainTeam (s : State) (p : Part) (c : CoreKey) (t : Team) : State :=
  let go := s.mayLeave t && !s.fetching (clusterOf c)
  let drains (g : Group) : Bool :=
    if go then g.draining || g.quarter.isSome else g.draining && s.isVictim p { team := t.key, idx := g.idx }
  let whole := go && (s.residentOf c t).isEmpty
  s.updTeam t.key (fun t => { t with groups := t.groups.map (fun g => { g with draining := drains g }),
                                     core := if whole then none else t.core, squares := if whole then [] else t.squares })

/-- The teams on a cluster that its partition loses leave it. -/
def State.drainCluster (s : State) (p : Part) (c : ClusterKey) : State :=
  (clusterCores c).foldl (fun s k => (s.teamsOn k).foldl (fun s t => s.drainTeam p k t) s) s

/-- A cluster that no team, bin or tile uses is dropped and leaves its partition. -/
def State.freeCluster (s : State) (part : Nat) (c : ClusterKey) : State :=
  let s := (clusterCores c).foldl (fun s k => (s.flushAll k).updCore k (fun _ => Core.init)) s
  (s.updCluster c (fun _ => Cluster.init)).updPart part (fun p =>
    { p with clusters := p.clusters.filter (fun x => x ≠ c), removing := p.removing.filter (fun x => x ≠ c) })

/-- Whether a resize is the SHRINK of a cluster. -/
def Resize.isFor (r : Resize) (c : ClusterKey) : Bool := r.shrink && r.arg = c.cluster && r.die = some c.die

/-- One cluster that a partition loses goes on being emptied. -/
def State.shrinkStep (s : State) (part : Nat) (c : ClusterKey) : State :=
  let here := ((clusterCores c).flatMap s.teamsOn).map (fun t => t.key)
  let s := s.updPart part (fun p => { p with resize := p.resize.map (fun r =>
    if r.isFor c then { r with moved := r.moved ++ here.filter (fun k => !r.moved.contains k) } else r) })
  let s := match s.part? part with | some p => s.drainCluster p c | none => s
  let x := s.cluster c
  let fl := (clusterCores c).any (fun k => !(s.core k).flights.all (fun f => f.line.isSome))
  if !here.isEmpty || !x.bins.isEmpty || !x.tiles.isEmpty || !x.traps.isEmpty || !x.late.isEmpty || s.fetching c || fl then s
  else
    match ((s.part? part).bind (fun p => p.resize)).filter (fun r => r.isFor c) with
    | none => s.freeCluster part c
    | some r =>
      let placed (k : Nat) : Bool := match s.team? k with | some t => t.core.isSome || s.teamOver t | none => true
      if r.moved.all placed then (s.freeCluster part c).endResize part r else s

/-- CLUSTER_SHRINK: the clusters that a partition loses go on being emptied. -/
def execClusterShrink (part : Nat) (s : State) : Host.Outcome State Fault Refusal :=
  match s.part? part with
  | none => .next s
  | some p => .next (p.removing.foldl (fun s c => s.shrinkStep part c) s)

/-! ### SVC (R379) -/

/-- The words of a service record. -/
def svcRecord (is : Iss) (seq n k : Nat) : List W32 :=
  let pc := is.run.ipc
  [w32 seq, w32 (n + is.g.groupId * 2 ^ 16 + is.team.queue * 2 ^ 20), w32 is.team.id, 0, lo32 pc, hi32 pc]
    ++ Tbl.getList is.g.w k 7 ++ [0, 0, 0]

/-- SVC. Open points: DEDUCED (log 35). -/
def execSvc (n : BitVec 16) (k : BitVec 8) (s : State) : Host.Outcome State Fault Refusal :=
  issue s { slots := [], hon := Honour.none } (fun is =>
    if k.toNat ≠ 8 && k.toNat ≠ 16 && k.toNat ≠ 24 then Eff.trap s is Causes.controlOperand
    else
      match s.releaseAt is 5 with
      | (s, false) => .hold s
      | (s, true) =>
        let s := s.dropL1 is.core
        let put (s : State) (w : W32) : State := s.updGroup is.key (fun g => { g with w := Tbl.set g.w (k.toNat + 7) w })
        match s.part? is.team.part with
        | none => .go s
        | some p =>
          let size := 2 ^ (p.svcLg + 4)
          if (p.svcWr + 2 ^ 31 - p.svcRd) % 2 ^ 31 = size then .go (put s 0xFFFFFFFF)
          else
            let a := p.svc + 64 * (p.svcWr % size)
            let s := if s.ownsKey p.id a then
                s.homeWrite a (bytesOfWords (svcRecord is p.svcWr n.toNat k.toNat)) (.part p.id) (a / 2 ^ 35) else s
            let s := s.updPart p.id (fun p => { p with svcWr := (p.svcWr + 1) % 2 ^ 31 })
            .go ((put s (w32 p.svcWr)).sendSup p.id (.svcNote p.svcWr)))

/-! ### The module manager: granules and keys (R369, R370) -/

/-- Whether a granule is there in a powered module: one of the first tier on a die in service (01 R27), or one of the 16 TiB of the second tier, which the
model takes as fitted whole, for the spec says only how much there may be (01 R21). Open points: DESIGN CHOICE (log 48). -/
def State.fitted (s : State) (second : Bool) (granule : Nat) : Bool :=
  s.power && (if second then granule < 2 ^ 14 else granule < 2 ^ 17 && (s.die (granule / 2 ^ 14)).inService)

/-- GRANULE_REASSIGN: a granule gets a new owner; what it held reads as any value. Open points: DEDUCED (log 37). -/
def execGranuleReassign (second : Bool) (granule : Nat) (owner : Owner) (s : State) : Host.Outcome State Fault Refusal :=
  let g := if second then 2 ^ 40 + granule else granule
  let old := assocGet Owner.none (if second then s.owners2 else s.owners1) granule
  let put (l : List (Nat × Owner)) : List (Nat × Owner) := assocPut granule (if owner = .none then none else some owner) l
  if old = owner || !s.fitted second granule then .next s
  else
    let s := s.scramble g
    .next (if second then { s with owners2 := put s.owners2 } else { s with owners1 := put s.owners1 })

/-- HANDLE_SEAL: no partition writes under the handle any more. -/
def execHandleSeal (h : Nat) (s : State) : Host.Outcome State Fault Refusal :=
  .next { s with handles := updWhere (fun x => x.id = h) (fun x => { x with sealed := true }) s.handles }

end Sys2Proof.Machine
end

