-- ==== Sys2Proof/Machine/Links.lean ====
section
/-! DEFINITION. Waelle: sessions, the receiving of packets in SEQ order, host messages, peer messages, and attestation
(17 R381 to R389). -/

namespace Sys2Proof.Machine

/-! ### Sessions (R382, R384) -/

def State.session? (s : State) (id : Nat) : Option Session := s.sessions.find? (fun x => x.id = id)
def State.updSession (s : State) (id : Nat) (f : Session → Session) : State :=
  { s with sessions := updWhere (fun x => x.id = id) f s.sessions }

/-- Whether firmware runs with its dies, so that the ports serve partitions (R380). -/
def State.booted (s : State) : Bool := s.power && match s.boot with | .running _ _ => true | _ => false

/-- Whether firmware runs in management-only mode (01 R27). -/
def State.managed (s : State) : Bool := s.power && match s.boot with | .management _ _ => true | _ => false

/-- SESSION_OPEN: an exchange whose shares verify opens a session; a partition has one supervisor session, the module one manager
session, which management-only mode serves too, and a pair of partitions one peer session. Open points: DESIGN CHOICE (log 10). -/
def execSessionOpen (id : Nat) (kind : SessionKind) (part : Nat) (signedOk : Bool) (s : State) : Host.Outcome State Fault Refusal :=
  let taken : Bool :=
    match kind with
    | .supervisor => s.sessions.any (fun x => x.kind = .supervisor && x.part = part) || (s.part? part).isNone
    | .manager => s.sessions.any (fun x => x.kind = .manager)
    | .peer _ _ => s.sessions.any (fun x => x.kind = kind && x.part = part) || (s.part? part).isNone
  if !(s.booted || (s.managed && kind = .manager)) || !signedOk || id = 0 || (s.session? id).isSome || taken then .next s
  else
    .next { s with sessions := s.sessions ++
      [{ id := id, kind := kind, part := part, rxNext := 1, txNext := 1, heldRx := [], unacked := [], dropped := 0 }] }

/-! ### Answers of peers (R385) -/

/-- The bytes of pieces that are all here. -/
def piecesBytes : List Piece → List Byte
  | [] => []
  | .here bs :: l => bs ++ piecesBytes l
  | .asked _ _ :: l => piecesBytes l

/-- Take the answers that have come to a host message's pieces; says whether some still wait, and whether one is a fault. -/
def pollPieces : List Piece → State → State × List Piece × Bool × Bool
  | [], s => (s, [], false, false)
  | .here bs :: l, s =>
    let (s, ps, w, f) := pollPieces l s
    (s, .here bs :: ps, w, f)
  | .asked id n :: l, s =>
    match s.answer id with
    | none =>
      let (s, ps, _, f) := pollPieces l s
      (s, .asked id n :: ps, true, f)
    | some (.done bs) =>
      let (s, ps, w, f) := pollPieces l (s.closeAsk id)
      (s, .here ((bs ++ List.replicate n 0).take n) :: ps, w, f)
    | some .faulted =>
      let (s, ps, w, _) := pollPieces l (s.closeAsk id)
      (s, .here [] :: ps, w, true)

/-- Bytes stored at a home, line by line. -/
def storeLines (key : Nat) (owner : Owner) (home : Nat) : Nat → List Byte → State → State
  | 0, _, s => s
  | fuel + 1, bs, s =>
    if bs.isEmpty then s
    else
      let k := 128 - key % 128
      storeLines (key + k) owner home fuel (bs.drop k) (s.store key (bs.take k) owner home)

/-- Perform what a WRITE has left, until a part at a peer chip has to be waited for; a fault there is answered by STATUS, and the parts after
it are not performed (R386). Open points: DEDUCED (log 36). -/
def hostPuts (h : HostWait) (part : Nat) : List HostPut → State → State
  | [], s => s
  | .mem key home owner bs :: l, s => hostPuts h part l (storeLines key owner home 40 bs s)
  | .peer session addr bs :: l, s =>
    let (s, id) := s.ask part session (fun id => .pstore id (BitVec.ofNat 64 addr) bs)
    match s.answer id with
    | none => { s with hostWaits := s.hostWaits ++ [{ h with pieces := [.asked id 0], rest := l }] }
    | some (.done _) => hostPuts h part l (s.closeAsk id)
    | some .faulted => (s.closeAsk id).send h.session (.status h.seq Causes.hostFault.toNat)

/-- Go on with a host message once no piece of it waits: READRESP, the rest of a write, or STATUS with the host access fault. -/
def State.settleHost (s : State) (h : HostWait) : State :=
  match pollPieces h.pieces s with
  | (s, ps, true, _) => { s with hostWaits := s.hostWaits ++ [{ h with pieces := ps }] }
  | (s, _, false, true) => s.send h.session (.status h.seq Causes.hostFault.toNat)
  | (s, ps, false, false) =>
    if h.read then s.send h.session (.readResp (piecesBytes ps))
    else
      match s.session? h.session with
      | some x => hostPuts h x.part h.rest s
      | none => s

/-- What answers mean for the parties that wait on them: stores on their way, and host messages. -/
def State.settlePeers (s : State) : State :=
  let s := s.cores.foldl (fun (s : State) (c : CoreKey × Core) => s.dropAcked c.1) s
  let ws := s.hostWaits
  ws.foldl (fun s h => s.settleHost h) { s with hostWaits := [] }

/-- A request is answered, unless it has been, or has been abandoned. -/
def State.answerPeer (s : State) (session id : Nat) (a : PeerAnswer) : State :=
  let mine (r : PeerReq) : Bool := r.id = id && r.session = session && r.answer.isNone
  ({ s with peers := updWhere mine (fun r => { r with answer := some a }) s.peers } : State).settlePeers

/-- A session ends: its outstanding requests are answered as faults at the target. -/
def State.endSession (s : State) (id : Nat) : State := (s.closeSession id).settlePeers

/-! ### Packets (R383, R387) -/

/-- TYPE of a message; what leaves outside Waelle has none. -/
def Body.type : Body → Nat
  | .readResp _ => 0x03
  | .status _ _ => 0x05
  | .complete _ _ => 0x06
  | .ctlDone _ _ => 0x09
  | .svcNote _ => 0x0A
  | .attest _ => 0x0B
  | .pload _ _ _ => 0x10
  | .pstore _ _ _ => 0x11
  | .patom _ _ _ _ _ _ _ => 0x12
  | .presp _ _ => 0x13
  | .cell _ _ _ _ _ _ _ => 0x14
  | .kill _ _ => 0x15
  | .rtp _ _ _ _ _ _ _ _ => 0

/-- Payload bytes of a message, numbers in widths that R387 does not give. Open points: DESIGN CHOICE (log 52). -/
def Body.len : Body → Nat
  | .readResp bs => bs.length
  | .status _ _ => 12
  | .complete _ _ => 8
  | .ctlDone _ _ => 8
  | .svcNote _ => 4
  | .attest bs => bs.length
  | .pload _ _ _ => 24
  | .pstore _ _ bs => 16 + bs.length
  | .patom _ _ _ _ _ _ _ => 40
  | .presp _ (.done bs) => 12 + bs.length
  | .presp _ .faulted => 12
  | .cell _ _ _ _ _ _ bs => 32 + bs.length
  | .kill _ _ => 8
  | .rtp _ _ _ _ _ _ _ bs => bs.length

/-- The six words of a packet's header. -/
def Msg.header (m : Msg) : List W32 :=
  [w32 (1 + m.body.type * 2 ^ 8 + m.body.len * 2 ^ 16), w32 m.session, w32 m.seq, w32 (m.seq / 2 ^ 32), w32 m.ack, w32 (m.ack / 2 ^ 32)]

/-! ### Host memory messages (R386) -/

/-- A piece of a message's range: its address, length and target. -/
structure Span where
  va : Nat
  len : Nat
  tgt : Target
  key : Nat
deriving DecidableEq, Repr

/-- The target of an address for a host message: any present page of KIND 0 to 3, whatever RD and W say. -/
def State.hostTarget (s : State) (part va : Nat) : State × Option (Target × Nat) :=
  if va ≥ 2 ^ 52 then (s, none)
  else
    match s.walk part va with
    | (s, .leaf p base _) =>
      (match s.target .hub part va p base with
       | (s, .error) => (s, none)
       | (s, .window _) => (s, none)
       | (s, t) => (s, some (t, p.key)))
    | (s, _) => (s, none)

/-- The spans of a range, page by page; none if one of them faults. -/
def hostSpans (part : Nat) : Nat → Nat → Nat → State → State × Option (List Span)
  | 0, _, n, s => (s, if n = 0 then some [] else none)
  | fuel + 1, va, n, s =>
    if n = 0 then (s, some [])
    else
      let k := min n (4096 - va % 4096)
      match s.hostTarget part va with
      | (s, none) => (s, none)
      | (s, some (t, key)) =>
        match hostSpans part fuel (va + k) (n - k) s with
        | (s, none) => (s, none)
        | (s, some l) => (s, some ({ va := va, len := k, tgt := t, key := key } :: l))

/-- `n` bytes from an address in runs that end at 512-byte boundaries, each with its address and length: two runs' answers, and a run's
store, fit in a packet's payload (R383). -/
def runs512 : Nat → Nat → Nat → List (Nat × Nat)
  | 0, _, _ => []
  | fuel + 1, a, n =>
    if n = 0 then [] else let k := min n (512 - a % 512); (a, k) :: runs512 fuel (a + k) (n - k)

/-- The parts of a WRITE of one span. -/
def Span.puts (x : Span) (bs : List Byte) : List HostPut :=
  match x.tgt with
  | .mem key home owner _ => [.mem key home owner bs]
  | .peer session addr _ _ =>
    if bs.length + 16 ≤ 1024 then [.peer session addr bs]
    else (runs512 4 addr bs.length).map (fun c => .peer session c.1 (slice bs (c.1 - addr) c.2))
  | _ => []

/-- The parts of a WRITE of spans, in address order. -/
def spanPuts : List Span → List Byte → List HostPut
  | [], _ => []
  | x :: xs, bs => x.puts (bs.take x.len) ++ spanPuts xs (bs.drop x.len)

/-- Whether a part goes to a peer chip, which may answer a fault. -/
def HostPut.isPeer : HostPut → Bool
  | .peer _ _ _ => true
  | .mem _ _ _ _ => false

/-- The parts of a WRITE in the order in which they are performed: those that may still fault come first, so that a fault leaves the
others out (R386). Open points: DEDUCED (log 36). -/
def hostOrder (l : List HostPut) : List HostPut := l.filter HostPut.isPeer ++ l.filter (fun p => !p.isPeer)

/-- Bytes of homes line by line as a reader under an owner tag sees them; any bytes in a line written under another key (R368). -/
def readLines (owner : Owner) : Nat → Nat → Nat → State → State × List Byte
  | 0, _, _, s => (s, [])
  | fuel + 1, key, n, s =>
    if n = 0 then (s, [])
    else
      let k := min n (128 - key % 128)
      let (s, bs) : State × List Byte :=
        if s.lineTag (key / 128) = owner then s.homeRead key k
        else
          let (s, ws) := s.anyWords ((k + 3) / 4)
          (s, (bytesOfWords ws).take k)
      let (s, rest) := readLines owner fuel (key + k) (n - k) s
      (s, bs ++ rest)

/-- Bytes of homes within a page, as a reader under an owner tag sees them. -/
def State.readHome (s : State) (key n : Nat) (owner : Owner) : State × List Byte := readLines owner 40 key n s

/-- Ask a peer chip for runs of bytes. -/
def askChunks (part session : Nat) : List (Nat × Nat) → State → State × List Piece
  | [], s => (s, [])
  | c :: cs, s =>
    let (s, id) := s.ask part session (fun id => .pload id (BitVec.ofNat 64 c.1) c.2)
    let (s, ps) := askChunks part session cs s
    (s, .asked id c.2 :: ps)

/-- Read the spans of a host message. -/
def readSpans (part : Nat) : List Span → State → State × List Piece
  | [], s => (s, [])
  | x :: xs, s =>
    let (s, p) : State × List Piece := match x.tgt with
      | .mem key _ owner _ =>
        let (s, bs) := s.readHome key x.len owner
        (s, [.here bs])
      | .peer session addr _ _ => askChunks part session (runs512 4 addr x.len) s
      | _ => (s, [])
    let (s, ps) := readSpans part xs s
    (s, p ++ ps)

/-- Whether a partition may write a page under a key index that the message names (R369, R386). -/
def State.mayWriteKey (s : State) (part key named : Nat) : Bool :=
  key = named &&
  (key = 0 || match (s.part? part).bind (fun p => p.bound key) with
    | some h => s.handles.any (fun x => x.id = h && x.loader = some part && !x.sealed)
    | none => false)

/-- WRITE, delivered. -/
def State.hostWrite (s : State) (x : Session) (seq : Nat) (addr : Addr) (key : Nat) (bytes : List Byte) : State :=
  match hostSpans x.part 3 addr.toNat bytes.length s with
  | (s, none) => s.send x.id (.status seq Causes.hostFault.toNat)
  | (s, some l) =>
    if l.all (fun e => s.mayWriteKey x.part e.key key) then
      hostPuts { session := x.id, seq := seq, read := false, pieces := [], rest := [] } x.part (hostOrder (spanPuts l bytes)) s
    else s.send x.id (.status seq Causes.hostFault.toNat)

/-- READ, delivered. -/
def State.hostRead (s : State) (x : Session) (seq : Nat) (addr : Addr) (len : Nat) : State :=
  if len = 0 || len > 1024 then s.send x.id (.status seq Causes.hostFault.toNat)
  else
    match hostSpans x.part 3 addr.toNat len s with
    | (s, none) => s.send x.id (.status seq Causes.hostFault.toNat)
    | (s, some l) =>
      let (s, ps) := readSpans x.part l s
      s.settleHost { session := x.id, seq := seq, read := true, pieces := ps, rest := [] }

/-- Whether PWRITE and PREAD may reach a physical range: owned granules outside the save area. -/
def State.physAllowed (s : State) (part a n : Nat) : Bool :=
  match s.part? part with
  | none => false
  | some p =>
    let last := a + (n - 1)
    let saved := p.saveGr * Config.granule1
    a + n ≤ 2 ^ 38 && s.ownsKey part a && s.ownsKey part last && (a ≥ p.save + saved || last < p.save)

/-- PWRITE, delivered. -/
def State.physWrite (s : State) (x : Session) (seq : Nat) (addr : Addr) (bytes : List Byte) : State :=
  let a := addr.toNat
  if s.physAllowed x.part a bytes.length then storeLines a (.part x.part) (a / 2 ^ 35) 40 bytes s
  else s.send x.id (.status seq Causes.notOwned.toNat)

/-- PREAD, delivered. -/
def State.physRead (s : State) (x : Session) (seq : Nat) (addr : Addr) (len : Nat) : State :=
  if len = 0 || len > 1024 then s.send x.id (.status seq Causes.hostFault.toNat)
  else if s.physAllowed x.part addr.toNat len then
    let (s, bs) := s.readHome addr.toNat len (.part x.part)
    s.send x.id (.readResp bs)
  else s.send x.id (.status seq Causes.notOwned.toNat)

/-! ### Attestation (R381) -/

/-- A number's bytes, most significant first. -/
def bigEndian (n x : Nat) : List Byte := (bytesOf n x).reverse

/-- The bytes of a list of numbers, with its length. -/
def encNats (l : List Nat) : List Byte := bytesOf 8 l.length ++ l.flatMap (bytesOf 8)

/-- The bytes of the configuration record that are hashed. -/
def ConfigRec.bytes (c : ConfigRec) : List Byte :=
  let maps (l : List (List (Option Nat))) : List Byte := l.flatMap (fun m => encNats (m.map (fun x => (x.map (· + 1)).getD 0)))
  encNats ([c.minVersion] ++ c.dies.map b2n) ++ maps c.clusterMaps ++ maps c.sliceMaps
    ++ encNats (c.deadClusters.flatMap (fun e => [e.1, e.2])) ++ encNats (c.deadSlices.flatMap (fun e => [e.1, e.2]))

/-- The bytes of a partition's assignment that are hashed, in the order of R381. -/
def State.assignment (s : State) (p : Part) : List Byte :=
  let granules (l : List (Nat × Owner)) : List Nat := (l.filter (fun e => e.2 = .part p.id)).map (fun e => e.1)
  bytesOfWords ((upFrom 0 10).map p.clmapWord) ++ bytesOf 4 p.l2sh ++ encNats (granules s.owners1) ++ encNats (granules s.owners2)
    ++ encNats (p.queues.flatMap (fun q => [q.id, q.phys, b2n q.sup])) ++ encNats (p.heads.flatMap (fun h => [h.id, h.phys]))
    ++ encNats ((s.handles.filter (fun h => h.granted.contains p.id)).map (fun h => h.id))

/-- The attestation report, with the digests that the boot recorded (R380). Open points: DESIGN CHOICE (log 10). -/
def State.report (s : State) (p : Part) (nonce : List Byte) : List Byte :=
  let (img, record) : List Byte × BitVec 512 := match s.boot with
    | .running i d => (encNats [i.id, i.version], d)
    | .management i d => (encNats [i.id, i.version], d)
    | _ => ([], Config.sha512 [])
  let hash (bs : List Byte) : List Byte := bigEndian 64 (Config.sha512 bs).toNat
  let body := bytesOfWords [1, w32 p.id, w32 p.modno, 0] ++ nonce ++ hash img ++ bigEndian 64 record.toNat ++ hash (s.assignment p)
  body ++ bigEndian 132 (Config.ecdsaSign (Config.sha512 body)).toNat

/-! ### Peer messages at the target (R385) -/

/-- Translate a range page by page under a permission. -/
def accessSpans (part : Nat) (m : Perm) : Nat → Nat → Nat → State → State × Option (List (Nat × Nat × Nat × Owner))
  | 0, _, n, s => (s, if n = 0 then some [] else none)
  | fuel + 1, va, n, s =>
    if n = 0 then (s, some [])
    else
      let k := min n (4096 - va % 4096)
      match s.access .hub part m va with
      | (s, .ok (.mem key home owner _)) =>
        (match accessSpans part m fuel (va + k) (n - k) s with
         | (s, some l) => (s, some ((k, key, home, owner) :: l))
         | (s, none) => (s, none))
      | (s, _) => (s, none)

/-- Read the pieces of a range. -/
def readPieces : List (Nat × Nat × Nat × Owner) → State → State × List Byte
  | [], s => (s, [])
  | (k, key, _, owner) :: l, s =>
    let (s, bs) := s.readHome key k owner
    let (s, rest) := readPieces l s
    (s, bs ++ rest)

/-- Write the pieces of a range. -/
def writePieces : List (Nat × Nat × Nat × Owner) → List Byte → State → State
  | [], _, s => s
  | (k, key, home, owner) :: l, bs, s => writePieces l (bs.drop k) (storeLines key owner home 40 (bs.take k) s)

/-- The overtaken stores to the pieces of a range are performed, for the access may be an acquire (11 R263). -/
def State.catchPieces (s : State) (l : List (Nat × Nat × Nat × Owner)) : State := l.foldl (fun s e => s.catchUp e.2.1 e.1) s

/-- PLOAD, PSTORE and PATOM at their target, answered by PRESP; a load whose answer no packet holds is answered as a fault (R383).
Open points: DEDUCED (log 36). -/
def State.peerLoad (s : State) (x : Session) (id : Nat) (addr : Addr) (len : Nat) : State :=
  match if len + 12 > 1024 then (s, none) else accessSpans x.part .rd 3 addr.toNat len s with
  | (s, some l) =>
    let (s, bs) := readPieces l (s.catchPieces l)
    s.send x.id (.presp id (.done bs))
  | (s, none) => s.send x.id (.presp id .faulted)

def State.peerStore (s : State) (x : Session) (id : Nat) (addr : Addr) (bytes : List Byte) : State :=
  match accessSpans x.part .wr 3 addr.toNat bytes.length s with
  | (s, some l) => (writePieces l bytes s).send x.id (.presp id (.done []))
  | (s, none) => s.send x.id (.presp id .faulted)

/-- A reduction in FP32 adds its term to the word's cell at the home (10 R229); it answers with no bytes. -/
def State.peerAtom (s : State) (x : Session) (id : Nat) (addr : Addr) (fn : Nat) (w64 : Bool) (op : PeerOp) (opnd cmp : W64) : State :=
  let n := atomBytes w64
  let words (v : W64) : List W32 := if w64 then [lo32 v, hi32 v] else [lo32 v]
  match accessSpans x.part .rw 3 addr.toNat n s with
  | (s, some l) =>
    let s := s.catchPieces l
    if op = .red && fn = 9 then
      (l.foldl (fun (s : State) (e : Nat × Nat × Nat × Owner) => s.reduceAdd e.2.1 (lo32 opnd) e.2.2.2 e.2.2.1) s).send x.id (.presp id (.done []))
    else
    let (s, bs) := readPieces l s
    let old := wordsOfBytes (n / 4) bs
    let new := if op = .cas then casWords w64 old (words cmp ++ words opnd) else atomWords fn w64 old (words opnd)
    (writePieces l (bytesOfWords new) s).send x.id (.presp id (.done bs))
  | (s, none) => s.send x.id (.presp id .faulted)

/-! ### Receiving (R383, R384, R387) -/

/-- A message is dropped and counted. -/
def State.countDrop (s : State) (session : Nat) : State := s.updSession session (fun x => { x with dropped := x.dropped + 1 })

/-- Whether a message's payload is longer than a packet's: its fields and 1 byte for the key index count. Open points: DEDUCED (log 36). -/
def tooLong (i : Instr) : Bool :=
  match i with
  | .write _ _ _ bs => bs.length + 9 > 1024
  | .pwrite _ _ bs => bs.length + 8 > 1024
  | .pstore _ _ _ bs => bs.length > 1024
  | .cell _ _ _ _ _ _ cells => cells.bytes.length > 1024
  | _ => false

/-- What a delivered message does: a host message on the supervisor session, a peer message on a peer session; others are dropped and
counted. Open points: DEDUCED (log 36). -/
def State.deliver (s : State) (x : Session) (i : Instr) : State :=
  match x.kind, i with
  | .supervisor, .write p addr key bytes => s.hostWrite x p.seq addr key.toNat bytes
  | .supervisor, .read p addr len => s.hostRead x p.seq addr len
  | .supervisor, .submit p q record =>
    if record.length ≠ 256 then s.countDrop x.id
    else
      let (s, c) := s.submit x.part q record
      s.send x.id (.status p.seq c)
  | .supervisor, .ctlwr p space off v =>
    let (s, c) := if space = 0 && (off = 0xE8 || off = 0xEC) then s.hostResize x.part v else s.ctlWrite x.part space off v
    s.send x.id (.status p.seq c)
  | .supervisor, .ctlrd _ space off => s.send x.id (.readResp (bytesOf 4 (s.ctlRead x.part space off).toNat))
  | .supervisor, .attest _ nonce =>
    if nonce.length ≠ 64 then s.countDrop x.id
    else (match s.part? x.part with | some p => s.send x.id (.attest (s.report p nonce)) | none => s)
  | .supervisor, .pwrite p addr bytes => s.physWrite x p.seq addr bytes
  | .supervisor, .pread p addr len => s.physRead x p.seq addr len
  | .peer _ _, .pload _ id addr len => s.peerLoad x id addr len
  | .peer _ _, .pstore _ id addr bytes => s.peerStore x id addr bytes
  | .peer _ _, .patom _ id addr fn w64 op opnd cmp => s.peerAtom x id addr fn.toNat w64 op opnd cmp
  | .peer _ _, .presp _ id a => s.answerPeer x.id id a
  | .peer _ _, .cell _ set cid rank way head cells =>
    s.cellIn x.part set cid { rank := rank, way := way, head := head, first := cells.first, cells := cells.bytes }
  | .peer _ _, .kill _ set cid => s.killIn x.part set cid
  | _, _ => s.countDrop x.id

/-- Deliver the packets held, as long as the next one is there and no earlier host message of the session still waits for a peer chip
(11 R271). -/
def deliverHeld (session : Nat) : Nat → State → State
  | 0, s => s
  | n + 1, s =>
    match s.session? session with
    | none => s
    | some x =>
      match if s.hostWaits.any (fun h => h.session = session) then none else kget x.rxNext x.heldRx with
      | none => s
      | some i =>
        let s := s.updSession session (fun y => { y with rxNext := y.rxNext + 1, heldRx := y.heldRx.filter (fun e => e.1 ≠ x.rxNext) })
        deliverHeld session n (s.deliver x i)

/-- Every session goes on with the packets that it holds. -/
def State.deliverAll (s : State) : State := (s.sessions.map (fun x => x.id)).foldl (fun s id => deliverHeld id 257 s) s

/-- A packet arrives: one that does not verify, whose session is unknown, whose SEQ is not new, or whose payload is too long is dropped
and counted; one whose SEQ is 2^63 or more ends its session; up to 256 packets beyond a gap are held; the others are delivered in SEQ
order. Open points: DEDUCED (log 36). -/
def State.receive (s : State) (p : Packet) (i : Instr) : State :=
  if !(s.booted || s.managed) then s
  else
    match s.session? p.session with
    | none => { s with strays := s.strays + 1 }
    | some x =>
      if !p.authentic || p.seq < x.rxNext || x.heldRx.any (fun e => e.1 = p.seq) || tooLong i then s.countDrop x.id
      else if p.seq ≥ 2 ^ 63 then s.endSession x.id
      else
        let s := s.updSession x.id (fun y => { y with unacked := y.unacked.filter (fun e => e.1 > p.ack) })
        if p.seq = x.rxNext then
          (deliverHeld x.id 257 (s.updSession x.id (fun y => { y with heldRx := (p.seq, i) :: y.heldRx }))).deliverAll
        else if x.heldRx.length ≥ 256 then s.countDrop x.id
        else s.updSession x.id (fun y => { y with heldRx := y.heldRx ++ [(p.seq, i)] })

/-- RETRANSMIT_TIMEOUT: an unacknowledged packet is sent again; after 64 retransmissions of it the session ends, and its partition is
told. -/
def execRetransmitTimeout (session seq : Nat) (s : State) : Host.Outcome State Fault Refusal :=
  match s.session? session with
  | none => .next s
  | some x =>
    match kget seq x.unacked, s.sent.find? (fun m => m.session = session && m.seq = seq) with
    | some n, some m =>
      if n ≥ 64 then
        .next ((s.endSession session).deliverAll.emit x.part { cause := Causes.linkLoss, kind := kNotice } none none)
      else
        .next (({ s with sent := s.sent ++ [m] } : State).updSession session (fun x => { x with unacked := kput seq (n + 1) x.unacked }))
    | _, _ => .next s

/-! ### The messages -/

/-- SUBMIT: a launch record for a queue. -/
def execSubmit (p : Packet) (q : Nat) (record : List Byte) (s : State) : Host.Outcome State Fault Refusal :=
  .next (s.receive p (.submit p q record))
/-- WRITE: bytes to the partition's virtual space. -/
def execWrite (p : Packet) (addr : Addr) (key : BitVec 4) (bytes : List Byte) (s : State) : Host.Outcome State Fault Refusal :=
  .next (s.receive p (.write p addr key bytes))
/-- READ: bytes of the partition's virtual space. -/
def execRead (p : Packet) (addr : Addr) (len : Nat) (s : State) : Host.Outcome State Fault Refusal := .next (s.receive p (.read p addr len))
/-- CTLWR: a word of a control space. -/
def execCtlwr (p : Packet) (space offset : Nat) (value : W32) (s : State) : Host.Outcome State Fault Refusal :=
  .next (s.receive p (.ctlwr p space offset value))
/-- CTLRD: a word of a control space is read. -/
def execCtlrd (p : Packet) (space offset : Nat) (s : State) : Host.Outcome State Fault Refusal := .next (s.receive p (.ctlrd p space offset))
/-- ATTEST: a report over a nonce. -/
def execAttest (p : Packet) (nonce : List Byte) (s : State) : Host.Outcome State Fault Refusal := .next (s.receive p (.attest p nonce))
/-- PWRITE: bytes to the partition's own first-tier memory. -/
def execPwrite (p : Packet) (addr : Addr) (bytes : List Byte) (s : State) : Host.Outcome State Fault Refusal :=
  .next (s.receive p (.pwrite p addr bytes))
/-- PREAD: bytes of the partition's own first-tier memory. -/
def execPread (p : Packet) (addr : Addr) (len : Nat) (s : State) : Host.Outcome State Fault Refusal := .next (s.receive p (.pread p addr len))
/-- PLOAD: a peer chip loads. -/
def execPload (p : Packet) (id : Nat) (addr : Addr) (len : Nat) (s : State) : Host.Outcome State Fault Refusal :=
  .next (s.receive p (.pload p id addr len))
/-- PSTORE: a peer chip stores. -/
def execPstore (p : Packet) (id : Nat) (addr : Addr) (bytes : List Byte) (s : State) : Host.Outcome State Fault Refusal :=
  .next (s.receive p (.pstore p id addr bytes))
/-- PATOM: a peer chip's atomic. -/
def execPatom (p : Packet) (id : Nat) (addr : Addr) (fn : BitVec 4) (w64 : Bool) (op : PeerOp) (opnd cmp : W64) (s : State) :
    Host.Outcome State Fault Refusal := .next (s.receive p (.patom p id addr fn w64 op opnd cmp))
/-- PRESP: a peer chip answers. -/
def execPresp (p : Packet) (id : Nat) (answer : PeerAnswer) (s : State) : Host.Outcome State Fault Refusal :=
  .next (s.receive p (.presp p id answer))
/-- CELL: cells of a collective. -/
def execCell (p : Packet) (set : Nat) (cid : W32) (rank : Nat) (way : CellWay) (head : List W32) (cells : CellPart)
    (s : State) : Host.Outcome State Fault Refusal := .next (s.receive p (.cell p set cid rank way head cells))
/-- KILL: a collective is aborted. -/
def execKill (p : Packet) (set : Nat) (cid : W32) (s : State) : Host.Outcome State Fault Refusal := .next (s.receive p (.kill p set cid))

end Sys2Proof.Machine
end

