-- ==== Sys2Proof/Machine/Board.lean ====
section
/-! DEFINITION. Power, boot and recovery mode, the power manager, and the module manager's partitions and assignments
(01 R24 to R28; 13 R290; 15 R335; 17 R363, R365 to R369, R376, R380, R382). -/

namespace Sys2Proof.Machine

/-! ### Boot (R27, R380) -/

/-- The map of a die in the record; a record that gives none assigns every number to the part of its number. -/
def dieMap (maps : List (List (Option Nat))) (d n : Nat) : List (Option Nat) := (nth maps d).getD (identityMap n 0)

/-- Whether a cluster map names distinct physical clusters. -/
def clusterMapOk (m : List (Option Nat)) : Bool :=
  let used := m.filterMap id
  m.length = Config.clusters && used.all (fun x => x < Config.physClusters) && (sortNat used).length = used.length

/-- Whether a slice map serves every slice, no physical slice more than two. -/
def sliceMapOk (m : List (Option Nat)) : Bool :=
  m.length = Config.slices && m.all (fun x => match x with
    | some n => n < Config.physSlices && (m.filter (fun y => y = some n)).length ≤ 2
    | none => false)

/-- Whether firmware accepts the configuration record (R27). -/
def ConfigRec.valid (c : ConfigRec) : Bool :=
  c.sigOk && (upFrom 0 Config.dies).all (fun d =>
    !(nth c.dies d).getD false
    || (clusterMapOk (dieMap c.clusterMaps d Config.clusters) && sliceMapOk (dieMap c.sliceMaps d Config.slices)))

/-- Physical parts below `n` that a map does not use and that are not retired. -/
def sparesOf (m : List (Option Nat)) (dead : List Nat) (n : Nat) : List Nat :=
  (upFrom 0 n).filter (fun x => !m.contains (some x) && !dead.contains x)

/-- A die as the record sets it up. -/
def ConfigRec.die (c : ConfigRec) (d : Nat) : Die :=
  let cm := dieMap c.clusterMaps d Config.clusters
  let sm := dieMap c.sliceMaps d Config.slices
  let dead (l : List (Nat × Nat)) : List Nat := (l.filter (fun e => e.1 = d)).map (fun e => e.2)
  { Die.init with inService := (nth c.dies d).getD false, clusterMap := cm, spareClusters := sparesOf cm (dead c.deadClusters) Config.physClusters,
                  sliceMap := sm, spareSlices := sparesOf sm (dead c.deadSlices) Config.physSlices }

/-- Firmware runs and applies the record, whose digest is noted (R380); one that it rejects enables no compute die, and leaves the
management-only mode. -/
def State.runFirmware (s : State) (i : FwImage) : State :=
  let c := s.flash.config
  let digest := Config.sha512 c.bytes
  if c.valid then { s with boot := .running i digest, dies := (upFrom 0 Config.dies).map (fun d => (d, c.die d)) }
  else { s with boot := .management i digest, dies := State.initDies }

/-- BOOT: power comes, if it was off, and the boot ROM runs. Open points: PRESUMED (log 6), DEDUCED (log 37). -/
def execBoot (s : State) : Host.Outcome State Fault Refusal :=
  let f := s.flash
  let good (x : Option FwImage) : Option FwImage := x.filter (fun i => i.sigOk && decide (i.version ≥ f.config.minVersion))
  if s.boot ≠ .rom && s.boot ≠ .off then .next s
  else
    let s := { s with power := true }
    if !f.pufOk then .next { s with boot := .halted }
    else
      match good f.slot0, good f.slot1 with
      | some i, _ => .next (s.runFirmware i)
      | none, some i => .next (s.runFirmware i)
      | none, none => .next { s with boot := .recovery }

/-- SIGNED_FIRMWARE_IMAGE: in recovery mode an image that verifies is written to a slot, for the next boot. -/
def execSignedFirmwareImage (slot : Nat) (img : FwImage) (s : State) : Host.Outcome State Fault Refusal :=
  if s.boot ≠ .recovery || !img.sigOk || img.version < s.flash.config.minVersion then .next s
  else
    match slot with
    | 0 => .next { s with flash := { s.flash with slot0 := some img } }
    | 1 => .next { s with flash := { s.flash with slot1 := some img } }
    | _ => .next s

/-! ### Power (R24, R26, R28) -/

/-- Power is removed: nothing keeps state but the board flash. -/
def State.unpowered (s : State) : State :=
  { State.reset with power := false, boot := .off, flash := s.flash, agenda := s.agenda, focus := s.focus, fresh := s.fresh }

/-- POWER_OFF. -/
def execPowerOff (s : State) : Host.Outcome State Fault Refusal := .next s.unpowered

/-- THERMAL_POWER_OFF: a junction at 105 degrees makes the board controller remove power. -/
def execThermalPowerOff (die : Nat) (s : State) : Host.Outcome State Fault Refusal :=
  .next (if die < Config.dies then s.unpowered else s)

/-- The clock of a die one step lower, and one step higher. -/
def State.lowerClock (s : State) (d : Nat) : State :=
  s.updDie d (fun x => { x with mhz := max Config.floorMHz (x.mhz - Config.stepMHz) })
def State.raiseClock (s : State) (d : Nat) : State :=
  s.updDie d (fun x => { x with mhz := min Config.nominalMHz (x.mhz + Config.stepMHz) })

/-- POWER_WINDOW: a window measured `milliwatts`, die and partition naming those of the highest draw. Of several dies with the lowest
clock the first is raised, for the spec does not say which. Open points: DESIGN CHOICE (log 50), PRESUMED (log 6). -/
def execPowerWindow (milliwatts die part : Nat) (s : State) : Host.Outcome State Fault Refusal :=
  let on := s.dies.filter (fun d => d.2.inService)
  if !s.booted then .next s
  else if milliwatts > 4600000 then
    if on.all (fun d => d.2.mhz ≤ Config.floorMHz) then .next (s.powerFreeze part)
    else .next (if on.any (fun d => d.1 = die) then s.lowerClock die else s)
  else if milliwatts < 4300000 then
    match minBy (fun (d : Nat × Die) => d.2.mhz) on with
    | some d => .next (s.raiseClock d.1)
    | none => .next s
  else .next s

/-- THERMAL_THROTTLE: a junction at 95 degrees lowers its die's clock. -/
def execThermalThrottle (die : Nat) (s : State) : Host.Outcome State Fault Refusal :=
  .next (if s.booted && (s.die die).inService then s.lowerClock die else s)

/-! ### Partitions (R363, R365, R382) -/

/-- A partition as it is created; registers that the spec gives no reset value are zero, HW its least
value. Open points: DESIGN CHOICE (log 3). -/
def Part.fresh (id modno kdie l2sh : Nat) : Part :=
  { id := id, modno := modno, ptr := 0, save := 0, saveGr := 0, win := 0, hw := 1, bobc := 0, l2sh := l2sh, svc := 0, svcLg := 0, svcWr := 0,
    svcRd := 0, kb := List.replicate 16 none, tq := none, tqLg := 0, tqWr := 0, tqRd := 0, frozen := none, resetting := false, dumped := false,
    tqDrop := 0, poison := 0, dump := 0, dumpGr := 0, taSeq := 0, rstCnt := 0, clusters := [], clst := 0, clreq := 0, resize := none,
    removing := [], kdie := kdie, heldLo := [], heldRecs := [], notices := [], queues := [], heads := [], streams := [], stripes := [],
    rotation := [], claims := [], resetCause := none, frozeAt := (0, 0) }

/-- The sum of the L2 shares of the other partitions. -/
def State.sharesBut (s : State) (part : Nat) : Nat := sumNat ((s.parts.filter (fun p => p.id ≠ part)).map (fun p => p.l2sh))

/-- PARTITION_CREATE. -/
def execPartitionCreate (part modno kdie l2sh : Nat) (clusters : List ClusterKey) (s : State) : Host.Outcome State Fault Refusal :=
  let free := s.freeClusters none
  let distinct := (sortNat (clusters.map (fun c => 64 * c.die + c.cluster))).length = clusters.length
  if !s.booted || part > 63 || (s.part? part).isSome || modno > 16383 || !(s.die kdie).inService || s.sharesBut part + l2sh > 16
     || !distinct || !clusters.all free.contains then .next s
  else
    let p := Part.fresh part modno kdie l2sh
    .next (clusters.foldl (fun s c => s.joinCluster p c) { s with parts := s.parts ++ [p] })

/-- The granules that a partition owns go back to the module manager. -/
def State.freeGranules (s : State) (part : Nat) : State :=
  let one := (s.owners1.filter (fun e => e.2 = .part part)).map (fun e => e.1)
  let two := (s.owners2.filter (fun e => e.2 = .part part)).map (fun e => e.1)
  let s := (one ++ two.map (fun n => 2 ^ 40 + n)).foldl State.scramble s
  { s with owners1 := s.owners1.filter (fun e => e.2 ≠ .part part), owners2 := s.owners2.filter (fun e => e.2 ≠ .part part) }

/-- PARTITION_DESTROY: the partition's work, its copies on the dies and its sessions end, and its granules lose their owner.
Open points: DEDUCED (log 37). -/
def execPartitionDestroy (part : Nat) (s : State) : Host.Outcome State Fault Refusal :=
  match s.part? part with
  | none => .next s
  | some p =>
    let s := (s.resetStores p).freeGranules part
    let ids := (s.sessions.filter (fun x => x.kind ≠ .manager && x.part = part)).map (fun x => x.id)
    let s := (ids.foldl State.endSession s).deliverAll
    .next { s with
      parts := s.parts.filter (fun x => x.id ≠ part), teams := s.teams.filter (fun t => t.part ≠ part),
      launches := s.launches.filter (fun l => l.part ≠ part), colls := s.colls.filter (fun c => c.part ≠ part),
      aborts := s.aborts.filter (fun a => a.1 ≠ part),
      handles := s.handles.map (fun h => { h with granted := h.granted.filter (fun n => n ≠ part),
                                                  loader := if h.loader = some part then none else h.loader }) }

/-! ### Assignments (R290, R335, R365, R369) -/

/-- A queue, a head and a stream as they are assigned. Open points: DESIGN CHOICE (log 3). -/
def Queue.fresh (id phys : Nat) (sup : Bool) : Queue :=
  { id := id, phys := phys, sup := sup, en := false, wgt := 0, cw := 0, wdog := 0, grace := 0, wdrst := false, count := 0, watch := 0,
    cur := [], launches := [] }

def Head.fresh (id phys : Nat) : Head :=
  { id := id, phys := phys, en := false, mode := 0, upf := 0, sr := 0, net := false, timing := [0, 0, 0], netRec := 0, pose := 0, rep := 0,
    mv := 0, line := 0, frame := 0, f1 := 0, f2 := 0, drop := 0, rej := 0, queue := [], latched := none, surfA := none, surfB := none,
    phase := 0, poseWords := none, netWords := none, netOn := false, repNow := 0, mvNow := 0, ahead := false, reported := false, linePos := 0,
    bands := [], prev := [], vectors := [], report := 0, dropped := false, leaving := [], drops := [], aFreed := false, frameClocks := 0, buf := PeerBuf.none,
    estimating := false }

def Stream.fresh (id : Nat) : Stream :=
  { id := id, words := List.replicate 13 0, en := false, frames := 0, row := 0, key := false, keyNext := false, offset := 0, cur := 0,
    buf := { got := [], asked := none } }

/-- The lowest free queue slot of an engine. -/
def State.freeQueue (s : State) (engine : Nat) : Option Nat :=
  ((upFrom (16 * engine) 16)).find? (fun n => s.parts.all (fun p => p.queues.all (fun q => q.phys ≠ n)))

/-- Whether a queue, or a head with its stream, is disabled and unused. -/
def Queue.idle (x : Queue) : Bool := !x.en && x.launches.isEmpty
def Part.headIdle (p : Part) (h : Nat) : Bool :=
  p.heads.all (fun x => x.id ≠ h || (!x.en && x.leaving.isEmpty && x.drops.isEmpty && x.queue.isEmpty))
  && p.streams.all (fun x => x.id ≠ h || !x.en)

/-- Assign to a partition, or withdraw from it. Open points: DEDUCED (log 37). -/
def State.assign (s : State) (p : Part) (r : Resource) : State :=
  match r with
  | .queue q engine sup =>
    (match s.freeQueue engine with
     | some n =>
       if q > 255 || engine > 31 || p.queues.any (fun x => x.id = q) then s
       else s.updPart p.id (fun p => { p with queues := p.queues ++ [Queue.fresh q n sup] })
     | none => s)
  | .unqueue q => s.updPart p.id (fun p => { p with queues := p.queues.filter (fun x => x.id ≠ q || !x.idle) })
  | .head h phys =>
    if h > 63 || phys > 63 || p.heads.any (fun x => x.id = h) || s.parts.any (fun x => x.heads.any (fun y => y.phys = phys)) then s
    else s.updPart p.id (fun p => { p with heads := p.heads ++ [Head.fresh h phys], streams := p.streams ++ [Stream.fresh h] })
  | .unhead h =>
    if p.heads.any (fun x => x.id = h && x.en) then s
    else if !p.headIdle h then s.updHead p.id h Head.stop
    else s.updPart p.id (fun p => { p with heads := p.heads.filter (fun x => x.id ≠ h), streams := p.streams.filter (fun x => x.id ≠ h) })
  | .share sh => if s.sharesBut p.id + sh > 16 then s else s.updPart p.id (fun p => { p with l2sh := sh })
  | .handle h =>
    if h > 63 then s
    else if s.handles.any (fun x => x.id = h) then
      { s with handles := updWhere (fun x => x.id = h) (fun x => { x with granted := insertNat p.id x.granted }) s.handles }
    else { s with handles := s.handles ++ [{ id := h, granted := [p.id], loader := some p.id, sealed := false }] }
  | .unhandle h =>
    let ks := (upFrom 1 15).filter (fun k => p.bound k = some h)
    let s := ks.foldl (fun s k => (s.dropKey p k).updPart p.id (fun p => { p with kb := updNth (fun _ => none) p.kb k })) s
    { s with handles := updWhere (fun x => x.id = h)
               (fun x => { x with granted := x.granted.filter (fun n => n ≠ p.id), loader := if x.loader = some p.id then none else x.loader }) s.handles }

/-- RESOURCE_ASSIGN. -/
def execResourceAssign (part : Nat) (r : Resource) (s : State) : Host.Outcome State Fault Refusal :=
  match s.part? part with
  | none => .next s
  | some p => .next (s.assign p r)

end Sys2Proof.Machine
end

