-- ==== Sys2Proof/Machine/CrossLane.lean ====
section
/-! DEFINITION. Cross-lane operations, predicates and special registers (05 R131 to R141; 02 R37). -/

namespace Sys2Proof.Machine

/-! ### SHFL (R132) -/

/-- The operand of another lane: a temporary of a lane outside the split reads zero (R131). -/
def Iss.other (is : Iss) (o : Opnd) (j : Nat) : W32 :=
  if opT o && !is.active.contains j then 0 else is.g.src (is.g.lane j) .int o 0

/-- The source lane of SHFL for lane `i`, if it lies in the segment: mode, WRAP, segment width, amount. -/
def shflSource (mode : Nat) (wrap : Bool) (w i : Nat) (n : Int) : Option Nat :=
  let b : Int := (i / w * w : Nat)
  let j : Int :=
    if mode = 0 then b + n
    else if mode = 1 then (i : Int) + n
    else b + (((i % w) ^^^ n.toNat : Nat) : Int)
  let j := if wrap then b + (j - b) % w else j
  if b ≤ j && j < b + w then some j.toNat else none

/-- SHFL. -/
def execShfl (d a : Opnd) (fn : BitVec 8) (c : Opnd) (rel wrap : Bool) (seg : BitVec 3) (imm : BitVec 16) (s : State) :
    Host.Outcome State Fault Refusal :=
  let k := imm.toNat % 8
  let neg := imm.getLsbD 15
  let badRel := k = 0 || k > 4 || bitsOf imm 14 3 ≠ 0 || (neg && fn ≠ 1)
  let w := if seg = 0 then Config.gw else 2 ^ (seg.toNat + 1)
  let sh : Shape :=
    { slots := [Slot.o d Kinds.vt 1 1, Slot.a a, Slot.a c], reserved := if rel then badRel else imm ≠ 0,
      fn := if fn.toNat > 2 || seg = 7 || w > Config.gw then some Causes.unassignedFn else none }
  issue s sh (fun is => writeLanes s is d (is.lanes.map (fun i =>
    let v := is.g.src (is.g.lane i) .int c 0
    let n : Int := if fn = 1 then v.toInt else v.toNat
    let r : Int := if rel then (if neg then -((Config.gw / 2 ^ k : Nat) : Int) else (Config.gw / 2 ^ k : Nat)) else 0
    (i, [is.other a ((shflSource fn.toNat wrap w i (n + r)).getD i)], 0))))

/-! ### BCAST, VOTE, MATCH (R133 to R135) -/

/-- BCAST. -/
def execBcast (d a b : Opnd) (s : State) : Host.Outcome State Fault Refusal :=
  let sh : Shape := { slots := [Slot.d d, Slot.s a Kinds.vt 1 1, Slot.s b Kinds.wImm 1 1], mixed := true }
  issue s sh (fun is =>
    let x := is.other a ((is.g.src Lane.blank .int b 0).toNat % Config.gw)
    if opW d then (if is.lanes.isEmpty then .go s else writeUniform s is d [x] [] 0)
    else writeLanes s is d (is.lanes.map (fun i => (i, [x], 0))))

/-- The words of a mask of lanes. -/
def maskWords (m : Mask) : List W32 := [lo32 m, hi32 m]

/-- What VOTE gives for the lanes whose predicate is true among those that contribute (R134). -/
def voteWords (mode : Nat) (yes all : List Nat) : List W32 :=
  match mode with
  | 0 => [BitVec.ofNat 32 (b2n (yes.length = all.length))]
  | 1 => [BitVec.ofNat 32 (b2n (!yes.isEmpty))]
  | 2 => maskWords (maskOf yes)
  | 3 => [BitVec.ofNat 32 yes.length]
  | 4 => [match yes.head? with | some i => BitVec.ofNat 32 i | none => 0xFFFFFFFF#32]
  | _ => [match yes.getLast? with | some i => BitVec.ofNat 32 i | none => 0xFFFFFFFF#32]

/-- VOTE. -/
def execVote (d : Opnd) (mode : BitVec 4) (neg : Bool) (k : BitVec 3) (s : State) : Host.Outcome State Fault Refusal :=
  let n := if mode = 2 then 2 else 1
  let sh : Shape :=
    { slots := [Slot.o d Kinds.vwt n n], mixed := true, vector := true, fn := if mode.toNat > 5 then some Causes.unassignedFn else none }
  issue s sh (fun is =>
    let ws := voteWords mode.toNat (is.lanes.filter (fun i => (is.g.lane i).pred k.toNat != neg)) is.lanes
    if opW d then writeUniform s is d ws [] 0 else writeLanes s is d (is.lanes.map (fun i => (i, ws, 0))))

/-- MATCH. -/
def execMatch (d a : Opnd) (s : State) : Host.Outcome State Fault Refusal :=
  issue s { slots := [Slot.o d Kinds.vt 2 2, Slot.a a] } (fun is =>
    let x (i : Nat) : W32 := is.g.src (is.g.lane i) .int a 0
    writeLanes s is d (is.lanes.map (fun i => (i, maskWords (maskOf (is.lanes.filter (fun j => x j = x i))), 0))))

/-! ### REDL and SCAN (R136 to R138) -/

/-- The combine of an operation, with its flags (R136). -/
def redCombine (op : Nat) (flush : Bool) (x y : W32) : W32 × Flags :=
  match op with
  | 0 => (x + y, 0)
  | 1 => (if x.toInt ≤ y.toInt then x else y, 0)
  | 2 => (if x.toInt ≤ y.toInt then y else x, 0)
  | 3 => (if x.toNat ≤ y.toNat then x else y, 0)
  | 4 => (if x.toNat ≤ y.toNat then y else x, 0)
  | 5 => (x &&& y, 0)
  | 6 => (x ||| y, 0)
  | 7 => (x ^^^ y, 0)
  | 8 =>
    let m : ResMod := { ResMod.plain with flush := flush }
    let r := fpElem Fmt.fp32 fpAdd (SignMods.of Modifier.none) m 0 x.toNat y.toNat
    (BitVec.ofNat 32 r.1, r.2)
  | 9 => (BitVec.ofNat 32 (fminmax false flush x.toNat y.toNat), 0)
  | _ => (BitVec.ofNat 32 (fminmax true flush x.toNat y.toNat), 0)

/-- The type of the source of an operation (R61, R136). Open points: DEDUCED (log 14). -/
def redTy (op : Nat) : OpTy := if op ≥ 8 then .fp else .int

/-- The exclusive first value of an operation (R136). -/
def redFirst (op : Nat) : W32 :=
  match op with
  | 1 => 0x7FFFFFFF#32
  | 2 => 0x80000000#32
  | 3 => 0xFFFFFFFF#32
  | 5 => 0xFFFFFFFF#32
  | 8 => 0x80000000#32
  | 9 => 0x7F800000#32
  | 10 => 0xFF800000#32
  | _ => 0#32

/-- One level of the pairwise tree. -/
def redLevel (op : Nat) (flush : Bool) : List (Option (W32 × Flags)) → List (Option (W32 × Flags))
  | x :: y :: rest =>
    (match x, y with
      | some (a, f), some (b, g) => let r := redCombine op flush a b; some (r.1, r.2 ||| f ||| g)
      | none, y => y
      | x, none => x) :: redLevel op flush rest
  | l => l

/-- The whole tree over 2^n values. -/
def redTree (op : Nat) (flush : Bool) : Nat → List (Option (W32 × Flags)) → Option (W32 × Flags)
  | 0, l => l.head?.join
  | n + 1, l => redTree op flush n (redLevel op flush l)

/-- REDL. -/
def execRedl (d a : Opnd) (seg : BitVec 4) (op : BitVec 4) (s : State) : Host.Outcome State Fault Refusal :=
  let lg := if seg = 0 then 6 else min 6 seg.toNat
  let w := 2 ^ lg
  let sh : Shape :=
    { slots := [Slot.d d, Slot.a a], mixed := true, bad := opW d && w ≠ Config.gw,
      fn := if op.toNat > 10 then some Causes.unassignedFn else none }
  issue s sh (fun is =>
    let val (i : Nat) : Option (W32 × Flags) := if is.lanes.contains i then some (is.g.src (is.g.lane i) (redTy op.toNat) a 0, 0) else none
    let tree (b : Nat) : Option (W32 × Flags) := redTree op.toNat is.team.rec'.flush lg ((upFrom b w).map val)
    if opW d then
      match tree 0 with
      | some (x, f) => writeUniform s is d [x] is.lanes f
      | none => .go s
    else
      let segs := (upFrom 0 (is.g.lanes.length / w + 1)).map (fun k => tree (k * w))
      writeLanes s is d (is.lanes.filterMap (fun i => (nth segs (i / w)).join.map (fun r => (i, [r.1], r.2)))))

/-- The folds before and through each lane, in increasing order, with the flags of the combines. -/
def scanFold (op : Nat) (flush : Bool) : List (Nat × W32) → Option (W32 × Flags) → List (Nat × Option (W32 × Flags) × (W32 × Flags))
  | [], _ => []
  | (i, x) :: rest, acc =>
    let here := match acc with
      | none => (x, 0)
      | some (a, f) => let r := redCombine op flush a x; (r.1, r.2 ||| f)
    (i, acc, here) :: scanFold op flush rest (some here)

/-- SCAN. -/
def execScan (d a : Opnd) (excl : Bool) (op : BitVec 4) (s : State) : Host.Outcome State Fault Refusal :=
  issue s { slots := [Slot.o d Kinds.vt 1 1, Slot.a a], fn := if op.toNat > 10 then some Causes.unassignedFn else none } (fun is =>
    let folds := scanFold op.toNat is.team.rec'.flush (is.lanes.map (fun i => (i, is.g.src (is.g.lane i) (redTy op.toNat) a 0))) none
    writeLanes s is d (folds.map (fun e =>
      let r := if excl then e.2.1.getD (redFirst op.toNat, 0) else e.2.2
      (e.1, [r.1], r.2))))

/-! ### Predicates (R139, R140) -/

/-- PSET. -/
def execPset (pd : BitVec 3) (cc : BitVec 5) (a b : Opnd) (s : State) : Host.Outcome State Fault Refusal :=
  let lane := cc = 2
  let sh : Shape :=
    { slots := if lane then [Slot.s a Kinds.vwt 2 2] else [Slot.a a, Slot.a b], reserved := lane && b ≠ .v 0,
      fn := if cc.toNat > 2 then some Causes.unassignedFn else none }
  issue s sh (fun is => writePreds s is pd (is.lanes.map (fun i =>
    let l := is.g.lane i
    let x := is.g.src l .int a 0 &&& is.g.src l .int b 0
    (i, if lane then (is.g.src64 l a).getLsbD i else if cc = 0 then x ≠ 0 else x = 0, 0))))

/-- PLOP: pd = lut[pa + 2·pb + 4·pc]. -/
def execPlop (pd pa pb pc : BitVec 3) (lut : BitVec 8) (s : State) : Host.Outcome State Fault Refusal :=
  issue s { slots := [] } (fun is => computePred s is pd (fun l =>
    (lut.getLsbD (b2n (l.pred pa.toNat) + 2 * b2n (l.pred pb.toNat) + 4 * b2n (l.pred pc.toNat)), 0)))

/-! ### Special registers (R37, R141) -/

/-- The words of a special register for lane `i`. Open points: DESIGN CHOICE (log 20). -/
def State.special (s : State) (is : Iss) (sel i : Nat) : List W32 :=
  let o (x : Nat) : List W32 := [BitVec.ofNat 32 x]
  let l := is.g.lane i
  match sel with
  | 0x0 => o Config.gw
  | 0x1 => o i
  | 0x2 => maskWords (maskOf is.active)
  | 0x3 => o is.g.groupId
  | 0x4 => o is.g.role
  | 0x5 => o is.team.id
  | 0x6 => o is.core.core
  | 0x7 => o (is.core.core / Config.coresPerCluster)
  | 0x8 => o is.core.die
  | 0x9 => o is.team.part
  | 0xA => [l.origin.team, BitVec.ofNat 32 (l.origin.lane + 256 * l.origin.group), lo32 l.origin.pc, hi32 l.origin.pc]
  | 0xB => let c : W64 := BitVec.ofNat 64 (s.clock is.core.die); [lo32 c, hi32 c]
  | 0xC => [l.fl.setWidth 32]
  | 0xD => [is.g.tagPend.setWidth 32]
  | _ => [is.g.batchNo]

/-- Registers that a selector needs. -/
def specialWidth (sel : Nat) : Nat := if sel = 0x2 || sel = 0xB then 2 else if sel = 0xA then 4 else 1

/-- SRD. -/
def execSrd (d : Opnd) (sel : BitVec 8) (s : State) : Host.Outcome State Fault Refusal :=
  let k := sel.toNat
  let n := specialWidth k
  let sh : Shape :=
    { slots := [Slot.o d Kinds.vwt n n], bad := opW d && (k = 0x1 || k = 0x2 || k = 0xA || k = 0xC),
      fn := if k > 0xE then some Causes.encoding else none }
  issue s sh (fun is =>
    if opW d then writeUniform s is d (s.special is k 0) [] 0
    else writeLanes s is d (is.lanes.map (fun i => (i, s.special is k i, 0))))

/-- SWR: FPFLAGS of each contributing lane = A[4:0]. -/
def execSwr (a : Opnd) (s : State) : Host.Outcome State Fault Refusal :=
  issue s { slots := [Slot.a a] } (fun is =>
    .go (s.putGroup is (is.g.updLanes is.lanes (fun _ l => { l with fl := (is.g.src l .int a 0).setWidth 5 }))))

/-! ### QDX and QDY (07 R167, R168) -/

/-- A difference across the quad: `bit` is the bit of the lane number that the axis steps, COARSE takes the first row or column. -/
def quadDiff (bit : Nat) (d a : Opnd) (fn : BitVec 8) (s : State) : Host.Outcome State Fault Refusal :=
  issue s { slots := [Slot.o d Kinds.vt 1 1, Slot.s a Kinds.vt 1 1], fn := if fn.toNat > 1 then some Causes.unassignedFn else none }
    (fun is => writeLanes s is d (is.lanes.map (fun i =>
      let low := if fn = 1 then i / 4 * 4 else i - i / bit % 2 * bit
      let m : ResMod := { ResMod.plain with flush := is.team.rec'.flush }
      let r := fpElem Fmt.fp32 fpSub (SignMods.of Modifier.none) m 0 (is.other a (low + bit)).toNat (is.other a low).toNat
      (i, [BitVec.ofNat 32 r.1], r.2))))

/-- QDX. -/
def execQdx (d a : Opnd) (fn : BitVec 8) (s : State) : Host.Outcome State Fault Refusal := quadDiff 1 d a fn s
/-- QDY. -/
def execQdy (d a : Opnd) (fn : BitVec 8) (s : State) : Host.Outcome State Fault Refusal := quadDiff 2 d a fn s

end Sys2Proof.Machine
end

