-- ==== Sys2Proof/Machine/Raster.lean ====
section
/-! DEFINITION. RAST: the triangle block, the walk token, exact coverage and the walk (07 R169 to R173). -/

namespace Sys2Proof.Machine

/-- A vertex coordinate in units of 2^-8, rounded to nearest even; none for NaN and out of range (R172). -/
def rastSnap (w : W32) : Option Int :=
  match Fmt.fp32.value w.toNat with
  | .fin neg n d =>
    let x := signedNum neg (roundInt .rne neg (n * 256) d 0).1
    if -(2 ^ 23) ≤ x && x < 2 ^ 23 then some x else none
  | _ => none

/-- A triangle with its coordinates snapped, and the limits of R170. -/
structure Tri where
  x0 : Int
  y0 : Int
  x1 : Int
  y1 : Int
  x2 : Int
  y2 : Int
  samp4 : Bool
  xmax : Nat
  ymax : Nat
deriving DecidableEq, Repr

/-- The fields of the triangle block that may be wrong (R170, R171). -/
def rastBad (hdr lim token : W32) : Bool :=
  hdr.getLsbD 3 || hdr.getLsbD 7 || bitsOf hdr 31 11 ≠ 0 || bitsOf hdr 10 9 = 3
  || bitsOf lim 15 0 = 0 || bitsOf lim 15 0 > 16384 || bitsOf lim 31 16 = 0 || bitsOf lim 31 16 > 16384
  || bitsOf token 30 28 ≠ 0 || (token.getLsbD 31 && token ≠ 0x80000000#32)

/-- edge(a, b, s) in units of 2^-16. -/
def edgeFn (ax ay bx by' sx sy : Int) : Int := (bx - ax) * (sy - ay) - (by' - ay) * (sx - ax)

/-- The three edge functions at a point. -/
def Tri.edges (t : Tri) (x y : Int) : Int × Int × Int :=
  (edgeFn t.x1 t.y1 t.x2 t.y2 x y, edgeFn t.x2 t.y2 t.x0 t.y0 x y, edgeFn t.x0 t.y0 t.x1 t.y1 x y)

/-- The area, which does not depend on the point. -/
def Tri.area (t : Tri) : Int :=
  let e := t.edges 0 0
  e.1 + e.2.1 + e.2.2

/-- Whether an edge of a direction takes the samples that lie on it. -/
def topLeft (sg dx dy : Int) : Bool := (sg * dy = 0 && sg * dx > 0) || sg * dy < 0

/-- The offset of a sample within its pixel, in units of 2^-8. -/
def sampleOffset (samp4 : Bool) (k : Nat) : Int × Int :=
  if !samp4 then (128, 128)
  else match k with | 0 => (96, 32) | 1 => (224, 96) | 2 => (32, 160) | _ => (160, 224)

/-- Whether a sample of a pixel is covered (R172). -/
def Tri.covers (t : Tri) (px py : Nat) (k : Nat) : Bool :=
  let o := sampleOffset t.samp4 k
  let e := t.edges (256 * px + o.1) (256 * py + o.2)
  let sg : Int := if t.area > 0 then 1 else -1
  let inside (v dx dy : Int) : Bool := sg * v > 0 || (v = 0 && topLeft sg dx dy)
  inside e.1 (t.x2 - t.x1) (t.y2 - t.y1) && inside e.2.1 (t.x0 - t.x2) (t.y0 - t.y2)
    && inside e.2.2 (t.x1 - t.x0) (t.y1 - t.y0) && px < t.xmax && py < t.ymax

/-- A candidate: quad column, quad row, sample. -/
structure Cand where
  qx : Nat
  qy : Nat
  k : Nat
deriving DecidableEq, Repr

/-- The candidates' range along an axis: first and last quad, none if empty (R172). -/
def quadRange (a b c : Int) (max' : Nat) : Option (Nat × Nat) :=
  let lo := min a (min b c) / 256
  let hi := min (max a (max b c) / 256) (max' - 1)
  if hi < 0 || lo > hi + 1 then none
  else
    let first := lo.toNat / 2
    let last := hi.toNat / 2
    if first > last then none else some (first, last)

/-- The first candidate at or after a place, in (QY, QX, S) order. Of a token with S not zero while SAMP4 = 0, which R171 does not
trap, the walk starts at the next quad. DESIGN CHOICE (log 43). -/
def Tri.from' (t : Tri) (c : Cand) : Option Cand :=
  match quadRange t.x0 t.x1 t.x2 t.xmax, quadRange t.y0 t.y1 t.y2 t.ymax with
  | some (x0, x1), some (y0, y1) =>
    let row (y : Nat) : Option Cand := if y > y1 then none else some { qx := x0, qy := max y y0, k := 0 }
    if c.qy < y0 then row y0
    else if c.qy > y1 then none
    else if c.qx < x0 then row c.qy
    else if c.qx > x1 then row (c.qy + 1)
    else if c.k = 0 || t.samp4 then some c
    else if c.qx < x1 then some { qx := c.qx + 1, qy := c.qy, k := 0 }
    else row (c.qy + 1)
  | _, _ => none

/-- The candidate after one. -/
def Tri.after (t : Tri) (c : Cand) : Option Cand :=
  if t.samp4 && c.k < 3 then t.from' { c with k := c.k + 1 } else t.from' { qx := c.qx + 1, qy := c.qy, k := 0 }

/-- A candidate is found when one of its four samples is covered. -/
def Tri.found (t : Tri) (c : Cand) : Bool :=
  [0, 1].any (fun dy => [0, 1].any (fun dx => t.covers (2 * c.qx + dx) (2 * c.qy + dy) c.k))

/-- The walk: open slots, candidates left to examine, the next candidate; gives the filled slots and where the walk stands (R173). -/
def Tri.walk (t : Tri) : Nat → List Nat → Option Cand → List (Nat × Cand) × Option Cand
  | 0, _, c => ([], c)
  | _ + 1, [], c => ([], c)
  | _ + 1, _ :: _, none => ([], none)
  | fuel + 1, slot :: slots, some c =>
    if t.found c then
      let r := Tri.walk t fuel slots (t.after c)
      ((slot, c) :: r.1, r.2)
    else Tri.walk t fuel (slot :: slots) (t.after c)

/-- A token's candidate, and a candidate's token (R171). -/
def tokenCand (w : W32) : Cand := { qx := bitsOf w 12 0, qy := bitsOf w 25 13, k := bitsOf w 27 26 }
def candToken : Option Cand → W32
  | none => 0x80000000#32
  | some c => BitVec.ofNat 32 (c.qx + c.qy * 2 ^ 13 + c.k * 2 ^ 26)

/-- An exact quotient of integers rounded to FP32. -/
def fp32Quot (n d : Int) : W32 :=
  BitVec.ofNat 32 (Fmt.fp32.round .rne (.fin (decide (n < 0) != decide (d < 0) && n ≠ 0) n.natAbs d.natAbs)).1

/-- The four words and the helper bit of a lane at column dx, row dy of a candidate's quad. -/
def Tri.laneValues (t : Tri) (c : Cand) (dx dy : Nat) : List W32 × Bool :=
  let px := 2 * c.qx + dx
  let py := 2 * c.qy + dy
  let o := sampleOffset t.samp4 c.k
  let x : Int := 256 * px + o.1
  let y : Int := 256 * py + o.2
  let e := t.edges x y
  ([fp32Quot x 256, fp32Quot y 256, fp32Quot e.2.1 t.area, fp32Quot e.2.2 t.area], !t.covers px py c.k)

/-- The triangle of a block, none if it is discarded (R172). -/
def Tri.ofBlock (ws : List W32) (hdr lim : W32) : Option Tri :=
  match ws.map rastSnap with
  | [some x0, some y0, some x1, some y1, some x2, some y2] =>
    let t : Tri := { x0 := x0, y0 := y0, x1 := x1, y1 := y1, x2 := x2, y2 := y2, samp4 := hdr.getLsbD 8,
                     xmax := bitsOf lim 15 0, ymax := bitsOf lim 31 16 }
    let cull := bitsOf hdr 10 9
    if t.area = 0 || (cull = 1 && t.area > 0) || (cull = 2 && t.area < 0) then none else some t
  | _ => none

/-- Lane results of RAST: words, live and helper bits; lanes of no filled slot get zeros. -/
def rastLane (t : Option Tri) (filled : List (Nat × Cand)) (i : Nat) : List W32 × Bool × Bool :=
  match t, kget (i / 4) filled with
  | some t, some c =>
    let v := t.laneValues c (i % 2) (i / 2 % 2)
    (v.1, true, v.2)
  | _, _ => ([0, 0, 0, 0], false, false)

/-- RAST (R169 to R173). Where HP and LP name one predicate, which of the two values it takes is a free choice. Where lanes
contribute and no quad is open the token stays as it is, even if no candidate remains. Open points: DESIGN CHOICE (log 5, log 43),
DEDUCED (log 25). -/
def execRast (d a b : Opnd) (s : State) : Host.Outcome State Fault Refusal :=
  let sh : Shape :=
    { slots := [Slot.o d Kinds.vOnly 4 4, Slot.s a Kinds.wOnly 8 8,
                { op := b, kinds := Kinds.wOnly, n := 1, al := 1, src := true, dst := true }],
      mixed := true, vector := true, bad := a = .w 0 }
  issue s sh (fun is =>
    if is.lanes.isEmpty then .go s
    else
      let ws := is.g.srcs Lane.blank .fp a 8
      let token := is.g.src Lane.blank .int b 0
      let hdr := (nth ws 6).getD 0
      let lim := (nth ws 7).getD 0
      if rastBad hdr lim token then Eff.trap s is Causes.rasterOperand
      else
        let t := Tri.ofBlock (ws.take 6) hdr lim
        let isOpen (k : Nat) : Bool := (upFrom (4 * k) 4).all (fun i => is.lanes.contains i)
        let slots := (upFrom 0 (Config.gw / 4)).filter isOpen
        let r := match t with
          | none => ([], none)
          | some t =>
            if token.getLsbD 31 then ([], none)
            else if slots.isEmpty then ([], some (tokenCand token))
            else t.walk 256 slots (t.from' (tokenCand token))
        let hp := bitsOf hdr 2 0
        let lp := bitsOf hdr 6 4
        let (s, first) := if hp = lp then s.choose 2 else (s, 0)
        let put (i : Nat) (l : Lane) : Lane :=
          let v := rastLane t r.1 i
          let l := l.put d v.1
          if first = 0 then (l.setPred lp v.2.1).setPred hp v.2.2 else (l.setPred hp v.2.2).setPred lp v.2.1
        .go (s.updGroup is.key (fun g => (g.updLanes is.lanes put).putW b [candToken r.2])))

end Sys2Proof.Machine
end

