-- ==== Sys2Proof/Machine/Special.lean ====
section
/-! DEFINITION. The special functions: special inputs, the values that the accuracy of R126 allows, and their issue (05 R125,
R126; 04 R96; log 9). -/

namespace Sys2Proof.Machine

/-! ### What R126 gives exactly -/

/-- The exact fraction of a finite pattern. -/
def fracOf (x : Nat) : Nat × Nat :=
  match Fmt.fp32.value x with
  | .fin _ n d => (n, d)
  | _ => (0, 1)

/-- Whether a positive fraction is a power of two, and its exponent. -/
def log2Exact (num den : Nat) : Option Int :=
  let e := floorLog2 num den
  let same : Bool := if e ≥ 0 then num == den * 2 ^ e.toNat else num * 2 ^ (-e).toNat == den
  if same then some e else none

/-- An integer as an FP32 pattern. -/
def fp32OfInt (x : Int) : Nat := (Fmt.fp32.round .rne (Val.ofInt x)).1

/-- The result and flags of RCP on its special inputs. -/
def rcpSpecial (neg : Bool) (num den : Nat) : Option (Nat × Flags) :=
  let sg := if neg then 2 ^ 31 else 0
  if num = 0 then some (sg + 0x7F800000, fDivZero)
  else if num * 2 ^ 128 ≤ den then some (sg + 0x7F800000, fOverflow ||| fInexact)
  else if den * 2 ^ 126 < num then some (sg, fUnderflow ||| fInexact)
  else none

/-- RSQ of a positive value is never special; SQRT of it is the correctly rounded root. -/
def sqrtRounded (num den : Nat) : Nat :=
  let n := num * den * 2 ^ 128
  let q := isqrt n
  let v : Val := if q * q = n then .fin false q (den * 2 ^ 64) else .fin false (2 * q + 1) (den * 2 ^ 65)
  (Fmt.fp32.round .rne v).1

/-- EXP2 where the table gives the result. -/
def exp2Special (neg : Bool) (num den : Nat) : Option (Nat × Flags) :=
  if num % den = 0 then
    let k : Int := signedNum neg (num / den)
    if k ≥ 128 then some (0x7F800000, fOverflow ||| fInexact)
    else if k ≤ -150 then some (0, fUnderflow ||| fInexact)
    else some ((Fmt.fp32.round .rne (Val.scaled false 1 k)).1, 0)
  else if !neg && num ≥ 128 * den then some (0x7F800000, fOverflow ||| fInexact)
  else if neg && num ≥ 150 * den then some (0, fUnderflow ||| fInexact)
  else none

/-- The limit 2^15·π of SIN and COS, compared as exact reals. -/
def trigInRange (num den : Nat) : Bool := (num : Int) * 2 ^ 64 ≤ (piIv 64).lo * 2 ^ 15 * den

/-- The special inputs of the table, by FN (R74): result and flags, none where the accuracy alone says what may be returned.
Open points: DESIGN CHOICE (log 9). -/
def sfuSpecial (fn : Nat) (x : Nat) : Option (Nat × Flags) :=
  let nan : Nat := 0x7FC00000
  let sg := x / 2 ^ 31 * 2 ^ 31
  match Fmt.fp32.value x with
  | .nan => some (nan, 0)
  | .inf neg =>
    some (match fn with
      | 0 => (sg, 0)
      | 1 => if neg then (nan, fInvalid) else (0, 0)
      | 2 => if neg then (nan, fInvalid) else (0x7F800000, 0)
      | 3 => if neg then (0, 0) else (0x7F800000, 0)
      | 4 => if neg then (nan, fInvalid) else (0x7F800000, 0)
      | 5 => (nan, fInvalid)
      | 6 => (nan, fInvalid)
      | _ => (sg + 0x3F800000, 0))
  | .fin neg num den =>
    match fn with
    | 0 => rcpSpecial neg num den
    | 1 => if num = 0 then some (sg + 0x7F800000, fDivZero) else if neg then some (nan, fInvalid) else none
    | 2 => if num = 0 then some (sg, 0) else if neg then some (nan, fInvalid) else some (sqrtRounded num den, 0)
    | 3 => exp2Special neg num den
    | 4 =>
      if num = 0 then some (0xFF800000, fDivZero)
      else if neg then some (nan, fInvalid)
      else (log2Exact num den).map (fun e => (fp32OfInt e, 0))
    | 5 => if num = 0 then some (x, 0) else if trigInRange num den then none else some (nan, fInvalid)
    | 6 => if num = 0 then some (0x3F800000, 0) else if trigInRange num den then none else some (nan, fInvalid)
    | _ => if num = 0 then some (x, 0) else if num ≥ 10 * den then some (sg + 0x3F800000, 0) else none

/-! ### What the accuracy allows -/

/-- The precision of the enclosures. -/
def sfuPrec : Nat := 256

/-- A pattern's exact value in units of 2^-sfuPrec; every finite FP32 value is a whole number of them. -/
def fp32At (y : Nat) : Option Int :=
  match Fmt.fp32.value y with
  | .fin neg n d => some (signedNum neg (n * 2 ^ sfuPrec / d))
  | _ => none

/-- An enclosure of the true result. -/
def sfuTrue (fn : Nat) (neg : Bool) (num den : Nat) : Iv :=
  let p := sfuPrec
  let unit : Int := 2 ^ p
  match fn with
  | 0 =>
    let q : Int := (den * 2 ^ p / num : Nat)
    let hi := if den * 2 ^ p % num = 0 then q else q + 1
    if neg then { lo := -hi, hi := -q } else { lo := q, hi := hi }
  | 1 =>
    let r := isqrt (num * den * 2 ^ (2 * p))
    let lo : Int := (den * 2 ^ (2 * p) / (r + 1) : Nat)
    let hi : Int := (den * 2 ^ (2 * p) / r + 1 : Nat)
    if r * r = num * den * 2 ^ (2 * p) && den * 2 ^ (2 * p) % r = 0 then { lo := hi - 1, hi := hi - 1 } else { lo := lo, hi := hi }
  | 3 =>
    let k := num / den
    let f := if neg then (den - num % den) else num % den
    let e : Int := if neg then -(k : Int) - 1 else k
    let ln2 := lnIv p 2 1
    let x := expIv p (ln2.lo.toNat * f / den) (ln2.hi.toNat * f / den + 1)
    if e ≥ 0 then { lo := (x.1 * 2 ^ e.toNat : Nat), hi := (x.2 * 2 ^ e.toNat : Nat) }
    else { lo := (x.1 / 2 ^ (-e).toNat : Nat), hi := (x.2 / 2 ^ (-e).toNat + 1 : Nat) }
  | 4 => log2Iv p num den
  | 5 => trigIv p false neg num den
  | 6 => trigIv p true neg num den
  | _ =>
    let a := num * 2 ^ (p + 1) / den
    let g := sigmoidIv p false a (a + 1)
    let lo := 2 * g.lo - unit
    let hi := 2 * g.hi - unit
    if neg then { lo := -hi, hi := -lo } else { lo := lo, hi := hi }

/-- ulp of the true result in units of 2^-sfuPrec (R96). -/
def ulpUnits (x : Iv) : Int :=
  let m := if x.lo ≥ 0 then x.hi.toNat else (-x.lo).toNat
  let e : Int := (Nat.log2 m : Int) - sfuPrec
  2 ^ ((if e < -126 then -126 else e) - 23 + sfuPrec).toNat

/-- Whether a value lies within a distance of the true result. -/
def Iv.near (x : Iv) (y d : Int) : Bool := x.lo - d ≤ y && y ≤ x.hi + d

/-- Whether the accuracy of a function allows a pattern as its result. Open points: DESIGN CHOICE (log 9). -/
def sfuAllows (fn : Nat) (x : Iv) (y : Nat) : Bool :=
  let one : Int := 2 ^ sfuPrec
  match fp32At y with
  | none => false
  | some v =>
    match fn with
    | 0 | 1 =>
      let dn := fp32At (Fmt.fp32.round .rdn (.fin (x.lo < 0) x.lo.natAbs (2 ^ sfuPrec))).1
      let up := fp32At (Fmt.fp32.round .rup (.fin (x.hi < 0) x.hi.natAbs (2 ^ sfuPrec))).1
      some v = dn || some v = up
    | 3 => x.near v (2 * ulpUnits x) && v > 0 && (x.hi > 2 ^ (sfuPrec - 126) || v < 2 ^ (sfuPrec - 126))
    | 4 => x.near v (2 * ulpUnits x)
    | 5 => x.near v (2 ^ (sfuPrec - 21)) && -one ≤ v && v ≤ one
    | 6 => x.near v (2 ^ (sfuPrec - 21)) && -one ≤ v && v ≤ one
    | _ => x.near v (2 ^ (sfuPrec - 22)) && -one ≤ v && v ≤ one

/-- A result that meets every accuracy: the true one rounded to nearest, its magnitude kept at most 1 where that is required.
Open points: DESIGN CHOICE (log 9). -/
def sfuNearest (fn : Nat) (x : Iv) : Nat :=
  let r := (Fmt.fp32.round .rne (ivPoint sfuPrec (2 * x.lo + 1))).1
  if fn = 3 && r = 0 then 1
  else if fn = 3 && x.hi ≤ 2 ^ (sfuPrec - 126) && r = 0x00800000 then 0x007FFFFF
  else if fn ≥ 5 && r % 2 ^ 31 > 0x3F800000 then r / 2 ^ 31 * 2 ^ 31 + 0x3F800000 else r

/-- A special function of an FP32 pattern (R126): the listed result, else any value that the accuracy allows, a fixed function of
the input's bits (log 9). Open points: DESIGN CHOICE (log 9). -/
def sfuResult (fn : Nat) (x : Nat) : Nat × Flags :=
  match sfuSpecial fn x with
  | some r => r
  | none =>
    match Fmt.fp32.value x with
    | .fin neg num den =>
      let t := sfuTrue fn neg num den
      let y := (Config.sfu fn (BitVec.ofNat 32 x)).toNat
      let under := fn = 3 && neg && num > 126 * den
      (if sfuAllows fn t y then y else sfuNearest fn t, if under then fUnderflow ||| fInexact else 0)
    | _ => (0x7FC00000, 0)

/-- With FLUSH the input and the result are flushed (R93, R125). -/
def sfuElem (fn : Nat) (flush : Bool) (x : Nat) : Nat × Flags :=
  Fmt.fp32.flushOut flush (sfuResult fn (Fmt.fp32.flushIn flush x))

/-! ### Issue (R125) -/

/-- The results of a special function in the lanes that act: lane, word, flags. -/
def Iss.sfuLanes (is : Iss) (sh : Shape) (fn : Nat) (a : Opnd) : List (Nat × W32 × BitVec 5) :=
  let m := is.run.pfx
  (is.accLanes sh).map (fun l =>
    let r := sfuElem fn is.team.rec'.flush (Fmt.fp32.signMod m.aa m.na (is.g.src l.2 .fp a 0).toNat)
    (l.1, BitVec.ofNat 32 r.1, r.2))

/-- The flags of a landing: of each lane, or of every active lane for a uniform one (R105). -/
def Iss.sfuFlags (is : Iss) (sh : Shape) (rs : List (Nat × W32 × BitVec 5)) : List (Nat × BitVec 5) :=
  if sh.uniform then
    match rs with
    | (_, _, f) :: _ => if f = 0 then [] else is.active.map (fun i => (i, f))
    | [] => []
  else raised rs

/-- Lane traps of a landing: flags that FPTRAP enables, not in a handler lane (R106, 14 R332). -/
def Iss.sfuCauses (is : Iss) (fs : List (Nat × BitVec 5)) : List (Nat × Cause) :=
  if is.g.handler.isSome then []
  else (fs.filter (fun e => e.2 &&& is.team.rec'.fptrap ≠ 0)).map (fun e => (e.1, Causes.fpFlag))

/-- A special function of a number FN: the result lands with its tag. Open points: DESIGN CHOICE (log 9). -/
def sfuOp (fn : Nat) (d a : Opnd) (tag : BitVec 4) (s : State) : Host.Outcome State Fault Refusal :=
  let sh : Shape := { slots := [Slot.o d Kinds.vwt 1 1, Slot.a a], hon := Honour.aOnly, long := true, tag := some tag }
  issue s sh (fun is =>
    let rs := is.sfuLanes sh fn a
    let fs := is.sfuFlags sh rs
    s.pendFlags is tag d 1 (.special fn) (rs.map (fun r => { lane := r.1, ea := 0, args := [], acc := .done [r.2.1] })) 0 fs
      (is.sfuCauses fs))

/-- RCP. -/
def execRcp (d a : Opnd) (tag : BitVec 4) (s : State) : Host.Outcome State Fault Refusal := sfuOp 0 d a tag s
/-- RSQ. -/
def execRsq (d a : Opnd) (tag : BitVec 4) (s : State) : Host.Outcome State Fault Refusal := sfuOp 1 d a tag s
/-- SQRT. -/
def execSqrt (d a : Opnd) (tag : BitVec 4) (s : State) : Host.Outcome State Fault Refusal := sfuOp 2 d a tag s
/-- EXP2. -/
def execExp2 (d a : Opnd) (tag : BitVec 4) (s : State) : Host.Outcome State Fault Refusal := sfuOp 3 d a tag s
/-- LOG2. -/
def execLog2 (d a : Opnd) (tag : BitVec 4) (s : State) : Host.Outcome State Fault Refusal := sfuOp 4 d a tag s
/-- SIN. -/
def execSin (d a : Opnd) (tag : BitVec 4) (s : State) : Host.Outcome State Fault Refusal := sfuOp 5 d a tag s
/-- COS. -/
def execCos (d a : Opnd) (tag : BitVec 4) (s : State) : Host.Outcome State Fault Refusal := sfuOp 6 d a tag s
/-- TANH. -/
def execTanh (d a : Opnd) (tag : BitVec 4) (s : State) : Host.Outcome State Fault Refusal := sfuOp 7 d a tag s

end Sys2Proof.Machine
end

