-- ==== Sys2Proof/Machine/Dispatch.lean ====
section
/-! DEFINITION. The dispatch of an instruction or step to its meaning, one arm per row of the opcode table. -/

namespace Sys2Proof.Machine

def exec (i : Instr) (s : State) : Host.Outcome State Fault Refusal :=
  match i with
  | .run len await => Sys2Proof.Machine.execRun len await s
  | .trail post => Sys2Proof.Machine.execTrail post s
  | .bra off => Sys2Proof.Machine.execBra off s
  | .brx a => Sys2Proof.Machine.execBrx a s
  | .call d off => Sys2Proof.Machine.execCall d off s
  | .ret a => Sys2Proof.Machine.execRet a s
  | .joine k => Sys2Proof.Machine.execJoine k s
  | .joinw k => Sys2Proof.Machine.execJoinw k s
  | .exit => Sys2Proof.Machine.execExit s
  | .nop => Sys2Proof.Machine.execNop s
  | .yield => Sys2Proof.Machine.execYield s
  | .trap n => Sys2Proof.Machine.execTrap n s
  | .brk n => Sys2Proof.Machine.execBrk n s
  | .mov d a => Sys2Proof.Machine.execMov d a s
  | .iadd d a b => Sys2Proof.Machine.execIadd d a b s
  | .isub d a b => Sys2Proof.Machine.execIsub d a b s
  | .imul d a b => Sys2Proof.Machine.execImul d a b s
  | .imulh d a b => Sys2Proof.Machine.execImulh d a b s
  | .imad d a b => Sys2Proof.Machine.execImad d a b s
  | .imin d a b => Sys2Proof.Machine.execImin d a b s
  | .imax d a b => Sys2Proof.Machine.execImax d a b s
  | .and d a b => Sys2Proof.Machine.execAnd d a b s
  | .or d a b => Sys2Proof.Machine.execOr d a b s
  | .xor d a b => Sys2Proof.Machine.execXor d a b s
  | .shl d a b => Sys2Proof.Machine.execShl d a b s
  | .shr d a b => Sys2Proof.Machine.execShr d a b s
  | .sar d a b => Sys2Proof.Machine.execSar d a b s
  | .rot d a b => Sys2Proof.Machine.execRot d a b s
  | .iabs d a => Sys2Proof.Machine.execIabs d a s
  | .not d a => Sys2Proof.Machine.execNot d a s
  | .popc d a => Sys2Proof.Machine.execPopc d a s
  | .clz d a => Sys2Proof.Machine.execClz d a s
  | .brev d a => Sys2Proof.Machine.execBrev d a s
  | .bfx d a b => Sys2Proof.Machine.execBfx d a b s
  | .bfi d a b => Sys2Proof.Machine.execBfi d a b s
  | .lea d a b => Sys2Proof.Machine.execLea d a b s
  | .icmp pd cc a b => Sys2Proof.Machine.execIcmp pd cc a b s
  | .isel d5 a b ps => Sys2Proof.Machine.execIsel d5 a b ps s
  | .movImm d imm => Sys2Proof.Machine.execMovImm d imm s
  | .movH d imm => Sys2Proof.Machine.execMovH d imm s
  | .iaddImm d imm => Sys2Proof.Machine.execIaddImm d imm s
  | .imulImm d imm => Sys2Proof.Machine.execImulImm d imm s
  | .andImm d imm => Sys2Proof.Machine.execAndImm d imm s
  | .orImm d imm => Sys2Proof.Machine.execOrImm d imm s
  | .xorImm d imm => Sys2Proof.Machine.execXorImm d imm s
  | .faddImm d imm => Sys2Proof.Machine.execFaddImm d imm s
  | .fmulImm d imm => Sys2Proof.Machine.execFmulImm d imm s
  | .fadd d a b => Sys2Proof.Machine.execFadd d a b s
  | .fsub d a b => Sys2Proof.Machine.execFsub d a b s
  | .fmul d a b => Sys2Proof.Machine.execFmul d a b s
  | .ffma d a b => Sys2Proof.Machine.execFfma d a b s
  | .fmin d a b => Sys2Proof.Machine.execFmin d a b s
  | .fmax d a b => Sys2Proof.Machine.execFmax d a b s
  | .fcmp pd cc a b => Sys2Proof.Machine.execFcmp pd cc a b s
  | .fsel d5 a b ps => Sys2Proof.Machine.execFsel d5 a b ps s
  | .frnd d a fn => Sys2Proof.Machine.execFrnd d a fn s
  | .fclass pd a b => Sys2Proof.Machine.execFclass pd a b s
  | .hadd2 d a b => Sys2Proof.Machine.execHadd2 d a b s
  | .hmul2 d a b => Sys2Proof.Machine.execHmul2 d a b s
  | .hfma2 d a b => Sys2Proof.Machine.execHfma2 d a b s
  | .bfma2 d a b => Sys2Proof.Machine.execBfma2 d a b s
  | .rcp d a tag => Sys2Proof.Machine.execRcp d a tag s
  | .rsq d a tag => Sys2Proof.Machine.execRsq d a tag s
  | .sqrt d a tag => Sys2Proof.Machine.execSqrt d a tag s
  | .exp2 d a tag => Sys2Proof.Machine.execExp2 d a tag s
  | .log2 d a tag => Sys2Proof.Machine.execLog2 d a tag s
  | .sin d a tag => Sys2Proof.Machine.execSin d a tag s
  | .cos d a tag => Sys2Proof.Machine.execCos d a tag s
  | .tanh d a tag => Sys2Proof.Machine.execTanh d a tag s
  | .cvt d a fn => Sys2Proof.Machine.execCvt d a fn s
  | .cvtef d a fn => Sys2Proof.Machine.execCvtef d a fn s
  | .pack d a b => Sys2Proof.Machine.execPack d a b s
  | .unpack d a width sgn idx => Sys2Proof.Machine.execUnpack d a width sgn idx s
  | .shfl d a fn c rel wrap seg imm => Sys2Proof.Machine.execShfl d a fn c rel wrap seg imm s
  | .bcast d a b => Sys2Proof.Machine.execBcast d a b s
  | .vote d mode neg k => Sys2Proof.Machine.execVote d mode neg k s
  | .redl d a seg op => Sys2Proof.Machine.execRedl d a seg op s
  | .scan d a excl op => Sys2Proof.Machine.execScan d a excl op s
  | .match d a => Sys2Proof.Machine.execMatch d a s
  | .qdx d a fn => Sys2Proof.Machine.execQdx d a fn s
  | .qdy d a fn => Sys2Proof.Machine.execQdy d a fn s
  | .pset pd cc a b => Sys2Proof.Machine.execPset pd cc a b s
  | .plop pd pa pb pc lut => Sys2Proof.Machine.execPlop pd pa pb pc lut s
  | .srd d sel => Sys2Proof.Machine.execSrd d sel s
  | .swr a => Sys2Proof.Machine.execSwr a s
  | .mov16 d x => Sys2Proof.Machine.execMov16 d x s
  | .iadd16 d x => Sys2Proof.Machine.execIadd16 d x s
  | .isub16 d x => Sys2Proof.Machine.execIsub16 d x s
  | .imul16 d x => Sys2Proof.Machine.execImul16 d x s
  | .and16 d x => Sys2Proof.Machine.execAnd16 d x s
  | .or16 d x => Sys2Proof.Machine.execOr16 d x s
  | .xor16 d x => Sys2Proof.Machine.execXor16 d x s
  | .shl16 d x => Sys2Proof.Machine.execShl16 d x s
  | .shr16 d x => Sys2Proof.Machine.execShr16 d x s
  | .sar16 d x => Sys2Proof.Machine.execSar16 d x s
  | .fadd16 d x => Sys2Proof.Machine.execFadd16 d x s
  | .fsub16 d x => Sys2Proof.Machine.execFsub16 d x s
  | .fmul16 d x => Sys2Proof.Machine.execFmul16 d x s
  | .fmin16 d x => Sys2Proof.Machine.execFmin16 d x s
  | .fmax16 d x => Sys2Proof.Machine.execFmax16 d x s
  | .ffma16 d x => Sys2Proof.Machine.execFfma16 d x s
  | .ld d a sz tag => Sys2Proof.Machine.execLd d a sz tag s
  | .ldExtended d a sz tag x => Sys2Proof.Machine.execLdExtended d a sz tag x s
  | .st d a sz => Sys2Proof.Machine.execSt d a sz s
  | .stExtended d a sz x => Sys2Proof.Machine.execStExtended d a sz x s
  | .lds d a sz o tag => Sys2Proof.Machine.execLds d a sz o tag s
  | .ldsExtended d a sz o tag x => Sys2Proof.Machine.execLdsExtended d a sz o tag x s
  | .sts d a sz o => Sys2Proof.Machine.execSts d a sz o s
  | .stsExtended d a sz o x => Sys2Proof.Machine.execStsExtended d a sz o x s
  | .pref a => Sys2Proof.Machine.execPref a s
  | .prefExtended a x => Sys2Proof.Machine.execPrefExtended a x s
  | .atom d a fn tag x => Sys2Proof.Machine.execAtom d a fn tag x s
  | .red a fn x => Sys2Proof.Machine.execRed a fn x s
  | .cas d a tag x => Sys2Proof.Machine.execCas d a tag x s
  | .fence scope => Sys2Proof.Machine.execFence scope s
  | .storeQueueLeave g => Sys2Proof.Machine.execStoreQueueLeave g s
  | .l1LineExpiry c idx => Sys2Proof.Machine.execL1LineExpiry c idx s
  | .binit a b => Sys2Proof.Machine.execBinit a b s
  | .barr a b => Sys2Proof.Machine.execBarr a b s
  | .bexp a b => Sys2Proof.Machine.execBexp a b s
  | .wait a => Sys2Proof.Machine.execWait a s
  | .waitY d off => Sys2Proof.Machine.execWaitY d off s
  | .bseal => Sys2Proof.Machine.execBseal s
  | .bwait a => Sys2Proof.Machine.execBwait a s
  | .batchComplete g => Sys2Proof.Machine.execBatchComplete g s
  | .cpt d a b => Sys2Proof.Machine.execCpt d a b s
  | .cpb d a b => Sys2Proof.Machine.execCpb d a b s
  | .cps d a b => Sys2Proof.Machine.execCps d a b s
  | .shuttleCopy c => Sys2Proof.Machine.execShuttleCopy c s
  | .gwin a b => Sys2Proof.Machine.execGwin a b s
  | .gwinDescriptorWrite c => Sys2Proof.Machine.execGwinDescriptorWrite c s
  | .coll a b => Sys2Proof.Machine.execColl a b s
  | .collectiveComplete part set cid => Sys2Proof.Machine.execCollectiveComplete part set cid s
  | .launch pd a b => Sys2Proof.Machine.execLaunch pd a b s
  | .mma mt o fmt d a => Sys2Proof.Machine.execMma mt o fmt d a s
  | .mmas mt o fmt d a pat c => Sys2Proof.Machine.execMmas mt o fmt d a pat c s
  | .accld mt o fmt a => Sys2Proof.Machine.execAccld mt o fmt a s
  | .accst mt o fmt a => Sys2Proof.Machine.execAccst mt o fmt a s
  | .mzero mt => Sys2Proof.Machine.execMzero mt s
  | .arrayOperation c => Sys2Proof.Machine.execArrayOperation c s
  | .trq d a b => Sys2Proof.Machine.execTrq d a b s
  | .trqTranspose c => Sys2Proof.Machine.execTrqTranspose c s
  | .rast d a b => Sys2Proof.Machine.execRast d a b s
  | .tex d a tag c nofb bias => Sys2Proof.Machine.execTex d a tag c nofb bias s
  | .texl d a tag c nofb bias => Sys2Proof.Machine.execTexl d a tag c nofb bias s
  | .texg d a tag c nofb bias => Sys2Proof.Machine.execTexg d a tag c nofb bias s
  | .rayt d a tag cullb cullf c mask => Sys2Proof.Machine.execRayt d a tag cullb cullf c mask s
  | .rayq d a tag cullb cullf c mask => Sys2Proof.Machine.execRayq d a tag cullb cullf c mask s
  | .tagLanding g idx => Sys2Proof.Machine.execTagLanding g idx s
  | .ncall d a tag c nin nout => Sys2Proof.Machine.execNcall d a tag c nin nout s
  | .ncallBinTimeout c idx => Sys2Proof.Machine.execNcallBinTimeout c idx s
  | .bobbinFetch c idx => Sys2Proof.Machine.execBobbinFetch c idx s
  | .heddleTile c idx => Sys2Proof.Machine.execHeddleTile c idx s
  | .npin a => Sys2Proof.Machine.execNpin a s
  | .npref a => Sys2Proof.Machine.execNpref a s
  | .nevict a => Sys2Proof.Machine.execNevict a s
  | .reorder a b => Sys2Proof.Machine.execReorder a b s
  | .reorderSiteComplete team site => Sys2Proof.Machine.execReorderSiteComplete team site s
  | .ltrap n => Sys2Proof.Machine.execLtrap n s
  | .trapBinTimeout c idx => Sys2Proof.Machine.execTrapBinTimeout c idx s
  | .handlerGroupStart c idx => Sys2Proof.Machine.execHandlerGroupStart c idx s
  | .tret a => Sys2Proof.Machine.execTret a s
  | .present a b => Sys2Proof.Machine.execPresent a b s
  | .svc n k => Sys2Proof.Machine.execSvc n k s
  | .sysrd d a fn => Sys2Proof.Machine.execSysrd d a fn s
  | .syswr d a fn => Sys2Proof.Machine.execSyswr d a fn s
  | .tlbinv a b => Sys2Proof.Machine.execTlbinv a b s
  | .tlbinvComplete g => Sys2Proof.Machine.execTlbinvComplete g s
  | .keysel a b => Sys2Proof.Machine.execKeysel a b s
  | .partctl d a b => Sys2Proof.Machine.execPartctl d a b s
  | .clusterGrow part => Sys2Proof.Machine.execClusterGrow part s
  | .clusterShrink part => Sys2Proof.Machine.execClusterShrink part s
  | .granuleReassign second granule owner => Sys2Proof.Machine.execGranuleReassign second granule owner s
  | .handleSeal h => Sys2Proof.Machine.execHandleSeal h s
  | .boot => Sys2Proof.Machine.execBoot s
  | .powerWindow milliwatts die part => Sys2Proof.Machine.execPowerWindow milliwatts die part s
  | .thermalThrottle die => Sys2Proof.Machine.execThermalThrottle die s
  | .thermalPowerOff die => Sys2Proof.Machine.execThermalPowerOff die s
  | .submit p q record => Sys2Proof.Machine.execSubmit p q record s
  | .launchEligible part q => Sys2Proof.Machine.execLaunchEligible part q s
  | .teamPlace part => Sys2Proof.Machine.execTeamPlace part s
  | .transformBinding team => Sys2Proof.Machine.execTransformBinding team s
  | .groupEvict g => Sys2Proof.Machine.execGroupEvict g s
  | .groupResume part => Sys2Proof.Machine.execGroupResume part s
  | .splitPromotion g slot => Sys2Proof.Machine.execSplitPromotion g slot s
  | .launchComplete part q => Sys2Proof.Machine.execLaunchComplete part q s
  | .watchdogExpiry part q => Sys2Proof.Machine.execWatchdogExpiry part q s
  | .killComplete part q => Sys2Proof.Machine.execKillComplete part q s
  | .graceExpiry part q => Sys2Proof.Machine.execGraceExpiry part q s
  | .partitionReset part => Sys2Proof.Machine.execPartitionReset part s
  | .fatalDump part => Sys2Proof.Machine.execFatalDump part s
  | .groupStopRecord g => Sys2Proof.Machine.execGroupStopRecord g s
  | .tqrdWrite part value => Sys2Proof.Machine.execTqrdWrite part value s
  | .teamActionEnd part => Sys2Proof.Machine.execTeamActionEnd part s
  | .teamActionResume part => Sys2Proof.Machine.execTeamActionResume part s
  | .teamActionReplay part => Sys2Proof.Machine.execTeamActionReplay part s
  | .coreRetire c => Sys2Proof.Machine.execCoreRetire c s
  | .sliceRetire die slice unreadable => Sys2Proof.Machine.execSliceRetire die slice unreadable s
  | .controlWrite part space offset value => Sys2Proof.Machine.execControlWrite part space offset value s
  | .queueEnable part q => Sys2Proof.Machine.execQueueEnable part q s
  | .queueDisable part q => Sys2Proof.Machine.execQueueDisable part q s
  | .bobChange c => Sys2Proof.Machine.execBobChange c s
  | .headEnable part h => Sys2Proof.Machine.execHeadEnable part h s
  | .headDisable part h => Sys2Proof.Machine.execHeadDisable part h s
  | .rasterLine part h => Sys2Proof.Machine.execRasterLine part h s
  | .surfaceLatch part h => Sys2Proof.Machine.execSurfaceLatch part h s
  | .bandJob part h band => Sys2Proof.Machine.execBandJob part h band s
  | .bandDeadline part h => Sys2Proof.Machine.execBandDeadline part h s
  | .motionEstimation part h => Sys2Proof.Machine.execMotionEstimation part h s
  | .surfaceRelease part h => Sys2Proof.Machine.execSurfaceRelease part h s
  | .reportWord part h => Sys2Proof.Machine.execReportWord part h s
  | .streamEnable part h => Sys2Proof.Machine.execStreamEnable part h s
  | .encodeRow part h => Sys2Proof.Machine.execEncodeRow part h s
  | .sessionOpen id kind part signedOk => Sys2Proof.Machine.execSessionOpen id kind part signedOk s
  | .retransmitTimeout session seq => Sys2Proof.Machine.execRetransmitTimeout session seq s
  | .write p addr key bytes => Sys2Proof.Machine.execWrite p addr key bytes s
  | .read p addr len => Sys2Proof.Machine.execRead p addr len s
  | .ctlwr p space offset value => Sys2Proof.Machine.execCtlwr p space offset value s
  | .ctlrd p space offset => Sys2Proof.Machine.execCtlrd p space offset s
  | .attest p nonce => Sys2Proof.Machine.execAttest p nonce s
  | .pwrite p addr bytes => Sys2Proof.Machine.execPwrite p addr bytes s
  | .pread p addr len => Sys2Proof.Machine.execPread p addr len s
  | .pload p id addr len => Sys2Proof.Machine.execPload p id addr len s
  | .pstore p id addr bytes => Sys2Proof.Machine.execPstore p id addr bytes s
  | .patom p id addr fn w64 op opnd cmp => Sys2Proof.Machine.execPatom p id addr fn w64 op opnd cmp s
  | .presp p id answer => Sys2Proof.Machine.execPresp p id answer s
  | .cell p set cid rank way head cells => Sys2Proof.Machine.execCell p set cid rank way head cells s
  | .kill p set cid => Sys2Proof.Machine.execKill p set cid s
  | .unassignedMajorOpcode cause => Sys2Proof.Machine.execUnassignedMajorOpcode cause s
  | .misplacedPrefix => Sys2Proof.Machine.execMisplacedPrefix s
  | .powerOff => Sys2Proof.Machine.execPowerOff s
  | .partitionCreate part modno kdie l2sh clusters => Sys2Proof.Machine.execPartitionCreate part modno kdie l2sh clusters s
  | .partitionDestroy part => Sys2Proof.Machine.execPartitionDestroy part s
  | .resourceAssign part r => Sys2Proof.Machine.execResourceAssign part r s
  | .signedFirmwareImage slot img => Sys2Proof.Machine.execSignedFirmwareImage slot img s

end Sys2Proof.Machine
end

