-- ==== Sys2Proof/Machine/Moves.lean ====
section
/-! DEFINITION. Moves of agents that are no instruction: clocks, homes, caches (log 2, 7), the events that may happen by
themselves, and the placing of an instruction where the next step fetches it (log 6). -/

namespace Sys2Proof.Machine

/-! ### Clocks (01 R7, R8; 11 R257; 18 R398, R404) -/

/-- L1 lines of a die that are due are dropped. -/
def State.expireL1 (s : State) (d : Nat) : State :=
  { s with cores := s.cores.map (fun c =>
      (c.1, if c.1.die = d then { c.2 with l1 := c.2.l1.filter (fun l => s.clock d < l.filled + Config.ageLimit) } else c.2)) }

/-- Teams of a die whose stop has had 8 core clocks to reach every group. -/
def State.reachDue (s : State) (d : Nat) : State :=
  let due (t : Team) : Bool :=
    match t.core, t.stop with
    | some c, some (_, _, n) => c.die = d && s.clock d ≥ n + Config.stopReach
    | _, _ => false
  (s.teams.filter due).foldl (fun s t => s.stopReach t.key) s

/-- Core clocks pass on a die. Open points: DESIGN CHOICE (log 7). -/
def State.tick (s : State) (d n : Nat) : State :=
  let s := (s.noteDie d).updDie d (fun x => { x with cycles := x.cycles + n })
  (s.expireL1 d).reachDue d

/-- The watchdog of a queue counts clocks while its next launch to complete is eligible and its partition is not frozen. -/
def State.watch (s : State) (p : Part) (n : Nat) (x : Queue) : Queue :=
  let counts : Bool := !p.frozen.isSome && (match s.queueLaunches x with | l :: _ => l.stage = .eligible | [] => false)
  if counts then { x with watch := x.watch + n } else x

/-- Queue clocks pass on a queue engine, and so for all its queues (01 R19; 13 R290). Open points: DESIGN CHOICE (log 7). -/
def State.engineTick (s : State) (e n : Nat) : State :=
  { s with engines := kput e ((kget e s.engines).getD 0 + n) s.engines,
           parts := s.parts.map (fun p => { p with queues := updWhere (fun x => x.phys / 16 = e) (s.watch p n) p.queues }) }

/-- When nothing else can happen, a core clock passes on the die in focus. -/
def State.idle (s : State) : State := if s.power then s.tick s.focus.die 1 else s

/-! ### Other moves -/

/-- A store on its way is performed, with the core's earlier ones to its line; it may overtake the others (11 R259, R263). -/
def State.landAt (s : State) (c : CoreKey) (i : Nat) : State :=
  match nth (s.core c).flights i with
  | some f => s.flush c (fun x => x == f && f.line.isSome)
  | none => s

/-- A plain load of a core is performed ahead of the loads before it: its line enters L1, where the load finds it (11 R256, R258). Open
points: DESIGN CHOICE (log 45). -/
def State.loadAhead (s : State) (c : CoreKey) (part va : Nat) : State :=
  match s.access (.lane c) part .rd va with
  | (s', .ok (.mem key home owner _)) => if s.lineTag (key / 128) = owner then (s'.l1Read c key 1 owner home none).1 else s
  | _ => s

/-- An entry leaves a TLB. -/
def State.dropTlb (s : State) (d : Nat) (core : Option Nat) (i : Nat) : State :=
  match core with
  | none => s.updDie d (fun x => { x with tlb := dropNth x.tlb i })
  | some c => s.updCore { die := d, core := c } (fun x =>
      if i < x.tlb.length then { x with tlb := dropNth x.tlb i } else { x with ahead := dropNth x.ahead (i - x.tlb.length) })

/-- Whether a partition may read the granule of a key. -/
def State.readsGranule (s : State) (part key : Nat) : Bool :=
  match s.ownerOf key with
  | .part p => p = part
  | .handle h => s.handles.any (fun x => x.id = h && x.granted.contains part)
  | .none => false

/-- A read of a line that is not in L2 meets an uncorrectable error; the partition is told (18 R403). -/
def State.failLine (s : State) (part line : Nat) (owner : Owner) (home : Nat) : State :=
  if (s.l2Line line).isSome then s
  else
    (s.spoilLine line owner home).emit part { cause := Causes.uncorrectable, kind := kNotice, va := linePa line } none none

/-- What a core's lanes, or the hub, would read at an address, where it is this module's memory: its key, home and owner tag; a second-tier
line is homed on the die that its page entry names (01 R22; 09 R211). -/
def State.readable (s : State) (core : Option CoreKey) (part va : Nat) : Option (Nat × Nat × Owner) :=
  match (s.access (match core with | some c => .lane c | none => .hub) part .rd va).2 with
  | .ok (.mem key home owner _) => if s.lineTag (key / 128) = owner then some (key, home, owner) else none
  | _ => none

/-- A read through a page meets an uncorrectable error. -/
def State.uncorrectable (s : State) (core : Option CoreKey) (part va : Nat) : State :=
  match s.readable core part va with
  | some (key, home, owner) => s.failLine part (key / 128) owner home
  | none => s

/-- A read of first-tier memory by its physical address meets an uncorrectable error: a table walk, or a host's read (17 R386). -/
def State.uncorrectablePhys (s : State) (part key : Nat) : State :=
  if key < tier2 && s.readsGranule part key then s.failLine part (key / 128) (s.ownerOf key) (key / 2 ^ 35) else s

/-- A read miss brings its line into L2 (09 R204; 17 R366). -/
def State.fillL2 (s : State) (core : Option CoreKey) (part va : Nat) : State :=
  match s.readable core part va with
  | some (key, home, owner) => s.fetchLine (key / 128) owner home
  | none => s

/-- A move that is no instruction; without power nothing moves (01 R28). Open points: DESIGN CHOICE (log 2). -/
def State.move (s : State) (m : Move) : State :=
  if !s.power then s
  else
  match m with
  | .issue _ => s
  | .event _ => s
  | .tick d n => s.tick d n
  | .engineTick e n => s.engineTick e n
  | .perform k i =>
    (match (s.group? k).bind (fun g => nth g.pend i) with
     | some o => s.performFor k o
     | none => s)
  | .landLane k i lane => s.landLane k i lane
  | .homeWrite c i => s.landAt c i
  | .tileCell c cell => s.tileCell c cell
  | .runAhead c i page => s.runAhead c i page
  | .loadAhead c part va => s.loadAhead c part va
  | .dropL1 c line => s.dropL1Line c line
  | .evictL2 line => s.evictLine line
  | .dropTlb d core i => s.dropTlb d core i
  | .dropReplica i => { s with replicas := dropNth s.replicas i }
  | .fillL2 core part va => s.fillL2 core part va
  | .uncorrectable core part va => s.uncorrectable core part va
  | .uncorrectablePhys part key => s.uncorrectablePhys part key
  | .stopReach team => if ((s.team? team).bind (fun t => t.stop)).isSome then s.stopReach team else s
  | .bandWork part h b => s.bandWork part h b

/-! ### Events (log 2) -/

/-- Numbers below a list's length. -/
def below {α : Type} (l : List α) : List Nat := upFrom 0 l.length

/-- Events of a group. -/
def groupEvents (t : Team) (g : Group) : List Instr :=
  let k : GroupKey := { team := t.key, idx := g.idx }
  (below g.pend).map (fun i => .tagLanding k i) ++ [.storeQueueLeave k, .batchComplete k, .groupEvict k, .groupStopRecord k, .tlbinvComplete k]

/-- Events of a team. -/
def teamEvents (t : Team) : List Instr :=
  [.transformBinding t.key] ++ t.groups.flatMap (groupEvents t)
    ++ t.groups.filterMap (fun g => g.held.map (fun h => .reorderSiteComplete t.key h.site))

/-- Events of a core and of a cluster. -/
def coreEvents (c : CoreKey) : List Instr := [.shuttleCopy c, .gwinDescriptorWrite c, .trqTranspose c, .arrayOperation c, .bobChange c]

def clusterEvents (c : ClusterKey) (x : Cluster) : List Instr :=
  (below x.bins).map (fun i => .ncallBinTimeout c i) ++ (upFrom 0 (x.tiles.length + x.hints.length + 1)).flatMap (fun i => [.bobbinFetch c i, .heddleTile c i])
    ++ (below x.traps).flatMap (fun i => [.trapBinTimeout c i, .handlerGroupStart c i])

/-- Events of a partition: its queues and its distributor; then its heads and streams, but for the raster, which has its own clock. -/
def partEvents (p : Part) : List Instr :=
  p.queues.flatMap (fun q => [.watchdogExpiry p.id q.id, .graceExpiry p.id q.id, .killComplete p.id q.id, .launchComplete p.id q.id,
                              .launchEligible p.id q.id])
    ++ [.groupResume p.id, .teamPlace p.id, .clusterGrow p.id, .clusterShrink p.id]

def headEvents (p : Part) : List Instr :=
  p.heads.flatMap (fun h => [.surfaceLatch p.id h.id, .bandDeadline p.id h.id] ++ (below h.bands).map (fun b => .bandJob p.id h.id b)
    ++ [.motionEstimation p.id h.id, .reportWord p.id h.id, .surfaceRelease p.id h.id, .encodeRow p.id h.id])

/-- Ready splits that have waited for promotion. -/
def promotions (t : Team) (g : Group) : List Instr :=
  (g.splits.filter (fun x => x.ready.isSome && !x.promoted)).map (fun x => .splitPromotion { team := t.key, idx := g.idx } x.slot)

/-- The events that may happen, in the order in which the model lets them when its agenda names none (log 2). Open points: DESIGN CHOICE (log 2). -/
def State.candidates (s : State) : List Instr :=
  if !s.booted then []
  else
    s.parts.map (fun p => .partitionReset p.id) ++ s.teams.flatMap teamEvents ++ s.cores.flatMap (fun c => coreEvents c.1)
      ++ s.clusters.flatMap (fun c => clusterEvents c.1 c.2)
      ++ s.colls.map (fun c => .collectiveComplete c.part c.set c.cid) ++ s.parts.flatMap partEvents ++ s.parts.flatMap headEvents
      ++ s.teams.flatMap (fun t => t.groups.flatMap (promotions t)) ++ s.parts.map (fun p => .fatalDump p.id)

/-! ### Placing an instruction (log 6) -/

/-- The address at which `placeWord` puts its instruction. -/
def placedAt : Addr := 0x200004

/-- The launch record of the placed team: one group of 192 registers, 8 tiles, 4 KiB of scratchpad, no lane traps. -/
def placedRec : LaunchRec :=
  { prio := 0, coop := false, overlap := false, compat := false, flush := false, fptrap := 0, gx := 1, gy := 1, gz := 1,
    tiles := 8, scratch := 3840, arg := 0, roles := [{ pc := 0x200000, ngroups := 1, budget := 192 }], deps := [], binds := [],
    tvec := 0, tbudget := 0 }

/-- `s` with a team placed on the quarter in focus, in a run whose next instruction is the given code, code that begins with
RUN or TRAIL standing where its kind belongs. Open points: PRESUMED (log 6). -/
def State.placeWord (s : State) (hs : List Half) : State :=
  let bytes := hs.flatMap (fun h => bytesOf 2 h.toNat)
  let low := ofBytes (bytes.take 1)
  let c : CoreKey := { die := s.focus.die, core := s.focus.core }
  let part := 0
  let key := 2 ^ 35 * s.focus.die
  let pc := placedAt
  let before := Run.before 0 (if low = 3 then pc else 0x200000)
  let run : Run := { before with next := pc, opened := low ≠ 3, left := if low = 3 || low = 5 then 0 else 1 }
  let serial := s.serial
  let at' : Addr := if low = 3 then pc else 0x200000
  let g := (Group.start 0 0 0 192 s.focus.quarter (startLanes 0 0 at') []).openSplit 0 at' (upFrom 0 Config.gw)
  let t : Team :=
    { key := serial, part := part, queue := 0, launch := serial, id := 0, sup := true, rec' := placedRec, core := some c,
      squares := [0], scratch := counters, tiles := [], beam := [], slog := [], blog := [], bob := 0, bindings := [], bindPos := 0, bindParked := none,
      bindBuf := { got := [], asked := none }, groups := [{ g with run := some run }], stop := none, ended := false, sites := [],
      placed := 0 }
  let leaf : Pte :=
    { frame := key / 4096, home := 0, fpol := 3, key := 0, kind := 1, span := false, repl := false, x := true, w := true, rd := true }
  let e : TlbEntry := { part := part, va := 0x200000, size := 2 ^ 21, pte := leaf }
  let s := (s.updCore c (fun x => { x with tlb := e :: x.tlb })).updDie c.die (fun d => { d with inService := true })
  { s with agenda := [], teams := t :: s.teams, serial := serial + 1,
           owners1 := assocPut (key / Config.granule1) (some (.part part)) s.owners1,
           mem := s.mem.writeList (key + 4) bytes }

end Sys2Proof.Machine
end

