-- ==== Sys2Proof/Machine/Step.lean ====
section
/-! DEFINITION. One step of the machine: the next move of the agenda, else the quarter in focus issues, else the first engine
with something to do acts, else time passes (log 2). -/

namespace Sys2Proof.Machine

/-- Run what the fetch found. -/
def runFound (is : Iss) (s : State) (f : Found) : Host.Outcome State Fault Refusal :=
  match f with
  | .stop c pc => .next (s.teamStop is.key (StopCause.at c pc))
  | .instr i pfx next => exec i (s.atInstr is pfx next)

/-- The issuer fetches and executes. -/
def issueNext (s : State) (is : Iss) : Host.Outcome State Fault Refusal :=
  match s.fetchNext is with
  | (s, r) => s.afterFetch is is.run.next r (runFound is)

/-- The quarter in focus issues: its run goes on, or the scheduler chooses a split; none if there is nothing to issue. -/
def issueFocus (s : State) : Option (Host.Outcome State Fault Refusal) :=
  match s.issuer with
  | some is => some (issueNext s is)
  | none =>
    let c : CoreKey := { die := s.focus.die, core := s.focus.core }
    let s := s.noteReady c s.focus.quarter
    match s.pick c s.focus.quarter with
    | none => none
    | some (k, x) =>
      let s := s.take k x
      match s.issuer with
      | some is => some (issueNext s is)
      | none => none

/-- The first event of a list that changes the state. -/
def firstEvent : List Instr → State → Host.Outcome State Fault Refusal
  | [], s => .next s.idle
  | i :: is, s =>
    match exec i s with
    | .next s' => if s' = s then firstEvent is s else .next s'
    | .fault f => .fault f
    | .refused r => .refused r

/-- A move of the agenda. Open points: DESIGN CHOICE (log 2). -/
def stepMove (m : Move) (s : State) : Host.Outcome State Fault Refusal :=
  match m with
  | .issue q => (issueFocus { s with focus := q }).getD (.next { s with focus := q })
  | .event i => exec i s
  | m => .next (s.move m)

/-- Whether a structural stall holds the run on the quarter in focus. -/
def State.stalledFocus (s : State) : Bool := match s.issuer with | some is => is.run.stalled | none => false

/-- When the agenda is empty, the quarter in focus issues; if it has nothing to issue, or is stalled and stays so, an event happens.
Open points: DESIGN CHOICE (log 2). -/
def stepFree (s : State) : Host.Outcome State Fault Refusal :=
  match issueFocus s with
  | some (.next s') => if s.stalledFocus && { s' with fresh := s.fresh } = s then firstEvent s.candidates s else .next s'
  | some r => r
  | none => firstEvent s.candidates s

/-- One step. Open points: DESIGN CHOICE (log 2). -/
def step (s : State) : Host.Outcome State Fault Refusal :=
  match s.agenda with
  | m :: ms => stepMove m { s with agenda := ms }
  | [] => stepFree s

/-- `s` with the instruction of `nbits` bits `w`, zeros above, as what the next step fetches and runs. Open points: PRESUMED (log 6). -/
def State.withFetchWord (s : State) (nbits w : Nat) : State := s.placeWord (halvesOfNat 24 (w % 2 ^ nbits))

end Sys2Proof.Machine
end

