-- ==== Sys2Proof/Safety.lean ====
section
/-! DEFINITION. What a safe step and a safe run are: no fault and no refusal. -/

namespace Sys2Proof

/-- An outcome that is a next state. -/
def Safe {σ φ ρ : Type} (o : Host.Outcome σ φ ρ) : Prop := ∃ s, o = .next s

/-- Every one of the first `n` steps from a state gives a next state. -/
def SafeRun : Nat → Machine.State → Prop
  | 0, _ => True
  | n + 1, s => ∃ s', Machine.step s = .next s' ∧ SafeRun n s'

end Sys2Proof
end

