-- ==== Sys2Proof/Certificates/Slice0/Obligations.lean ====
section
/-! DEFINITION. The statements for the provers (OBLIGATIONS.json), with the predicates they are made of. -/

namespace Sys2Proof.Claims

open Sys2Proof.Machine

/-! ### The forms of the instructions that a group issues -/

/-- D, A, B of one register each (R104). -/
def dab (d a b : Opnd) : List Slot := [Slot.d d, Slot.a a, Slot.a b]
/-- D, A of one register each. -/
def da (d a : Opnd) : List Slot := [Slot.d d, Slot.a a]
/-- D, also read, with A and B. -/
def dabAcc (d a b : Opnd) : List Slot := [Slot.da d, Slot.a a, Slot.a b]
/-- A function value above the last one listed (R73). -/
def above (n max : Nat) : Option Cause := if n > max then some Causes.unassignedFn else none
/-- The registers of an access (R65): one, two or four words. -/
def memWords (sz : BitVec 2) : Nat := if sz = 1 then 2 else if sz = 2 then 4 else 1
/-- The base of a global access is an even v or w pair, that of a scratchpad access one register (R143, R221). -/
def base (sp : Bool) (a : Opnd) : Slot := if sp then Slot.s a Kinds.vwt 1 1 else Slot.s a Kinds.vw 2 2

/-- A load's form (R219 to R223). -/
def loadForm (sp ext : Bool) (d a : Opnd) (sz : BitVec 2) (tag : BitVec 4) (x : MemExt) : Shape :=
  { slots := [Slot.o d Kinds.vwt (memWords sz) (memWords sz), base sp a, Slot.a x.c], long := true, tag := some tag,
    reserved := (sz = 3 && !ext) || (sz ≠ 3 && x.narrow ≠ 0),
    fn := if x.scope.toNat > 5 || (sp && x.scope.toNat ≥ 3) || (x.repl && (sp || x.scope ≠ 0)) then some Causes.unassignedFn else none,
    bad := opW d && (opVec a || opVec x.c) }

/-- A store's form (R219 to R222). -/
def storeForm (sp ext : Bool) (d a : Opnd) (sz : BitVec 2) (x : MemExt) : Shape :=
  { slots := [Slot.s d Kinds.vwt (memWords sz) (memWords sz), base sp a, Slot.a x.c],
    reserved := (sz = 3 && !ext) || (sz ≠ 3 && x.narrow ≠ 0),
    fn := if x.scope.toNat > 5 || (sp && x.scope.toNat ≥ 3) || (sz = 3 && (x.narrow = 1 || x.narrow = 3)) || x.repl then some Causes.unassignedFn
          else none }

/-- The unassigned values of an atomic (R226, R227). -/
def atomFn (fn : Nat) (red : Bool) (x : AtomExt) : Option Cause :=
  if fn > 11 || x.scope.toNat > 5 || (x.w64 && fn ≥ 9) || (red && fn = 8) || (x.sp && x.scope.toNat ≥ 3) then some Causes.unassignedFn else none

/-- Registers of an atomic's datum. -/
def atomN (x : AtomExt) : Nat := if x.w64 then 2 else 1

/-- The forms by layout: integer, control and lane-wise instructions. -/
def laneForm (i : Instr) : Option Shape :=
  match i with
  | .mov d a => some { slots := da d a }
  | .iadd d a b => some { slots := dab d a b, hon := Honour.intSat }
  | .isub d a b => some { slots := dab d a b, hon := Honour.intSat }
  | .imul d a b => some { slots := dab d a b, hon := Honour.intSat }
  | .imulh d a b => some { slots := dab d a b }
  | .imad d a b => some { slots := dabAcc d a b, hon := Honour.intSat }
  | .imin d a b => some { slots := dab d a b }
  | .imax d a b => some { slots := dab d a b }
  | .and d a b => some { slots := dab d a b }
  | .or d a b => some { slots := dab d a b }
  | .xor d a b => some { slots := dab d a b }
  | .shl d a b => some { slots := dab d a b }
  | .shr d a b => some { slots := dab d a b }
  | .sar d a b => some { slots := dab d a b }
  | .rot d a b => some { slots := dab d a b }
  | .iabs d a => some { slots := da d a }
  | .not d a => some { slots := da d a }
  | .popc d a => some { slots := da d a }
  | .clz d a => some { slots := da d a }
  | .brev d a => some { slots := da d a }
  | .bfx d a b => some { slots := dab d a b }
  | .bfi d a b => some { slots := dabAcc d a b }
  | .lea d a b => some { slots := [Slot.o d Kinds.vwt 2 2, Slot.s a Kinds.vwt 2 2, Slot.a b] }
  | .icmp _ cc a b => some { slots := [Slot.a a, Slot.a b], fn := above cc.toNat 9 }
  | .isel d5 a b _ => some { slots := dab (vReg d5) a b }
  | .movImm d _ => some { slots := [Slot.d d] }
  | .movH d _ => some { slots := [Slot.da d] }
  | .iaddImm d _ => some { slots := [Slot.da d], hon := Honour.intSat }
  | .imulImm d _ => some { slots := [Slot.da d], hon := Honour.intSat }
  | .andImm d _ => some { slots := [Slot.da d] }
  | .orImm d _ => some { slots := [Slot.da d] }
  | .xorImm d _ => some { slots := [Slot.da d] }
  | .faddImm d _ => some { slots := [Slot.da d], hon := Honour.fp }
  | .fmulImm d _ => some { slots := [Slot.da d], hon := Honour.fp }
  | .fadd d a b => some { slots := dab d a b, hon := Honour.fp }
  | .fsub d a b => some { slots := dab d a b, hon := Honour.fp }
  | .fmul d a b => some { slots := dab d a b, hon := Honour.fp }
  | .ffma d a b => some { slots := dabAcc d a b, hon := Honour.fma }
  | .fmin d a b => some { slots := dab d a b, hon := Honour.ab }
  | .fmax d a b => some { slots := dab d a b, hon := Honour.ab }
  | .fcmp _ cc a b => some { slots := [Slot.a a, Slot.a b], hon := Honour.ab, fn := above cc.toNat 13 }
  | .fsel d5 a b _ => some { slots := dab (vReg d5) a b }
  | .frnd d a fn => some { slots := da d a, hon := Honour.aOnly, fn := above fn.toNat 4 }
  | .fclass _ a b => some { slots := [Slot.a a, Slot.a b] }
  | .hadd2 d a b => some { slots := dab d a b, hon := Honour.fp }
  | .hmul2 d a b => some { slots := dab d a b, hon := Honour.fp }
  | .hfma2 d a b => some { slots := dabAcc d a b, hon := Honour.fma }
  | .bfma2 d a b => some { slots := dabAcc d a b, hon := Honour.fma }
  | .cvt d a fn =>
    let dst := fn.toNat / 16
    let src := fn.toNat % 16
    let dn := if dst ≥ 14 then 2 else 1
    let an := if src ≥ 14 then 2 else 1
    some { slots := [Slot.o d Kinds.vwt dn dn, Slot.s a Kinds.any an an], hon := Honour.cvt (src < 8),
           fn := if dst = src || dst = 7 then some Causes.unassignedFn else none }
  | .cvtef d a fn =>
    some { slots := [Slot.o d Kinds.vt 2 2, Slot.a a], hon := Honour.cvt true,
           fn := if fn.toNat = 0 || fn.toNat > 4 then some Causes.unassignedFn else none }
  | .pack d a b => some { slots := dab d a b }
  | .unpack d a width _ idx =>
    some { slots := da d a, fn := if width = 3 || idx.toNat ≥ 32 / (16 / 2 ^ width.toNat) then some Causes.unassignedFn else none }
  | .mov16 d x => some { slots := da (vReg d) (srcReg x) }
  | .iadd16 d x => some { slots := dab (vReg d) (vReg d) (srcReg x), hon := Honour.intSat }
  | .isub16 d x => some { slots := dab (vReg d) (vReg d) (srcReg x), hon := Honour.intSat }
  | .imul16 d x => some { slots := dab (vReg d) (vReg d) (srcReg x), hon := Honour.intSat }
  | .and16 d x => some { slots := dab (vReg d) (vReg d) (srcReg x) }
  | .or16 d x => some { slots := dab (vReg d) (vReg d) (srcReg x) }
  | .xor16 d x => some { slots := dab (vReg d) (vReg d) (srcReg x) }
  | .shl16 d x => some { slots := dab (vReg d) (vReg d) (srcReg x) }
  | .shr16 d x => some { slots := dab (vReg d) (vReg d) (srcReg x) }
  | .sar16 d x => some { slots := dab (vReg d) (vReg d) (srcReg x) }
  | .fadd16 d x => some { slots := dab (vReg d) (vReg d) (srcReg x), hon := Honour.fp }
  | .fsub16 d x => some { slots := dab (vReg d) (vReg d) (srcReg x), hon := Honour.fp }
  | .fmul16 d x => some { slots := dab (vReg d) (vReg d) (srcReg x), hon := Honour.fp }
  | .fmin16 d x => some { slots := dab (vReg d) (vReg d) (srcReg x), hon := Honour.ab }
  | .fmax16 d x => some { slots := dab (vReg d) (vReg d) (srcReg x), hon := Honour.ab }
  | .ffma16 d x => some { slots := dabAcc (vReg d) (srcReg x) (.t 0), hon := Honour.fma }
  | .shfl d a fn c rel _ seg imm =>
    let k := imm.toNat % 8
    some { slots := [Slot.o d Kinds.vt 1 1, Slot.a a, Slot.a c],
           reserved := if rel then k = 0 || k > 4 || bitsOf imm 14 3 ≠ 0 || (imm.getLsbD 15 && fn ≠ 1) else imm ≠ 0,
           fn := if fn.toNat > 2 || seg.toNat > 5 then some Causes.unassignedFn else none }
  | .bcast d a b => some { slots := [Slot.d d, Slot.s a Kinds.vt 1 1, Slot.s b Kinds.wImm 1 1], mixed := true }
  | .vote d mode _ _ =>
    let n := if mode = 2 then 2 else 1
    some { slots := [Slot.o d Kinds.vwt n n], mixed := true, vector := true, fn := above mode.toNat 5 }
  | .redl d a seg op =>
    some { slots := da d a, mixed := true, bad := opW d && !(seg.toNat = 0 || seg.toNat ≥ 6), fn := above op.toNat 10 }
  | .scan d a _ op => some { slots := [Slot.o d Kinds.vt 1 1, Slot.a a], fn := above op.toNat 10 }
  | .match d a => some { slots := [Slot.o d Kinds.vt 2 2, Slot.a a] }
  | .qdx d a fn => some { slots := [Slot.o d Kinds.vt 1 1, Slot.s a Kinds.vt 1 1], fn := above fn.toNat 1 }
  | .qdy d a fn => some { slots := [Slot.o d Kinds.vt 1 1, Slot.s a Kinds.vt 1 1], fn := above fn.toNat 1 }
  | .pset _ cc a b =>
    some { slots := if cc = 2 then [Slot.s a Kinds.vwt 2 2] else [Slot.a a, Slot.a b], reserved := cc = 2 && b ≠ .v 0, fn := above cc.toNat 2 }
  | .plop _ _ _ _ _ => some { slots := [] }
  | .srd d sel =>
    let k := sel.toNat
    let n := if k = 2 || k = 11 then 2 else if k = 10 then 4 else 1
    some { slots := [Slot.o d Kinds.vwt n n], bad := opW d && (k = 1 || k = 2 || k = 10 || k = 12),
           fn := if k > 14 then some Causes.encoding else none }
  | .swr a => some { slots := [Slot.a a] }
  | _ => none

/-- The registers that A of a tile multiply names: a pair for a scaled format (R153). -/
def scaledRegs (fmt : BitVec 4) : Nat := if fmt.toNat ≥ 9 then 2 else 1

/-- The forms of the other instructions that a group issues. -/
def otherForm (i : Instr) : Option Shape :=
  match i with
  | .bra _ => some { slots := [], ender := true }
  | .brx a => some { slots := [Slot.s a Kinds.vw 2 2], ender := true }
  | .ret a => some { slots := [Slot.s a Kinds.vw 2 2], ender := true }
  | .call d _ => some { slots := [Slot.o d Kinds.vw 2 2], ender := true }
  | .joine k => some { slots := [], fn := above k.toNat 3 }
  | .joinw k => some { slots := [], ender := true, fn := above k.toNat 3 }
  | .exit => some { slots := [], ender := true }
  | .nop => some { slots := [] }
  | .yield => some { slots := [], ender := true }
  | .trap _ => some { slots := [] }
  | .brk _ => some { slots := [] }
  | .rcp d a tag => some { slots := da d a, hon := Honour.aOnly, long := true, tag := some tag }
  | .rsq d a tag => some { slots := da d a, hon := Honour.aOnly, long := true, tag := some tag }
  | .sqrt d a tag => some { slots := da d a, hon := Honour.aOnly, long := true, tag := some tag }
  | .exp2 d a tag => some { slots := da d a, hon := Honour.aOnly, long := true, tag := some tag }
  | .log2 d a tag => some { slots := da d a, hon := Honour.aOnly, long := true, tag := some tag }
  | .sin d a tag => some { slots := da d a, hon := Honour.aOnly, long := true, tag := some tag }
  | .cos d a tag => some { slots := da d a, hon := Honour.aOnly, long := true, tag := some tag }
  | .tanh d a tag => some { slots := da d a, hon := Honour.aOnly, long := true, tag := some tag }
  | .ld d a sz tag => some (loadForm false false d a sz tag MemExt.plain)
  | .ldExtended d a sz tag x => some (loadForm false true d a sz tag x)
  | .lds d a sz _ tag => some (loadForm true false d a sz tag MemExt.plain)
  | .ldsExtended d a sz _ tag x => some (loadForm true true d a sz tag x)
  | .st d a sz => some (storeForm false false d a sz MemExt.plain)
  | .stExtended d a sz x => some (storeForm false true d a sz x)
  | .sts d a sz _ => some (storeForm true false d a sz MemExt.plain)
  | .stsExtended d a sz _ x => some (storeForm true true d a sz x)
  | .pref a => some { slots := [base false a, Slot.a (.inl 0)] }
  | .prefExtended a x =>
    some { slots := [base false a, Slot.a x.c], reserved := x.narrow ≠ 0,
           fn := if x.scope.toNat > 5 || (x.repl && x.scope ≠ 0) then some Causes.unassignedFn else none }
  | .atom d a fn tag x =>
    some { slots := [Slot.o d Kinds.vwt (atomN x) (atomN x), base x.sp a, Slot.s x.c Kinds.any (atomN x) (atomN x)], long := true,
           tag := some tag, fn := atomFn fn.toNat false x, bad := opW d && opVec a }
  | .red a fn x => some { slots := [base x.sp a, Slot.s x.c Kinds.any (atomN x) (atomN x)], fn := atomFn fn.toNat true x }
  | .cas d a tag x =>
    some { slots := [{ op := d, kinds := Kinds.vwt, n := atomN x, al := atomN x, src := true, dst := true }, base x.sp a,
                     Slot.s x.c Kinds.any (atomN x) (atomN x)], long := true, tag := some tag, fn := atomFn 0 false x,
           bad := opW d && opVec a }
  | .fence scope => some { slots := [], fn := if scope.toNat = 0 || scope.toNat > 5 then some Causes.unassignedFn else none }
  | .binit a b => some { slots := [Slot.s a Kinds.wOnly 2 2, Slot.s b Kinds.wImm 1 1] }
  | .barr a b => some { slots := [Slot.s a Kinds.wOnly 2 2, Slot.s b Kinds.wImm 1 1] }
  | .bexp a b => some { slots := [Slot.s a Kinds.wOnly 2 2, Slot.s b Kinds.wImm 1 1] }
  | .wait a => some { slots := [Slot.s a Kinds.wOnly 2 2], ender := true }
  | .waitY d _ => some { slots := [Slot.s d Kinds.wOnly 2 2], ender := true }
  | .bseal => some { slots := [], noHandler := true }
  | .bwait a => some { slots := [Slot.s a Kinds.wImm 1 1], ender := true, noHandler := true }
  | .cpt d a b => some { slots := [Slot.s d Kinds.wOnly 2 2, Slot.s a Kinds.wOnly 2 2] ++ refOptSlots b, noHandler := true }
  | .cpb d a b => some { slots := [Slot.s d Kinds.wOnly 2 2, Slot.s a Kinds.wOnly 2 2] ++ refOptSlots b, noHandler := true }
  | .cps d a b => some { slots := [Slot.s d Kinds.wOnly 2 2, Slot.s a Kinds.wOnly 2 2] ++ refOptSlots b, noHandler := true }
  | .gwin a b => some { slots := [Slot.s a Kinds.wOnly 2 2, Slot.s b Kinds.wImm 1 1], noHandler := true }
  | .coll a b => some { slots := [Slot.s a Kinds.wOnly 2 2] ++ refOptSlots b, noHandler := true }
  | .launch _ a b => some { slots := [Slot.s a Kinds.wOnly 2 2, Slot.s b Kinds.wImm 1 1], noHandler := true }
  | .mma mt _ fmt d a =>
    some { slots := [Slot.s a Kinds.wOnly (scaledRegs fmt) (scaledRegs fmt), Slot.s d Kinds.wOnly 1 1], tile := some mt.toNat,
           fn := if fmt = 15 then some Causes.unassignedFn else none, noHandler := true }
  | .mmas mt _ fmt d a pat c =>
    some { slots := [Slot.s a Kinds.wOnly (scaledRegs fmt) (scaledRegs fmt), Slot.s d Kinds.wOnly 1 1, Slot.s c Kinds.wOnly 1 1],
           tile := some mt.toNat, fn := if fmt = 15 || pat.toNat > 1 then some Causes.unassignedFn else none, noHandler := true }
  | .accld mt _ fmt a => some { slots := [Slot.s a Kinds.wOnly 1 1], tile := some mt.toNat, fn := above fmt.toNat 2, noHandler := true }
  | .accst mt _ fmt a => some { slots := [Slot.s a Kinds.wOnly 1 1], tile := some mt.toNat, fn := above fmt.toNat 2, noHandler := true }
  | .mzero mt => some { slots := [], tile := some mt.toNat, noHandler := true }
  | .trq d a b => some { slots := [Slot.s d Kinds.wOnly 1 1, Slot.s a Kinds.wOnly 2 2, Slot.s b Kinds.wImm 1 1], noHandler := true }
  | .rast d a b =>
    some { slots := [Slot.o d Kinds.vOnly 4 4, Slot.s a Kinds.wOnly 8 8,
                     { op := b, kinds := Kinds.wOnly, n := 1, al := 1, src := true, dst := true }], mixed := true, vector := true, bad := a = .w 0 }
  | .tex d a tag c _ _ =>
    some { slots := [Slot.o d Kinds.vOnly 4 4, Slot.s a Kinds.vt 2 1, Slot.s c Kinds.wOnly 8 8], long := true, tag := some tag, bad := c = .w 0 }
  | .texl d a tag c _ _ =>
    some { slots := [Slot.o d Kinds.vOnly 4 4, Slot.s a Kinds.vt 3 1, Slot.s c Kinds.wOnly 8 8], long := true, tag := some tag, bad := c = .w 0 }
  | .texg d a tag c _ _ =>
    some { slots := [Slot.o d Kinds.vOnly 4 4, Slot.s a Kinds.vt 6 1, Slot.s c Kinds.wOnly 8 8], long := true, tag := some tag, bad := c = .w 0 }
  | .rayt d a tag _ _ c _ =>
    some { slots := [Slot.o d Kinds.vOnly 8 8, Slot.s a Kinds.vOnly 8 8, Slot.s c Kinds.wOnly 2 2], long := true, tag := some tag }
  | .rayq d a tag _ _ c _ =>
    some { slots := [Slot.o d Kinds.vOnly 1 1, Slot.s a Kinds.vOnly 8 8, Slot.s c Kinds.wOnly 2 2], long := true, tag := some tag }
  | .ncall d a tag c nin nout =>
    some { slots := [Slot.o d Kinds.vOnly (nout.toNat + 1) 1, Slot.s a Kinds.vOnly (nin.toNat + 1) 1, Slot.s c Kinds.vw 2 2], long := true,
           tag := some tag }
  | .npin a => some { slots := [Slot.s a Kinds.vw 2 2] }
  | .npref a => some { slots := [Slot.s a Kinds.vw 2 2] }
  | .nevict a => some { slots := [Slot.s a Kinds.vw 2 2] }
  | .reorder a b => some { slots := [Slot.s a Kinds.vwt 1 1, Slot.s b Kinds.wImm 1 1], ender := true, noHandler := true }
  | .ltrap _ => some { slots := [], noHandler := true }
  | .tret a => some { slots := [Slot.s a Kinds.vOnly 2 2], ender := true, onlyHandler := true }
  | .present a b => some { slots := [Slot.s a Kinds.wOnly 2 2, Slot.s b Kinds.wImm 1 1] }
  | .svc _ _ => some { slots := [], hon := Honour.none }
  | .sysrd d a _ => some { slots := [Slot.o d Kinds.wOnly 1 1, Slot.s a Kinds.wImm 1 1], hon := Honour.none, priv := true }
  | .syswr d a _ => some { slots := [Slot.o d Kinds.wOnly 1 1, Slot.s a Kinds.wOnly 2 2], hon := Honour.none, priv := true }
  | .tlbinv a b => some { slots := [Slot.s a Kinds.wOnly 2 2, Slot.s b Kinds.wImm 1 1], hon := Honour.none, priv := true }
  | .keysel a b => some { slots := [Slot.s a Kinds.wImm 1 1, Slot.s b Kinds.wImm 1 1], hon := Honour.none, priv := true }
  | .partctl d a b =>
    some { slots := [Slot.o d Kinds.wOnly 1 1, Slot.s b Kinds.wImm 1 1] ++ refOptSlots a, hon := Honour.none, priv := true }
  | _ => none

/-- The form of an instruction that a group issues. -/
def form (i : Instr) : Option Shape := (laneForm i).orElse (fun _ => otherForm i)

/-! ### What an instruction that completes leaves -/

/-- The run of the issuer goes on to its next instruction: one instruction fewer is left, the temporaries and the tag that the
instruction names are noted, its modifier word is spent (02 R44, R46; 03 R67, R69). -/
def nextRun (is : Iss) (temps named : BitVec 16) : Run :=
  { is.run with left := is.run.left - 1, temps := is.run.temps ||| temps, named := is.run.named ||| named, pfx := Modifier.none,
                stalled := false }

/-- The temporaries that a form writes. -/
def tempsOf (sh : Shape) : BitVec 16 := (sh.slots.filter (fun x => x.dst)).foldl (fun m x => m ||| x.temps) 0

/-- The tag that a form names, as a bit. -/
def tagOf (sh : Shape) : BitVec 16 := match sh.tag with | some t => 1 <<< t.toNat | none => 0

/-- The issuer's group stands at `g` with its run gone on, and no other group and nothing else of any team has changed. -/
structure Goes (s t : State) (is : Iss) (sh : Shape) (g : Group) : Prop where
  group : t.group? is.key = some { g with run := g.run.map (fun r => { nextRun is (tempsOf sh) (tagOf sh) with ender := r.ender }),
                                          skid := if is.g.stopped then g.skid + 1 else g.skid }
  others : ∀ k, k ≠ is.key → t.group? k = s.group? k
  teams : ∀ k, (t.team? k).map (fun x => { x with groups := [] }) = (s.team? k).map (fun x => { x with groups := [] })

/-- The instruction completed and touched its group only: the rest of the state, every byte of memory among it, is unchanged. -/
structure Completes (s t : State) (is : Iss) (sh : Shape) (g : Group) : Prop extends Goes s t is sh g where
  rest : t = { s with teams := t.teams }
  memory : ∀ a, t.mem.read a = s.mem.read a

/-- What a write of `n` words to the destination `d` in `lanes` leaves of a group, `words i` and `flags i` being lane `i`'s: the
destination reads so, FPFLAGS are sticky (R37), and no other register, lane, predicate or field of the group has changed. -/
structure Writes (is : Iss) (g : Group) (lanes : List Nat) (d : Opnd) (n : Nat) (words : Nat → List W32) (flags : Nat → BitVec 5) : Prop where
  dest : ∀ i ∈ lanes, ∀ k, k < n → some (g.src (g.lane i) .int d k) = (words i)[k]?
  flag : ∀ i ∈ lanes, (g.lane i).fl = (is.g.lane i).fl ||| flags i
  out : ∀ i, i ∉ lanes → g.lane i = is.g.lane i
  v : ∀ i r, (∀ x, d = .v x → r < x.val ∨ x.val + n ≤ r) → Tbl.get (g.lane i).v r = Tbl.get (is.g.lane i).v r
  t : ∀ i r, (∀ x, d = .t x → r < x.toNat ∨ x.toNat + n ≤ r) → Tbl.get (g.lane i).t r = Tbl.get (is.g.lane i).t r
  w : ∀ r, (∀ x, d = .w x → r < x.toNat ∨ x.toNat + n ≤ r) → Tbl.get g.w r = Tbl.get is.g.w r
  lane : ∀ i, { g.lane i with v := [], t := [], fl := 0 } = { is.g.lane i with v := [], t := [], fl := 0 }
  rest : { g with lanes := [], w := [] } = { is.g with lanes := [], w := [] }

/-- What a write of a predicate in lanes leaves of a group; p7 keeps reading true (R33). -/
structure WritesPred (is : Iss) (g : Group) (lanes : List Nat) (pd : BitVec 3) (bit : Nat → Bool) : Prop where
  dest : ∀ i ∈ lanes, (g.lane i).pred pd.toNat = (pd.toNat = 7 || bit i)
  others : ∀ i k, k ≠ pd.toNat → (g.lane i).pred k = (is.g.lane i).pred k
  out : ∀ i, i ∉ lanes → g.lane i = is.g.lane i
  lane : ∀ i, { g.lane i with p := 0 } = { is.g.lane i with p := 0 }
  rest : { g with lanes := [] } = { is.g with lanes := [] }

/-- No new flags of the lanes are ones that FPTRAP enables, or the group is a handler group (R106, R332). -/
def quietIn (is : Iss) (lanes : List Nat) (flags : Nat → BitVec 5) : Prop :=
  ∀ i ∈ lanes, flags i &&& is.team.rec'.fptrap = 0 ∨ is.g.handler.isSome

/-- No contributing lane's new flags are ones that FPTRAP enables, or the group is a handler group. -/
def quiet (is : Iss) (flags : Nat → BitVec 5) : Prop := quietIn is is.lanes flags

/-- The lanes that take an instruction's flags: the contributing ones, or every active one of a uniform instruction (R105). -/
def flagged (is : Iss) (sh : Shape) : List Nat := if sh.uniform then is.active else is.lanes

/-! ### Lane-wise results -/

/-- What an instruction gives: its destination, how many words, and each lane's words and flags. -/
structure Result where
  d : Opnd
  n : Nat
  f : Iss → Lane → List W32 × BitVec 5

/-- A lane-wise instruction completes with its result in each contributing lane, or once in a uniform destination (02 R35; 05 R105). -/
def Gives (i : Instr) (r : Result) : Prop :=
  ∀ (s : State) (is : Iss) (sh : Shape), laneForm i = some sh → s.issuer = some is → sh.firstError is = none →
    let val (j : Nat) : List W32 × BitVec 5 := r.f is (if sh.uniform then Lane.blank else is.g.lane j)
    quietIn is (flagged is sh) (fun j => (val j).2) →
    ∃ t g, exec i s = .next t ∧ Completes s t is sh g
      ∧ Writes is g (flagged is sh) r.d r.n (fun j => (val j).1) (fun j => (val j).2)
      ∧ (sh.uniform = true → ∀ k, k < r.n → some (g.src Lane.blank .int r.d k) = (r.f is Lane.blank).1[k]?)

/-- An instruction that writes a predicate completes with the bit in each contributing lane (05 R117). -/
def GivesPred (i : Instr) (pd : BitVec 3) (bit : Iss → Nat → Bool) : Prop :=
  ∀ (s : State) (is : Iss) (sh : Shape), laneForm i = some sh → s.issuer = some is → sh.firstError is = none →
    ∃ t g, exec i s = .next t ∧ Completes s t is sh g ∧ WritesPred is g is.lanes pd (bit is)

/-- A 32-bit result without flags, from the integer reading of operands. -/
def word1 (d : Opnd) (f : Iss → (Opnd → W32) → W32) : Result :=
  { d := d, n := 1, f := fun is l => ([f is (fun o => is.g.src l .int o 0)], 0) }

/-- The wrapped 32-bit value of an exact integer, or the nearest 32-bit signed one with SAT (R69, R113). -/
def wrapOrSat (is : Iss) (x : Int) : W32 :=
  if is.run.pfx.sat then BitVec.ofInt 32 (max (-(2 ^ 31)) (min x (2 ^ 31 - 1))) else BitVec.ofInt 32 x

/-! ### Integer results -/

/-- The fields of a BFX or BFI description (R114). -/
def fieldPos (b : W32) : Nat := b.toNat % 32
def fieldLen (b : W32) : Nat := min 32 (bitsOf b 13 8)

/-- BFX (R114): len bits of A from pos, the bits past 31 zero, sign-extended when B[16] asks for it. -/
def bfxOf (a b : W32) : W32 :=
  let len := fieldLen b
  let f : Nat := (a.toNat >>> fieldPos b) % 2 ^ len
  if b.getLsbD 16 && len > 0 && f ≥ 2 ^ (len - 1) then BitVec.ofInt 32 ((f : Int) - 2 ^ len) else BitVec.ofNat 32 f

/-- BFI (R114): bit k of the result is A[k - pos] inside the field, D[k] outside. -/
def isBfi (d a b r : W32) : Prop :=
  ∀ k, k < 32 → r.getLsbD k = if fieldPos b ≤ k ∧ k < fieldPos b + fieldLen b then a.getLsbD (k - fieldPos b) else d.getLsbD k

/-- The results of the REG-layout integer instructions (R113), of BFX (R114), of the FUN layout (R115) and of PACK (R130). -/
def integerResult (i : Instr) : Option Result :=
  match i with
  | .mov d a => some (word1 d (fun _ rd => rd a))
  | .iadd d a b => some (word1 d (fun is rd => wrapOrSat is ((rd a).toInt + (rd b).toInt)))
  | .isub d a b => some (word1 d (fun is rd => wrapOrSat is ((rd a).toInt - (rd b).toInt)))
  | .imul d a b => some (word1 d (fun is rd => wrapOrSat is ((rd a).toInt * (rd b).toInt)))
  | .imulh d a b => some (word1 d (fun _ rd => ((rd a).signExtend 64 * (rd b).signExtend 64).extractLsb' 32 32))
  | .imad d a b => some (word1 d (fun is rd => wrapOrSat is ((rd d).toInt + (rd a).toInt * (rd b).toInt)))
  | .imin d a b => some (word1 d (fun _ rd => BitVec.ofInt 32 (min (rd a).toInt (rd b).toInt)))
  | .imax d a b => some (word1 d (fun _ rd => BitVec.ofInt 32 (max (rd a).toInt (rd b).toInt)))
  | .and d a b => some (word1 d (fun _ rd => rd a &&& rd b))
  | .or d a b => some (word1 d (fun _ rd => rd a ||| rd b))
  | .xor d a b => some (word1 d (fun _ rd => rd a ^^^ rd b))
  | .shl d a b => some (word1 d (fun _ rd => if (rd b).toNat < 32 then rd a <<< (rd b).toNat else 0))
  | .shr d a b => some (word1 d (fun _ rd => if (rd b).toNat < 32 then rd a >>> (rd b).toNat else 0))
  | .sar d a b => some (word1 d (fun _ rd => BitVec.ofInt 32 ((rd a).toInt / 2 ^ min 31 (rd b).toNat)))
  | .rot d a b => some (word1 d (fun _ rd => (rd a).rotateLeft ((rd b).toNat % 32)))
  | .bfx d a b => some (word1 d (fun _ rd => bfxOf (rd a) (rd b)))
  | .iabs d a => some (word1 d (fun _ rd => BitVec.ofInt 32 ((rd a).toInt.natAbs : Int)))
  | .not d a => some (word1 d (fun _ rd => ~~~rd a))
  | .popc d a => some (word1 d (fun _ rd => BitVec.ofNat 32 ((List.range 32).filter (fun k => (rd a).getLsbD k)).length))
  | .clz d a => some (word1 d (fun _ rd => BitVec.ofNat 32 (if rd a = 0 then 32 else 31 - Nat.log2 (rd a).toNat)))
  | .brev d a => some (word1 d (fun _ rd => (rd a).reverse))
  | .lea d a b =>
    some { d := d, n := 2, f := fun is l =>
      let x : W64 := is.g.src64 l a + (is.g.src l .int b 0).signExtend 64
      ([lo32 x, hi32 x], 0) }
  | .pack d a b => some (word1 d (fun _ rd => (rd b).extractLsb' 0 16 ++ (rd a).extractLsb' 0 16))
  | _ => none

/-- The results of the IMM forms of integers and bits (R116). -/
def immediateResult (i : Instr) : Option Result :=
  match i with
  | .movImm d imm => some (word1 d (fun _ _ => imm.signExtend 32))
  | .movH d imm => some (word1 d (fun _ rd => imm ++ (rd d).extractLsb' 0 16))
  | .iaddImm d imm => some (word1 d (fun is rd => wrapOrSat is ((rd d).toInt + imm.toInt)))
  | .imulImm d imm => some (word1 d (fun is rd => wrapOrSat is ((rd d).toInt * imm.toInt)))
  | .andImm d imm => some (word1 d (fun _ rd => rd d &&& imm.signExtend 32))
  | .orImm d imm => some (word1 d (fun _ rd => rd d ||| imm.signExtend 32))
  | .xorImm d imm => some (word1 d (fun _ rd => rd d ^^^ imm.signExtend 32))
  | _ => none

/-- A 16-bit instruction with a lane-wise 32-bit form, and that form with D its first source (R59). -/
def longForm (i : Instr) : Option Instr :=
  match i with
  | .mov16 d x => some (.mov (vReg d) (srcReg x))
  | .iadd16 d x => some (.iadd (vReg d) (vReg d) (srcReg x))
  | .isub16 d x => some (.isub (vReg d) (vReg d) (srcReg x))
  | .imul16 d x => some (.imul (vReg d) (vReg d) (srcReg x))
  | .and16 d x => some (.and (vReg d) (vReg d) (srcReg x))
  | .or16 d x => some (.or (vReg d) (vReg d) (srcReg x))
  | .xor16 d x => some (.xor (vReg d) (vReg d) (srcReg x))
  | .shl16 d x => some (.shl (vReg d) (vReg d) (srcReg x))
  | .shr16 d x => some (.shr (vReg d) (vReg d) (srcReg x))
  | .sar16 d x => some (.sar (vReg d) (vReg d) (srcReg x))
  | .fadd16 d x => some (.fadd (vReg d) (vReg d) (srcReg x))
  | .fsub16 d x => some (.fsub (vReg d) (vReg d) (srcReg x))
  | .fmul16 d x => some (.fmul (vReg d) (vReg d) (srcReg x))
  | .fmin16 d x => some (.fmin (vReg d) (vReg d) (srcReg x))
  | .fmax16 d x => some (.fmax (vReg d) (vReg d) (srcReg x))
  | .ffma16 d x => some (.ffma (vReg d) (srcReg x) (.t 0))
  | _ => none

/-! ### Floating-point results -/

/-- The exact value of an FP input after AA, NA and FLUSH (R69, R93, R94). -/
def inputOf (f : Fmt) (flush abs neg : Bool) (x : Nat) : Val := f.value (f.flushIn flush (f.signMod abs neg x))

/-- The present D, A and B as exact values under the modifier word, in bits [sh + width - 1:sh] of their words. -/
def fpInputs (is : Iss) (f : Fmt) (sh : Nat) (d a b : W32) : Val × Val × Val :=
  let m := is.run.pfx
  let fl := is.team.rec'.flush
  let cut (x : W32) : Nat := bitsOf x (sh + f.bits - 1) sh
  (inputOf f fl m.ad m.nd (cut d), inputOf f fl m.aa m.na (cut a), inputOf f fl m.ab m.nb (cut b))

/-- The rounding mode of the modifier word. -/
def modeOf (is : Iss) : Mode := Mode.ofRm is.run.pfx.rm.toNat

/-- A result formed as R69 and R121 give: scaled by 2^K, rounded once under RM, flushed, SAT, CLAMP, with the flags of R91. -/
def fpForm (is : Iss) (f : Fmt) (e : Val × Bool) : Nat × Flags :=
  f.result { k := is.run.pfx.k.toInt, mode := modeOf is, sat := is.run.pfx.sat, clamp := is.run.pfx.clamp, flush := is.team.rec'.flush } e

/-- The exact operation and whether it is invalid: sum, difference, product, fused multiply-add. -/
def exactOf (op : Nat) (mode : Mode) (x : Val × Val × Val) : Val × Bool :=
  match op with
  | 0 => x.2.1.add mode x.2.2
  | 1 => x.2.1.add mode x.2.2.neg
  | 2 => x.2.1.mul x.2.2
  | _ => Val.fma mode x.2.1 x.2.2 x.1

/-- An FP32 operation on D, A, B. -/
def fp32Result (op : Nat) (d a b : Opnd) : Result :=
  { d := d, n := 1, f := fun is l =>
      let rd (o : Opnd) : W32 := is.g.src l .fp o 0
      let r := fpForm is Fmt.fp32 (exactOf op (modeOf is) (fpInputs is Fmt.fp32 0 (rd d) (rd a) (rd b)))
      ([BitVec.ofNat 32 r.1], r.2) }

/-- A packed operation: each half by itself, the flags of both (R124). -/
def packedResult (f : Fmt) (ty : OpTy) (op : Nat) (d a b : Opnd) : Result :=
  { d := d, n := 1, f := fun is l =>
      let rd (o : Opnd) : W32 := is.g.src l ty o 0
      let part (sh : Nat) := fpForm is f (exactOf op (modeOf is) (fpInputs is f sh (rd d) (rd a) (rd b)))
      ([BitVec.ofNat 16 (part 16).1 ++ BitVec.ofNat 16 (part 0).1], (part 0).2 ||| (part 16).2) }

/-- FMIN or FMAX (R122). -/
def minMaxResult (mx : Bool) (d a b : Opnd) : Result :=
  { d := d, n := 1, f := fun is l =>
      let m := is.run.pfx
      let x := Fmt.fp32.signMod m.aa m.na (is.g.src l .fp a 0).toNat
      let y := Fmt.fp32.signMod m.ab m.nb (is.g.src l .fp b 0).toNat
      ([BitVec.ofNat 32 (fminmax mx is.team.rec'.flush x y)], 0) }

/-- The results of FP32 and packed-half arithmetic (R116, R121, R122, R124). -/
def floatResult (i : Instr) : Option Result :=
  match i with
  | .fadd d a b => some (fp32Result 0 d a b)
  | .fsub d a b => some (fp32Result 1 d a b)
  | .fmul d a b => some (fp32Result 2 d a b)
  | .ffma d a b => some (fp32Result 3 d a b)
  | .fmin d a b => some (minMaxResult false d a b)
  | .fmax d a b => some (minMaxResult true d a b)
  | .faddImm d imm => some (fp32Result 0 d d (.lit (imm ++ 0#16)))
  | .fmulImm d imm => some (fp32Result 2 d d (.lit (imm ++ 0#16)))
  | .hadd2 d a b => some (packedResult Fmt.fp16 .half 0 d a b)
  | .hmul2 d a b => some (packedResult Fmt.fp16 .half 2 d a b)
  | .hfma2 d a b => some (packedResult Fmt.fp16 .half 3 d a b)
  | .bfma2 d a b => some (packedResult Fmt.bf16 .bf 3 d a b)
  | _ => none

/-- FRND (R123): an integral input as it is, a NaN the canonical one, else rounded to an integer with inexact. -/
def frndOf (mode : Mode) (x : Nat) : Nat × Flags :=
  match Fmt.fp32.value x with
  | .nan => (0x7FC00000, 0)
  | .inf _ => (x, 0)
  | .fin neg num den =>
    if (roundInt mode neg num den 0).2 then ((Fmt.fp32.round .rne (.fin neg (roundInt mode neg num den 0).1 1)).1, 16) else (x, 0)

/-- The results of rounding, conversion, selection and extraction (R120, R123, R127 to R130). -/
def convertResult (i : Instr) : Option Result :=
  match i with
  | .frnd d a fn =>
    some { d := d, n := 1, f := fun is l =>
      let m := is.run.pfx
      let r := frndOf (Mode.ofRm fn.toNat) (Fmt.fp32.flushIn is.team.rec'.flush (Fmt.fp32.signMod m.aa m.na (is.g.src l .fp a 0).toNat))
      ([BitVec.ofNat 32 r.1], r.2) }
  | .isel d5 a b ps => some { d := vReg d5, n := 1, f := fun is l =>
      ([if l.pred ps.toNat then is.g.src l .int a 0 else is.g.src l .int b 0], 0) }
  | .fsel d5 a b ps => some { d := vReg d5, n := 1, f := fun is l =>
      ([if l.pred ps.toNat then is.g.src l .fp a 0 else is.g.src l .fp b 0], 0) }
  | .cvt d a fn =>
    let dst := fn.toNat / 16
    let src := fn.toNat % 16
    some { d := d, n := if dst ≥ 14 then 2 else 1, f := fun is l =>
      let x : Nat := if src ≥ 14 then (pairOf (is.g.src l (cvtTy src) a 0) (is.g.src l (cvtTy src) a 1)).toNat
        else (is.g.src l (cvtTy src) a 0).toNat
      let r := cvtResult dst is.run.pfx is.team.rec'.flush (cvtInput src is.run.pfx is.team.rec'.flush x)
      let y : W64 := BitVec.ofNat 64 r.1
      (if dst ≥ 14 then [lo32 y, hi32 y] else [lo32 y], r.2) }
  | .cvtef d a fn =>
    some { d := d, n := 2, f := fun is l =>
      let x := cvtInput 0 is.run.pfx is.team.rec'.flush (is.g.src l .fp a 0).toNat
      let r := cvtResult fn.toNat is.run.pfx false x
      ([BitVec.ofNat 32 r.1, cvtResidual (cvtFmt fn.toNat) x r.1], r.2) }
  | .unpack d a width sgn idx =>
    let n := 16 / 2 ^ width.toNat
    some (word1 d (fun _ rd =>
      let x : BitVec n := (rd a).extractLsb' (n * idx.toNat) n
      if sgn then x.signExtend 32 else x.setWidth 32))
  | _ => none

/-! ### Predicates -/

/-- The conditions of ICMP (R117). -/
def icmpOf (cc : Nat) (a b : W32) : Bool :=
  match cc with
  | 0 => a == b
  | 1 => a != b
  | 2 => a.slt b
  | 3 => a.sle b
  | 4 => b.slt a
  | 5 => b.sle a
  | 6 => a.ult b
  | 7 => a.ule b
  | 8 => b.ult a
  | _ => b.ule a

/-- Relations of two values: less, equal, greater, unordered (R118). -/
def relOf (a b : Val) : Bool × Bool × Bool × Bool :=
  if a.isNan || b.isNan then (false, false, false, true) else (a.lt b, a.eq b, b.lt a, false)

/-- The relations that a CC value of FCMP accepts, in the order less, equal, greater, unordered (R118). -/
def fcmpOf (cc : Nat) (r : Bool × Bool × Bool × Bool) : Bool :=
  let (lt, eq, gt, un) := r
  match cc with
  | 0 => eq
  | 1 => lt
  | 2 => lt || eq
  | 3 => gt
  | 4 => gt || eq
  | 5 => !un && !eq
  | 6 => !un
  | 7 => un
  | 8 => un || eq
  | 9 => un || lt
  | 10 => un || lt || eq
  | 11 => un || gt
  | 12 => un || gt || eq
  | _ => un || !eq

/-- The predicate and bit of the lane-wise predicate instructions (R117 to R119, R139, R140). -/
def predicateBit (i : Instr) : Option (BitVec 3 × (Iss → Nat → Bool)) :=
  match i with
  | .icmp pd cc a b => some (pd, fun is j => icmpOf cc.toNat (is.g.src (is.g.lane j) .int a 0) (is.g.src (is.g.lane j) .int b 0))
  | .fcmp pd cc a b => some (pd, fun is j =>
      let m := is.run.pfx
      let fl := is.team.rec'.flush
      fcmpOf cc.toNat (relOf (inputOf Fmt.fp32 fl m.aa m.na (is.g.src (is.g.lane j) .fp a 0).toNat)
        (inputOf Fmt.fp32 fl m.ab m.nb (is.g.src (is.g.lane j) .fp b 0).toNat)))
  | .fclass pd a b => some (pd, fun is j => (is.g.src (is.g.lane j) .int b 0).getLsbD (fpClass (is.g.src (is.g.lane j) .fp a 0)))
  | .pset pd cc a b => some (pd, fun is j =>
      let l := is.g.lane j
      if cc = 2 then (is.g.src64 l a).getLsbD j
      else if cc = 0 then is.g.src l .int a 0 &&& is.g.src l .int b 0 ≠ 0 else is.g.src l .int a 0 &&& is.g.src l .int b 0 = 0)
  | .plop pd pa pb pc lut => some (pd, fun is j =>
      let l := is.g.lane j
      lut.getLsbD ((if l.pred pa.toNat then 1 else 0) + (if l.pred pb.toNat then 2 else 0) + (if l.pred pc.toNat then 4 else 0)))
  | _ => none

/-! ### Cross-lane results -/

/-- An instruction completes with words and flags in each contributing lane, its destination being v or t. -/
def GivesAt (i : Instr) (d : Opnd) (n : Nat) (val : State → Iss → Nat → List W32 × BitVec 5) : Prop :=
  ∀ (s : State) (is : Iss) (sh : Shape), laneForm i = some sh → s.issuer = some is → sh.firstError is = none → opW d = false →
    quiet is (fun j => (val s is j).2) →
    ∃ t g, exec i s = .next t ∧ Completes s t is sh g ∧ Writes is g is.lanes d n (fun j => (val s is j).1) (fun j => (val s is j).2)

/-- An instruction completes with one write of a w destination, or with none where `some` words are missing (R105). -/
def GivesOnce (i : Instr) (d : Opnd) (n : Nat) (val : State → Iss → Option (List W32 × BitVec 5)) : Prop :=
  ∀ (s : State) (is : Iss) (sh : Shape), laneForm i = some sh → s.issuer = some is → sh.firstError is = none → opW d = true →
    match val s is with
    | none => ∃ t, exec i s = .next t ∧ Completes s t is sh is.g
    | some r => quiet is (fun _ => r.2) →
      ∃ t g, exec i s = .next t ∧ Completes s t is sh g ∧ Writes is g is.lanes d n (fun _ => r.1) (fun _ => r.2)
        ∧ ∀ k, k < n → some (g.src Lane.blank .int d k) = r.1[k]?

/-- Word 0 of A in another lane of the group: a temporary of a lane outside the split reads zero (R131). -/
def otherA (is : Iss) (a : Opnd) (j : Nat) : W32 := if opT a && !is.active.contains j then 0 else is.g.src (is.g.lane j) .int a 0

/-- The lane that SHFL reads for lane `i` (R132). -/
def shflFrom (is : Iss) (fn : BitVec 8) (c : Opnd) (rel wrap : Bool) (seg : BitVec 3) (imm : BitVec 16) (i : Nat) : Nat :=
  let w : Nat := if seg = 0 then 64 else 2 ^ (seg.toNat + 1)
  let b : Int := ((i - i % w : Nat) : Int)
  let v := is.g.src (is.g.lane i) .int c 0
  let r : Int := ((64 / 2 ^ (imm.toNat % 8) : Nat) : Int)
  let n : Int := (if fn = 1 then v.toInt else (v.toNat : Int)) + (if rel then (if imm.getLsbD 15 then -r else r) else 0)
  let j : Int :=
    if fn = 0 then b + n else if fn = 1 then (i : Int) + n else b + ((((i : Int) - b).toNat ^^^ n.toNat : Nat) : Int)
  let j := if wrap then b + (j - b) % w else j
  if b ≤ j ∧ j < b + w then j.toNat else i

/-- The two words of a mask of lanes. -/
def words2 (m : W64) : List W32 := [m.extractLsb' 0 32, m.extractLsb' 32 32]

/-- The mask whose bit `i` is set when lane `i` is in a list. -/
def maskBits (l : List Nat) (m : W64) : Prop := ∀ k, k < 64 → (m.getLsbD k = true ↔ k ∈ l)

/-- The contributing lanes whose predicate, inverted by `neg`, is true. -/
def voters (is : Iss) (neg : Bool) (k : BitVec 3) : List Nat := is.lanes.filter (fun i => xor ((is.g.lane i).pred k.toNat) neg)

/-- The one word of VOTE in the modes other than .MASK (R134). -/
def voteWord (is : Iss) (mode : BitVec 4) (neg : Bool) (k : BitVec 3) : W32 :=
  let yes := voters is neg k
  match mode.toNat with
  | 0 => if yes.length = is.lanes.length then 1 else 0
  | 1 => if yes = [] then 0 else 1
  | 3 => BitVec.ofNat 32 yes.length
  | 4 => match yes.head? with | some i => BitVec.ofNat 32 i | none => 0xFFFFFFFF#32
  | _ => match yes.getLast? with | some i => BitVec.ofNat 32 i | none => 0xFFFFFFFF#32

/-- REDL's tree from lane `b` over `2^n` lanes: absent with y gives y, x with absent gives x (R137). -/
def treeFrom (op : Nat) (flush : Bool) (val : Nat → Option (W32 × Flags)) : Nat → Nat → Option (W32 × Flags)
  | 0, b => val b
  | n + 1, b =>
    match treeFrom op flush val n b, treeFrom op flush val n (b + 2 ^ n) with
    | some x, some y => some ((redCombine op flush x.1 y.1).1, (redCombine op flush x.1 y.1).2 ||| x.2 ||| y.2)
    | some x, none => some x
    | none, y => y

/-- A contributing lane's value for an operation, FP32 constants for the FP ones (R61, R136). -/
def redVal (is : Iss) (op : BitVec 4) (a : Opnd) (i : Nat) : Option (W32 × Flags) :=
  if i ∈ is.lanes then some (is.g.src (is.g.lane i) (if op.toNat ≥ 8 then .fp else .int) a 0, 0) else none

/-- log2 of the segment width of REDL (R136). -/
def redLog (seg : BitVec 4) : Nat := if seg = 0 then 6 else min 6 seg.toNat

/-- REDL's result for the segment from lane `b`. -/
def redlOf (is : Iss) (op : BitVec 4) (a : Opnd) (seg : BitVec 4) (b : Nat) : Option (W32 × Flags) :=
  treeFrom op.toNat is.team.rec'.flush (redVal is op a) (redLog seg) b

/-- SCAN's serial fold over lanes in increasing order, with the flags of its combines (R138). -/
def foldOf (is : Iss) (op : BitVec 4) (a : Opnd) (l : List Nat) : Option (W32 × Flags) :=
  l.foldl (fun acc i =>
    let x := is.g.src (is.g.lane i) (if op.toNat ≥ 8 then .fp else .int) a 0
    match acc with
    | none => some (x, 0)
    | some y => some ((redCombine op.toNat is.team.rec'.flush y.1 x).1, (redCombine op.toNat is.team.rec'.flush y.1 x).2 ||| y.2)) none

/-- The exclusive first values of R136. -/
def firstOf (op : Nat) : W32 :=
  ([0, 0x7FFFFFFF, 0x80000000, 0xFFFFFFFF, 0, 0xFFFFFFFF, 0, 0, 0x80000000, 0x7F800000, 0xFF800000] : List W32).getD op 0

/-- QDX (`bit` 1) and QDY (`bit` 2) of lane `i`: the difference along the axis, FINE in its own row or column, COARSE in the first (R168). -/
def quadOf (is : Iss) (bit : Nat) (fn : BitVec 8) (a : Opnd) (i : Nat) : List W32 × BitVec 5 :=
  let dx := i % 2
  let dy := i / 2 % 2
  let keep := if fn = 1 then 0 else if bit = 1 then 2 * dy else dx
  let low := i / 4 * 4 + keep
  let fl := is.team.rec'.flush
  let x (j : Nat) : Val := inputOf Fmt.fp32 fl false false (otherA is a j).toNat
  let r := Fmt.fp32.result { k := 0, mode := .rne, sat := false, clamp := false, flush := fl } ((x (low + bit)).add .rne (x low).neg)
  ([BitVec.ofNat 32 r.1], r.2)

/-- The words of a special register (R37) for lane `i`. -/
def specialOf (s : State) (is : Iss) (sel : Nat) (i : Nat) : List W32 :=
  let n (x : Nat) : List W32 := [BitVec.ofNat 32 x]
  let o := (is.g.lane i).origin
  match sel with
  | 0 => n 64
  | 1 => n i
  | 3 => n (if is.g.handler.isSome then is.g.widx else is.g.idx)
  | 4 => n is.g.role
  | 5 => n is.team.id
  | 6 => n is.core.core
  | 7 => n (is.core.core / 4)
  | 8 => n is.core.die
  | 9 => n is.team.part
  | 10 => [o.team, BitVec.ofNat 32 (o.lane + 256 * o.group), o.pc.extractLsb' 0 32, o.pc.extractLsb' 32 32]
  | 11 => words2 (BitVec.ofNat 64 (s.clock is.core.die))
  | 12 => [(is.g.lane i).fl.setWidth 32]
  | 14 => [is.g.batchNo]
  | _ => []

/-! ### Control flow -/

/-- The signed byte offset of a label: OFF24 in halfwords from RUNADDR, OFF16 in 16-byte steps from RUNBASE (R107, R108). -/
def labelBra (is : Iss) (off : BitVec 24) : Addr := is.run.addr + BitVec.ofInt 64 (2 * off.toInt)
def labelLnk (is : Iss) (off : BitVec 16) : Addr :=
  BitVec.ofNat 64 (is.run.addr.toNat - is.run.addr.toNat % 16) + BitVec.ofInt 64 (16 * off.toInt)

/-- What a run-ending instruction fixes for the TRAIL (R108 to R111, R236, R241, R307, R326). -/
def enderOf (is : Iss) (i : Instr) : Option Ender :=
  let pair (o : Opnd) : W64 := is.g.src64 Lane.blank o
  match i with
  | .bra off => some (.jump (is.lanes.map (fun j => (j, labelBra is off))))
  | .brx a => some (.jump (is.lanes.map (fun j => (j, is.g.src64 (is.g.lane j) a))))
  | .ret a => some (.jump (is.lanes.map (fun j => (j, is.g.src64 (is.g.lane j) a))))
  | .joinw k => some (.joinw k.toNat (maskOf is.lanes))
  | .exit => some (.exit (maskOf is.lanes))
  | .yield => some (.yield (maskOf is.lanes))
  | .wait a => some (.wait (pair a) (maskOf is.lanes))
  | .waitY d off => some (.waitY (pair d) (maskOf is.lanes) (labelLnk is off))
  | .bwait a => some (.bwait (is.g.src Lane.blank .int a 0) (maskOf is.lanes))
  | .reorder a b => some (.reorder (is.g.src Lane.blank .int b 0) (is.lanes.map (fun j => (j, is.g.src (is.g.lane j) .int a 0))))
  | _ => none

/-- The barrier reference that a WAIT names. -/
def waitRef (is : Iss) (i : Instr) : Option W64 :=
  match i with
  | .wait a => some (is.g.src64 Lane.blank a)
  | .waitY d _ => some (is.g.src64 Lane.blank d)
  | _ => none

/-- The group with its run's transfer fixed. -/
def withEnder (is : Iss) (g : Group) (e : Ender) : Group := { g with run := some { is.run with ender := some (e, is.run.ipc) } }

/-- No lane trap is marked, or has landed, for a lane of the issuer's split. -/
def calm (is : Iss) : Prop := ∀ i ∈ is.active, (is.g.lane i).mark = none ∧ (is.g.lane i).landed = []

/-- The run stands at its TRAIL word, and that word's POST mask names its tags (R67). -/
def atTrail (s : State) (is : Iss) (post : BitVec 16) : Prop :=
  s.issuer = some is ∧ is.run.opened = true ∧ is.run.left = 0 ∧ post = is.run.named

/-! ### Long-latency operations and the store queue -/

/-- An operation as its instruction queues it on its tag (02 R47), nothing of it performed. -/
def queuedOp (is : Iss) (tag : BitVec 4) (d : Opnd) (width : Nat) (kind : PendKind) (lanes : List PendLane) : PendOp :=
  { seq := is.g.seq, tag := tag.toNat, pc := is.run.ipc, runAddr := is.run.addr, fall := 0, dest := d, width := width, kind := kind,
    lanes := lanes, mask := 0, buf := { got := [], asked := none }, flags := [], causes := [] }

/-- The group with one more pending operation. -/
def withPend (g : Group) (o : PendOp) : Group := { g with seq := g.seq + 1, pend := g.pend ++ [o] }

/-- Operations that a tag counts (R47: 6 bits). -/
def tagCount (g : Group) (tag : Nat) : Nat := (g.pend.filter (fun o => o.tag = tag)).length

/-- The run stands at its instruction, held by a structural stall (02 R44). -/
def Holds (s t : State) (is : Iss) : Prop :=
  t = { s with teams := t.teams }
  ∧ t.group? is.key = some { is.g with run := some { is.run with next := is.run.ipc, pfx := Modifier.none, stalled := true } }

/-- A long-latency instruction queues `o` on its tag; without lanes it completes at once; a full tag holds it (R47). -/
def Tagged (i : Instr) (s : State) (is : Iss) (sh : Shape) (o : PendOp) : Prop :=
  ∃ t, exec i s = .next t ∧
    if tagCount is.g o.tag ≥ 63 then Holds s t is
    else if o.lanes = [] then Completes s t is sh is.g else Completes s t is sh (withPend is.g o)

/-- A memory access: its window and element, the operands that its addresses come from, and the operand words of a lane. -/
structure Acc where
  sp : Bool
  col : Bool
  bytes : Nat
  code : Nat
  a : Opnd
  c : Opnd
  imm : BitVec 16
  args : Iss → Lane → List W32

/-- What becomes of an access once its addresses are good: an operation on a tag, or an entry of the store queue. -/
inductive AccKind where
  | op (tag : BitVec 4) (d : Opnd) (width : Nat) (kind : PendKind)
  | entry (kind : QKind) (scope : Nat)

/-- The bytes of an access (R63, R65): 4, 8 or 16, or those of a narrow element. -/
def bytesFor (sz narrow : BitVec 2) : Nat := if sz = 3 then (if narrow.toNat ≤ 1 then 1 else 2) else 4 * 2 ^ sz.toNat

/-- The words that `n` operand registers hold in a lane. -/
def regsOf (is : Iss) (l : Lane) (ty : OpTy) (o : Opnd) (n : Nat) : List W32 := (List.range n).map (is.g.src l ty o)

/-- A load (R219 to R223). -/
def loadAcc (sp col : Bool) (d a : Opnd) (sz : BitVec 2) (tag : BitVec 4) (x : MemExt) : Acc × AccKind :=
  (⟨sp, col, bytesFor sz x.narrow, 0, a, x.c, x.imm, fun _ _ => []⟩,
   .op tag d (memWords sz) (.load sp (bytesFor sz x.narrow) (sz = 3 && x.narrow.getLsbD 0) x.scope.toNat x.repl col))

/-- A store (R222). -/
def storeAcc (sp col : Bool) (d a : Opnd) (sz : BitVec 2) (x : MemExt) : Acc × AccKind :=
  (⟨sp, col, bytesFor sz x.narrow, 1, a, x.c, x.imm, fun is l => regsOf is l .int d (memWords sz)⟩,
   .entry (.store sp (bytesFor sz x.narrow) col) x.scope.toNat)

/-- The operand type of an atomic: FP32 for the FP operations (R61, R226). -/
def atomType (fn : Nat) : OpTy := if fn ≥ 9 then .fp else .int

/-- The accesses of the memory instructions. -/
def accOf (i : Instr) : Option (Acc × AccKind) :=
  match i with
  | .ld d a sz tag => some (loadAcc false false d a sz tag MemExt.plain)
  | .ldExtended d a sz tag x => some (loadAcc false false d a sz tag x)
  | .lds d a sz col tag => some (loadAcc true col d a sz tag MemExt.plain)
  | .ldsExtended d a sz col tag x => some (loadAcc true col d a sz tag x)
  | .st d a sz => some (storeAcc false false d a sz MemExt.plain)
  | .stExtended d a sz x => some (storeAcc false false d a sz x)
  | .sts d a sz col => some (storeAcc true col d a sz MemExt.plain)
  | .stsExtended d a sz col x => some (storeAcc true col d a sz x)
  | .atom d a fn tag x =>
    some (⟨x.sp, false, 4 * atomN x, 2, a, .inl 0, x.imm, fun is l => regsOf is l (atomType fn.toNat) x.c (atomN x)⟩,
          .op tag d (atomN x) (.atom x.sp fn.toNat x.w64 x.scope.toNat))
  | .red a fn x =>
    some (⟨x.sp, false, 4 * atomN x, 2, a, .inl 0, x.imm, fun is l => regsOf is l (atomType fn.toNat) x.c (atomN x)⟩,
          .entry (.red x.sp fn.toNat x.w64) x.scope.toNat)
  | .cas d a tag x =>
    some (⟨x.sp, false, 4 * atomN x, 2, a, .inl 0, x.imm, fun is l => regsOf is l .int d (atomN x) ++ regsOf is l .int x.c (atomN x)⟩,
          .op tag d (atomN x) (.cas x.sp x.w64 x.scope.toNat))
  | _ => none

/-- The lanes that act: the contributing lanes, or the one access of the uniform datapath. -/
def acting (is : Iss) (sh : Shape) : List (Nat × Lane) :=
  if sh.uniform then [(0, Lane.blank)] else is.lanes.map (fun i => (i, is.g.lane i))

/-- A global effective address (R143): base pair, sign-extended index, sign-extended offset, modulo 2^64. -/
def eaOf (is : Iss) (x : Acc) (l : Lane) : Addr := is.g.src64 l x.a + (is.g.src l .int x.c 0).signExtend 64 + x.imm.signExtend 64

/-- A program address of the scratchpad (R221): the exact sum of base, signed index and signed offset. -/
def paOf (is : Iss) (x : Acc) (l : Lane) : Int := ((is.g.src l .int x.a 0).toNat : Int) + (is.g.src l .int x.c 0).toInt + x.imm.toInt

/-- The address that a lane's access carries: global, or the allocation offset of a scratchpad one. -/
def placeOf (is : Iss) (x : Acc) (l : Lane) : Addr := if x.sp then BitVec.ofInt 64 (paOf is x l + 256) else eaOf is x l

/-- Every address of an access is good (R143, R198, R199). -/
def addressesGood (is : Iss) (sh : Shape) (x : Acc) : Prop :=
  ∀ e ∈ acting is sh,
    if x.sp then scratchInside is.team.rec'.scratch x.bytes x.col (paOf is x e.2) = true
        ∧ scratchAligned x.bytes x.col (paOf is x e.2) = true
    else canonical (eaOf is x e.2) = true ∧ (eaOf is x e.2).toNat % x.bytes = 0

/-- The lanes of an access as it is queued, nothing performed. -/
def accessLanes (is : Iss) (sh : Shape) (x : Acc) : List PendLane :=
  (acting is sh).map (fun e => { lane := e.1, ea := placeOf is x e.2, args := x.args is e.2, acc := .todo })

/-- The group with one more entry in its store queue. -/
def withEntry (is : Iss) (kind : QKind) (scope : Nat) (lanes : List PendLane) : Group :=
  { is.g with seq := is.g.seq + 1,
              queue := is.g.queue ++ [⟨is.g.seq, is.run.ipc, kind, scope, lanes, false⟩] }

/-- An entry joins the store queue of 16, or the instruction is held while the queue is full (R224). -/
def Entered (i : Instr) (s : State) (is : Iss) (sh : Shape) (kind : QKind) (scope : Nat) (lanes : List PendLane) : Prop :=
  ∃ t, exec i s = .next t ∧
    if is.g.queue.length ≥ 16 then Holds s t is else Completes s t is sh (withEntry is kind scope lanes)

/-- The number of a special function, its operands and its tag (R74, R126). -/
def sfuOf (i : Instr) : Option (Nat × Opnd × Opnd × BitVec 4) :=
  match i with
  | .rcp d a tag => some (0, d, a, tag)
  | .rsq d a tag => some (1, d, a, tag)
  | .sqrt d a tag => some (2, d, a, tag)
  | .exp2 d a tag => some (3, d, a, tag)
  | .log2 d a tag => some (4, d, a, tag)
  | .sin d a tag => some (5, d, a, tag)
  | .cos d a tag => some (6, d, a, tag)
  | .tanh d a tag => some (7, d, a, tag)
  | _ => none

/-- A special function's word and flags in a lane: AA, then NA, then the function on the flushed input, the result flushed (R69, R125). -/
def sfuLane (is : Iss) (fn : Nat) (a : Opnd) (l : Lane) : W32 × BitVec 5 :=
  let m := is.run.pfx
  let x := Fmt.fp32.flushIn is.team.rec'.flush (Fmt.fp32.signMod m.aa m.na (is.g.src l .fp a 0).toNat)
  let r := Fmt.fp32.flushOut is.team.rec'.flush (sfuResult fn x)
  (BitVec.ofNat 32 r.1, r.2)

/-- The operation of a special function: its words are known, its flags and traps wait for the landing (R47, R105, R106, R125). -/
def sfuPend (is : Iss) (sh : Shape) (fn : Nat) (d a : Opnd) (tag : BitVec 4) (o : PendOp) : Prop :=
  { o with flags := [], causes := [] }
      = queuedOp is tag d 1 (.special fn) ((acting is sh).map (fun e => ⟨e.1, 0, [], .done [(sfuLane is fn a e.2).1]⟩))
  ∧ (∀ e, e ∈ o.flags ↔ e.2 ≠ 0 ∧
      (if sh.uniform then e.1 ∈ is.active ∧ e.2 = (sfuLane is fn a Lane.blank).2
       else e.1 ∈ is.lanes ∧ e.2 = (sfuLane is fn a (is.g.lane e.1)).2))
  ∧ ∀ e, e ∈ o.causes ↔ is.g.handler = none ∧ e.2 = Causes.fpFlag ∧ ∃ f, (e.1, f) ∈ o.flags ∧ f &&& is.team.rec'.fptrap ≠ 0

/-- Words of a coordinate window of a lane: a temporary of a lane outside the split reads zero (R131, R177). -/
def windowOf (is : Iss) (a : Opnd) (j n : Nat) : List W32 :=
  (List.range n).map (fun k => if opT a && !is.active.contains j then 0 else is.g.src (is.g.lane j) .fp a k)

/-- The sampling instructions (R174, R177): kind, destination, window, tag, descriptor, NOFB, bias, and a lane's operand words. -/
def sampleOf (i : Instr) : Option (Nat × Opnd × BitVec 4 × Opnd × Bool × BitVec 16 × (Iss → Nat → List W32)) :=
  match i with
  | .tex d a tag c nofb bias =>
    some (0, d, tag, c, nofb, bias, fun is j =>
      let q := j - j % 4
      windowOf is a j 2 ++ windowOf is a q 2 ++ windowOf is a (q + 1) 2 ++ windowOf is a (q + 2) 2)
  | .texl d a tag c nofb bias => some (1, d, tag, c, nofb, bias, fun is j => windowOf is a j 3)
  | .texg d a tag c nofb bias => some (2, d, tag, c, nofb, bias, fun is j => windowOf is a j 6)
  | _ => none

/-- The ray queries (R183): whether all words are wanted, destination, ray, tag, culling, root, mask. -/
def rayOf (i : Instr) : Option (Bool × Opnd × Opnd × BitVec 4 × Bool × Bool × Opnd × BitVec 8) :=
  match i with
  | .rayt d a tag cb cf c mask => some (true, d, a, tag, cb, cf, c, mask)
  | .rayq d a tag cb cf c mask => some (false, d, a, tag, cb, cf, c, mask)
  | _ => none

/-! ### Bulk operations -/

/-- The group with one more bulk operation, of no batch yet (10 R240). -/
def withBulk (is : Iss) (tile : Bool) : Group :=
  { is.g with seq := is.g.seq + 1, bulk := is.g.bulk ++ [⟨is.g.seq, is.run.ipc, none, false, false, tile⟩] }

/-- An issued bulk operation: its group has it, its core's queues are `c`, and nothing else has changed. -/
structure Engages (s t : State) (is : Iss) (sh : Shape) (tile : Bool) (c : Core) : Prop extends Goes s t is sh (withBulk is tile) where
  core : t.core is.core = c
  cores : ∀ k, k ≠ is.core → t.core k = s.core k
  rest : t = { s with teams := t.teams, cores := t.cores }
  memory : ∀ a, t.mem.read a = s.mem.read a

/-- The reference field of an operand: none for the constant 0. -/
def refField (is : Iss) (b : Opnd) : Option W64 := if b = .inl 0 then none else some (is.g.src64 Lane.blank b)

/-- The copies, window writes and transposes: what enters the Shuttle queue, whether its operands are good, the cause if they are
not, and whether that is judged without lanes (06 R159; 08 R190; 10 R245, R248). -/
def shuttleOf (is : Iss) (i : Instr) : Option (ShuttleKind × Bool × Cause × Bool) :=
  let w (o : Opnd) (k : Nat) : W32 := is.g.src Lane.blank .int o k
  let copy (n : Nat) (d a b : Opnd) : ShuttleKind × Bool × Cause × Bool :=
    let c : CopyOp := { dir := n, wc := w d 0, wc1 := w d 1, record := is.g.src64 Lane.blank a, ref := refField is b }
    (.copy c, !ctlReserved c && canonical c.record && c.record.toNat % 64 = 0, Causes.copyOperand, false)
  match i with
  | .cpt d a b => some (copy 0 d a b)
  | .cpb d a b => some (copy 1 d a b)
  | .cps d a b => some (copy 2 d a b)
  | .gwin a b =>
    let x := is.g.src64 Lane.blank a
    some (.gwin x (w b 0).toNat, (w b 0).toNat ≤ 255 && canonical x && x.toNat % 32 = 0, Causes.windowOperand, false)
  | .trq d a b =>
    some (.trq (w b 0) (w a 0) (w a 1) (w d 0), !trqBad (w b 0) (w a 0) (w a 1) (w d 0) is.team.rec'.scratch is.team.share,
          Causes.matrixOperand, true)
  | _ => none

/-- The reference that a Shuttle operation names. -/
def shuttleRef (is : Iss) (i : Instr) : Option W64 :=
  match i with
  | .cpt _ _ b => refField is b
  | .cpb _ _ b => refField is b
  | .cps _ _ b => refField is b
  | _ => none

/-- Whether the group's stores so far, and every store of its core to memory, have been performed, so that racing reads see nothing older
(10 R249; 11 R256). -/
def storesDone (s : State) (is : Iss) : Bool :=
  is.g.queue.isEmpty && !(s.core is.core).flights.any (fun f => f.line.isSome || flightOf is.key f)

/-- An entry of the Shuttle queue as it is made. -/
def shuttleJob (s : State) (is : Iss) (kind : ShuttleKind) : ShuttleJob :=
  { group := is.key, op := is.g.seq, seq := is.g.seq, kind := kind, rec' := none, pos := 0, within := 0, bytes := 0, fold := 0, scale := none,
    row := none, parked := none, held := [], tags := [], logPos := if storesDone s is then s.wlog.length else 2 ^ 64, sPos := is.team.slog.length, bPos := is.team.blog.length, buf := { got := [], asked := none } }

/-- The tile operations: the operation queued, and whether its operands are good (06 R145, R153 to R159, R162). -/
def tileOf (is : Iss) (i : Instr) : Option (TileKind × Bool) :=
  let w (o : Opnd) (k : Nat) : W32 := is.g.src Lane.blank .int o k
  let two (fmt : BitVec 4) (a : Opnd) : W32 := if scaledRegs fmt = 2 then w a 1 else 0
  let good (fmt : BitVec 4) (a : Opnd) (x : MulOp) : Bool :=
    bitsOf (w a 0) 31 19 = 0 && (scaledRegs fmt = 1 || bitsOf (w a 1) 31 19 = 0) && !x.bad is.team.rec'.scratch is.team.share
  let panel (fmt : BitVec 4) (a : Opnd) : Bool :=
    bitsOf (w a 0) 31 19 = 0 && aFits is.team.rec'.scratch (bitsOf (w a 0) 18 0) (if fmt = 0 then 8 else 4)
  match i with
  | .mma mt o fmt d a =>
    some (.mma mt.toNat fmt.toNat o (w a 0) (two fmt a) (w d 0), good fmt a (MulOp.of fmt.toNat o none (w a 0) (two fmt a) (w d 0) 0))
  | .mmas mt o fmt d a pat c =>
    some (.mmas mt.toNat fmt.toNat o (pat = 1) (w a 0) (two fmt a) (w d 0) (w c 0),
          good fmt a (MulOp.of fmt.toNat o (some (pat = 1)) (w a 0) (two fmt a) (w d 0) (w c 0)))
  | .accld mt o fmt a => some (.accld mt.toNat fmt.toNat o (w a 0), panel fmt a)
  | .accst mt o fmt a => some (.accst mt.toNat fmt.toNat o (w a 0), panel fmt a)
  | .mzero mt => some (.mzero mt.toNat, true)
  | _ => none

/-- An entry of the matrix queue as it is made. -/
def tileJob (is : Iss) (kind : TileKind) : TileJob :=
  { group := is.key, op := is.g.seq, seq := is.g.seq, kind := kind, mask := maskOf is.lanes, stored := [],
    sPos := is.team.slog.length, bPos := is.team.blog.length }

/-- A collective as it is issued. -/
def issuedColl (s : State) (is : Iss) (a b : Opnd) : Coll :=
  { part := is.team.part, set := 0, cid := 0, issued := true, group := is.key, op := is.g.seq, seq := is.g.seq, core := is.core,
    addr := is.g.src64 Lane.blank a, ref := refField is b, record := [], src := none, acc := [], heard := [], agreed := [], got := [],
    sentUp := false, final := none, sentDown := false, written := 0, aborting := false, parked := none, logPos := if storesDone s is then s.wlog.length else 2 ^ 64,
    buf := { got := [], asked := none }, early := [] }

/-! ### Hub instructions -/

/-- The group's earlier accesses are performed for a release at a scope, which leaves the state `s'` (R260, R264). -/
def Released (s : State) (is : Iss) (scope : Nat) (s' : State) : Prop := s.releaseAt is scope = (s', true)

/-- The word of a w operand. -/
def wordOf (is : Iss) (o : Opnd) : W32 := is.g.src Lane.blank .int o 0

/-- The handles that the contributing lanes name, each once, in increasing order (R323). -/
def handlesOf (is : Iss) (a : Opnd) : List Addr := pcsOf (is.lanes.map (fun j => (0, is.g.src64 (is.g.lane j) a)))

end Sys2Proof.Claims

open Sys2Proof Sys2Proof.Machine Sys2Proof.Claims

/-! ### Checks -/

/-- O (R72): the first check that fails stops the team with its cause at the instruction, before any effect. -/
def Sys2Proof.Claims.firstFailingFormCheckStopsTheTeam : Prop :=
  ∀ (i : Instr) (sh : Shape) (s : State) (is : Iss) (c : Cause), form i = some sh → s.issuer = some is → sh.firstError is = some c →
    exec i s = .next (s.teamStop is.key (StopCause.at c is.run.ipc))

/-- O (R113, R114, R115, R130). -/
def Sys2Proof.Claims.integerInstructionsWriteTheirResults : Prop :=
  (∀ i r, integerResult i = some r → Gives i r)
  ∧ ∀ d a b, ∀ (s : State) (is : Iss) (sh : Shape), laneForm (.bfi d a b) = some sh → s.issuer = some is → sh.firstError is = none →
    ∃ f : Lane → W32, (∀ l, isBfi (is.g.src l .int d 0) (is.g.src l .int a 0) (is.g.src l .int b 0) (f l))
      ∧ ∃ t g, exec (.bfi d a b) s = .next t ∧ Completes s t is sh g
        ∧ Writes is g (flagged is sh) d 1 (fun j => [f (if sh.uniform then Lane.blank else is.g.lane j)]) (fun _ => 0)

/-- O (R116). -/
def Sys2Proof.Claims.immediateFormsWriteTheirResults : Prop := ∀ i r, immediateResult i = some r → Gives i r

/-- O (R59). -/
def Sys2Proof.Claims.shortFormsActAsTheirLongForms : Prop :=
  ∀ i j (s : State), longForm i = some j → exec i s = exec j s
    ∧ ∀ (is : Iss) (sh : Shape), laneForm i = some sh → s.issuer = some is → sh.firstError is = none → ∃ t, exec i s = .next t

/-- O (R121, R122, R124, R116). -/
def Sys2Proof.Claims.floatInstructionsWriteTheirRoundedResults : Prop := ∀ i r, floatResult i = some r → Gives i r

/-- O. -/
def Sys2Proof.Claims.conversionsAndSelectsWriteTheirResults : Prop := ∀ i r, convertResult i = some r → Gives i r

/-- O. -/
def Obligations.PredicateInstructionsWriteTheirBit : Prop := ∀ i pd bit, predicateBit i = some (pd, bit) → GivesPred i pd bit

/-- O (R131, R132, R133, R135). -/
def Sys2Proof.Claims.lanesReadOtherLanes : Prop :=
  (∀ d a fn c rel wrap seg imm, GivesAt (.shfl d a fn c rel wrap seg imm) d 1
    (fun _ is i => ([otherA is a (shflFrom is fn c rel wrap seg imm i)], 0)))
  ∧ (∀ d a b, GivesAt (.bcast d a b) d 1 (fun _ is _ => ([otherA is a ((is.g.src Lane.blank .int b 0).toNat % 64)], 0)))
  ∧ (∀ d a b, GivesOnce (.bcast d a b) d 1
      (fun _ is => if is.lanes = [] then none else some ([otherA is a ((is.g.src Lane.blank .int b 0).toNat % 64)], 0)))
  ∧ ∀ d a, ∃ m : Iss → Nat → W64, GivesAt (.match d a) d 2 (fun _ is i => (words2 (m is i), 0))
      ∧ ∀ is i, maskBits (is.lanes.filter (fun j =>
          is.g.src (is.g.lane j) .int a 0 = is.g.src (is.g.lane i) .int a 0)) (m is i)

/-- O (R134). -/
def Sys2Proof.Claims.voteGivesItsModesResult : Prop :=
  (∀ d mode neg k, mode ≠ 2 → GivesAt (.vote d mode neg k) d 1 (fun _ is _ => ([voteWord is mode neg k], 0))
    ∧ GivesOnce (.vote d mode neg k) d 1 (fun _ is => some ([voteWord is mode neg k], 0)))
  ∧ ∀ d neg k, ∃ m : Iss → W64, GivesAt (.vote d 2 neg k) d 2 (fun _ is _ => (words2 (m is), 0))
    ∧ GivesOnce (.vote d 2 neg k) d 2 (fun _ is => some (words2 (m is), 0)) ∧ ∀ is, maskBits (voters is neg k) (m is)

/-- O (R136, R137, R138). -/
def Sys2Proof.Claims.reductionsAndScansCombineInOrder : Prop :=
  (∀ d a seg op, GivesAt (.redl d a seg op) d 1 (fun _ is i =>
      match redlOf is op a seg (i / 2 ^ redLog seg * 2 ^ redLog seg) with | some r => ([r.1], r.2) | none => ([], 0))
    ∧ GivesOnce (.redl d a seg op) d 1 (fun _ is => (redlOf is op a seg 0).map (fun r => ([r.1], r.2))))
  ∧ ∀ d a excl op, GivesAt (.scan d a excl op) d 1 (fun _ is i =>
      let r := (foldOf is op a (is.lanes.filter (fun j => if excl then j < i else j ≤ i))).getD (firstOf op.toNat, 0)
      ([r.1], r.2))

/-- O (R168). -/
def Sys2Proof.Claims.quadDifferences : Prop :=
  (∀ d a fn, GivesAt (.qdx d a fn) d 1 (fun _ is i => quadOf is 1 fn a i))
  ∧ ∀ d a fn, GivesAt (.qdy d a fn) d 1 (fun _ is i => quadOf is 2 fn a i)

/-- O (R37, R141). -/
def Obligations.SpecialRegistersReadAndWritten : Prop :=
  (∀ d (sel : BitVec 8), sel.toNat ≤ 14 → sel ≠ 2 → sel ≠ 13 →
    GivesAt (.srd d sel) d (specialWidth sel.toNat) (fun s is i => (specialOf s is sel.toNat i, 0))
    ∧ GivesOnce (.srd d sel) d (specialWidth sel.toNat) (fun s is => some (specialOf s is sel.toNat 0, 0)))
  ∧ (∀ d, ∃ m : Iss → W64, GivesAt (.srd d 2) d 2 (fun _ is _ => (words2 (m is), 0)) ∧ ∀ is, maskBits is.active (m is))
  ∧ (∀ d, ∃ m : Iss → BitVec 16, GivesAt (.srd d 13) d 1 (fun _ is _ => ([(m is).setWidth 32], 0))
      ∧ GivesOnce (.srd d 13) d 1 (fun _ is => some ([(m is).setWidth 32], 0))
      ∧ ∀ is k, k < 16 → ((m is).getLsbD k = true ↔ ∃ o ∈ is.g.pend, o.tag = k))
  ∧ ∀ a (s : State) (is : Iss) (sh : Shape), laneForm (.swr a) = some sh → s.issuer = some is → sh.firstError is = none →
    ∃ t g, exec (.swr a) s = .next t ∧ Completes s t is sh g
      ∧ (∀ i ∈ is.lanes, g.lane i = { is.g.lane i with fl := (is.g.src (is.g.lane i) .int a 0).setWidth 5 })
      ∧ (∀ i, i ∉ is.lanes → g.lane i = is.g.lane i) ∧ { g with lanes := [] } = { is.g with lanes := [] }

/-- O (R106, R329, R49). -/
def Sys2Proof.Claims.enabledFlagTakesALaneTrapAfterTheWrite : Prop :=
  ∀ (i : Instr) (r : Result) (s : State) (is : Iss) (sh : Shape), floatResult i = some r ∨ convertResult i = some r → laneForm i = some sh →
    s.issuer = some is → sh.firstError is = none → sh.uniform = false → is.g.handler = none →
    let fl (j : Nat) : BitVec 5 := (r.f is (is.g.lane j)).2
    ∀ j ∈ is.lanes, fl j &&& is.team.rec'.fptrap ≠ 0 →
      ∃ t g, exec i s = .next t ∧ t.group? is.key = some g ∧ (g.lane j).fl = (is.g.lane j).fl ||| fl j
        ∧ (∀ k, k < r.n → some (g.src (g.lane j) .int r.d k) = (r.f is (is.g.lane j)).1[k]?)
        ∧ (is.team.rec'.tbudget ≠ 0 → (g.lane j).mark
            = some ⟨Causes.fpFlag, is.run.ipc, (fl j &&& is.team.rec'.fptrap).setWidth 32, is.run.addr, 0⟩)
        ∧ (is.team.rec'.tbudget = 0 → is.g.stopped = false → is.g.cause = none →
            g.stopped = true ∧ g.run = none ∧ g.cause = some (StopCause.at Causes.missingVector is.run.ipc))

/-- O (R66, R46). -/
def Sys2Proof.Claims.runWordOpensItsRun : Prop :=
  ∀ (len : BitVec 5) (await : BitVec 16) (s : State) (is : Iss), s.issuer = some is →
    (is.run.opened = true → exec (.run len await) s = .next (s.teamStop is.key (StopCause.at Causes.misplacedFraming is.run.ipc)))
    ∧ (is.run.opened = false → (len = 0 ∨ len.toNat > 24) →
        exec (.run len await) s = .next (s.teamStop is.key (StopCause.at Causes.runLength is.run.ipc)))
    ∧ (is.run.opened = false → len ≠ 0 → len.toNat ≤ 24 → await &&& is.g.tagPend = 0 →
        ∃ t g, exec (.run len await) s = .next t ∧ t = { s with teams := t.teams } ∧ t.group? is.key = some g
          ∧ (∀ k, k ≠ is.key → t.group? k = s.group? k)
          ∧ g.run = some { is.run with opened := true, left := len.toNat, stalled := false }
          ∧ (∀ i ∈ is.active, g.lane i = { is.g.lane i with t := [] }) ∧ (∀ i, i ∉ is.active → g.lane i = is.g.lane i)
          ∧ g.w = is.g.w ∧ g.pend = is.g.pend ∧ g.queue = is.g.queue)
    ∧ (is.run.opened = false → len ≠ 0 → len.toNat ≤ 24 → await &&& is.g.tagPend ≠ 0 →
        ∃ t, exec (.run len await) s = .next t ∧ t.group? is.key = some { is.g with run := none } ∧ t = { s with teams := t.teams })

/-- O (R41, R67, R108): lanes that take the run's transfer go to their targets, the others to FALL. -/
def Sys2Proof.Claims.trailMovesLanesToTheirNextPcs : Prop :=
  ∀ (post : BitVec 16) (s : State) (is : Iss) (ts : List (Nat × Addr)), atTrail s is post → calm is →
    (is.run.ender = none ∧ ts = [] ∨ ∃ pc, is.run.ender = some (.jump ts, pc)) →
    (∀ e ∈ ts, s.badTarget is e.2 = false) → s.lacksRun is is.run.next = false →
    ∃ t g, exec (.trail post) s = .next t ∧ t = { s with teams := t.teams } ∧ t.group? is.key = some g ∧ g.run = none
      ∧ (∀ k, k ≠ is.key → t.group? k = s.group? k)
      ∧ (∀ i ∈ is.active, (g.lane i).pc = (kget i ts).getD is.run.next ∧ ((∃ x, (g.lane i).st = .active x) ∨ ∃ n, (g.lane i).st = .waiting n))
      ∧ (∀ i r, Tbl.get (g.lane i).v r = Tbl.get (is.g.lane i).v r) ∧ g.w = is.g.w

/-- O (R110). -/
def Sys2Proof.Claims.exitedLanesLeaveAtTheTrail : Prop :=
  ∀ (post : BitVec 16) (s : State) (is : Iss) (m : Mask) (pc : Addr), atTrail s is post → calm is → is.g.handler = none →
    is.run.ender = some (.exit m, pc) → s.lacksRun is is.run.next = false →
    ∃ t g, exec (.trail post) s = .next t ∧ t.group? is.key = some g ∧ g.run = none
      ∧ (∀ i ∈ is.active, m.getLsbD i = true → (g.lane i).st = .exited ∧ (g.lane i).v = (is.g.lane i).v)
      ∧ (∀ i ∈ is.active, m.getLsbD i = false → (g.lane i).pc = is.run.next ∧ (g.lane i).st ≠ .exited)

/-- A lane goes on at a PC: active in a split there, or waiting for one (R39, R41). -/
def Sys2Proof.Claims.goesOn (g : Group) (i : Nat) (pc : Addr) : Prop :=
  (g.lane i).pc = pc ∧ ((∃ x, (g.lane i).st = .active x) ∨ ∃ n, (g.lane i).st = .waiting n)

/-- A TRAIL word whose checks pass, for a run that ends with a transfer: no lane trap is there, the word after it is a RUN word, and no
rejoin barrier but `k` is complete already. -/
def Sys2Proof.Claims.trailEnds (s : State) (is : Iss) (post : BitVec 16) (e : Ender) (pc : Addr) (k : Option Nat) : Prop :=
  atTrail s is post ∧ calm is ∧ is.run.ender = some (e, pc) ∧ s.lacksRun is is.run.next = false
  ∧ ∀ n x, nth is.g.joins n = some x → some n ≠ k → x.enrol = 0 ∨ x.enrol ≠ x.arrived

/-- O (R41, R43, R109): JOINW at the TRAIL: enrolled lanes arrive, the others go on; the last arrival releases all at FALL. -/
def Sys2Proof.Claims.arrivalsWaitForTheirBarrier : Prop :=
  ∀ (post : BitVec 16) (s : State) (is : Iss) (k : Nat) (m : Mask) (pc : Addr) (j : Join), trailEnds s is post (.joinw k m) pc (some k) →
    nth is.g.joins k = some j →
    let fall := is.run.next
    let arrive (i : Nat) : Prop := i ∈ is.active ∧ m.getLsbD i = true ∧ j.enrol.getLsbD i = true
    ∃ t g, exec (.trail post) s = .next t ∧ t = { s with teams := t.teams } ∧ t.group? is.key = some g ∧ g.run = none
      ∧ (∀ i ∈ is.active, ¬ arrive i → goesOn g i fall)
      ∧ ∀ arr : Mask, (∀ i, i < 64 → (arr.getLsbD i = true ↔ j.arrived.getLsbD i = true ∨ arrive i)) → (∃ i, arrive i) →
          (arr ≠ j.enrol → (∀ i, arrive i → (g.lane i).st = .joined k ∧ (g.lane i).pc = fall)
            ∧ nth g.joins k = some { j with arrived := arr, fall := fall })
          ∧ (arr = j.enrol → (∀ i, arrive i → goesOn g i fall)
            ∧ (∀ i, j.arrived.getLsbD i = true → (is.g.lane i).st = .joined k → goesOn g i fall)
            ∧ nth g.joins k = some { enrol := 0, arrived := 0, fall := fall })

/-- O (R41, R111, R307): YIELD at the TRAIL: the split goes on at FALL; where no lane waits and no other split is there, it drops to the low
class, its age beginning now. -/
def Sys2Proof.Claims.yieldsGoOnAtFall : Prop :=
  ∀ (post : BitVec 16) (s : State) (is : Iss) (m : Mask) (pc : Addr), trailEnds s is post (.yield m) pc none →
    ∃ t g, exec (.trail post) s = .next t ∧ t = { s with teams := t.teams } ∧ t.group? is.key = some g ∧ g.run = none
      ∧ (∀ i ∈ is.active, goesOn g i is.run.next)
      ∧ ((∃ i ∈ is.active, m.getLsbD i = true) → (∀ l ∈ is.g.lanes, l.isWaiting = false) →
          (∀ x ∈ is.g.splits, x.slot ≠ is.run.slot → x.pc ≠ is.run.next) → s.coreOf is.key = some is.core → is.g.quarter.isSome = true →
          (∀ i ∈ is.active, (g.lane i).st = .active is.run.slot)
          ∧ ∃ x ∈ g.splits, x.slot = is.run.slot ∧ x.pc = is.run.next ∧ x.low = true ∧ x.since = some (s.clock is.core.die) ∧ x.block = none)

/-- A wait reads its object's words, which leaves the state `s2`: no earlier access of its group to the object is still to be performed, and no
other waiter of the group is released by the read. -/
def Sys2Proof.Claims.waitReads (s1 s2 : State) (is : Iss) (o : ObjRef) (ws : List W32) : Prop :=
  s1.earlierAt is.core is.team.part is.g o = false ∧ s1.objRead o = (s2, ws) ∧ s2.group? is.key = some is.g

/-- O (R41, R236, R238, R261, R264): WAIT at the TRAIL: past a completed phase the lanes go on, and a global object's wait drops L1; else they
stay in their split, blocked, at FALL. While an earlier access or update of its group to the object is to be performed, it holds. A faulting
object stops the team; that the record's ACC is 2 is the model's reading (DEDUCED, log 19). -/
def Sys2Proof.Claims.waitsBlockTheirSplit : Prop :=
  ∀ (post : BitVec 16) (s s1 : State) (is : Iss) (ref : W64) (m : Mask) (pc : Addr), trailEnds s is post (.wait ref m) pc none →
    (∃ i ∈ is.active, m.getLsbD i = true) →
    (∀ va pol absent, s.reach (.lane is.core) is.team ref .rd = (s1, .bad va pol absent) → exec (.trail post) s =
      .next (s1.teamStop is.key { StopCause.at Causes.barrierFault pc with va := va, acc := 2, pol := pol, np := absent }))
    ∧ (∀ o home, s.reach (.lane is.core) is.team ref .rd = (s1, .obj o home) → s1.earlierAt is.core is.team.part is.g o = true →
      exec (.trail post) s = .next (s1.holdRun is))
    ∧ ∀ o home s2 ws, s.reach (.lane is.core) is.team ref .rd = (s1, .obj o home) → waitReads s1 s2 is o ws →
      ∃ t g, exec (.trail post) s = .next t ∧ t.group? is.key = some g ∧ g.run = none ∧ t.mem = s2.mem
        ∧ (∀ i ∈ is.active, m.getLsbD i = false → goesOn g i is.run.next)
        ∧ ((Obj.ofWords ws).phase ≠ ref.getLsbD 62 →
            (∀ i ∈ is.active, goesOn g i is.run.next) ∧ ∀ key, o = .phys key → (t.core is.core).l1 = [])
        ∧ ((Obj.ofWords ws).phase = ref.getLsbD 62 →
            (∀ i ∈ is.active, m.getLsbD i = true → (g.lane i).st = .active is.run.slot ∧ (g.lane i).pc = is.run.next)
            ∧ ∃ x ∈ g.splits, x.slot = is.run.slot ∧ x.pc = is.run.next ∧ x.block = some (.phase o (ref.getLsbD 62) false))

/-- O (R41, R236): WAIT.Y at the TRAIL: its lanes leave the split for their target, at once past a completed phase, else once it completes. -/
def Sys2Proof.Claims.yieldingWaitsLeaveTheirSplit : Prop :=
  ∀ (post : BitVec 16) (s s1 s2 : State) (is : Iss) (ref : W64) (m : Mask) (target pc : Addr) (o : ObjRef) (home : Nat) (ws : List W32),
    trailEnds s is post (.waitY ref m target) pc none → (∃ i ∈ is.active, m.getLsbD i = true) → is.g.quarter.isSome = true →
    s.reach (.lane is.core) is.team ref .rd = (s1, .obj o home) → waitReads s1 s2 is o ws →
    ∃ t g, exec (.trail post) s = .next t ∧ t.group? is.key = some g ∧ g.run = none ∧ t.mem = s2.mem
      ∧ (∀ i ∈ is.active, m.getLsbD i = false → goesOn g i is.run.next)
      ∧ ∀ i ∈ is.active, m.getLsbD i = true →
          ((Obj.ofWords ws).phase ≠ ref.getLsbD 62 → goesOn g i target)
          ∧ ((Obj.ofWords ws).phase = ref.getLsbD 62 → (g.lane i).st = .yielded o (ref.getLsbD 62) false ∧ (g.lane i).pc = target)

/-- O (R45, R241, R265): BWAIT at the TRAIL: a batch that is not complete blocks the split; past a complete one the core's L1 keeps no block that
the group's bulk operations changed; a batch that cannot be named stops the team. -/
def Sys2Proof.Claims.batchWaitsBlockTheirSplit : Prop :=
  ∀ (post : BitVec 16) (s : State) (is : Iss) (n : W32) (m : Mask) (pc : Addr), trailEnds s is post (.bwait n m) pc none →
    (∃ i ∈ is.active, m.getLsbD i = true) →
    let count := (Obj.ofWords (s.objWords (.scratch is.key.team (16 * is.key.idx))).2).count
    let open' : Prop := 2 ^ 31 ≤ (BitVec.ofNat 32 count - n).toNat
    (2 ^ 31 ≤ (is.g.batchNo - n).toNat → exec (.trail post) s = .next (s.teamStop is.key (StopCause.at Causes.batchOperand pc)))
    ∧ ((is.g.batchNo - n).toNat < 2 ^ 31 → ∃ t g, exec (.trail post) s = .next t
        ∧ t = { s with teams := t.teams, cores := t.cores } ∧ (∀ k, k ≠ is.core → t.core k = s.core k)
        ∧ t.group? is.key = some g ∧ g.run = none
        ∧ (∀ i ∈ is.active, m.getLsbD i = false → goesOn g i is.run.next)
        ∧ (¬ open' → (∀ i ∈ is.active, goesOn g i is.run.next) ∧ ∀ l ∈ (t.core is.core).l1, ∀ e ∈ l.stale, e.2 ≠ is.key)
        ∧ (open' → t.cores = s.cores ∧ (∀ i ∈ is.active, m.getLsbD i = true → (g.lane i).st = .active is.run.slot ∧ (g.lane i).pc = is.run.next)
            ∧ ∃ x ∈ g.splits, x.slot = is.run.slot ∧ x.pc = is.run.next ∧ x.block = some (.batch n)))

/-- O (R45, R326): REORDER at the TRAIL: the group is held at its site with each lane's key; another control word, or lanes that are not
there, stop the team. -/
def Sys2Proof.Claims.reorderHoldsTheGroup : Prop :=
  ∀ (post : BitVec 16) (s : State) (is : Iss) (ctl : W32) (keys : List (Nat × W32)) (pc : Addr), trailEnds s is post (.reorder ctl keys) pc none →
    let n := ctl.toNat % 256
    let roles := ctl.toNat / 2 ^ 12 % 16
    let site := ctl.toNat / 256 % 16
    let fits : Prop := ctl.toNat / 2 ^ 16 = 0 ∧ n ≤ 192 ∧ n ≤ is.g.budget ∧ roles ≠ 0 ∧ roles / 2 ^ is.g.role % 2 = 1
      ∧ ∀ g ∈ is.team.groups, ∀ h, g.held = some h → h.site = site → h.ctl = ctl
    let here : Prop := (∀ i, (nth is.g.lanes i).isSome = true → (is.g.lane i).st ≠ .exited → ∃ e ∈ keys, e.1 = i) ∧ ∀ j ∈ is.g.joins, j.enrol = 0
    (¬ fits → exec (.trail post) s = .next (s.teamStop is.key (StopCause.at Causes.reorderOperand pc)))
    ∧ (fits → ¬ here → exec (.trail post) s = .next (s.teamStop is.key (StopCause.at Causes.reorderState pc)))
    ∧ (fits → here → ∃ t g, exec (.trail post) s = .next t ∧ t = { s with teams := t.teams } ∧ t.group? is.key = some g ∧ g.run = none
        ∧ g.held = some { site := site, ctl := ctl, keys := keys } ∧ g.draining = false
        ∧ ∀ i ∈ is.active, (g.lane i).st = .active is.run.slot ∧ (g.lane i).pc = is.run.next ∧ (g.lane i).v = (is.g.lane i).v)

/-- O (R40, R45, R108, R333): TRET at the TRAIL: each origin lane takes back its handler lane's registers, predicates and flags, and goes on at
its target; the handler lane exits. -/
def Sys2Proof.Claims.returnsGiveOriginLanesTheirRegisters : Prop :=
  ∀ (post : BitVec 16) (s : State) (is : Iss) (ts : List (Nat × W64)) (pc : Addr), trailEnds s is post (.tret ts) pc none →
    is.g.handler.isSome = true → (ts.map Prod.fst).Nodup → (∀ e ∈ ts, e.1 ∈ is.active) → (∀ e ∈ ts, s.badTarget is e.2 = false) →
    (∀ e ∈ ts, ∃ o, is.g.originOf e.1 = some o ∧ o.1 ≠ is.key.idx ∧ ∃ og, s.group? { team := is.key.team, idx := o.1 } = some og
      ∧ og.quarter.isSome = true ∧ (nth og.lanes o.2).isSome = true) →
    (∀ e ∈ ts, ∀ f ∈ ts, is.g.originOf e.1 = is.g.originOf f.1 → e.1 = f.1) →
    ∃ t g, exec (.trail post) s = .next t ∧ t.group? is.key = some g ∧ g.run = none
      ∧ (∀ i ∈ is.active, i ∉ ts.map Prod.fst → goesOn g i is.run.next)
      ∧ ∀ e ∈ ts, (g.lane e.1).st = .exited ∧ ∀ gi ol og, is.g.originOf e.1 = some (gi, ol) →
          s.group? { team := is.key.team, idx := gi } = some og →
          ∃ og', t.group? { team := is.key.team, idx := gi } = some og' ∧ goesOn og' ol e.2 ∧ (og'.lane ol).p = (is.g.lane e.1).p
            ∧ (og'.lane ol).fl = (is.g.lane e.1).fl
            ∧ ∀ r, Tbl.get (og'.lane ol).v r = if r < min 32 og.budget then Tbl.get (is.g.lane e.1).v r else Tbl.get (og.lane ol).v r

/-- O (R67, R45). -/
def Sys2Proof.Claims.trailWithAnotherPostMaskStopsTheTeam : Prop :=
  ∀ (post : BitVec 16) (s : State) (is : Iss), s.issuer = some is →
    ((is.run.opened = false ∨ is.run.left ≠ 0) →
      exec (.trail post) s = .next (s.teamStop is.key (StopCause.at Causes.misplacedFraming is.run.ipc)))
    ∧ (is.run.opened = true → is.run.left = 0 → post ≠ is.run.named →
      exec (.trail post) s = .next (s.teamStop is.key (StopCause.at Causes.postMask is.run.ipc)))

/-- O (R108 to R111, R236, R241, R326): that a label target is judged at the TRAIL, and not here, is the model's: DESIGN CHOICE (log 53). -/
def Obligations.RunEndingInstructionsFixTheirTransfer : Prop :=
  ∀ (i : Instr) (sh : Shape) (s : State) (is : Iss) (e : Ender), form i = some sh → s.issuer = some is → sh.firstError is = none →
    enderOf is i = some e → (∀ x, waitRef is i = some x → is.lanes = [] ∨ s.refAllowed is x true = true) →
    ∃ t, exec i s = .next t ∧ Completes s t is sh (withEnder is is.g e)

/-- O (R108). -/
def Sys2Proof.Claims.callSavesFallAndGoesToItsLabel : Prop :=
  ∀ (d : Opnd) (off : BitVec 16) (sh : Shape) (s : State) (is : Iss), form (.call d off) = some sh → s.issuer = some is →
    sh.firstError is = none →
    let fall : Addr := is.run.next + 4
    ∃ t g, exec (.call d off) s = .next t
      ∧ Completes s t is sh (withEnder is g (.jump (is.lanes.map (fun j => (j, labelLnk is off)))))
      ∧ Writes is g is.lanes d 2 (fun _ => [lo32 fall, hi32 fall]) (fun _ => 0)
      ∧ (opW d = true → ∀ k, k < 2 → some (g.src Lane.blank .int d k) = [lo32 fall, hi32 fall][k]?)

/-- O (R109, R111). -/
def Sys2Proof.Claims.joineEnrolsAndNopDoesNothing : Prop :=
  (∀ (k : BitVec 8) (sh : Shape) (s : State) (is : Iss), form (.joine k) = some sh → s.issuer = some is → sh.firstError is = none →
    ∃ t g, exec (.joine k) s = .next t ∧ Completes s t is sh g ∧ { g with joins := [] } = { is.g with joins := [] }
      ∧ (∀ j, nth g.joins j = (nth is.g.joins j).map (fun x => if j = k.toNat then { x with enrol := x.enrol ||| maskOf is.lanes } else x)))
  ∧ ∀ (sh : Shape) (s : State) (is : Iss), form .nop = some sh → s.issuer = some is → sh.firstError is = none →
    ∃ t, exec .nop s = .next t ∧ Completes s t is sh is.g

/-- O (R112). -/
def Sys2Proof.Claims.trapAndBrkStopTheTeamWithTheirArgument : Prop :=
  ∀ (n : BitVec 16) (s : State) (is : Iss), s.issuer = some is → (Shape.control false).firstError is = none →
    (is.lanes ≠ [] →
      exec (.trap n) s = .next (s.teamStop is.key { StopCause.at Causes.softwareTrap is.run.ipc with arg := n.toNat })
      ∧ exec (.brk n) s = .next (s.teamStop is.key { StopCause.at Causes.breakpoint is.run.ipc with arg := n.toNat }))
    ∧ (is.lanes = [] → ∃ t, exec (.trap n) s = .next t ∧ exec (.brk n) s = .next t ∧ Completes s t is (Shape.control false) is.g)

/-- O (R303, R398, R399): the issuer keeps its first cause and loses its run; no group of the team is evicted any more; the team's first
cause is the earlier one, and of one core clock that of the lower GROUPID. -/
def Sys2Proof.Claims.teamStopSavesCauseAndEndsTheRun : Prop :=
  ∀ (s : State) (is : Iss) (c : StopCause), s.issuer = some is → is.g.stopped = false →
    let first (x : StopCause × Nat) : Prop :=
      ((s.teamStop is.key c).team? is.key.team).map (fun t => t.stop.map (fun y => (y.1, y.2.1))) = some (some x)
    (s.teamStop is.key c).group? is.key =
        some { is.g with cause := some (is.g.cause.getD c), stopped := true, trapRun := some is.run, run := none, draining := false }
    ∧ (∀ k, k ≠ is.key → (s.teamStop is.key c).group? k =
        (s.group? k).map (fun g => if k.team = is.key.team then { g with draining := false } else g))
    ∧ (s.teamStop is.key c) = { s with teams := (s.teamStop is.key c).teams }
    ∧ (is.team.stop = none → first (c, is.key.idx))
    ∧ ∀ x i n, is.team.stop = some (x, i, n) →
        let later : Prop := n = (is.team.core.map (fun ck => s.clock ck.die)).getD 0
          ∧ ∃ h, is.team.group? i = some h ∧ h.recorded = none ∧ is.g.groupId < h.groupId
        (later → first (c, is.key.idx)) ∧ (¬ later → first (x, i))

/-- O (R72, R73, R71). -/
def Sys2Proof.Claims.refusedWordsStopTheTeam : Prop :=
  ∀ (s : State) (is : Iss), s.issuer = some is →
    exec .misplacedPrefix s = .next (s.teamStop is.key (StopCause.at Causes.misplacedModifier is.run.ipc))
    ∧ (∀ c, is.run.pfx.reserved = 0 →
        exec (.unassignedMajorOpcode c) s = .next (s.teamStop is.key (StopCause.at c is.run.ipc)))
    ∧ ∀ c, is.run.pfx.reserved ≠ 0 → (c = Causes.unassignedFn ∨ c = Causes.illegalOperand ∨ c = Causes.encoding) →
        exec (.unassignedMajorOpcode c) s = .next (s.teamStop is.key (StopCause.at Causes.reservedField is.run.ipc))

/-- O (R49, R328, R329): LTRAP marks its lanes; in a team with TBUDGET 0 it stops the team with the missing-vector cause. -/
def Sys2Proof.Claims.ltrapMarksItsLanes : Prop :=
  ∀ (n : BitVec 16) (sh : Shape) (s : State) (is : Iss), form (.ltrap n) = some sh → s.issuer = some is → sh.firstError is = none →
    let tr : LaneTrap := { cause := Causes.laneTrap, pc := is.run.ipc, arg := n.setWidth 32, runAddr := is.run.addr, fall := 0 }
    (is.team.rec'.tbudget ≠ 0 ∨ is.lanes = [] →
      ∃ t g, exec (.ltrap n) s = .next t ∧ Completes s t is sh g ∧ { g with lanes := [] } = { is.g with lanes := [] }
        ∧ (∀ i ∈ is.lanes, g.lane i = { is.g.lane i with mark := some tr }) ∧ ∀ i, i ∉ is.lanes → g.lane i = is.g.lane i)
    ∧ (is.team.rec'.tbudget = 0 → is.lanes ≠ [] → is.g.stopped = false → is.g.cause = none →
      ∃ t g, exec (.ltrap n) s = .next t ∧ t.group? is.key = some g ∧ g.stopped = true ∧ g.run = none
        ∧ g.cause = some (StopCause.at Causes.missingVector is.run.ipc) ∧ g.lanes = is.g.lanes ∧ g.w = is.g.w)

/-! ### Memory instructions -/

/-- O (R47, R219 to R227): accesses with good addresses are queued with each lane's address and operands. -/
def Obligations.AccessesQueueTheirLanes : Prop :=
  ∀ (i : Instr) (x : Acc) (k : AccKind) (sh : Shape) (s : State) (is : Iss), accOf i = some (x, k) → form i = some sh →
    s.issuer = some is → sh.firstError is = none → addressesGood is sh x →
    match k with
    | .op tag d n kind => Tagged i s is sh (queuedOp is tag d n kind (accessLanes is sh x))
    | .entry kind scope =>
      if acting is sh = [] then ∃ t, exec i s = .next t ∧ Completes s t is sh is.g
      else Entered i s is sh kind scope (accessLanes is sh x)

/-- O (R143, R198, R199, R221): a bad address of any lane stops the team before any access. -/
def Obligations.BadAddressesStopTheTeam : Prop :=
  ∀ (i : Instr) (x : Acc) (k : AccKind) (sh : Shape) (s : State) (is : Iss), accOf i = some (x, k) → form i = some sh →
    s.issuer = some is → sh.firstError is = none →
    (x.sp = false → ∀ (l₁ l₂ : List (Nat × Lane)) (e : Nat × Lane), acting is sh = l₁ ++ e :: l₂ →
      (∀ y ∈ l₁, canonical (eaOf is x y.2) = true) → canonical (eaOf is x e.2) = false →
      exec i s = .next (s.teamStop is.key
        { StopCause.at Causes.nonCanonical is.run.ipc with va := (eaOf is x e.2).toNat % 2 ^ 52, acc := x.code }))
    ∧ (x.sp = false → (∀ y ∈ acting is sh, canonical (eaOf is x y.2) = true) →
      ∀ (l₁ l₂ : List (Nat × Lane)) (e : Nat × Lane), acting is sh = l₁ ++ e :: l₂ →
      (∀ y ∈ l₁, (eaOf is x y.2).toNat % x.bytes = 0) → (eaOf is x e.2).toNat % x.bytes ≠ 0 →
      exec i s = .next (s.teamStop is.key
        { StopCause.at Causes.misaligned is.run.ipc with va := (eaOf is x e.2).toNat, acc := x.code }))
    ∧ (x.sp = true → (∃ e ∈ acting is sh, scratchInside is.team.rec'.scratch x.bytes x.col (paOf is x e.2) = false) →
      exec i s = .next (s.teamStop is.key (StopCause.at Causes.scratchRange is.run.ipc)))
    ∧ (x.sp = true → (∀ e ∈ acting is sh, scratchInside is.team.rec'.scratch x.bytes x.col (paOf is x e.2) = true) →
      (∃ e ∈ acting is sh, scratchAligned x.bytes x.col (paOf is x e.2) = false) →
      exec i s = .next (s.teamStop is.key (StopCause.at Causes.misaligned is.run.ipc)))

/-- A prefetch wrote no register of any group and no memory: with no store of the core on its way and no sum left to round, nothing of any
team but the issuer's run has changed, and every byte reads as before. -/
def Sys2Proof.Claims.onlyFetched (s t : State) (is : Iss) (sh : Shape) : Prop :=
  (∀ k g, s.group? k = some g → ∃ g', t.group? k = some g' ∧ g'.w = g.w
    ∧ ∀ j, (g'.lane j).v = (g.lane j).v ∧ (g'.lane j).t = (g.lane j).t ∧ (g'.lane j).p = (g.lane j).p ∧ (g'.lane j).fl = (g.lane j).fl)
  ∧ ((s.core is.core).flights = [] → (∀ l ∈ s.l2, l.cells = []) → Goes s t is sh is.g ∧ ∀ a, t.mem.read a = s.mem.read a)

/-- O (R225): a prefetch completes, and writes neither registers nor memory; a fence completes once its accesses are performed. -/
def Sys2Proof.Claims.prefetchesAndFencesComplete : Prop :=
  (∀ (a : Opnd) (sh : Shape) (s : State) (is : Iss), form (.pref a) = some sh → s.issuer = some is → sh.firstError is = none →
    let t := (is.lanes.foldl (fun s j => s.prefetch is false (is.g.src64 (is.g.lane j) a)) s).advance is sh
    exec (.pref a) s = .next t ∧ onlyFetched s t is sh)
  ∧ (∀ (a : Opnd) (x : MemExt) (sh : Shape) (s : State) (is : Iss), form (.prefExtended a x) = some sh → s.issuer = some is →
    sh.firstError is = none →
    let t := (is.lanes.foldl (fun s j => s.prefetch is x.repl
      (is.g.src64 (is.g.lane j) a + (is.g.src (is.g.lane j) .int x.c 0).signExtend 64 + x.imm.signExtend 64)) s).advance is sh
    exec (.prefExtended a x) s = .next t ∧ onlyFetched s t is sh)
  ∧ (∀ (n : BitVec 8) (sh : Shape) (s : State) (is : Iss), form (.fence n) = some sh → s.issuer = some is → sh.firstError is = none →
    (is.lanes = [] → ∃ t, exec (.fence n) s = .next t ∧ Completes s t is sh is.g)
    ∧ ∀ s', is.lanes ≠ [] → Released s is n.toNat s' →
        exec (.fence n) s = .next ((if n.toNat ≥ 3 then s'.dropL1 is.core else s').advance is sh)
        ∧ (n.toNat ≥ 3 → ∀ t, exec (.fence n) s = .next t → (t.core is.core).l1 = []))

/-- O (R47, R105, R106, R125). -/
def Sys2Proof.Claims.specialFunctionsQueueTheirResults : Prop :=
  ∀ (i : Instr) (fn : Nat) (d a : Opnd) (tag : BitVec 4) (sh : Shape) (s : State) (is : Iss), sfuOf i = some (fn, d, a, tag) →
    form i = some sh → s.issuer = some is → sh.firstError is = none → ∃ o, sfuPend is sh fn d a tag o ∧ Tagged i s is sh o

/-- The exact value of a finite number. -/
def Sys2Proof.Claims.ratOf : Val → ℚ
  | .fin s n d => (signedNum s n : ℚ) / (d : ℚ)
  | _ => 0

/-- O (R126): the table's rows for NaN, infinities and zeros. -/
def Sys2Proof.Claims.specialFunctionsOfSpecialInputs : Prop :=
  (∀ fn x, fn < 8 → x < 2 ^ 32 → (Fmt.fp32.value x).isNan = true → sfuResult fn x = (0x7FC00000, 0))
  ∧ (List.range 8).map (fun fn => sfuResult fn 0x7F800000)
      = [(0, 0), (0, 0), (0x7F800000, 0), (0x7F800000, 0), (0x7F800000, 0), (0x7FC00000, fInvalid), (0x7FC00000, fInvalid), (0x3F800000, 0)]
  ∧ (List.range 8).map (fun fn => sfuResult fn 0xFF800000)
      = [(0x80000000, 0), (0x7FC00000, fInvalid), (0x7FC00000, fInvalid), (0, 0), (0x7FC00000, fInvalid), (0x7FC00000, fInvalid),
         (0x7FC00000, fInvalid), (0xBF800000, 0)]
  ∧ (List.range 8).map (fun fn => sfuResult fn 0)
      = [(0x7F800000, fDivZero), (0x7F800000, fDivZero), (0, 0), (0x3F800000, 0), (0xFF800000, fDivZero), (0, 0), (0x3F800000, 0), (0, 0)]
  ∧ (List.range 8).map (fun fn => sfuResult fn 0x80000000)
      = [(0xFF800000, fDivZero), (0xFF800000, fDivZero), (0x80000000, 0), (0x3F800000, 0), (0xFF800000, fDivZero), (0x80000000, 0),
         (0x3F800000, 0), (0x80000000, 0)]
  ∧ (∀ fn x num den, fn = 1 ∨ fn = 2 ∨ fn = 4 → 0 < num → Fmt.fp32.value x = .fin true num den →
      sfuResult fn x = (0x7FC00000, fInvalid))

/-- O (R126): the table's rows and exact results for other numbers. -/
def Sys2Proof.Claims.specialFunctionsOfNumbers : Prop :=
  ∀ (x : Nat) (neg : Bool) (num den : Nat), x < 2 ^ 32 → Fmt.fp32.value x = .fin neg num den →
    let v := ratOf (.fin neg num den)
    let one : Nat := if neg then 0xBF800000 else 0x3F800000
    (v ≠ 0 → |v| ≤ 1 / 2 ^ 128 → sfuResult 0 x = ((if neg then 0xFF800000 else 0x7F800000), fOverflow ||| fInexact))
    ∧ (2 ^ 126 < |v| → sfuResult 0 x = ((if neg then 0x80000000 else 0), fUnderflow ||| fInexact))
    ∧ (1 / 2 ^ 128 < |v| → |v| ≤ 2 ^ 126 → ∃ y, sfuResult 0 x = (y, 0)
        ∧ (y = (Fmt.fp32.round .rdn (.fin neg den num)).1 ∨ y = (Fmt.fp32.round .rup (.fin neg den num)).1))
    ∧ (128 ≤ v → sfuResult 3 x = (0x7F800000, fOverflow ||| fInexact))
    ∧ (v ≤ -150 → sfuResult 3 x = (0, fUnderflow ||| fInexact))
    ∧ (∀ k : Int, v = k → -149 ≤ k → k ≤ 127 → ∃ y, sfuResult 3 x = (y, 0) ∧ ratOf (Fmt.fp32.value y) = (2 : ℚ) ^ k)
    ∧ ((∀ k : Int, v ≠ k) → -150 < v → v < 128 →
        (sfuResult 3 x).1 ≠ 0 ∧ (sfuResult 3 x).2 = if v < -126 then fUnderflow ||| fInexact else 0)
    ∧ (∀ k : Int, v = (2 : ℚ) ^ k → ∃ y, sfuResult 4 x = (y, 0) ∧ ratOf (Fmt.fp32.value y) = k)
    ∧ (10 ≤ |v| → sfuResult 7 x = (one, 0))

/-- O (R174, R175, R177, R183): that a bad descriptor, or a root that is not canonical, stops nothing where no lane contributes is the model's
choice (DESIGN CHOICE, log 43). -/
def Obligations.SamplesAndRayQueriesQueueTheirLanes : Prop :=
  (∀ (i : Instr) (n : Nat) (d c : Opnd) (tag : BitVec 4) (nofb : Bool) (bias : BitVec 16) (f : Iss → Nat → List W32) (sh : Shape)
      (s : State) (is : Iss), sampleOf i = some (n, d, tag, c, nofb, bias, f) → form i = some sh → s.issuer = some is →
    sh.firstError is = none →
    let desc := regsOf is Lane.blank .int c 8
    (is.lanes ≠ [] → texBad desc = true → exec i s = .next (s.teamStop is.key (StopCause.at Causes.textureDescriptor is.run.ipc)))
    ∧ (is.lanes = [] ∨ texBad desc = false →
      Tagged i s is sh (queuedOp is tag d 4 (.tex n desc bias nofb) (is.lanes.map (fun j => ⟨j, 0, f is j, .todo⟩)))))
  ∧ ∀ (i : Instr) (all cb cf : Bool) (d a c : Opnd) (tag : BitVec 4) (mask : BitVec 8) (sh : Shape) (s : State) (is : Iss),
    rayOf i = some (all, d, a, tag, cb, cf, c, mask) → form i = some sh → s.issuer = some is → sh.firstError is = none →
    let root := is.g.src64 Lane.blank c
    (is.lanes ≠ [] → canonical root = false →
      exec i s = .next (s.teamStop is.key { StopCause.at Causes.nonCanonical is.run.ipc with va := root.toNat % 2 ^ 52 }))
    ∧ (is.lanes = [] ∨ canonical root = true →
      Tagged i s is sh (queuedOp is tag d (if all then 8 else 1) (.ray all root mask cb cf)
        (is.lanes.map (fun j => ⟨j, 0, regsOf is (is.g.lane j) .fp a 8, .todo⟩))))

/-- The call of a lane (14 R317): its handle, and what it hands to the Heddle. -/
def Sys2Proof.Claims.callOf (is : Iss) (a c : Opnd) (nin : BitVec 6) (nout : BitVec 5) (seq j : Nat) : Addr × Call :=
  (is.g.src64 (is.g.lane j) c,
    { group := is.key, seq := seq, lane := j, inputs := regsOf is (is.g.lane j) .fp a (nin.toNat + 1), nout := nout.toNat + 1 })

/-- A call stands in a bin or a tile of its handle. -/
def Sys2Proof.Claims.called (x : Cluster) (part : Nat) (e : Addr × Call) : Prop :=
  (∃ b ∈ x.bins, b.part = part ∧ b.handle = e.1 ∧ e.2 ∈ b.calls) ∨ ∃ t ∈ x.tiles, t.part = part ∧ t.handle = e.1 ∧ e.2 ∈ t.calls

/-- O (R317, R319): a neural call waits on its tag, and its lanes' calls enter their handles' bins; it is held while a call finds no bin,
which cannot happen while as many bins as there are handles are free. -/
def Sys2Proof.Claims.neuralCallsEnterTheirBins : Prop :=
  ∀ (d a c : Opnd) (tag : BitVec 4) (nin : BitVec 6) (nout : BitVec 5) (sh : Shape) (s : State) (is : Iss),
    form (.ncall d a tag c nin nout) = some sh → s.issuer = some is → sh.firstError is = none →
    let i : Instr := .ncall d a tag c nin nout
    let k := clusterOf is.core
    let call := callOf is a c nin nout
    let bad (j : Nat) : Bool := !canonical (call 0 j).1 || (call 0 j).1.toNat % 64 ≠ 0
    let enter (seq : Nat) (lanes : List Nat) := enterCalls k is.team.part (s.coreClock is.core) (call seq) lanes s
    let goes (lanes : List Nat) (seq : Nat) (g : Group) : Prop := ∃ t, exec i s = .next t ∧ Goes s t is sh g
      ∧ t = { s with teams := t.teams, clusters := (enter seq lanes).1.clusters } ∧ (∀ x, x ≠ k → t.cluster x = s.cluster x)
      ∧ ∀ j ∈ lanes, called (t.cluster k) is.team.part (call seq j)
    let held (lanes : List Nat) (seq : Nat) (g : Group) : Prop := ∃ t, exec i s = .next t
      ∧ t = { s with teams := t.teams, clusters := (enter seq lanes).1.clusters }
      ∧ t.group? is.key = some { g with entering := some (seq, (enter seq lanes).2),
                                        run := some { is.run with next := is.run.ipc, pfx := Modifier.none, stalled := true } }
    let o := queuedOp is tag d (nout.toNat + 1) (.neural (nin.toNat + 1) (nout.toNat + 1))
      (is.lanes.map (fun j => ⟨j, (call 0 j).1, (call 0 j).2.inputs, .todo⟩))
    (is.g.entering = none →
      ((∃ j ∈ is.lanes, bad j = true) → exec i s = .next (s.teamStop is.key (StopCause.at Causes.neuralOperand is.run.ipc)))
      ∧ ((∀ j ∈ is.lanes, bad j = false) →
        (tagCount is.g tag.toNat ≥ 63 → ∃ t, exec i s = .next t ∧ Holds s t is)
        ∧ (tagCount is.g tag.toNat < 63 → (enter is.g.seq is.lanes).2 = [] →
            goes is.lanes is.g.seq (if is.lanes = [] then is.g else withPend is.g o))
        ∧ (tagCount is.g tag.toNat < 63 → (enter is.g.seq is.lanes).2 ≠ [] → held is.lanes is.g.seq (withPend is.g o))))
    ∧ (∀ seq rest, is.g.entering = some (seq, rest) →
      ((enter seq rest).2 = [] → goes rest seq { is.g with entering := none })
      ∧ ((enter seq rest).2 ≠ [] → held rest seq is.g))
    ∧ (is.lanes.length ≤ 64 → (s.cluster k).bins.length + (handlesOf is c).length ≤ 16 → ∀ seq, (enter seq is.lanes).2 = [])

/-! ### Barriers, batches and bulk operations -/

/-- O (R233, R235). -/
def Sys2Proof.Claims.barrierUpdatesEnterTheStoreQueue : Prop :=
  ∀ (s : State) (is : Iss) (a b : Opnd) (sh : Shape), form (.barr a b) = some sh → s.issuer = some is → sh.firstError is = none →
    let ref := is.g.src64 Lane.blank a
    let n := (wordOf is b).toInt
    let stop (i : Instr) : Prop := exec i s = .next (s.teamStop is.key (StopCause.at Causes.barrierOperand is.run.ipc))
    (is.lanes = [] → ∀ i ∈ [Instr.binit a b, .barr a b, .bexp a b], ∃ t, exec i s = .next t ∧ Completes s t is sh is.g)
    ∧ (is.lanes ≠ [] → s.refAllowed is ref false = true →
        Entered (.barr a b) s is sh (.barr ref n) 0 [] ∧ Entered (.bexp a b) s is sh (.bexp ref n) 0 []
        ∧ (1 ≤ n ∧ n ≤ 65535 → Entered (.binit a b) s is sh (.binit ref n.toNat) 0 [])
        ∧ (n < 1 ∨ n > 65535 → stop (.binit a b)))
    ∧ (is.lanes ≠ [] → s.refAllowed is ref false = false → stop (.binit a b) ∧ stop (.barr a b) ∧ stop (.bexp a b))

/-- O (R240): a BSEAL numbers the next batch and puts the group's operations of no batch into it. -/
def Sys2Proof.Claims.sealNumbersTheNextBatch : Prop :=
  ∀ (sh : Shape) (s : State) (is : Iss), form .bseal = some sh → s.issuer = some is → sh.firstError is = none →
    (is.lanes = [] → ∃ t, exec .bseal s = .next t ∧ Completes s t is sh is.g)
    ∧ (is.lanes ≠ [] → ∃ t, exec .bseal s = .next t ∧
        if (is.g.batchNo - s.batchCount is.key).toNat ≥ 16 then Holds s t is
        else Completes s t is sh { is.g with batchNo := is.g.batchNo + 1,
                                             bulk := is.g.bulk.map (fun b => { b with batch := some (b.batch.getD (is.g.batchNo + 1)) }) })

/-- O (R159, R240, R242, R245, R248). -/
def Obligations.ShuttleOperationsEnterTheirQueue : Prop :=
  ∀ (i : Instr) (kind : ShuttleKind) (good always : Bool) (c : Cause) (sh : Shape) (s : State) (is : Iss),
    form i = some sh → s.issuer = some is → sh.firstError is = none → shuttleOf is i = some (kind, good, c, always) →
    let stop (c : Cause) : Prop := exec i s = .next (s.teamStop is.key (StopCause.at c is.run.ipc))
    (is.lanes = [] → good = true ∨ always = false → ∃ t, exec i s = .next t ∧ Completes s t is sh is.g)
    ∧ (is.lanes ≠ [] ∨ always = true → good = false → stop c)
    ∧ (is.lanes ≠ [] → good = true → (∃ x, shuttleRef is i = some x ∧ s.refAllowed is x false = false) → stop Causes.barrierOperand)
    ∧ (is.lanes ≠ [] → good = true → (∀ x, shuttleRef is i = some x → s.refAllowed is x false = true) →
        ∃ t, exec i s = .next t ∧
          if (s.core is.core).shuttle.length ≥ 32 then Holds s t is
          else Engages s t is sh false { s.core is.core with shuttle := (s.core is.core).shuttle ++ [shuttleJob s is kind] })

/-- O (R145, R146, R159): that the operands are checked where no lane contributes is the model's: DEDUCED (log 24); so is that bits [31:19] of an
MMAS word wm fail: DESIGN CHOICE (log 53). -/
def Obligations.TileOperationsEnterTheMatrixQueue : Prop :=
  ∀ (i : Instr) (kind : TileKind) (good : Bool) (sh : Shape) (s : State) (is : Iss), form i = some sh → s.issuer = some is →
    sh.firstError is = none → tileOf is i = some (kind, good) →
    (good = false → exec i s = .next (s.teamStop is.key (StopCause.at Causes.matrixOperand is.run.ipc)))
    ∧ (good = true → ∃ t, exec i s = .next t ∧
        if (s.core is.core).tiles.length ≥ 32 then Holds s t is
        else Engages s t is sh true { s.core is.core with tiles := (s.core is.core).tiles ++ [tileJob is kind] })

/-- O (R250). -/
def Sys2Proof.Claims.collectivesAreIssued : Prop :=
  ∀ (a b : Opnd) (sh : Shape) (s : State) (is : Iss), form (.coll a b) = some sh → s.issuer = some is → sh.firstError is = none →
    let addr := is.g.src64 Lane.blank a
    let stop (c : Cause) : Prop := exec (.coll a b) s = .next (s.teamStop is.key (StopCause.at c is.run.ipc))
    (is.lanes = [] → ∃ t, exec (.coll a b) s = .next t ∧ Completes s t is sh is.g)
    ∧ (is.lanes ≠ [] → canonical addr = false ∨ addr.toNat % 64 ≠ 0 → stop Causes.collOperand)
    ∧ (is.lanes ≠ [] → canonical addr = true → addr.toNat % 64 = 0 →
        ((∃ x, refField is b = some x ∧ s.refAllowed is x false = false) → stop Causes.barrierOperand)
        ∧ ((∀ x, refField is b = some x → s.refAllowed is x false = true) → ∃ t, exec (.coll a b) s = .next t ∧
            if (s.colls.filter (fun c => c.issued && c.core.die = is.core.die)).length ≥ 64 then Holds s t is
            else Goes s t is sh (withBulk is false) ∧ t = { s with teams := t.teams, colls := s.colls ++ [issuedColl s is a b] }))

/-- O (R253, R254): LAUNCH answers 0 where the queue takes no record, and otherwise submits the 64 words that it reads. -/
def Sys2Proof.Claims.launchSubmitsItsRecord : Prop :=
  ∀ (pd : BitVec 3) (a b : Opnd) (sh : Shape) (s : State) (is : Iss), form (.launch pd a b) = some sh → s.issuer = some is →
    sh.firstError is = none →
    let addr := is.g.src64 Lane.blank a
    let q := (wordOf is b).toNat
    let i : Instr := .launch pd a b
    (is.lanes = [] → ∃ t, exec i s = .next t ∧ Completes s t is sh is.g)
    ∧ (is.lanes ≠ [] → q > 255 ∨ canonical addr = false ∨ addr.toNat % 64 ≠ 0 ∨ s.queue? is.team.part q = none →
        exec i s = .next (s.teamStop is.key (StopCause.at Causes.launchOperand is.run.ipc)))
    ∧ (∀ x, is.lanes ≠ [] → q ≤ 255 → canonical addr = true → addr.toNat % 64 = 0 → s.queue? is.team.part q = some x →
        ((x.en = false ∨ s.pendingFull is.team.part = true) → ∃ t g, exec i s = .next t ∧ Completes s t is sh g
          ∧ WritesPred is g is.lanes pd (fun _ => false))
        ∧ (x.en = true → s.pendingFull is.team.part = false → ∀ s1 s2 buf s3 ws, Released s is 3 s1 →
            s1.pollBuf is.run.buf = (s2, buf, true) →
            engWords { pt := .lane is.core, part := is.team.part, since := none } buf addr.toNat 64
              (s2.updRun is.key (fun r => { r with buf := buf })) = .ok ws s3 →
            ∃ t l, exec i s = .next t ∧ t.launches = s3.launches ++ [l] ∧ l.bytes = bytesOfWords ws ∧ l.part = is.team.part ∧ l.queue = q
              ∧ l.stage = .queued ∧ l.pending = true ∧ l.rec' = none ∧ (∀ k, t.mem.read k = s3.mem.read k)
              ∧ ∀ g, s3.group? is.key = some g → ∃ g', t.group? is.key = some g' ∧ ∀ j ∈ is.lanes, (nth g.lanes j).isSome →
                  (g'.lane j).pred pd.toNat = true))

/-- O (R169 to R173): RAST fills its open slots in the order of the walk and keeps the next candidate as its token. That it has no effect and
raises nothing without a contributing lane is the model's: DEDUCED (log 25); so is the token's staying as it is with no open quad: DESIGN
CHOICE (log 43). -/
def Obligations.RasterizerFillsItsOpenSlots : Prop :=
  ∀ (d a b : Opnd) (sh : Shape) (s : State) (is : Iss), form (.rast d a b) = some sh → s.issuer = some is → sh.firstError is = none →
    let ws := regsOf is Lane.blank .fp a 8
    let token := wordOf is b
    let hdr := ws[6]?.getD 0
    let lim := ws[7]?.getD 0
    let slots := (List.range 16).filter (fun k => (List.range 4).all (fun j => is.lanes.contains (4 * k + j)))
    let tri := Tri.ofBlock (ws.take 6) hdr lim
    let walk := match tri with
      | none => ([], none)
      | some t =>
        if token.getLsbD 31 then ([], none)
        else if slots = [] then ([], some (tokenCand token)) else t.walk 256 slots (t.from' (tokenCand token))
    let hp := (hdr.extractLsb' 0 3).toNat
    let lp := (hdr.extractLsb' 4 3).toNat
    let i : Instr := .rast d a b
    (is.lanes = [] → ∃ t, exec i s = .next t ∧ Completes s t is sh is.g)
    ∧ (is.lanes ≠ [] → rastBad hdr lim token = true → exec i s = .next (s.teamStop is.key (StopCause.at Causes.rasterOperand is.run.ipc)))
    ∧ (is.lanes ≠ [] → rastBad hdr lim token = false → ∃ t g, exec i s = .next t ∧ Goes s t is sh g
        ∧ t = { s with teams := t.teams, fresh := t.fresh } ∧ (hp ≠ lp → t.fresh = s.fresh)
        ∧ some (g.src Lane.blank .int b 0) = some (candToken walk.2)
        ∧ (∀ j ∈ is.lanes, ∀ k, k < 4 → some (g.src (g.lane j) .int d k) = (rastLane tri walk.1 j).1[k]?)
        ∧ (∀ j ∈ is.lanes, hp ≠ lp → (g.lane j).pred hp = (hp = 7 || (rastLane tri walk.1 j).2.2)
            ∧ (g.lane j).pred lp = (lp = 7 || (rastLane tri walk.1 j).2.1))
        ∧ (∀ j ∈ is.lanes, hp = lp → (g.lane j).pred hp = (hp = 7 || (rastLane tri walk.1 j).2.1)
            ∨ (g.lane j).pred hp = (hp = 7 || (rastLane tri walk.1 j).2.2))
        ∧ (∀ j, j ∉ is.lanes → g.lane j = is.g.lane j) ∧ { g with lanes := [], w := [] } = { is.g with lanes := [], w := [] }
        ∧ (∀ j, { g.lane j with v := [], p := 0 } = { is.g.lane j with v := [], p := 0 })
        ∧ (∀ r, b ≠ .w r → Tbl.get g.w r.toNat = Tbl.get is.g.w r.toNat)
        ∧ (∀ j r, (∀ x, d = .v x → r < x.val ∨ x.val + 4 ≤ r) → Tbl.get (g.lane j).v r = Tbl.get (is.g.lane j).v r)
        ∧ ∀ j n, n ≠ hp → n ≠ lp → (g.lane j).pred n = (is.g.lane j).pred n)

/-- O (R323): NPIN and NPREF ask their cluster's Heddle for the set of each handle that the contributing lanes name, NPIN for it to be
pinned; NEVICT takes such requests back, clears the sets' pins, and removes each set that no tile uses, the others once none does. -/
def Sys2Proof.Claims.weightSetHintsActOnTheirHandles : Prop :=
  ∀ (a : Opnd) (sh : Shape) (s : State) (is : Iss), form (.npin a) = some sh → s.issuer = some is → sh.firstError is = none →
    let k := clusterOf is.core
    let part := is.team.part
    let hs := (handlesOf is a).filter (fun h => canonical h && decide (h.toNat % 64 = 0))
    let ask (pin : Bool) (h : Addr) : Hint := { part := part, handle := h, launch := is.team.launch, pin := pin, buf := { got := [], asked := none } }
    let asks (i : Instr) (pin : Bool) : Prop := ∃ t, exec i s = .next t ∧ Goes s t is sh is.g
      ∧ t = { s with teams := t.teams, clusters := t.clusters } ∧ (∀ x, x ≠ k → t.cluster x = s.cluster x)
      ∧ t.cluster k = { s.cluster k with hints := (s.cluster k).hints ++ hs.map (ask pin) }
    let mark (b : BobSet) : BobSet := if b.part = part ∧ b.handle ∈ hs then { b with pins := [], evict := true } else b
    asks (.npin a) true ∧ asks (.npref a) false
    ∧ ∃ t, exec (.nevict a) s = .next t ∧ Goes s t is sh is.g ∧ t = { s with teams := t.teams, clusters := t.clusters, cores := t.cores }
      ∧ (∀ x, x ≠ k → t.cluster x = s.cluster x) ∧ (∀ x, x ∉ clusterCores k → t.core x = s.core x)
      ∧ (hs = [] → ∀ x, t.core x = s.core x)
      ∧ t.cluster k = { s.cluster k with hints := (s.cluster k).hints.filter (fun y => !(y.part = part && hs.contains y.handle)) }
      ∧ (hs ≠ [] → ∀ x ∈ clusterCores k,
          t.core x = { s.core x with sets := ((s.core x).sets.map mark).filter (fun b => !b.evict || (s.cluster k).uses x.core b) })

/-- O (R333): a handler lane's return is fixed once its accesses are performed. -/
def Sys2Proof.Claims.handlerReturnsAreFixed : Prop :=
  ∀ (a : Opnd) (sh : Shape) (s s' : State) (is : Iss), form (.tret a) = some sh → s.issuer = some is → sh.firstError is = none →
    (is.lanes = [] → ∃ t, exec (.tret a) s = .next t ∧ Completes s t is sh (withEnder is is.g (.tret [])))
    ∧ (is.lanes ≠ [] → s.settled is.key = (s', true) → ∀ g, s'.group? is.key = some g → g.run = some is.run →
        ∃ t, exec (.tret a) s = .next t ∧ t.group? is.key = some
          { g with run := some { nextRun is 0 0 with
                     ender := some (.tret (is.lanes.map (fun j => (j, is.g.src64 (is.g.lane j) a))), is.run.ipc) },
                   skid := if is.g.stopped then g.skid + 1 else g.skid })

/-- O (R335, R337): PRESENT puts its descriptor at the end of the head's queue, dropping the oldest of a full one. -/
def Obligations.PresentEntersTheHeadsQueue : Prop :=
  ∀ (a b : Opnd) (sh : Shape) (s : State) (is : Iss), form (.present a b) = some sh → s.issuer = some is → sh.firstError is = none →
    let addr := is.g.src64 Lane.blank a
    let h := (wordOf is b).toNat
    (is.lanes = [] → ∃ t, exec (.present a b) s = .next t ∧ Completes s t is sh is.g)
    ∧ (is.lanes ≠ [] → canonical addr = false ∨ addr.toNat % 64 ≠ 0 ∨ h > 63 ∨ s.head? is.team.part h = none →
        exec (.present a b) s = .next (s.teamStop is.key (StopCause.at Causes.presentOperand is.run.ipc)))
    ∧ (is.lanes ≠ [] → canonical addr = true → addr.toNat % 64 = 0 → h ≤ 63 → (s.head? is.team.part h).isSome = true → ∀ s', Released s is 3 s' →
        exec (.present a b) s = .next ((s'.updHead is.team.part h (fun x => x.enqueue addr s'.wlog.length)).advance is sh)
        ∧ ∀ x t, s'.head? is.team.part h = some x → x.queue.length ≤ 4 → exec (.present a b) s = .next t →
            ∃ x', t.head? is.team.part h = some x' ∧ x'.queue = (x.queue ++ [(addr, s'.wlog.length)]).drop (x.queue.length - 3)
              ∧ x'.drop = x.drop + (if x.queue.length = 4 then 1 else 0) ∧ (x.queue.length < 4 → x'.drops = x.drops))

/-! ### Supervisor instructions and service calls -/

/-- O (R364, R72): the five supervisor instructions stop a team without the right, before their own checks. -/
def Obligations.SupervisorInstructionsNeedTheRight : Prop :=
  (∀ (i : Instr) (sh : Shape), form i = some sh → (sh.priv = true ↔
      (∃ d a fn, i = .sysrd d a fn) ∨ (∃ d a fn, i = .syswr d a fn) ∨ (∃ a b, i = .tlbinv a b) ∨ (∃ a b, i = .keysel a b)
      ∨ ∃ d a b, i = .partctl d a b))
  ∧ ∀ (i : Instr) (sh : Shape) (s : State) (is : Iss), form i = some sh → sh.priv = true → s.issuer = some is → is.team.sup = false →
    is.run.pfx.reserved = 0 →
    let allowed : Prop := ∀ x ∈ sh.slots, x.kinds.allows x.op = true ∧ x.fits = true
    let readOnly : Prop := ∃ x ∈ sh.slots, x.dst = true ∧ ∃ r, x.op = .w r ∧ r.toNat < 8
    (allowed → ¬ readOnly → exec i s = .next (s.teamStop is.key (StopCause.at Causes.privilege is.run.ipc)))
    ∧ (¬ allowed → exec i s = .next (s.teamStop is.key (StopCause.at Causes.illegalOperand is.run.ipc)))
    ∧ (allowed → readOnly → exec i s = .next (s.teamStop is.key (StopCause.at Causes.encoding is.run.ipc)))

/-- O (R31): naming a vector register beyond the group's budget stops the team. -/
def Obligations.RegistersBeyondTheBudgetStopTheTeam : Prop :=
  ∀ (i : Instr) (sh : Shape) (s : State) (is : Iss), form i = some sh → s.issuer = some is →
    let wide : Iss := { is with g := { is.g with budget := 192 } }
    ((∃ x ∈ sh.slots, ∃ r, x.op = .v r ∧ is.g.budget < r.val + x.n) →
      (∀ c, sh.firstError wide = some c → c ∈ [Causes.registerBudget, Causes.enderNotLast, Causes.longToTemp, Causes.unwrittenTemp,
        Causes.handlerOperation]) →
      exec i s = .next (s.teamStop is.key (StopCause.at Causes.registerBudget is.run.ipc)))
    ∧ (sh.firstError is = none → ∀ x ∈ sh.slots, ∀ r, x.op = .v r → r.val + x.n ≤ is.g.budget)

/-- O (R372, R373): that a space above 4 is judged after the form checks is the model's: DESIGN CHOICE (log 53). -/
def Obligations.ControlSpacesAreReadAndWritten : Prop :=
  ∀ (d a : Opnd) (fn : BitVec 8) (sh : Shape) (s : State) (is : Iss), form (.sysrd d a fn) = some sh → s.issuer = some is →
    sh.firstError is = none →
    let off := (wordOf is a).toNat
    let bad : Prop := fn.toNat > 4 ∨ off % 4 ≠ 0 ∨ off ≥ spaceSize fn.toNat
    (bad → exec (.sysrd d a fn) s = .next (s.teamStop is.key (StopCause.at Causes.controlOperand is.run.ipc)))
    ∧ (¬bad → ∀ s' g, Released s is 3 s' → s'.group? is.key = some g → ∃ t g', exec (.sysrd d a fn) s = .next t
        ∧ t.group? is.key = some g' ∧ (t.core is.core).l1 = []
        ∧ g'.src Lane.blank .int d 0 = (s'.dropL1 is.core).ctlRead is.team.part fn.toNat off
        ∧ (∀ r, d ≠ .w r → Tbl.get g'.w r.toNat = Tbl.get g.w r.toNat) ∧ g'.lanes = g.lanes)
    ∧ ∀ (sh' : Shape), form (.syswr d a fn) = some sh' → sh'.firstError is = none →
        (bad → exec (.syswr d a fn) s = .next (s.teamStop is.key (StopCause.at Causes.controlOperand is.run.ipc)))
        ∧ (¬bad → ∀ s' s2 c, Released s is 3 s' →
            (s'.dropL1 is.core).ctlWrite is.team.part fn.toNat off (is.g.src Lane.blank .int a 1) = (s2, c) →
            exec (.syswr d a fn) s = .next ((s2.putWord is d (BitVec.ofNat 32 c)).advance is sh'))

/-- No TLB of the module holds an entry that satisfies a test: the L1 TLBs and the walk-ahead TLBs of the cores, and the last-level TLBs of
the dies. -/
def Sys2Proof.Claims.noEntry (t : State) (bad : TlbEntry → Prop) : Prop :=
  (∀ c, ∀ e ∈ (t.core c).tlb ++ (t.core c).ahead, ¬ bad e) ∧ ∀ d, ∀ e ∈ (t.die d).tlb, ¬ bad e

/-- O (R374, R375): TLB entries of the range go at once and the run holds until the invalidation completes; KEYSEL binds a key index, and
what the partition reached through it is dropped: TLB entries, weight sets, and under the handle bound before its L1 and L2 lines and replicas. -/
def Sys2Proof.Claims.translationsAndKeysAreDropped : Prop :=
  (∀ (a b : Opnd) (sh : Shape) (s : State) (is : Iss), form (.tlbinv a b) = some sh → s.issuer = some is → sh.firstError is = none →
    let addr := is.g.src64 Lane.blank a
    let ctl := (wordOf is b).toNat
    let size := ctl / 256 % 4
    let page := 2 ^ (12 + 9 * size)
    let bad : Prop := ctl / 1024 ≠ 0 ∨ size ≠ 3 ∧ (canonical addr = false ∨ addr.toNat % page ≠ 0)
    let s' := ((s.settle is.key).flushAll is.core).dropAcked is.core
    (bad → exec (.tlbinv a b) s = .next (s.teamStop is.key (StopCause.at Causes.controlOperand is.run.ipc)))
    ∧ (∀ x, ¬bad → is.g.tlbinv = some x → x.done = true →
        ∃ t, exec (.tlbinv a b) s = .next t ∧ Goes s t is sh { is.g with tlbinv := none } ∧ (t.core is.core).l1 = [])
    ∧ (∀ g, ¬bad → is.g.tlbinv = none → s'.group? is.key = some g → g.askedPeer = false →
        ∃ t, exec (.tlbinv a b) s = .next t
          ∧ noEntry t (fun e => e.part = is.team.part ∧ (size = 3 ∨ e.va < addr.toNat + page * (ctl % 256 + 1) ∧ addr.toNat < e.va + e.size)
              ∧ e.va < 2 ^ 64 ∧ 0 < e.va + e.size)
          ∧ ∃ g' x, t.group? is.key = some g' ∧ g'.tlbinv = some x ∧ x.done = false))
  ∧ ∀ (a b : Opnd) (sh : Shape) (s : State) (is : Iss), form (.keysel a b) = some sh → s.issuer = some is → sh.firstError is = none →
    let k := (wordOf is a).toNat
    let w := wordOf is b
    let h := (w.extractLsb' 0 6).toNat
    let stop (c : Cause) : Prop := exec (.keysel a b) s = .next (s.teamStop is.key (StopCause.at c is.run.ipc))
    let bad : Prop := k = 0 ∨ k > 15 ∨ w.extractLsb' 6 25 ≠ 0
    let granted : Prop := ∃ x ∈ s.handles, x.id = h ∧ is.team.part ∈ x.granted
    (bad → stop Causes.controlOperand) ∧ (¬bad → w.getLsbD 31 = true → ¬granted → stop Causes.keyGrant)
    ∧ (¬bad → w.getLsbD 31 = false ∨ granted → ∀ s', Released s is 3 s' → ∃ t, exec (.keysel a b) s = .next t ∧ (t.core is.core).l1 = []
        ∧ (∀ p, t.part? is.team.part = some p → k < p.kb.length → nth p.kb k = some (if w.getLsbD 31 then some h else none))
        ∧ ∀ p, s'.part? is.team.part = some p → noEntry t (fun e => e.part = p.id ∧ e.pte.key = k)
          ∧ (∀ c, ∀ x ∈ (t.core c).sets, x.part = p.id → x.key ≠ k)
          ∧ ∀ old, p.bound k = some old → (∀ l ∈ t.l2, l.owner ≠ .handle old) ∧ (∀ c ∈ p.allCores, ∀ l ∈ (t.core c).l1, l.owner ≠ .handle old)
            ∧ ∀ r ∈ t.replicas, r.owner = .handle old → ∀ l ∈ t.launches, l.key = r.launch → l.part ≠ p.id)

/-- O (R376, R377): a resize request that passes its checks is answered with its number. -/
def Sys2Proof.Claims.resizeRequestsAreNumbered : Prop :=
  ∀ (d a b : Opnd) (sh : Shape) (s s' : State) (is : Iss) (p : Part), form (.partctl d a b) = some sh → s.issuer = some is →
    sh.firstError is = none →
    let w := wordOf is b
    let arg := (w.extractLsb' 8 8).toNat
    let die := if w.getLsbD 19 then none else some (w.extractLsb' 16 3).toNat
    let shrink : Bool := w.extractLsb' 0 4 = 1
    let c : ClusterKey := { die := die.getD 0, cluster := arg }
    let stop (c : Cause) : Prop := exec (.partctl d a b) s = .next (s.teamStop is.key (StopCause.at c is.run.ipc))
    (resizeBad w = true → stop Causes.controlOperand)
    ∧ (resizeBad w = false → (∃ x, refField is a = some x ∧ s.refAllowed is x false = false) → stop Causes.barrierOperand)
    ∧ (resizeBad w = false → (∀ x, refField is a = some x → s.refAllowed is x false = true) → Released s is 3 s' →
        s'.part? is.team.part = some p →
        let s2 := s'.dropL1 is.core
        let refused (c : Cause) : Prop := ∃ t, exec (.partctl d a b) s = .next t ∧
          (∀ g, s'.group? is.key = some g → ∃ g', t.group? is.key = some g' ∧ g'.src Lane.blank .int d 0 = BitVec.ofNat 32 (2 ^ 31 + c.toNat))
          ∧ ∀ p', t.part? is.team.part = some p' → p'.resize = p.resize ∧ p'.clreq = p.clreq
        (p.resize ≠ none → refused Causes.requestPending)
        ∧ (p.resize = none → shrink = false → (s2.freeClusters die).length < arg → refused Causes.tooFewClusters)
        ∧ (p.resize = none → shrink = true → c ∉ p.clusters → refused Causes.notOwned)
        ∧ (p.resize = none → shrink = true → c ∈ p.clusters → p.clusters.length ≤ 1 → refused Causes.lastCluster)
        ∧ (p.resize = none → (shrink = false → arg ≤ (s2.freeClusters die).length) → (shrink = true → c ∈ p.clusters ∧ 2 ≤ p.clusters.length) →
            ∃ t, exec (.partctl d a b) s = .next t
              ∧ (∀ g, s'.group? is.key = some g → ∃ g', t.group? is.key = some g'
                  ∧ g'.src Lane.blank .int d 0 = BitVec.ofNat 32 ((p.clreq + 1) % 2 ^ 31))
              ∧ ∀ p', t.part? is.team.part = some p' → p'.clst = 1 ∧ p'.clreq = (p.clreq + 1) % 2 ^ 31 ∧ p'.clusters = p.clusters
                  ∧ ∃ r, p'.resize = some r ∧ r.shrink = shrink ∧ r.arg = arg ∧ r.die = die))

/-- O (R379): a service call writes its record to the ring and its number to a register, or -1 where the ring is full. -/
def Obligations.ServiceCallsWriteTheirRecord : Prop :=
  ∀ (n : BitVec 16) (k : BitVec 8) (sh : Shape) (s s' : State) (is : Iss) (p : Part) (g : Group), form (.svc n k) = some sh →
    s.issuer = some is → sh.firstError is = none →
    (k ≠ 8 → k ≠ 16 → k ≠ 24 → exec (.svc n k) s = .next (s.teamStop is.key (StopCause.at Causes.controlOperand is.run.ipc)))
    ∧ (k = 8 ∨ k = 16 ∨ k = 24 → Released s is 5 s' → s'.part? is.team.part = some p → s'.group? is.key = some g →
        let size := 2 ^ (p.svcLg + 4)
        let full : Prop := (p.svcWr + 2 ^ 31 - p.svcRd) % 2 ^ 31 = size
        let a := p.svc + 64 * (p.svcWr % size)
        let r := (s'.dropL1 is.core).homeWrite a (bytesOfWords (svcRecord is p.svcWr n.toNat k.toNat)) (.part p.id) (a / 2 ^ 35)
        ∃ t g', exec (.svc n k) s = .next t ∧ t.group? is.key = some g' ∧ g'.lanes = g.lanes
          ∧ (∀ j, j ≠ k.toNat + 7 → Tbl.get g'.w j = Tbl.get g.w j)
          ∧ (full → Tbl.get g'.w (k.toNat + 7) = 0xFFFFFFFF ∧ t.mem = s'.mem ∧ t.l2 = s'.l2)
          ∧ (¬full → Tbl.get g'.w (k.toNat + 7) = BitVec.ofNat 32 p.svcWr
              ∧ (∀ p', t.part? is.team.part = some p' → p'.svcWr = (p.svcWr + 1) % 2 ^ 31)
              ∧ (s'.ownsKey p.id a = true → t.mem = r.mem ∧ t.l2 = r.l2)))

/-! ### Events: memory, tags, batches -/

/-- The scratchpad bytes that an entry's lanes write, in order. -/
def Sys2Proof.Claims.entryWrites (n : Nat) (col : Bool) (ls : List PendLane) : List (Nat × Byte) :=
  ls.flatMap (fun l => ((scratchPlaces l.ea.toNat n col).map (fun p => p.addr)).zip ((bytesOfWords l.args).take n))

/-- The head of a group's store queue may leave: its earlier loads and feedback minima are performed, and nothing of it waits for a peer. -/
def Sys2Proof.Claims.mayLeave (s : State) (k : GroupKey) (tm : Team) (c : CoreKey) (g : Group) (e : QEntry) (es : List QEntry) : Prop :=
  s.team? k.team = some tm ∧ s.coreOf k = some c ∧ s.group? k = some g ∧ g.queue = e :: es ∧ e.parked = false
  ∧ (∀ o ∈ g.pend, o.kind.isMem = true ∨ o.kind.feeds = true → e.seq < o.seq) ∧ (∀ f ∈ (s.core c).flights, f.line.isSome = true) ∧ ∀ l ∈ e.lanes, l.acc = .todo

/-- It has no scope that waits for the core's stores. -/
def Sys2Proof.Claims.mayLeaveNow (s : State) (k : GroupKey) (tm : Team) (c : CoreKey) (g : Group) (e : QEntry) (es : List QEntry) : Prop :=
  mayLeave s k tm c g e es ∧ e.scope < 3

/-- Lanes act one after another, each from the state that the one before left. -/
def Sys2Proof.Claims.eachLane (act : PendLane → State → State → Prop) : List PendLane → State → State → Prop
  | [], s, s' => s' = s
  | l :: ls, s, s' => ∃ s1, act l s s1 ∧ eachLane act ls s1 s'

/-- An address is translated for a use to a home in memory, which leaves the state `s1`. -/
def Sys2Proof.Claims.reaches (s : State) (c : CoreKey) (tm : Team) (m : Perm) (a : Addr) (s1 : State) (key home : Nat) (owner : Owner) : Prop :=
  ∃ repl, s.access (.lane c) tm.part m a.toNat = (s1, .ok (.mem key home owner repl))

/-- A read-modify-write of `n` bytes at a home (R228, R263, R264): the core's stores and every overtaken store to the line are performed
first, the old words are the bytes at the home, the new ones are stored there; an acquire drops L1, else L1 fetches the words again. -/
def Sys2Proof.Claims.modifies (s : State) (c : CoreKey) (key home n scope : Nat) (owner : Owner) (f : List W32 → List W32) (old : List W32)
    (s' : State) : Prop :=
  let r := ((s.flushAll c).catchUp key n).keyRead key n owner
  old = wordsOfBytes (n / 4) r.2
  ∧ s' = (let t := r.1.store key (bytesOfWords (f old)) owner home; if 3 ≤ scope then t.dropL1 c else t.punch c key n)

/-- One lane of a queued store or reduction leaves (R222, R226, R229, R258). -/
def Sys2Proof.Claims.laneLeaves (k : GroupKey) (c : CoreKey) (tm : Team) (e : QEntry) (l : PendLane) (s s' : State) : Prop :=
  let who : Writer := { idx := some k.idx, seq := e.seq, tile := false }
  match e.kind with
  | .store true n col => s' = s.scratchStore k.team who (((scratchPlaces l.ea.toNat n col).map (fun p => p.addr)).zip ((bytesOfWords l.args).take n))
  | .store false n _ => ∃ s1 key home owner, reaches s c tm .wr l.ea s1 key home owner
      ∧ s' = s1.sendStore k c key ((bytesOfWords l.args).take n) owner home
  | .red true fn w64 => ∃ t, s.team? k.team = some t
      ∧ s' = s.scratchStore k.team who ((upFrom l.ea.toNat (if w64 then 8 else 4)).zip (bytesOfWords
          (atomWords fn w64 (wordsOfBytes (if w64 then 2 else 1) (Tbl.getList t.scratch l.ea.toNat (if w64 then 8 else 4))) l.args)))
  | .red false fn w64 => ∃ s1 key home owner, reaches s c tm .rw l.ea s1 key home owner
      ∧ if fn = 9 then s' = (let t := ((s1.flushAll c).catchUp key 4).reduceAdd key (l.args.getD 0 0) owner home
                            if 3 ≤ e.scope then t.dropL1 c else t.punch c key 4)
        else ∃ old, modifies s1 c key home (if w64 then 8 else 4) e.scope owner (fun x => atomWords fn w64 x l.args) old s'
  | _ => False

/-- O (R224, R225, R228, R229, R234, R258, R264): what leaves a store queue: stores and reductions lane by lane, updates of barrier
objects; and a store on its way that is performed ahead of others: the core counts those it overtook, and the stores of other cores that
were overtaken at their lines are performed first (R259, R263). L1 keeps a line whose object was updated, but for 16 bytes: DEDUCED (log 17). -/
def Sys2Proof.Claims.storesLeaveTheQueueInOrder : Prop :=
  (∀ (k : GroupKey) (s : State) (tm : Team) (c : CoreKey) (g : Group) (e : QEntry) (es : List QEntry) (n : Nat) (col : Bool),
    mayLeaveNow s k tm c g e es → e.kind = .store true n col →
    ∃ t, exec (.storeQueueLeave k) s = .next t ∧ (t.group? k).map (fun x => x.queue) = some es ∧ t.mem = s.mem
      ∧ (t.team? k.team).map (fun x => x.scratch) = some ((entryWrites n col e.lanes).foldl (fun m w => Tbl.set m w.1 w.2) tm.scratch))
  ∧ (∀ (k : GroupKey) (s s1 : State) (tm : Team) (c : CoreKey) (g : Group) (e : QEntry) (es : List QEntry) (n : Nat) (col : Bool)
      (l : PendLane) (key home : Nat) (owner : Owner) (r : Bool),
    mayLeaveNow s k tm c g e es → e.kind = .store false n col → e.lanes = [l] →
    s.access (.lane c) tm.part .wr l.ea.toNat = (s1, .ok (.mem key home owner r)) →
    ∃ t, exec (.storeQueueLeave k) s = .next t ∧ (t.group? k).map (fun x => x.queue) = some es ∧ t.mem = s1.mem
      ∧ (t.core c).flights = (s1.core c).flights ++ [.bytes k key ((bytesOfWords l.args).take n) owner home])
  ∧ (∀ (k : GroupKey) (s s' : State) (tm : Team) (c : CoreKey) (g : Group) (e : QEntry) (es : List QEntry),
    mayLeave s k tm c g e es → eachLane (laneLeaves k c tm e) e.lanes (if 3 ≤ e.scope then s.flushAll c else s) s' →
    exec (.storeQueueLeave k) s = .next (s'.updGroup k (fun x => { x with queue := x.queue.drop 1 })))
  ∧ (∀ (k : GroupKey) (s s1 : State) (tm : Team) (c : CoreKey) (g : Group) (e : QEntry) (es : List QEntry) (ref : W64) (u : ObjUpd)
      (o : ObjRef) (home : Nat),
    mayLeave s k tm c g e es → ((∃ n, e.kind = .binit ref n ∧ u = .init n) ∨ (∃ b, e.kind = .barr ref b ∧ u = .arrive b)
      ∨ ∃ b, e.kind = .bexp ref b ∧ u = .add b) →
    s.reach (.lane c) tm ref .rw = (s1, .obj o home) →
    exec (.storeQueueLeave k) s = .next ((match o with
      | .phys key => ((s1.flushAll c).updObj o home u).punch c key 16
      | _ => s1.updObj o home u).updGroup k (fun x => { x with queue := x.queue.drop 1 })))
  ∧ ∀ (k : GroupKey) (s : State) (c : CoreKey) (g : Group) (f₁ f₂ : List Flight) (key home : Nat) (bs : List Byte) (owner : Owner),
    s.group? k = some g → s.coreOf k = some c → g.queue = [] → (s.core c).flights = f₁ ++ .bytes k key bs owner home :: f₂ →
    (∀ f ∈ f₁, flightOf k f = true → f.line = none) → Flight.bytes k key bs owner home ∉ f₁ ++ f₂ →
    let m := f₁.filterMap Flight.line
    let late := (s.core c).passed
    let s' (n : Nat) : State := ((s.updCore c (fun x => { x with flights := f₁ ++ f₂, passed := n })).catchLine (some c) (key / 128)).storeBare key bs owner home
    key / 128 ∉ m →
    (late ≤ m.length → exec (.storeQueueLeave k) s = .next ((m.drop late).foldl (fun t l => t.catchLine (some c) l) (s' m.length)))
    ∧ (m.length < late → late ≤ ((s.core c).flights.filterMap Flight.line).length → exec (.storeQueueLeave k) s = .next (s' (late - 1)))

/-- O (R257): L1 drops a line 4,096 core clocks after its fill, and nothing sooner. -/
def Sys2Proof.Claims.l1LinesExpire : Prop :=
  ∀ (c : CoreKey) (s : State) (l₁ l₂ : List L1Line) (l : L1Line), (s.core c).l1 = l₁ ++ l :: l₂ →
    ∃ t, exec (.l1LineExpiry c l₁.length) s = .next t
      ∧ (s.clock c.die < l.filled + 4096 → t = s)
      ∧ (l.filled + 4096 ≤ s.clock c.die → t = { s with cores := t.cores } ∧ t.core c = { s.core c with l1 := l₁ ++ l₂ }
          ∧ ∀ k, k ≠ c → t.core k = s.core k)

/-- O (R203, R258): a plain read through L1 gives the bytes of the home, where L1 does not hold the line and no store of the core to it is on
its way; a line that L1 holds gives its own bytes. -/
def Sys2Proof.Claims.l1ReadsGiveTheHomesBytes : Prop :=
  ∀ (s : State) (c : CoreKey) (key n : Nat) (owner : Owner) (home : Nat) (use : Option ReplUse), key % 128 + n ≤ 128 →
    ((∀ y ∈ (s.core c).l1, y.line ≠ key / 128) → (∀ f ∈ (s.core c).flights, f.line ≠ some (key / 128)) → (∀ l ∈ s.l2, l.cells = []) →
      use = none →
      (s.l1Read c key n owner home use).2 = s.mem.readList key n ∧ (s.l1Read c key n owner home use).1.mem = s.mem
      ∧ ∃ y ∈ ((s.l1Read c key n owner home use).1.core c).l1, y.line = key / 128 ∧ y.owner = owner ∧ y.launch = none ∧ y.holes = []
          ∧ y.bytes = s.mem.readList (128 * (key / 128)) 128 ∧ y.filled = s.clock c.die)
    ∧ ∀ y, (s.core c).l1.find? (fun z => z.line = key / 128) = some y → y.owner = owner → y.launch = none → y.holes = [] →
        s.l1Read c key n owner home use = (s, (y.bytes.drop (key % 128)).take n)

/-- One lane of a queued load, atomic or CAS is performed and gives its words (R222, R227, R228): the group has no older access to wait for. -/
def Sys2Proof.Claims.laneGets (k : GroupKey) (c : CoreKey) (tm : Team) (o : PendOp) (l : PendLane) (s : State) (ws : List W32) (s' : State) :
    Prop :=
  let who : Writer := { idx := some k.idx, seq := o.seq, tile := false }
  (∃ g, s.group? k = some g ∧ g.queue = [] ∧ ∀ x ∈ g.pend, x.seq < o.seq → x.unperformed = false) ∧
  let atomic (sp w64 : Bool) (scope : Nat) (f : List W32 → List W32) : Prop :=
    (scope = 5 → s.peerUnacked c = false)
    ∧ if sp then ∃ t, s.team? k.team = some t ∧ ws = wordsOfBytes (if w64 then 2 else 1) (Tbl.getList t.scratch l.ea.toNat (if w64 then 8 else 4))
        ∧ s' = s.scratchStore k.team who ((upFrom l.ea.toNat (if w64 then 8 else 4)).zip (bytesOfWords (f ws)))
      else ∃ s1 key home owner, reaches s c tm .rw l.ea s1 key home owner ∧ modifies s1 c key home (if w64 then 8 else 4) scope owner f ws s'
  match o.kind with
  | .load true n sext _ _ col => s' = s ∧ ∃ t, s.team? k.team = some t
      ∧ ws = loadWords n sext ((scratchPlaces l.ea.toNat n col).map (fun p => Tbl.get t.scratch p.addr))
  | .load false n sext scope repl _ =>
    let s0 := if 3 ≤ scope then s.flushAll c else s
    ∃ s1 key home owner leaf, s0.access (.lane c) tm.part .rd l.ea.toNat = (s1, .ok (.mem key home owner leaf)) ∧ s1.lineTag (key / 128) = owner
      ∧ if 3 ≤ scope then
          let r := ((s1.flushAll c).catchUp key n).homeRead key n
          ws = loadWords n sext r.2 ∧ s' = (r.1.dropL1 c).dropL1 c
        else
          let use : Option ReplUse := if repl && leaf && scope = 0 then some { launch := tm.launch, cluster := clusterOf c } else none
          let r := s1.l1Read c key n owner home use
          ws = loadWords n sext r.2 ∧ s' = r.1
  | .atom sp fn w64 scope => atomic sp w64 scope (fun x => atomWords fn w64 x l.args)
  | .cas sp w64 scope => atomic sp w64 scope (fun x => casWords w64 x l.args)
  | _ => False

/-- Lanes act one after another and give their words. -/
def Sys2Proof.Claims.eachGets (act : PendLane → State → List W32 → State → Prop) : List PendLane → State → List (PendLane × List W32) → State → Prop
  | [], s, r, s' => r = [] ∧ s' = s
  | l :: ls, s, r, s' => ∃ ws s1 rs, act l s ws s1 ∧ eachGets act ls s1 rs s' ∧ r = (l, ws) :: rs

/-- An operation of a group that awaits its words: where it stands, and that nothing of it has been performed. -/
def Sys2Proof.Claims.awaits (s : State) (k : GroupKey) (g : Group) (p₁ : List PendOp) (o : PendOp) (p₂ : List PendOp) : Prop :=
  s.group? k = some g ∧ g.pend = p₁ ++ o :: p₂ ∧ (g.pend.map (fun x => x.seq)).Nodup ∧ (o.lanes.map (fun l => l.lane)).Nodup
  ∧ o.lanes ≠ [] ∧ ∀ l ∈ o.lanes, l.acc = .todo

/-- The landing of an operation `o` with the words `r` of its lanes, from the state `s'` in which they have been performed. -/
def Sys2Proof.Claims.landsWith (t s' : State) (k : GroupKey) (g : Group) (p₁ : List PendOp) (o : PendOp) (p₂ : List PendOp)
    (r : List (PendLane × List W32)) : Prop :=
  ∃ g', t = { s' with teams := t.teams } ∧ t.group? k = some g' ∧ g'.pend = p₁ ++ p₂
    ∧ (∀ x, o.dest = .v x → g'.w = g.w ∧ ∀ e ∈ r, (nth g.lanes e.1.lane).isSome = true →
        (g'.lane e.1.lane).v = Tbl.setList (g.lane e.1.lane).v x.val e.2)
    ∧ (∀ x e, o.dest = .w x → r = [e] → g'.w = Tbl.setList g.w x.toNat e.2)
    ∧ ∀ j, j ∉ r.map (fun e => e.1.lane) → (g'.lane j).v = (g.lane j).v

/-- O (R47, R222, R227, R228, R258, R260, R264): queued loads, atomics and CASes are performed lane by lane and land with the words read. -/
def Obligations.PerformedAccessesReadAndWriteMemory : Prop :=
  l1ReadsGiveTheHomesBytes
  ∧ (∀ (k : GroupKey) (s s' : State) (tm : Team) (c : CoreKey) (g g' : Group) (p₁ p₂ : List PendOp) (o : PendOp) (r : List (PendLane × List W32)),
      s.team? k.team = some tm → s.coreOf k = some c → awaits s k g p₁ o p₂ → o.kind.isMem = true → g.queue = [] →
      (∀ x ∈ p₁ ++ p₂, x.seq < o.seq → x.unperformed = false) → eachGets (laneGets k c tm o) o.lanes s r s' → awaits s' k g' p₁ o p₂ →
      ∃ t, exec (.tagLanding k p₁.length) s = .next t ∧ landsWith t s' k g' p₁ o p₂ r)
  ∧ (∀ (s : State) (c : CoreKey) (key home n scope : Nat) (owner : Owner) (f : List W32 → List W32) (old : List W32) (s' : State),
      modifies s c key home n scope owner f old s' → n = 4 ∨ n = 8 → key % 128 + n ≤ 128 → s.lineTag (key / 128) = owner →
      (s.core c).flights = [] → (∀ x ∈ s.cores, x.2.passed = 0) → (∀ l ∈ s.l2, l.cells = []) →
      old = wordsOfBytes (n / 4) (s.mem.readList key n)
      ∧ ∀ i, i < (bytesOfWords (f old)).length → s'.mem.read (key + i) = (bytesOfWords (f old)).getD i 0)
  ∧ ∀ (k : GroupKey) (s s1 : State) (tm : Team) (c : CoreKey) (g : Group) (p₁ p₂ : List PendOp) (o : PendOp) (l : PendLane) (n scope : Nat)
      (sext repl col absent : Bool),
      s.team? k.team = some tm → s.coreOf k = some c → awaits s k g p₁ o p₂ → o.kind = .load false n sext scope repl col → scope < 3 →
      o.lanes = [l] → g.queue = [] → (∀ x ∈ p₁ ++ p₂, x.seq < o.seq → x.unperformed = false) →
      (s.access (.lane c) tm.part .rd l.ea.toNat = (s1, .fault 1 absent) →
        ∃ t, exec (.tagLanding k p₁.length) s = .next t
          ∧ landsWith t s1 k g p₁ o p₂ [(l, loadWords n sext (List.replicate n 0))])
      ∧ (s.access (.lane c) tm.part .rd l.ea.toNat = (s1, .fault 0 absent) →
        ∃ t g', exec (.tagLanding k p₁.length) s = .next t ∧ t.group? k = some g'
          ∧ g'.pend = p₁ ++ { o with lanes := [{ l with acc := .parked }] } :: p₂ ∧ ∀ j, (g'.lane j).v = (g.lane j).v)

/-! ### What the texture unit returns (07 R176 to R180) -/

/-- A sample or a query of one lane is performed and lands with the words that its unit returns, each word of memory being read with any
value that it held since the launch began (R180, R189). -/
def Sys2Proof.Claims.unitsLandWithTheirResults : Prop :=
  ∀ (k : GroupKey) (s s' : State) (tm : Team) (c : CoreKey) (g g' : Group) (p₁ p₂ : List PendOp) (o : PendOp) (l : PendLane) (ws : List W32),
    s.team? k.team = some tm → s.coreOf k = some c → awaits s k g p₁ o p₂ → o.lanes = [l] → o.buf.asked = none → awaits s' k g' p₁ o p₂ →
    let r : Reader := { pt := .lane c, part := tm.part, since := some (s.launchLog tm) }
    ((∃ kind desc bias nofb, o.kind = .tex kind desc bias nofb ∧ texLane c r o.buf kind desc bias.toInt nofb l.args s = .ok ws s')
      ∨ ∃ all root mask cb cf, o.kind = .ray all root mask cb cf
          ∧ rayLane r o.buf all root.toNat mask.toNat cb cf l.args s = .ok (ws, none) s') →
    ∃ t, exec (.tagLanding k p₁.length) s = .next t ∧ landsWith t s' k g' p₁ o p₂ [(l, ws)]

/-- O (R178): addr(i, n): wrap is periodic, clamp holds the ends, mirror reflects at each multiple of n; all give a texel that is there. -/
def Sys2Proof.Claims.addressingModes : Prop :=
  ∀ (mode : Nat) (i : Int) (n : Nat), 0 < n →
    texAddr mode i n < n
    ∧ (0 ≤ i → i < n → texAddr mode i n = i.toNat)
    ∧ texAddr 0 (i + n) n = texAddr 0 i n
    ∧ (i < 0 → texAddr 1 i n = 0) ∧ ((n : Int) ≤ i → texAddr 1 i n = n - 1)
    ∧ texAddr 2 (-1 - i) n = texAddr 2 i n ∧ texAddr 2 (2 * n - 1 - i) n = texAddr 2 i n ∧ texAddr 2 (i + 2 * n) n = texAddr 2 i n

/-- O (R177): λ of exact gradients, in units of 1/256: floor(128·log2 m) for the larger squared footprint m, −∞ for none; TEXL's is
floor(256·λ), and every one gains the bias. -/
def Sys2Proof.Claims.levelsOfDetail : Prop :=
  (∀ (ux vx uy vy : Int) (w h : Nat),
    let p (a b : Int) : ℚ := ((a : ℚ) / 2 ^ 149 * w) ^ 2 + ((b : ℚ) / 2 ^ 149 * h) ^ 2
    let m : ℚ := max (p ux vx) (p uy vy)
    (m = 0 → lodOf ux vx uy vy w h = lodNone)
    ∧ (0 < m → (2 : ℚ) ^ (lodOf ux vx uy vy w h) ≤ m ^ 128 ∧ m ^ 128 < (2 : ℚ) ^ (lodOf ux vx uy vy w h + 1)))
  ∧ (∀ (t : Tex) (bias : Int) (u v x : W32) (s : Bool) (n d : Nat), Fmt.fp32.value x.toNat = .fin s n d →
      texLod 1 t bias [u, v, x] = Int.floor (256 * ratOf (.fin s n d)) + bias)
  ∧ (∀ (t : Tex) (bias : Int) (u v a b c d : W32) (a' b' c' d' : Int), finUnits a = some a' → finUnits b = some b' → finUnits c = some c' →
      finUnits d = some d' → texLod 2 t bias [u, v, a, b, c, d] = lodOf a' b' c' d' t.w t.h + bias)
  ∧ ∀ (t : Tex) (bias : Int) (u v a b c d e f : W32) (a' b' c' d' e' f' : Int), finUnits a = some a' → finUnits b = some b' →
      finUnits c = some c' → finUnits d = some d' → finUnits e = some e' → finUnits f = some f' →
      texLod 0 t bias [u, v, a, b, c, d, e, f] = lodOf (c' - a') (d' - b') (e' - a') (f' - b') t.w t.h + bias

/-- O (R179): the texels that a level's filter reads, with their weights in units of 2^-16; they are of the level and sum to one. -/
def Sys2Proof.Claims.filtersWeighTheirTexels : Prop :=
  ∀ (t : Tex) (lin : Bool) (l : Nat) (u v : Int),
    let x : ℚ := (u : ℚ) / 2 ^ 149 * t.lw l
    let y : ℚ := (v : ℚ) / 2 ^ 149 * t.lh l
    let ax (i : Int) : Nat := texAddr t.au i (t.lw l)
    let ay (i : Int) : Nat := texAddr t.av i (t.lh l)
    let x0 : Int := Int.floor (x - 1 / 2)
    let y0 : Int := Int.floor (y - 1 / 2)
    let fx : Nat := (Int.floor (256 * (x - 1 / 2 - x0))).toNat
    let fy : Nat := (Int.floor (256 * (y - 1 / 2 - y0))).toNat
    (lin = false → texTaps t lin l u v = [(ax (Int.floor x), ay (Int.floor y), 65536)])
    ∧ (lin = true → texTaps t lin l u v = [(ax x0, ay y0, (256 - fx) * (256 - fy)), (ax (x0 + 1), ay y0, fx * (256 - fy)),
        (ax x0, ay (y0 + 1), (256 - fx) * fy), (ax (x0 + 1), ay (y0 + 1), fx * fy)] ∧ fx < 256 ∧ fy < 256)
    ∧ ((texTaps t lin l u v).map (fun e => e.2.2)).sum = 65536
    ∧ ∀ e ∈ texTaps t lin l u v, e.1 < t.lw l ∧ e.2.1 < t.lh l

/-- O (R179): a channel: the exact weighted sum of finite texels rounded once; NaN and infinities of texels with a weight decide it. -/
def Sys2Proof.Claims.channelsAreRoundedOnce : Prop :=
  ∀ xs : List (Nat × Val),
    ((∀ e ∈ xs, ∃ s n k, e.2 = .fin s n (2 ^ k) ∧ k ≤ 149) →
      let total : ℚ := (xs.map (fun e => (e.1 : ℚ) / 2 ^ 24 * ratOf e.2)).sum
      total ≠ 0 → texSum xs = BitVec.ofNat 32 (Fmt.fp32.round .rne (.fin (decide (total < 0)) total.num.natAbs total.den)).1)
    ∧ (let live (p : Val → Prop) : Prop := ∃ e ∈ xs, e.1 ≠ 0 ∧ p e.2
       (live (fun x => x = .nan) ∨ (live (fun x => x = .inf false) ∧ live (fun x => x = .inf true)) → texSum xs = 0x7FC00000#32)
       ∧ (¬ live (fun x => x = .nan) → live (fun x => x = .inf false) → ¬ live (fun x => x = .inf true) → texSum xs = 0x7F800000#32)
       ∧ (¬ live (fun x => x = .nan) → ¬ live (fun x => x = .inf false) → live (fun x => x = .inf true) → texSum xs = 0xFF800000#32))

/-- The texels of a sample (R179): level, place, and weight in units of 2^-24. -/
def Sys2Proof.Claims.texelsOf (t : Tex) (lr : Nat) (lod u v : Int) : List (Nat × Nat × Nat × Nat) :=
  let at' (l factor : Nat) (lin : Bool) : List (Nat × Nat × Nat × Nat) := (texTaps t lin l u v).map (fun e => (l, e.1, e.2.1, e.2.2 * factor))
  if lr = 0 ∧ lod ≤ 0 then at' 0 256 t.mag
  else if t.mip = false then at' (min (Int.floor ((lr : ℚ) / 256 + 1 / 2)).toNat t.lm1) 256 t.min
  else at' (lr / 256) (256 - lr % 256) t.min ++ at' (min (lr / 256 + 1) t.lm1) (lr % 256) t.min

/-- Texels are read one after another, with what they give. -/
def Sys2Proof.Claims.texelsRead (r : Reader) (buf : PeerBuf) (t : Tex) : List (Nat × Nat × Nat × Nat) → State → List (Nat × List Val) → State → Prop
  | [], s, out, s' => out = [] ∧ s' = s
  | (l, x, y, w) :: es, s, out, s' =>
    ∃ c s1 rest, texTexel r buf t l x y s = .ok c s1 ∧ texelsRead r buf t es s1 rest s' ∧ out = (w, c) :: rest

/-- O (R176, R178, R179, R180): residency comes first; a resident sample is filtered at the clamped level of detail. A texel lies at its
level's start, row and column, and reads as zero where its page does not answer, the map as 0xFF. The feedback byte takes the smaller of
itself and the wanted level. -/
def Sys2Proof.Claims.samplesFilterTheirTexels : Prop :=
  (∀ (c : CoreKey) (r : Reader) (buf : PeerBuf) (kind : Nat) (desc : List W32) (bias : Int) (nofb : Bool) (args : List W32) (s : State),
    finUnits (args.getD 0 0) = none ∨ finUnits (args.getD 1 0) = none → texLane c r buf kind desc bias nofb args s = .ok [0, 0, 0, 0] s)
  ∧ (∀ (c : CoreKey) (r : Reader) (buf : PeerBuf) (kind : Nat) (desc : List W32) (bias : Int) (nofb : Bool) (args : List W32)
      (s s1 s2 : State) (u v : Int) (m : Nat),
      finUnits (args.getD 0 0) = some u → finUnits (args.getD 1 0) = some v →
      let t := Tex.ofWords desc
      let lod := texLod kind t bias args
      let lc := (min (max lod 0) (256 * t.lm1 : Nat)).toNat
      let xr := texAddr t.au (Int.floor ((u : ℚ) / 2 ^ 149 * t.w)) t.w / 64
      let yr := texAddr t.av (Int.floor ((v : ℚ) / 2 ^ 149 * t.h)) t.h / 64
      let region := yr * ((t.w + 63) / 64) + xr
      (if nofb then s1 = s else texFeedback c r.part buf (t.fb + region) (lc / 256) s = .ok () s1) →
      texMapByte r buf (t.map + region) s1 = .ok m s2 →
      (t.lm1 < m → texLane c r buf kind desc bias nofb args s = .ok [0, 0, 0, 0] s2)
      ∧ ∀ xs s3, m ≤ t.lm1 → texelsRead r buf t (texelsOf t (max lc (256 * m)) lod u v) s2 xs s3 →
          texLane c r buf kind desc bias nofb args s = .ok ((List.range 4).map (texChannel xs)) s3)
  ∧ (∀ (r : Reader) (buf : PeerBuf) (t : Tex) (l x y : Nat) (s s1 : State),
      let a := t.start l + t.pitch l * y + x * t.bytes
      let n := if t.bytes < 4 then 1 else t.bytes / 4
      (∀ ws, engWords r buf (a / 4 * 4) n s = .ok ws s1 →
        texTexel r buf t l x y s = .ok (texChannels t.fmt (((bytesOfWords ws).drop (a % 4)).take t.bytes)) s1)
      ∧ (∀ va pol absent, engWords r buf (a / 4 * 4) n s = .error (.fault va pol absent) s1 → texTexel r buf t l x y s = .ok texZero s1))
  ∧ (∀ (r : Reader) (buf : PeerBuf) (va : Nat) (s s1 : State),
      (∀ w, engRead r buf (va / 4 * 4) s = .ok w s1 → texMapByte r buf va s = .ok (w.toNat / 2 ^ (8 * (va % 4)) % 256) s1)
      ∧ ∀ va' pol absent, engRead r buf (va / 4 * 4) s = .error (.fault va' pol absent) s1 → texMapByte r buf va s = .ok 255 s1)
  ∧ ∀ (c : CoreKey) (part : Nat) (buf : PeerBuf) (va x : Nat) (s s1 : State),
      (∀ key home owner leaf, s.access (.lane c) part .rw va = (s1, .ok (.mem key home owner leaf)) → (s1.core c).flights = [] →
        (∀ l ∈ s1.l2, l.cells = []) →
        ∃ t, texFeedback c part buf va x s = .ok () t ∧ t.mem.read key = BitVec.ofNat 8 (min (s1.mem.read key).toNat x))
      ∧ ∀ pol absent, s.access (.lane c) part .rw va = (s1, .fault pol absent) → texFeedback c part buf va x s = .ok () s1

/-! ### What the ray unit returns (07 R182 to R189) -/

/-- A parameter is a number. -/
def Sys2Proof.Claims.parIs (p : Par) (q : ℚ) : Prop := ∃ n d, p = .fin n d ∧ 0 < d ∧ q = (n : ℚ) / (d : ℚ)

/-- A parameter is an infinity or a fraction with a denominator. -/
def Sys2Proof.Claims.parOk (p : Par) : Prop := ∀ n d, p = .fin n d → 0 < d

/-- A number lies between two parameters, compared as extended reals. -/
def Sys2Proof.Claims.parIn (q : ℚ) (a b : Par) : Prop := (a = .neg ∨ ∃ x, parIs a x ∧ x ≤ q) ∧ (b = .pos ∨ ∃ x, parIs b x ∧ q ≤ x)

/-- O (R185): a triangle is hit just where the exact solution of its system meets the conditions, and the hit holds that solution, the
record's and the space's ids, and the face. -/
def Sys2Proof.Claims.trianglesAreIntersectedExactly : Prop :=
  ∀ (q : Query) (sp : Space) (ws : List W32),
    ((sp.ray = none ∨ V3.ofWords ws 0 = none ∨ V3.ofWords ws 3 = none ∨ V3.ofWords ws 6 = none) → triHit q sp ws = none)
    ∧ ∀ (o d v0 v1 v2 : V3), sp.ray = some (o, d) → V3.ofWords ws 0 = some v0 → V3.ofWords ws 3 = some v1 → V3.ofWords ws 6 = some v2 →
      parOk q.tmin → parOk q.tmax →
      let facing : Int := d.dot ((v1.sub v0).cross (v2.sub v0))
      let solves (t b1 b2 : ℚ) : Prop := ∀ c ∈ [V3.x, V3.y, V3.z],
        (c o : ℚ) + t * c d = c v0 + b1 * ((c v1 : ℚ) - c v0) + b2 * ((c v2 : ℚ) - c v0)
      let accepts (t b1 b2 : ℚ) : Prop := 0 ≤ b1 ∧ 0 ≤ b2 ∧ b1 + b2 ≤ 1 ∧ parIn t q.tmin q.tmax
        ∧ ¬(q.cullb = true ∧ 0 < facing) ∧ ¬(q.cullf = true ∧ facing < 0)
      let holds (h : Hit) (t b1 b2 : ℚ) : Prop := parIs h.t t ∧ parIs h.b1 b1 ∧ parIs h.b2 b2 ∧ h.iid = sp.iid
        ∧ h.pid = (ws.getD 9 0).toNat ∧ h.iuser = sp.iuser ∧ h.tuser = ws.getD 11 0 ∧ (h.back = true ↔ 0 < facing)
      (facing = 0 → triHit q sp ws = none)
      ∧ (facing ≠ 0 → ∃ t b1 b2 : ℚ, solves t b1 b2
          ∧ (∀ t' b1' b2', solves t' b1' b2' → t' = t ∧ b1' = b1 ∧ b2' = b2)
          ∧ (accepts t b1 b2 → ∃ h, triHit q sp ws = some h ∧ holds h t b1 b2)
          ∧ (¬ accepts t b1 b2 → triHit q sp ws = none))

/-- O (R186): of the candidates offered, the best is one that none is before, whatever their order. -/
def Sys2Proof.Claims.theFirstCandidateIsKept : Prop :=
  ∀ (t : Trav) (hs : List Hit), t.best = none → (∀ h ∈ hs, ∃ q, parIs h.t q) →
    let r := hs.foldl (fun t h => t.offer (some h)) t
    (hs = [] → r.best = none)
    ∧ (hs ≠ [] → ∃ b ∈ hs, r.best = some b ∧ ∀ h ∈ hs, ∀ x y, parIs b.t x → parIs h.t y →
        x < y ∨ (x = y ∧ (b.iid < h.iid ∨ (b.iid = h.iid ∧ b.pid ≤ h.pid))))

/-- O (R187): the slab test is exact: it keeps just the parameters at which the ray lies within the closed slab. -/
def Sys2Proof.Claims.slabsAreTestedExactly : Prop :=
  ∀ (o d lo hi : Int) (a b : Par), parOk a → parOk b → ∀ t : ℚ,
    (parIn t a b ∧ (lo : ℚ) ≤ o + t * d ∧ (o : ℚ) + t * d ≤ hi)
      ↔ ∃ a' b', slab o d lo hi a b = some (a', b') ∧ parIn t a' b'

/-- O (R182): a component of the ray in an instance's space is the exact sum, rounded once. -/
def Sys2Proof.Claims.instanceRaysAreRoundedOnce : Prop :=
  ∀ (ws rw : List W32) (i base : Nat) (origin : Bool),
    (∀ j, j < 4 → ∃ s n d, Fmt.fp32.value (ws.getD (4 * i + j) 0).toNat = .fin s n d) →
    (∀ j, j < 3 → ∃ s n d, Fmt.fp32.value (rw.getD (base + j) 0).toNat = .fin s n d) →
    let m (j : Nat) : ℚ := ratOf (Fmt.fp32.value (ws.getD (4 * i + j) 0).toNat)
    let v (j : Nat) : ℚ := ratOf (Fmt.fp32.value (rw.getD (base + j) 0).toNat)
    let total : ℚ := m 0 * v 0 + m 1 * v 1 + m 2 * v 2 + (if origin then m 3 else 0)
    total ≠ 0 → instanceRow ws rw i base origin
      = BitVec.ofNat 32 (Fmt.fp32.round .rne (.fin (decide (total < 0)) total.num.natAbs total.den)).1

/-- O (R184, R185, R189): a query whose bounds admit nothing reads nothing and meets no candidate; a hit fills RAYT's window and RAYQ's
status; an error leaves the values of no hit. -/
def Sys2Proof.Claims.queriesWriteTheirWindow : Prop :=
  (∀ (r : Reader) (buf : PeerBuf) (all : Bool) (root mask : Nat) (cb cf : Bool) (args : List W32) (s : State),
    let a := Fmt.fp32.value (args.getD 3 0).toNat
    let b := Fmt.fp32.value (args.getD 7 0).toNat
    8 ≤ args.length →
    a = .nan ∨ b = .nan ∨ (a.isInf = false ∧ b.isInf = false ∧ ratOf b < ratOf a) ∨ (a = .inf false ∧ b ≠ .inf false)
      ∨ (b = .inf true ∧ a ≠ .inf true) →
    rayLane r buf all root mask cb cf args s
      = .ok (if all then [0x7F800000, 0, 0, 0xFFFFFFFF, 0xFFFFFFFF, 0, 0, 0] else [0], none) s)
  ∧ ∀ (t : Trav) (q : Query),
      (∀ c, t.err = some c → c < 4 → q.all = true →
        t.words q = [0x7F800000, 0, 0, 0xFFFFFFFF, 0xFFFFFFFF, 0, 0, BitVec.ofNat 32 (4 + 8 * c + 256 * min t.restarts 255)])
      ∧ (∀ c, t.err = some c → c < 4 → q.all = false → t.words q = [BitVec.ofNat 32 (4 + 8 * c)])
      ∧ (t.err = none → t.best = none → q.all = true →
          t.words q = [0x7F800000, 0, 0, 0xFFFFFFFF, 0xFFFFFFFF, 0, 0, BitVec.ofNat 32 (256 * min t.restarts 255)])
      ∧ (t.err = none → t.best = none → q.all = false → t.words q = [0])
      ∧ (∀ h, t.err = none → t.best = some h → q.all = false → t.words q = [1])
      ∧ (∀ h, t.err = none → t.best = some h → q.all = true →
          t.words q = [h.t.word, h.b1.word, h.b2.word, BitVec.ofNat 32 h.iid, BitVec.ofNat 32 h.pid, h.iuser, h.tuser,
            BitVec.ofNat 32 (1 + (if h.back then 2 else 0) + 256 * min t.restarts 255)]
          ∧ ∀ x, parIs h.t x → x ≠ 0 →
              h.t.word = BitVec.ofNat 32 (Fmt.fp32.round .rne (.fin (decide (x < 0)) x.num.natAbs x.den)).1)

/-- O (R176 to R189): what samples and ray queries return. -/
def Obligations.TextureAndRayResults : Prop :=
  unitsLandWithTheirResults ∧ addressingModes ∧ levelsOfDetail ∧ filtersWeighTheirTexels ∧ channelsAreRoundedOnce ∧ samplesFilterTheirTexels
  ∧ trianglesAreIntersectedExactly ∧ theFirstCandidateIsKept ∧ slabsAreTestedExactly ∧ instanceRaysAreRoundedOnce ∧ queriesWriteTheirWindow

/-- O (R47, R48, R142, R329): a landing writes its lanes' words, flags and traps, and its tag counts one operation fewer. -/
def Obligations.LandingWritesItsWords : Prop :=
  ∀ (k : GroupKey) (s : State) (tm : Team) (g : Group) (p₁ p₂ : List PendOp) (o : PendOp), s.team? k.team = some tm → s.group? k = some g →
    g.pend = p₁ ++ o :: p₂ → (g.pend.map (fun x => x.seq)).Nodup → (o.lanes.map (fun l => l.lane)).Nodup →
    (∀ x ∈ g.pend, x.seq ≤ o.seq → ∀ l ∈ x.lanes, l.acc.open = false) → (∀ l ∈ o.lanes, l.acc = .landed ∨ ∃ ws, l.acc = .done ws) →
    ∃ t g', exec (.tagLanding k p₁.length) s = .next t ∧ t = { s with teams := t.teams } ∧ t.group? k = some g' ∧ g'.pend = p₁ ++ p₂
      ∧ (∀ q, q ≠ k → t.group? q = s.group? q)
      ∧ (∀ x, o.dest = .v x → g'.w = g.w ∧ ∀ l ∈ o.lanes, ∀ ws, l.acc = .done ws → (nth g.lanes l.lane).isSome = true →
          (g'.lane l.lane).v = Tbl.setList (g.lane l.lane).v x.val ws)
      ∧ (∀ j, j ∉ o.lanes.map (fun l => l.lane) → (g'.lane j).v = (g.lane j).v)
      ∧ (∀ x l ws, o.dest = .w x → o.lanes = [l] → l.acc = .done ws → g'.w = Tbl.setList g.w x.toNat ws)
      ∧ (∀ j, (nth g.lanes j).isSome = true → (g'.lane j).fl = (g.lane j).fl ||| (kget j o.flags).getD 0)
      ∧ ∀ j c, (nth g.lanes j).isSome = true → kget j o.causes = some c → (g'.lane j).landed = (g.lane j).landed ++
          [{ cause := c, pc := o.pc, runAddr := o.runAddr, fall := o.fall,
             arg := if c = Causes.fpFlag then (((kget j o.flags).getD 0) &&& tm.rec'.fptrap).setWidth 32 else 0 }]

/-- O (R240, R241): a batch completes once its operations have; its waiters go on. -/
def Sys2Proof.Claims.batchesCompleteInOrder : Prop :=
  ∀ (k : GroupKey) (s : State) (tm : Team) (g : Group), s.team? k.team = some tm → s.group? k = some g → g.handler = none →
    let n := s.batchCount k + 1
    (s.batchCount k ≠ g.batchNo → (∀ b ∈ g.bulk, b.batch = some n → b.done = true) →
      ∃ t g', exec (.batchComplete k) s = .next t ∧ t.batchCount k = n ∧ t.group? k = some g'
        ∧ g'.bulk = g.bulk.filter (fun b => b.batch ≠ some n) ∧ (∀ x ∈ g'.splits, x.block ≠ some (.batch n)) ∧ t.mem = s.mem)
    ∧ (s.batchCount k = g.batchNo ∨ (∃ b ∈ g.bulk, b.batch = some n ∧ b.done = false) → exec (.batchComplete k) s = .next s)

/-! ### Events: engines of a core -/

/-- The Shuttle serves `j` of the team `tm`, whose group's earlier stores are performed, in the state `s'`. -/
def Sys2Proof.Claims.servesJob (s s' : State) (c : CoreKey) (j : ShuttleJob) (tm : Team) : Prop :=
  ∃ s1, (s.core c).serving = some j ∧ j.buf.asked = none ∧ s.storesBefore j.group c j.seq = (s1, true)
    ∧ s1.team? j.group.team = some tm ∧ s' = s1.updJob c j (fun _ => j)

/-- A bulk operation of a group has completed and has left its core's Shuttle queue. -/
def Sys2Proof.Claims.jobGone (t : State) (c : CoreKey) (j : ShuttleJob) : Prop :=
  (∀ y ∈ (t.core c).shuttle, y.group = j.group → y.op ≠ j.op)
  ∧ ∀ g, t.group? j.group = some g → ∀ b ∈ g.bulk, b.id = j.op → b.done = true ∧ b.err = false

/-- O (R101, R102, R237, R242, R244 to R250): a copy reads its record and its present scale, moves its rows one by one (CPS converts a row,
then writes its words), and its dense scale array if it has one; then it raises the fold word, credits the object it names, as a release of
its writes, and ends. GWIN writes its descriptor; TRQ writes the Beam. -/
def Obligations.ShuttleServesItsQueue : Prop :=
  (∀ (s s' : State) (c : CoreKey) (j : ShuttleJob) (tm : Team) (op : CopyOp), servesJob s s' c j tm → j.kind = .copy op →
    let rd := j.reader c tm
    let empty : PeerBuf := { got := [], asked := none }
    let leaves (t : State) : Prop := exec (.shuttleCopy c) s = .next t
    (∀ ws s2, j.rec' = none → srcWords rd j.buf op.record.toNat 32 s' = .ok ws s2 →
      (shapeBad ws = true → leaves (s2.jobStop c j Causes.shapeRecord 0 0 0 false))
      ∧ (shapeBad ws = false → copyBad (CopyCtl.of op) (ShapeRec.ofWords ws) tm = true → leaves (s2.jobStop c j Causes.copyOperand 0 0 0 false))
      ∧ (shapeBad ws = false → copyBad (CopyCtl.of op) (ShapeRec.ofWords ws) tm = false →
          leaves (s2.updJob c j (fun x => { x with rec' := some ws, buf := empty }))))
    ∧ ∀ ws, j.rec' = some ws →
      let r := ShapeRec.ofWords ws
      let x := CopyCtl.of op
      (∀ p s2, j.scale = none → presentScale rd j.buf r x.kind s' = .ok p s2 →
        leaves (s2.updJob c j (fun y => { y with scale := some p, buf := empty })))
      ∧ ∀ p, j.scale = some p →
        (j.pos < r.rows → x.dir ≠ 2 → ∀ row s2, readGlobalRow rd j.buf r x.kind p j.pos j.within (r.sz 0) s' = .ok row s2 →
          let put := s2.putRow tm x r j.pos j.within (r.sz 0) row
          leaves (put.1.jobRow c j put.2 row.max))
        ∧ (j.pos < r.rows → x.dir = 2 →
          (∀ row s2, j.row = none → readPadRow tm j.padReader rd j.buf x r p j.pos s' = .ok row s2 →
            leaves (s2.updJob c j (fun y => { y with row := some row, buf := empty })))
          ∧ ∀ row s2, j.row = some row → s'.writeWords c j rd ((globalWrites r j.pos row).drop j.within) = (s2, true) →
            leaves (s2.jobRow c j (sumNat ((globalWrites r j.pos row).map (fun w => w.2.length))) row.max))
        ∧ (x.dense r = true → j.pos = r.rows → ∀ bs s2, srcBytes rd j.buf r.sca r.scales s' = .ok bs s2 →
          leaves ((s2.scratchStore tm.key Writer.copy ((List.range bs.length).map (fun k => (256 + x.ssc + k, bs[k]?.getD 0)))).jobRow c j bs.length 0))
        ∧ (r.rows ≤ j.pos → x.dense r = false ∨ j.pos ≠ r.rows →
          ((x.kind ≠ 6 ∧ x.kind ≠ 7 ∨ j.within ≠ 0) →
            (op.ref = none → ∃ t, leaves t ∧ jobGone t c j ∧ t.mem = s'.mem)
            ∧ ∀ ref o home s2, op.ref = some ref → s'.reach (.shuttle c) tm ref .rw = (s2, .obj o home) →
              leaves ((((match o with | .phys _ => s2.flushAll c | _ => s2).reveal c j.group).updObjAt c o home (.add (-(j.bytes : Int)))).jobDone c j))
          ∧ ((x.kind = 6 ∨ x.kind = 7) → j.within = 0 → op.ref = none → ∀ key home owner repl s2,
            s'.access (.shuttle c) tm.part .rw r.fold = (s2, .ok (.mem key home owner repl)) →
            let w := (s2.catchUp key 4).keyRead key 4 owner
            ∃ t, leaves t ∧ jobGone t c j
              ∧ t.mem = (if ofBytes w.2 < j.fold then w.1.store key (bytesOf 4 j.fold) owner home else w.1).mem)))
  ∧ (∀ (s s' s2 : State) (c : CoreKey) (j : ShuttleJob) (tm : Team) (image : Addr) (n : Nat) (ws : List W32) (p : Part),
    servesJob s s' c j tm → j.kind = .gwin image n → srcWords (j.reader c tm) j.buf image.toNat 8 s' = .ok ws s2 → s2.part? tm.part = some p →
    let a := p.win + 32 * n
    ∃ t, exec (.gwinDescriptorWrite c) s = .next t ∧ jobGone t c j
      ∧ t.mem = (if s2.ownsKey tm.part a then s2.store a (bytesOfWords ws) (.part tm.part) (a / 2 ^ 35) else s2).mem)
  ∧ ∀ (s s' : State) (c : CoreKey) (j : ShuttleJob) (tm : Team) (w0 w1 w2 w3 : W32), servesJob s s' c j tm → j.kind = .trq w0 w1 w2 w3 →
    let x := TrqCtl.of w0
    let rows := trqRows tm j.padReader x (bitsOf w1 18 0) (bitsOf w2 18 0) (upFrom 0 x.depth) s'
    ∃ t tm', exec (.trqTranspose c) s = .next t ∧ jobGone t c j ∧ t.team? tm.key = some tm' ∧ t.mem = s'.mem
      ∧ ∀ m, rows.1.team? tm.key = some m → tm'.beam = ((List.range 128).foldl (fun (u : Team) n =>
          let col := trqColumn x (rows.2.map (fun r => r[n]?.getD (.fin false 0 1)))
          ((u.beamStore n (bitsOf w3 15 0) col.1).beamStore n (bitsOf w3 31 16) col.2.1).beamStore n (bitsOf w3 31 16 + 32) col.2.2) m).beam

/-- Nothing that a tile operation reads has been overwritten since it was issued, but by what its order puts before it (06 R160). -/
def Sys2Proof.Claims.tileCalm (tm : Team) (j : TileJob) : Prop :=
  (∀ a, j.reader.olds (tm.slog.drop j.sPos) a = []) ∧ tm.blog.length ≤ j.bPos

/-- The stored elements of the row of A of a lane, and where they stand in the row (R150, R153, R157, R158). -/
def Sys2Proof.Claims.rowOf (tm : Team) (x : MulOp) (i : Nat) : List Val × List Nat :=
  let cell (w : Nat) : Nat :=
    x.p + 256 + 4096 * (w / 16) + (if x.o then 4 * (i % 32) + 2048 * (i / 32) + 128 * (w % 16) else 64 * i + 4 * (w % 16))
  let md := Tbl.getList tm.scratch (x.md + 256 + 32 * i) (x.k / 8)
  let at' (k : Nat) : Nat := if x.spA then sparsePos md k else k
  let n := if x.spA then x.k / 2 else x.k
  (elements x.m.a x.m.int ((List.range (x.aRow / 4)).flatMap (fun w => Tbl.getList tm.scratch (cell w) 4))
      (Tbl.getList tm.scratch (x.sa + 256 + x.aRec * i) x.aRec) at' n, (List.range n).map at')

/-- The stored elements of a column of B, and where they stand in the column (R149, R153, R157, R158). -/
def Sys2Proof.Claims.colOf (tm : Team) (x : MulOp) (n : Nat) : List Val × List Nat :=
  let md := Tbl.getList tm.beam (49152 * n + x.md) (x.k / 8)
  let at' (k : Nat) : Nat := if x.spB then sparsePos md k else k
  let c := if x.spB then x.k / 2 else x.k
  (elements x.m.b x.m.int (Tbl.getList tm.beam (49152 * n + x.boff) x.bCol) (Tbl.getList tm.beam (49152 * n + x.bsoff) x.bRec) at' c,
    (List.range c).map at')

/-- The multiply that a queued operation is, with its tile. -/
def Sys2Proof.Claims.mulOf (k : TileKind) : Option (Nat × MulOp) :=
  match k with
  | .mma mt fmt o wa wa1 wb => some (mt, MulOp.of fmt o none wa wa1 wb 0)
  | .mmas mt fmt o patB wa wa1 wb wm => some (mt, MulOp.of fmt o (some patB) wa wa1 wb wm)
  | _ => none

/-- Bytes of a panel's element, and the allocation offset at which the element of a lane and column begins (R150, R162). -/
def Sys2Proof.Claims.panelElem (fmt : Nat) : Nat := if fmt = 0 then 4 else 2
def Sys2Proof.Claims.panelPlace (fmt : Nat) (wa : W32) (o : Bool) (i n : Nat) : Nat :=
  let e := 64 / panelElem fmt
  let b := n % e * panelElem fmt
  bitsOf wa 18 0 + 256 + 4096 * (n / e) + (if o then 4 * (i % 32) + 2048 * (i / 32) + 128 * (b / 4) else 64 * i + b / 4 * 4) + b % 4

/-- A tile holds new elements in the rows of the mask and is otherwise as it was; the other tiles, scratchpad and Beam are unchanged. -/
structure Sys2Proof.Claims.NewTile (tm tm' : Team) (mask : Mask) (mt : Nat) (f : Nat → Nat → W32) : Prop where
  tile : ∀ i n, i < 64 → n < 128 → Tbl.get (tm'.tile mt) (128 * i + n) = if mask.getLsbD i then f i n else Tbl.get (tm.tile mt) (128 * i + n)
  others : ∀ m, m ≠ mt → tm'.tile m = tm.tile m
  scratch : tm'.scratch = tm.scratch
  beam : tm'.beam = tm.beam

/-- O (R145, R154, R158, R160, R162, R309, R321): the array performs the operation at the head of the matrix queue unless the wheel's slot is
the Heddle's. MZERO clears the rows of its lanes; MMA and MMAS accumulate there; ACCLD loads them from the panels, and ACCST stores them there. -/
def Obligations.ArrayPerformsItsQueue : Prop :=
  ∀ (s s1 : State) (c : CoreKey) (j : TileJob) (js : List TileJob), (s.core c).tiles = j :: js → s.storesBefore j.group c j.seq = (s1, true) →
    (s.heddleTurn c = true → exec (.arrayOperation c) s = .next s)
    ∧ ((∀ i x, s.heddleTile c = some (i, x) → wheelOwns (s.heddleWeight x) (s.core c).wheel = false) →
      exec (.arrayOperation c) s = .next ((((s1.doTile j).updCore c (fun x => { x with tiles := x.tiles.tail })).turnWheel c).bulkDone j.group j.op false)
      ∧ ∀ tm, s1.team? j.group.team = some tm → ∃ t tm', exec (.arrayOperation c) s = .next t ∧ t.team? j.group.team = some tm'
        ∧ (∀ mt, j.kind = .mzero mt → mt < tm.tiles.length → NewTile tm tm' j.mask mt (fun _ _ => 0))
        ∧ (∀ mt x, mulOf j.kind = some (mt, x) → mt < tm.tiles.length → tileCalm tm j →
            NewTile tm tm' j.mask mt (fun i n =>
              let f := x.factors (rowOf tm x i) (colOf tm x n)
              accumulate x.m tm.rec'.compat (Tbl.get (tm.tile mt) (128 * i + n)) f.1 f.2))
        ∧ (∀ mt fmt o wa, j.kind = .accld mt fmt o wa → mt < tm.tiles.length → tileCalm tm j →
            NewTile tm tm' j.mask mt (fun i n =>
              let bs := Tbl.getList tm.scratch (panelPlace fmt wa o i n) (panelElem fmt)
              if fmt = 0 then wordOfBytes bs
              else BitVec.ofNat 32 (Fmt.fp32.round .rne ((if fmt = 1 then Fmt.bf16 else Fmt.fp16).value (ofBytes bs))).1))
        ∧ ∀ mt fmt o wa, j.kind = .accst mt fmt o wa →
            tm'.tiles = tm.tiles ∧ tm'.beam = tm.beam
            ∧ (∀ i n m, j.mask.getLsbD i = true → n < 128 → m < panelElem fmt →
                let a := panelPlace fmt wa o i n + m
                let w := (Tbl.get (tm.tile mt) (128 * i + n)).toNat
                Tbl.get tm'.scratch a =
                  if a / 4 * 4 ∈ j.stored then Tbl.get tm.scratch a
                  else BitVec.ofNat 8 ((if fmt = 0 then w
                    else ((if fmt = 1 then Fmt.bf16 else Fmt.fp16).round .rne (Fmt.fp32.value w)).1) / 2 ^ (8 * m)))
            ∧ ∀ a, (∀ i n, j.mask.getLsbD i = true → n < 128 → a < panelPlace fmt wa o i n ∨ panelPlace fmt wa o i n + panelElem fmt ≤ a) →
                Tbl.get tm'.scratch a = Tbl.get tm.scratch a)

/-- O (R251, R252): a collective goes on by the engine's acts, and completes in its batch once its words are written. -/
def Sys2Proof.Claims.collectivesGoOnAndComplete : Prop :=
  (∀ (part set : Nat) (cid : W32) (s : State) (c : Coll),
    s.colls.filter (fun x => x.issued && x.part = part && x.parked.isNone && (x.record.isEmpty || (x.set = set && x.cid = cid))) = [c] →
    exec (.collectiveComplete part set cid) s = .next (s.collServe c))
  ∧ ∀ (s s1 s2 : State) (c : Coll) (rank m : Nat) (src ws : List W32),
    s.colls.filter (fun x => x.issued && x.part = c.part && x.parked.isNone && (x.record.isEmpty || (x.set = c.set && x.cid = c.cid))) = [c] →
    c.record ≠ [] → c.buf.asked = none → s.storesBefore c.group c.core c.seq = (s1, true) →
    c.aborting = false → s1.launchKilled c.group = false →
    (s1.updColl c (fun _ => c)).rankOf c.part c.set = (s2, some (rank, m)) → c.src = some src → c.early = [] → c.final = some ws →
    c.sentDown = true → (∀ k, k < m → k ≠ rank → k ∈ c.agreed) →
    (((CollRec.of c.record).dest rank ws).length ≤ c.written → c.ref = none →
      ∃ t, exec (.collectiveComplete c.part c.set c.cid) s = .next t
        ∧ (∀ x ∈ t.colls, x.issued = true → x.group = c.group → x.op ≠ c.op)
        ∧ ∀ g, t.group? c.group = some g → ∀ b ∈ g.bulk, b.id = c.op → b.done = true ∧ b.err = false)
    ∧ ∀ s3 s4, s2.collWrite c (((CollRec.of c.record).dest rank ws).drop c.written) = (s3, true) → s3.collObject c (.arrive 0) = (s4, true) →
      exec (.collectiveComplete c.part c.set c.cid) s = .next ((s4.dropColl c).bulkDone c.group c.op false)

/-! ### Events: the Heddle -/

/-- O (R319): an old bin becomes a tile. -/
def Sys2Proof.Claims.oldBinsBecomeTiles : Prop :=
  ∀ (c : ClusterKey) (s : State) (b₁ b₂ : List Bin) (b : Bin), (s.cluster c).bins = b₁ ++ b :: b₂ → (∀ x ∈ b₁ ++ b₂, x.closed = false) →
    ∃ t, exec (.ncallBinTimeout c b₁.length) s = .next t ∧ t = { s with clusters := t.clusters } ∧ (∀ k, k ≠ c → t.cluster k = s.cluster k)
      ∧ (b.closed = false → s.clock c.die < b.opened + 256 → s.binForced b = false → t = s)
      ∧ (b.opened + 256 ≤ s.clock c.die → (s.cluster c).tiles.length < Config.heddleBins →
          (t.cluster c).bins = b₁ ++ b₂ ∧ ∃ x, (t.cluster c).tiles = (s.cluster c).tiles ++ [x] ∧ x.part = b.part ∧ x.handle = b.handle
            ∧ x.calls = b.calls ∧ x.core = none)

/-- O (R313, R314, R318, R320, R321, R323): a tile takes a core that holds its set, or has its set placed; a hint's set is pinned or placed;
the Shuttle's weight fetch makes a set resident; a tile takes its steps in the wheel's turns, and after the last its calls are evaluated. -/
def Sys2Proof.Claims.tilesFindTheirSetsAndRun : Prop :=
  (∀ (c : ClusterKey) (s : State) (t₁ t₂ : List HTile) (x : HTile) (k : CoreKey), (s.cluster c).tiles = t₁ ++ x :: t₂ → x.core = none →
    x.parked = none → s.holder c x.part x.handle (s.callLaunches x.calls) = some k → x.calls ≠ [] →
    (∀ b ∈ (s.core k).sets, b.part = x.part → b.handle = x.handle → ∀ y ∈ x.calls, netFits b.words y.inputs.length y.nout = true) →
    exec (.bobbinFetch c t₁.length) s = .next
      ((s.updCluster c (fun y => { y with tiles := updNth (fun z => { z with core := some k.core }) y.tiles t₁.length })).sweepSets c))
  ∧ (∀ (c : ClusterKey) (s s2 : State) (t₁ t₂ : List HTile) (x : HTile) (ws : List W32), (s.cluster c).tiles = t₁ ++ x :: t₂ → x.core = none →
    x.parked = none → s.holder c x.part x.handle (s.callLaunches x.calls) = none → x.buf.asked = none →
    readNet (s.weightReader { die := c.die, core := 4 * c.cluster } x.part) x.buf x.handle.toNat
      (s.updCluster c (fun y => { y with tiles := updNth (fun _ => x) y.tiles t₁.length })) = .ok ws s2 →
    exec (.bobbinFetch c t₁.length) s = .next ((s2.tileRecord c t₁.length x ws).sweepSets c))
  ∧ (∀ (c : ClusterKey) (s : State) (h₁ h₂ : List Hint) (h : Hint) (k : CoreKey), (s.cluster c).hints = h₁ ++ h :: h₂ →
    s.holder c h.part h.handle [h.launch] = some k →
    ∃ t, exec (.bobbinFetch c ((s.cluster c).tiles.length + h₁.length)) s = .next t ∧ t = { s with clusters := t.clusters, cores := t.cores }
      ∧ (t.cluster c).hints = h₁ ++ h₂
      ∧ ∀ b ∈ (t.core k).sets, b.part = h.part → b.handle = h.handle → h.pin = true → h.launch ∈ b.pins ∧ b.evict = false)
  ∧ (∀ (c : ClusterKey) (s s2 : State) (h₁ h₂ : List Hint) (h : Hint) (ws : List W32) (k : CoreKey) (gone : List BobSet) (off : Nat),
    (s.cluster c).hints = h₁ ++ h :: h₂ → s.holder c h.part h.handle [h.launch] = none → h.buf.asked = none →
    readNet (s.weightReader { die := c.die, core := 4 * c.cluster } h.part) h.buf h.handle.toNat s = .ok ws s2 → netBad ws = false →
    (∃ x ∈ clusterCores c, netFoot ws ≤ (s2.core x).bob) → s2.placeSet c h.part h.handle (netFoot ws) = some (k, gone, off) →
    exec (.bobbinFetch c ((s.cluster c).tiles.length + h₁.length)) s = .next ((s2.putSet c k gone off h.part h.handle ws
      (if h.pin then [h.launch] else [])).updCluster c (fun x => { x with hints := dropNth x.hints h₁.length })))
  ∧ (∀ (c : ClusterKey) (s s' s2 : State) (k : CoreKey) (j : ShuttleJob) (part : Nat) (h : Addr) (b : BobSet) (ws : List W32),
    s.fetchTurn c = some (k, j, part, h) → (s.core k).sets.find? (fun b => b.part = part && b.handle = h && !b.ready) = some b →
    j.buf.asked = none → s' = s.updJob k j (fun x => { x with buf := j.buf }) →
    engWords (s'.weightReader k part) j.buf (h.toNat + 4 * b.words.length) ((word b.words 1).toNat / 4 - b.words.length) s' = .ok ws s2 →
    ∃ t, exec (.bobbinFetch c ((s.cluster c).tiles.length + (s.cluster c).hints.length)) s = .next t ∧ t.mem = s2.mem
      ∧ (∀ y ∈ (t.core k).shuttle, y.group = j.group → y.op ≠ j.op)
      ∧ (t.core k).sets = (s2.core k).sets.map (fun y =>
          if y.part = part ∧ y.handle = h ∧ y.ready = false then { y with words := b.words ++ ws, ready := true } else y)
      ∧ ∀ x ∈ (t.cluster (clusterOf k)).tiles, x.core = some k.core → x.part = part → x.handle = h → x.parked = none)
  ∧ ∀ (c : ClusterKey) (s : State) (t₁ t₂ : List HTile) (x : HTile) (n : Nat) (b : BobSet), (s.cluster c).tiles = t₁ ++ x :: t₂ →
    x.core = some n →
    let k : CoreKey := { die := c.die, core := n }
    s.heddleTile k = some (t₁.length, x) → (s.core k).setOf x = some b →
    (s.heddleTurn k = false → exec (.heddleTile c t₁.length) s = .next s)
    ∧ (s.heddleTurn k = true → x.step + 1 < netSteps b.words → exec (.heddleTile c t₁.length) s =
        .next ((s.turnWheel k).updCluster c (fun y => { y with tiles := updNth (fun z => { z with step := z.step + 1 }) y.tiles t₁.length })))
    ∧ (s.heddleTurn k = true → netSteps b.words ≤ x.step + 1 → ∃ t, exec (.heddleTile c t₁.length) s = .next t
        ∧ t.teams = (x.calls.foldl (fun s y => s.updOp y.group y.seq (fun o =>
            { o with lanes := updWhere (fun l => l.lane = y.lane) (fun l => { l with acc := .done (evalNet b.words y.inputs) }) o.lanes })) s).teams
        ∧ t = { s with teams := t.teams, cores := t.cores, clusters := t.clusters }
        ∧ (t.cluster c).tiles.take (t₁ ++ t₂).length = t₁ ++ t₂)

/-! ### Events: reorder sites, lane traps -/

/-- O (R326, R327): the lanes of a complete site move in the order of their keys. -/
def Obligations.ReorderMovesLanesByKey : Prop :=
  ∀ (team site : Nat) (s : State) (tm : Team) (h : Held), s.team? team = some tm → firstSome (fun (g : Group) => g.heldAt site) tm.groups = some h →
    let fl := match tm.core with | some c => (s.core c).flights | none => []
    let part (g : Group) : Bool := g.handler.isNone && (h.ctl.extractLsb' 12 4).toNat / 2 ^ g.role % 2 = 1
    let gs := tm.groups.filter (fun g => part g && (g.heldAt site).isSome)
    (∀ g ∈ tm.groups, g.stopped = false) →
    (∀ g ∈ tm.groups, part g = true → (g.heldAt site).isSome = true ∨ g.ended { team := team, idx := g.idx } fl = true) →
    (∀ g ∈ gs, g.queue = [] ∧ g.lanes.length = 64 ∧ ∀ o ∈ g.pend, o.kind.isMem = true ∨ o.kind.feeds = true → o.unperformed = false) → (tm.groups.map (fun g => g.idx)).Nodup →
    let ms := sortBy (fun (m : Mover) => (m.key * 2 ^ 8 + m.gid) * 2 ^ 8 + m.id)
      (gs.flatMap (fun g => match g.heldAt site with | some x => g.movers x | none => []))
    ∃ t, exec (.reorderSiteComplete team site) s = .next t ∧ ∀ n g, gs[n]? = some g → ∃ g', t.group? { team := team, idx := g.idx } = some g'
      ∧ g'.held = none ∧ (∀ j, j < 64 → { g'.lane j with st := .exited } =
          { (match ms[64 * n + j]? with | some m => m.lane.carry (h.ctl.extractLsb' 0 8).toNat | none => Lane.blank) with st := .exited })
      ∧ ∀ j, j < 64 → (64 * n + j < ms.length ↔ (g'.lane j).st ≠ .exited)

/-- O (R330, R331): an old trap bin closes, and a closed one becomes a handler group of copies of its lanes. -/
def Sys2Proof.Claims.trapBinsBecomeHandlerGroups : Prop :=
  (∀ (c : ClusterKey) (s : State) (b₁ b₂ : List TrapBin) (b : TrapBin), (s.cluster c).traps = b₁ ++ b :: b₂ →
    ∃ t, exec (.trapBinTimeout c b₁.length) s = .next t
      ∧ (s.clock c.die < b.opened + 256 → s.trapForced b = false → t = s)
      ∧ (b.opened + 256 ≤ s.clock c.die → t = { s with clusters := t.clusters } ∧ (t.cluster c).traps = b₁ ++ { b with closed := true } :: b₂))
  ∧ ∀ (c : ClusterKey) (s s1 : State) (b₁ b₂ : List TrapBin) (b : TrapBin) (tm : Team) (k : CoreKey) (p : Part) (q : Nat),
    (s.cluster c).traps = b₁ ++ b :: b₂ → b.closed = true → s.team? b.team = some tm → tm.core = some k → s.part? tm.part = some p →
    p.halted = false → (∀ g ∈ tm.groups, g.stopped = false ∧ g.handler = none ∧ g.idx < 16) →
    settleAll ((sortNat (b.lanes.map Prod.fst)).map (fun i => { team := tm.key, idx := i })) s = (s1, true) → s1.team? tm.key = some tm →
    s.backOn p k = none → (∀ e, b.lanes.head? = some e → s1.claimFor p (.trap b.team e.1 e.2) = none) → b.lanes ≠ [] →
    bestQuarter (s1.room k []).quarters (16 * tm.rec'.tbudget) = some q →
    ∃ t g, exec (.handlerGroupStart c b₁.length) s = .next t ∧ t.group? { team := tm.key, idx := tm.handlerIdx } = some g
      ∧ g.handler.isSome = true ∧ g.budget = 16 * tm.rec'.tbudget ∧ g.quarter = some q
      ∧ Tbl.getList g.w 8 8 = [b.trap.cause.setWidth 32, b.trap.arg, lo32 b.trap.pc, hi32 b.trap.pc, lo32 b.trap.runAddr, hi32 b.trap.runAddr,
                               lo32 b.trap.fall, hi32 b.trap.fall]
      ∧ (∀ j e o, b.lanes[j]? = some e → tm.group? e.1 = some o →
          (g.lane j).pc = tm.rec'.tvec ∧ (g.lane j).p = (o.lane e.2).p ∧ (g.lane j).fl = (o.lane e.2).fl
          ∧ ∀ r, r < 32 → Tbl.get (g.lane j).v r = Tbl.get (o.lane e.2).v r)
      ∧ (t.cluster c).traps
        = (({ s1.cluster c with traps := dropNth (s1.cluster c).traps b₁.length } : Cluster).trapIn (s1.clock c.die) []).traps

/-! ### Events: power, boot, the module manager -/

/-- An image that firmware may run: it verifies, and its version is not below the record's minimum. -/
def Sys2Proof.Claims.goodImage (f : Flash) (i : FwImage) : Prop := i.sigOk = true ∧ f.config.minVersion ≤ i.version

/-- O (R24, R26, R27, R28, R380): power, boot with the digest of the configuration record, recovery mode and the management-only mode, and
the clock under heat and under the power budget. -/
def Obligations.PowerBootAndClock : Prop :=
  (∀ s : State, s.boot = .rom ∨ s.boot = .off → ∃ t, exec .boot s = .next t ∧ t.power = true ∧ t.flash = s.flash ∧ t.mem = s.mem
    ∧ (s.flash.pufOk = false → t.boot = .halted)
    ∧ (s.flash.pufOk = true →
        let digest := Config.sha512 s.flash.config.bytes
        let runs (i : FwImage) : Prop := t.boot = (if s.flash.config.valid then .running i digest else .management i digest)
          ∧ ∀ d, d < 8 → (t.die d).inService = (s.flash.config.valid && (nth s.flash.config.dies d).getD false) ∧ (t.die d).mhz = 1050
        (∀ i, s.flash.slot0 = some i → goodImage s.flash i → runs i)
        ∧ (∀ i, (∀ x, s.flash.slot0 = some x → ¬ goodImage s.flash x) → s.flash.slot1 = some i → goodImage s.flash i → runs i)
        ∧ ((∀ x, s.flash.slot0 = some x ∨ s.flash.slot1 = some x → ¬ goodImage s.flash x) → t.boot = .recovery)))
  ∧ (∀ (s : State) (img : FwImage), s.boot = .recovery → goodImage s.flash img →
      exec (.signedFirmwareImage 0 img) s = .next { s with flash := { s.flash with slot0 := some img } }
      ∧ exec (.signedFirmwareImage 1 img) s = .next { s with flash := { s.flash with slot1 := some img } })
  ∧ (∀ (s : State) (img : FwImage) (n : Nat), s.boot ≠ .recovery ∨ ¬ goodImage s.flash img → exec (.signedFirmwareImage n img) s = .next s)
  ∧ (∀ s : State, ∃ t, exec .powerOff s = .next t ∧ t.power = false ∧ t.boot = .off ∧ t.flash = s.flash ∧ t.parts = [] ∧ t.teams = []
      ∧ t.launches = [] ∧ t.sessions = [] ∧ t.mem = State.reset.mem ∧ t.l2 = [] ∧ t.cores = [] ∧ t.dies = State.reset.dies)
  ∧ (∀ (s : State) (d : Nat), d < 8 → exec (.thermalPowerOff d) s = exec .powerOff s)
  ∧ (∀ (s : State) (d : Nat), s.booted = true → (s.die d).inService = true → ∃ t, exec (.thermalThrottle d) s = .next t
      ∧ t.die d = { s.die d with mhz := max 350 ((s.die d).mhz - 25) } ∧ (∀ e, e ≠ d → t.die e = s.die e) ∧ t = { s with dies := t.dies })
  ∧ (∀ (s : State) (mw d p : Nat), s.booted = true → 4600000 < mw → (∃ e ∈ s.dies, e.2.inService = true ∧ 350 < e.2.mhz) →
      (∃ e ∈ s.dies, e.1 = d ∧ e.2.inService = true) → ∃ t, exec (.powerWindow mw d p) s = .next t
      ∧ t.die d = { s.die d with mhz := max 350 ((s.die d).mhz - 25) } ∧ t = { s with dies := t.dies })
  ∧ (∀ (s : State) (mw d part : Nat) (p : Part), s.booted = true → 4600000 < mw → (∀ e ∈ s.dies, e.2.inService = true → e.2.mhz ≤ 350) →
      s.part? part = some p → p.frozen = none → ∃ t p', exec (.powerWindow mw d part) s = .next t ∧ t.part? part = some p'
      ∧ (p'.frozen = some Causes.powerFreeze))
  ∧ (∀ (s : State) (mw d p : Nat), s.booted = true → mw < 4300000 → (∃ e ∈ s.dies, e.2.inService = true) →
      ∃ t e, exec (.powerWindow mw d p) s = .next t ∧ e ∈ s.dies ∧ e.2.inService = true
      ∧ (∀ x ∈ s.dies, x.2.inService = true → e.2.mhz ≤ x.2.mhz)
      ∧ t.die e.1 = { s.die e.1 with mhz := min 1050 ((s.die e.1).mhz + 25) } ∧ (∀ x, x ≠ e.1 → t.die x = s.die x) ∧ t = { s with dies := t.dies })
  ∧ ∀ (s : State) (mw d p : Nat), s.booted = true → 4300000 ≤ mw → mw ≤ 4600000 → exec (.powerWindow mw d p) s = .next s

/-- O (R365, R369, R370, R376, R378): partitions, their resources, their granules and clusters; without power no granule changes its owner
(R28). That the first grant of a handle creates it with that partition as its loader is the model's: DEDUCED (log 37); that no byte of a
reassigned granule is listed is how it says that each reads as any value (R370): DESIGN CHOICE (log 4). -/
def Obligations.ManagerGivesAndTakesResources : Prop :=
  (∀ (s : State) (part modno kdie l2sh : Nat) (cs : List ClusterKey), s.booted = true → part ≤ 63 → s.part? part = none → modno ≤ 16383 →
    (s.die kdie).inService = true → s.sharesBut part + l2sh ≤ 16 → cs.Nodup → (∀ c ∈ cs, c ∈ s.freeClusters none) →
    ∃ t p, exec (.partitionCreate part modno kdie l2sh cs) s = .next t ∧ t.part? part = some p ∧ p.id = part ∧ p.modno = modno
      ∧ p.kdie = kdie ∧ p.l2sh = l2sh ∧ p.clusters = cs ∧ p.queues = [] ∧ p.heads = [] ∧ p.streams = [] ∧ p.tq = none ∧ p.frozen = none
      ∧ t.mem = s.mem ∧ t.teams = s.teams ∧ ∀ n, n ≠ part → t.part? n = s.part? n)
  ∧ (∀ (s : State) (part : Nat) (p : Part), s.part? part = some p → ∃ t, exec (.partitionDestroy part) s = .next t
      ∧ t.part? part = none ∧ (∀ x ∈ t.teams, x.part ≠ part) ∧ (∀ l ∈ t.launches, l.part ≠ part) ∧ (∀ c ∈ t.colls, c.part ≠ part)
      ∧ (∀ h ∈ t.handles, part ∉ h.granted ∧ h.loader ≠ some part))
  ∧ (∀ (s : State) (part q e n : Nat) (sup : Bool) (p : Part), s.part? part = some p → s.freeQueue e = some n → q ≤ 255 → e ≤ 31 →
      (∀ x ∈ p.queues, x.id ≠ q) → ∃ t x, exec (.resourceAssign part (.queue q e sup)) s = .next t
      ∧ t.part? part = some { p with queues := p.queues ++ [x] } ∧ x.id = q ∧ x.phys = n ∧ x.sup = sup ∧ x.en = false ∧ x.launches = [])
  ∧ (∀ (s : State) (part h phys : Nat) (p : Part), s.part? part = some p → h ≤ 63 → phys ≤ 63 → (∀ x ∈ p.heads, x.id ≠ h) →
      (∀ o ∈ s.parts, ∀ x ∈ o.heads, x.phys ≠ phys) → ∃ t x y, exec (.resourceAssign part (.head h phys)) s = .next t
      ∧ t.part? part = some { p with heads := p.heads ++ [x], streams := p.streams ++ [y] } ∧ x.id = h ∧ x.phys = phys ∧ x.en = false
      ∧ y.id = h ∧ y.en = false)
  ∧ (∀ (s : State) (part sh : Nat) (p : Part), s.part? part = some p → s.sharesBut part + sh ≤ 16 →
      ∃ t, exec (.resourceAssign part (.share sh)) s = .next t ∧ t.part? part = some { p with l2sh := sh })
  ∧ (∀ (s : State) (part h : Nat) (p : Part), s.part? part = some p → h ≤ 63 → (∀ x ∈ s.handles, x.id ≠ h) →
      exec (.resourceAssign part (.handle h)) s = .next
        { s with handles := s.handles ++ [{ id := h, granted := [part], loader := some part, sealed := false }] })
  ∧ (∀ (s : State) (g : Nat) (owner : Owner), s.power = true → g < 2 ^ 17 → (s.die (g / 2 ^ 14)).inService = true → assocGet Owner.none s.owners1 g ≠ owner →
      ∃ t, exec (.granuleReassign false g owner) s = .next t ∧ assocGet Owner.none t.owners1 g = owner
        ∧ (∀ m, m ≠ g → assocGet Owner.none t.owners1 m = assocGet Owner.none s.owners1 m)
        ∧ (∀ c ∈ t.mem.cells, granuleOf c.1 ≠ g) ∧ (∀ l ∈ t.l2, granuleOf (128 * l.line) ≠ g)
        ∧ ∀ r ∈ t.replicas, granuleOf (128 * r.line) ≠ g)
  ∧ (∀ (s : State) (g : Nat) (owner : Owner), 2 ^ 17 ≤ g ∨ (s.die (g / 2 ^ 14)).inService = false →
      exec (.granuleReassign false g owner) s = .next s)
  ∧ (∀ (s : State) (second : Bool) (g : Nat) (owner : Owner), s.power = false → exec (.granuleReassign second g owner) s = .next s)
  ∧ (∀ (s : State) (h : Nat), ∃ t, exec (.handleSeal h) s = .next t ∧ t = { s with handles := t.handles }
      ∧ t.handles = s.handles.map (fun x => if x.id = h then { x with sealed := true } else x))
  ∧ (∀ (s : State) (part : Nat) (p : Part) (r : Resize), s.part? part = some p → p.resize = some r → r.shrink = false → r.ref = none →
      r.arg ≤ (s.freeClusters r.die).length → ∃ t p', exec (.clusterGrow part) s = .next t ∧ t.part? part = some p'
      ∧ p'.clusters = p.clusters ++ (s.freeClusters r.die).take r.arg ∧ p'.clst = 2 ∧ p'.resize = none ∧ t.mem = s.mem ∧ t.teams = s.teams)
  ∧ (∀ (s : State) (part : Nat) (p : Part) (r : Resize) (c : ClusterKey), s.part? part = some p → p.resize = some r → r.ref = none →
      r.shrink = true → r.arg = c.cluster → r.die = some c.die → r.moved = [] → p.removing = [c] →
      (∀ x ∈ s.teams, ∀ k, x.core = some k → clusterOf k ≠ c) → (s.cluster c).bins = [] → (s.cluster c).tiles = [] →
      (s.cluster c).traps = [] → (s.cluster c).late = [] → s.fetching c = false → (∀ k, clusterOf k = c → (s.core k).flights = []) →
      ∃ t p', exec (.clusterShrink part) s = .next t ∧ t.part? part = some p' ∧ c ∉ p'.clusters ∧ p'.removing = [] ∧ p'.clst = 2
        ∧ p'.resize = none ∧ t.cluster c = Cluster.init ∧ t.mem = s.mem)
  ∧ ∀ (s : State) (k : GroupKey) (tm : Team) (g : Group) (x : TlbInv) (p : Part), s.team? k.team = some tm → s.group? k = some g →
      g.tlbinv = some x → x.done = false → s.part? tm.part = some p →
      (∀ r ∈ s.peers, r.part = tm.part → r.id < x.stamp → r.answer.isSome = true) →
      ∃ t, exec (.tlbinvComplete k) s = .next t ∧ ∀ g', t.group? k = some g' → g'.tlbinv = some { x with done := true }

/-! ### Events: launches and their teams -/

/-- O (R293, R254, R296): the next launch of a queue has its record checked, and becomes eligible once the order of its queue and its
dependences allow; before that nothing happens to it. -/
def Sys2Proof.Claims.launchesBecomeEligible : Prop :=
  ∀ (s : State) (part q : Nat) (p : Part) (x : Queue) (before after : List Launch) (l : Launch), s.part? part = some p →
    s.queue? part q = some x → p.frozen = none → p.resetting = false → x.en = true → s.queueLaunches x = before ++ l :: after →
    (∀ y ∈ before, y.stage ≠ .queued) → l.stage = .queued →
    let owned := fun n => p.queues.any (fun y => y.id = n)
    let words := wordsOfBytes 64 l.bytes
    let order (r : LaunchRec) := before = [] ∨ (r.overlap = true ∧ ∀ y ∈ before.drop 1, ∃ z, y.rec' = some z ∧ z.overlap = true)
    let deps (r : LaunchRec) := ∀ d ∈ r.deps, ∃ y, s.queue? part d.1 = some y ∧ (y.count - BitVec.ofNat 32 d.2).toNat < 2 ^ 31
    (l.rec' = none → LaunchRec.ofWords words owned = none →
      ∃ t l', exec (.launchEligible part q) s = .next t ∧ t.launch? l.key = some l' ∧ l'.stage = .rejected)
    ∧ (∀ r, l.rec' = none → LaunchRec.ofWords words owned = some r → r.coop = true → p.coopFits r = false →
      ∃ t l', exec (.launchEligible part q) s = .next t ∧ t.launch? l.key = some l' ∧ l'.stage = .rejected)
    ∧ (∀ r, l.rec' = none → LaunchRec.ofWords words owned = some r → r.coop = false ∨ p.coopFits r = true →
      ∃ t, exec (.launchEligible part q) s = .next t ∧ t.launch? l.key = some { l with rec' := some r } ∧ t.mem = s.mem)
    ∧ (∀ r, l.rec' = some r → order r → deps r →
      ∃ t, exec (.launchEligible part q) s = .next t ∧ t.launch? l.key = some { l with stage := .eligible, logPos := s.wlog.length } ∧ t.mem = s.mem)
    ∧ (∀ r, l.rec' = some r → ¬ (order r ∧ deps r) → exec (.launchEligible part q) s = .next s)

/-- O (R29, R30, R33, R36, R294, R295, R297, R298): the distributor places the next team on the core that fits, its groups with the
registers of their start, or begins to drain the victims that make room, and then waits until all of them have been saved (R300). -/
def Sys2Proof.Claims.distributorPlacesTeams : Prop :=
  ∀ (s : State) (part : Nat) (p : Part) (x : Queue) (l : Launch) (r : LaunchRec), s.part? part = some p → p.frozen = none →
    p.resetting = false → p.queues = [x] → s.nextOf x = some (l, r) → l.queue = x.id → r.coop = false → s.wholeAway part = [] →
    s.groupToResume p = none → (∀ y ∈ s.teams, y.key ≠ s.serial) →
    let w : Waiting := .new l.key l.nextTeam
    let core := s.coreFor p (s.shut p w) r.need
    (∀ c qs sq, core = some (c, qs, sq) → ∃ t tm, exec (.teamPlace part) s = .next t ∧ t.team? s.serial = some tm
      ∧ tm.part = part ∧ tm.queue = l.queue ∧ tm.launch = l.key ∧ tm.id = l.nextTeam ∧ tm.core = some c ∧ tm.squares = sq ∧ tm.sup = x.sup
      ∧ tm.groups.map (fun g => (g.idx, g.role, g.widx, g.budget, g.quarter)) =
          (r.groups.zip qs).map (fun e => (e.1.1, e.1.2.1, e.1.2.2.1, e.1.2.2.2.1, some e.2))
      ∧ (∀ g ∈ tm.groups, Tbl.getList g.w 0 8 = [BitVec.ofNat 32 tm.id, BitVec.ofNat 32 (tm.id % r.gx), BitVec.ofNat 32 (tm.id / r.gx % r.gy),
            BitVec.ofNat 32 (tm.id / (r.gx * r.gy)), lo32 r.arg, hi32 r.arg, BitVec.ofNat 32 g.role, BitVec.ofNat 32 g.widx])
      ∧ (∀ g ∈ tm.groups, g.lanes.length = 64 ∧ g.run = none ∧ g.pend = [] ∧ g.queue = [] ∧ ∀ n ∈ g.lanes, n.v = [] ∧ n.p = 0 ∧ n.fl = 0)
      ∧ t.mem = s.mem ∧ (t.launch? l.key).map (fun y => y.nextTeam) = (s.launch? l.key).map (fun _ => l.nextTeam + 1))
    ∧ (core = none → s.claimFor p w = none → ∀ c vs, s.victims p r.need = some (c, vs) → ∃ t, exec (.teamPlace part) s = .next t
      ∧ t.mem = s.mem ∧ t.launches = s.launches ∧ ∀ k ∈ vs, ∀ g, t.group? k = some g → g.draining = true)
    ∧ (core = none → (∃ x, s.claimFor p w = some x) ∨ s.victims p r.need = none → exec (.teamPlace part) s = .next s)

/-- O (R52): a team's bindings are performed one after another by the Shuttle; a record or operand that R52 forbids, and a fault of any
policy but park, stops the team. -/
def Sys2Proof.Claims.bindingsArePerformedBeforeTheTeamIssues : Prop :=
  ∀ (s s2 : State) (team : Nat) (tm : Team) (c : CoreKey) (b : Binding) (ws : List W32), s.team? team = some tm → tm.core = some c →
    nth tm.bindings tm.bindPos = some b → tm.bindParked = none → tm.stop = none → tm.bindBuf.asked = none →
    let rd : Reader := { pt := .shuttle c, part := tm.part, since := none, strict := true }
    let r := ShapeRec.ofWords ws
    let x := CopyCtl.of b.copy
    let read := srcWords rd tm.bindBuf b.shape.toNat 32 (s.updTeam team (fun _ => tm))
    let leaves (t : State) : Prop := exec (.transformBinding team) s = .next t
    let stops (t : State) (e : EngStop) : Prop :=
      ∀ va pol absent, e = .fault va pol absent → pol ≠ 0 → leaves (t.bindStop tm Causes.copyFault va pol absent)
    (∀ e, read = .error e s2 → stops s2 e)
    ∧ (read = .ok ws s2 → shapeBad ws = true → leaves (s2.bindStop tm Causes.shapeRecord 0 0 false))
    ∧ (read = .ok ws s2 → shapeBad ws = false → copyBad x r tm = true → leaves (s2.bindStop tm Causes.copyOperand 0 0 false))
    ∧ (read = .ok ws s2 → shapeBad ws = false → copyBad x r tm = false → ∀ s3,
        (∀ e, bindData rd tm x r s2 = .error e s3 → stops s3 e)
        ∧ (bindData rd tm x r s2 = .ok () s3 → leaves ((s3.updTeam team (fun y =>
            { y with bindPos := y.bindPos + 1, bindBuf := { got := [], asked := none } })).freeEntry team)))

/-- O (R299, R300, R301, R302, R303, R306, R147): a drained victim is saved, its core's stores performed, unless it is a victim no more; a
saved group resumes with its state, an old ready split is
promoted, and a new Bobbin size waits for an empty core. -/
def Obligations.GroupsAreSavedAndResumed : Prop :=
  (∀ (s : State) (k : GroupKey) (tm : Team) (g : Group) (c : CoreKey), s.team? k.team = some tm → s.group? k = some g → tm.core = some c →
    g.draining = true →
    let spared : Prop := (tm.stop.isSome = true ∧ g.recorded = none) ∨ g.held.isSome = true ∨ g.ended k (s.core c).flights = true
    (spared → exec (.groupEvict k) s = .next (s.updGroup k (fun g => { g with draining := false })))
    ∧ (¬ spared → g.quiet k (s.core c).flights = true → s.bound k c g = false →
      ∃ t g', exec (.groupEvict k) s = .next t ∧ t.group? k = some g' ∧ g'.quarter = none ∧ g'.draining = false ∧ g'.evicted.isSome = true
        ∧ g'.w = g.w ∧ (∀ j, (g'.lane j).v = (g.lane j).v ∧ (g'.lane j).p = (g.lane j).p)
        ∧ ((∀ e ∈ s.cores, e.2.flights = []) → (∀ o, o.team ≠ k.team → t.group? o = s.group? o)
          ∧ g' = { g with quarter := none, draining := false, evicted := some s.serial }
          ∧ ∀ p, s.part? tm.part = some p → ∀ a, (∀ n, n < p.saveGr → granuleOf a ≠ p.save / 2 ^ 21 + n) → t.mem.read a = s.mem.read a)))
  ∧ (∀ (s : State) (k : GroupKey) (g : Group) (c : CoreKey), s.group? k = some g → s.coreOf k = some c → g.draining = false →
    exec (.groupEvict k) s = .next s)
  ∧ (∀ (s : State) (part : Nat) (p : Part) (k : GroupKey) (c : CoreKey) (q : Nat) (g : Group), s.part? part = some p → p.frozen = none →
    p.resetting = false → s.groupToResume p = some (k, c, q) → s.group? k = some g →
    ∃ t g', exec (.groupResume part) s = .next t ∧ t.group? k = some g' ∧ g'.quarter = some q ∧ g'.evicted = none ∧ g'.w = g.w
      ∧ g'.pend = g.pend ∧ ∀ j, (g'.lane j).v = (g.lane j).v ∧ (g'.lane j).p = (g.lane j).p)
  ∧ (∀ (s : State) (part : Nat) (p : Part) (tm : Team) (c : CoreKey) (qs sq : List Nat), s.part? part = some p → p.frozen = none →
    p.resetting = false → s.groupToResume p = none → s.teamToResume p = some (tm, c, qs, sq) → s.team? tm.key = some tm →
    ∃ t tm', exec (.groupResume part) s = .next t ∧ t.team? tm.key = some tm' ∧ tm'.core = some c ∧ tm'.squares = sq
      ∧ tm'.scratch = tm.scratch ∧ tm'.tiles = tm.tiles)
  ∧ (∀ (s : State) (k : GroupKey) (g : Group) (c : CoreKey) (n : Nat), s.group? k = some g → s.coreOf k = some c →
    ∃ t, exec (.splitPromotion k n) s = .next t ∧ t.mem = s.mem ∧ t.group? k = some { g with splits := g.splits.map (fun x =>
      if x.slot = n && (match x.ready with | some r => decide (r + 4096 ≤ s.clock c.die) | none => false) then { x with promoted := true } else x) })
  ∧ ∀ (s : State) (c : CoreKey),
    ((∀ t ∈ s.teams, t.core = some c → s.teamOver t = true) → ∃ t, exec (.bobChange c) s = .next t ∧ t.mem = s.mem ∧ t.teams = s.teams
      ∧ ((s.core c).bob ≠ (s.core c).bobNew → t.core c = { s.core c with bob := (s.core c).bobNew, sets := [] })
      ∧ ((s.core c).bob = (s.core c).bobNew → t = s))
    ∧ ((∃ t ∈ s.teams, t.core = some c ∧ s.teamOver t = false) → exec (.bobChange c) s = .next s)

/-- O (R269, R292): the first launch of a queue completes once its teams have ended and its record, if it needs one, is written; the
count advances. -/
def Sys2Proof.Claims.launchesCompleteInQueueOrder : Prop :=
  ∀ (s : State) (part q : Nat) (x : Queue) (l : Launch) (ls : List Launch), s.queue? part q = some x → s.queueLaunches x = l :: ls →
    let teamsOver := ∀ tm ∈ s.teams, tm.launch = l.key → s.teamOver tm = true
    let done := (l.stage = .rejected ∧ l.recordDue = none) ∨ (l.stage = .ended ∧ l.recordDue = none)
      ∨ (l.stage = .eligible ∧ teamsOver ∧ l.nextTeam = (match l.rec' with | some r => r.gx * r.gy * r.gz | none => 0))
    (done → ∃ t, exec (.launchComplete part q) s = .next t ∧ t.launch? l.key = none ∧ (∀ tm ∈ t.teams, tm.launch ≠ l.key)
      ∧ t.queue? part q = some { x with launches := x.launches.filter (fun k => k ≠ l.key), count := x.count + 1, watch := 0 })
    ∧ (¬ done → exec (.launchComplete part q) s = .next s)

/-! ### Events: recovery -/

/-- O (R404, R405, R406): a watchdog kills its launch or resets its partition; a kill completes once the launch's teams have ended; one
that outlasts GRACE resets the partition. -/
def Obligations.WatchdogsKillAndReset : Prop :=
  ∀ (s : State) (part q : Nat) (p : Part) (x : Queue) (l : Launch) (ls : List Launch), s.part? part = some p → s.queue? part q = some x →
    s.queueLaunches x = l :: ls → p.frozen = none → p.resetting = false →
    (l.stage = .eligible → x.wdog ≠ 0 → x.wdog ≤ x.watch → x.wdrst = false → ∃ t, exec (.watchdogExpiry part q) s = .next t
      ∧ (t.launch? l.key).map (fun y => y.stage) = some (.killed Causes.watchdog 0) ∧ ∀ tm ∈ t.teams, tm.launch = l.key → tm.ended = true)
    ∧ (l.stage = .eligible → x.wdog ≠ 0 → x.wdog ≤ x.watch → x.wdrst = true → ∃ t p', exec (.watchdogExpiry part q) s = .next t
      ∧ t.part? part = some p' ∧ p'.resetting = true
      ∧ p'.resetCause = some (Causes.resetOnWatchdog, some (l.queue, s.lseq part l.queue l.key)) ∧ t.teams = s.teams)
    ∧ (l.stage ≠ .eligible ∨ x.wdog = 0 ∨ x.watch < x.wdog → exec (.watchdogExpiry part q) s = .next s)
    ∧ (∀ c va, l.stage = .killed c va → ls = [] → (∀ tm ∈ s.teams, tm.launch ≠ l.key) → ∃ t, exec (.killComplete part q) s = .next t
      ∧ (t.launch? l.key).map (fun y => y.stage) = some .ended ∧ t.teams = s.teams)
    ∧ (∀ c va n, l.stage = .killed c va → l.killClock = some n → n + x.grace ≤ s.engineClock x → ∃ t p', exec (.graceExpiry part q) s = .next t
      ∧ t.part? part = some p' ∧ p'.resetting = true ∧ p'.resetCause = some (Causes.graceOver, some (l.queue, s.lseq part l.queue l.key)))
    ∧ ((∀ y ∈ l :: ls, ∀ c va n, y.stage = .killed c va → y.killClock = some n → s.engineClock x < n + x.grace) →
        exec (.graceExpiry part q) s = .next s)

/-- O (R407, R397, R411, R412): a partition's reset, and a frozen partition's dump once its runs have ended and its tags are clear. -/
def Obligations.ResetEndsEverythingOfItsPartition : Prop :=
  (∀ (s : State) (part : Nat) (p : Part) (c : Cause) (info : Option (Nat × W32)), s.part? part = some p → p.resetting = true →
    p.resetCause = some (c, info) → ∃ t p', exec (.partitionReset part) s = .next t ∧ t.part? part = some p'
      ∧ (∀ tm ∈ t.teams, tm.part ≠ part) ∧ (∀ l ∈ t.launches, l.part ≠ part) ∧ (∀ o ∈ t.colls, o.issued = true → o.part ≠ part)
      ∧ (∀ x ∈ p'.queues, x.en = false ∧ x.count = 0 ∧ x.launches = []) ∧ (∀ h ∈ p'.heads, h.en = false) ∧ (∀ y ∈ p'.streams, y.en = false)
      ∧ p'.notices = [] ∧ p'.heldRecs = [] ∧ p'.resetCause = none
      ∧ (p'.frozen = none → p'.resetting = false ∧ p'.rstCnt = p.rstCnt + 1)
      ∧ ((∀ l ∈ s.launches, l.part = part → l.stage ≠ .eligible ∧ ∀ d va, l.stage ≠ .killed d va) → 1 ≤ p.tqFree → p'.frozen = none))
  ∧ (∀ (s : State) (part : Nat) (p : Part), s.part? part = some p → p.resetting = false → exec (.partitionReset part) s = .next s)
  ∧ (∀ (s : State) (part : Nat) (p : Part), s.part? part = some p → p.frozen.isSome = true → p.dumped = false → p.resetting = false →
    (∀ tm ∈ s.teams, tm.part = part → ∀ g ∈ tm.groups, s.unsettled { team := tm.key, idx := g.idx } = false) →
    (p.dumpGr = 0 → ∃ t, exec (.fatalDump part) s = .next t ∧ t.part? part = some { p with dumped := true } ∧ t.mem = s.mem)
    ∧ (p.dumpGr ≠ 0 → ∀ s1 secs, s.dumpSections p = (s1, secs) →
        let ws := dumpWords p (p.dumpGr * 2 ^ 21) secs
        exec (.fatalDump part) s = .next ((writeOwned part p.dump ws s1).updPart part (fun y => { y with dumped := true }))
        ∧ nth ws 0 = some 0x44554D50 ∧ nth ws 2 = p.frozen.map (fun c => BitVec.ofNat 32 c.toNat)
        ∧ nth ws 3 = some (BitVec.ofNat 32 (p.id + p.modno * 2 ^ 16))))
  ∧ ∀ (s : State) (part : Nat) (p : Part), s.part? part = some p → p.frozen = none ∨ p.dumped = true ∨ p.resetting = true →
    exec (.fatalDump part) s = .next s

/-- O (R396, R398, R399, R400, R402): the record of a stopped group, once the cause that carries FIRST is settled, the consumption of
records, and END, RESUME and REPLAY. That END of a notice does nothing is the model's: DEDUCED (log 31). -/
def Obligations.StopRecordsAndTeamActions : Prop :=
  (∀ (s : State) (k : GroupKey) (tm : Team) (g : Group) (first : StopCause) (gid clk : Nat), s.team? k.team = some tm → s.group? k = some g →
    tm.stop = some (first, gid, clk) → tm.ended = false → s.firstOpen tm = false → g.stopped = true → g.recorded = none →
    g.drained (match tm.core with | some c => (s.core c).flights | none => []) (s.parkedCalls k) (s.heldTiles k) k = true →
    let base := s.groupRec k kStop first.cause
    let own (c : StopCause) : Rec := { base with
      cause := c.cause, async := c.async, first := k.idx = gid, arg := c.arg, pc := c.pc, va := c.va, acc := c.acc, pol := c.pol,
      np := c.np, skid := g.skid }
    (∀ c, g.cause = some c → exec (.groupStopRecord k) s = .next (s.emit tm.part (own c) (some k) none))
    ∧ (g.cause = none → g.allExited = false → ∀ x, g.splits.find? (fun y => y.slot = g.lastSlot) = some x → exec (.groupStopRecord k) s =
        .next (s.emit tm.part { base with kind := kSibling, pc := x.pc, skid := g.skid } (some k) none)))
  ∧ (∀ (s : State) (part : Nat) (p : Part) (v : W32), s.part? part = some p →
    let n := v.toNat % 2 ^ 31
    let ahead := (n + 2 ^ 31 - p.tqRd) % 2 ^ 31
    let filled := (p.tqWr + 2 ^ 31 - p.tqRd) % 2 ^ 31
    (ahead ≤ filled → p.heldRecs = [] → ∃ t, exec (.tqrdWrite part v) s = .next t ∧ t.part? part = some { p with tqRd := n } ∧ t.mem = s.mem)
    ∧ (filled < ahead → exec (.tqrdWrite part v) s = .next s))
  ∧ (∀ (s : State) (part : Nat) (p : Part) (tm : Team), s.part? part = some p → s.named p = .team tm →
    (∃ t, exec (.teamActionEnd part) s = .next t ∧ (∀ y ∈ t.teams, y.key = tm.key → y.ended = true ∧ ∀ g ∈ y.groups, g.stopped = true)
      ∧ ∀ c ∈ t.clusters, ∀ b ∈ c.2.traps, b.team ≠ tm.key)
    ∧ exec (.teamActionReplay part) s = .next s
    ∧ ∀ first gid clk, tm.stop = some (first, gid, clk) →
        (first.cause ≠ 0x100#10 → first.cause ≠ 0x101#10 → exec (.teamActionResume part) s = .next s)
        ∧ ∀ r s1 fall, first.cause = 0x100#10 ∨ first.cause = 0x101#10 → (∀ g ∈ tm.groups, g.idx = gid ∨ g.cause = none) →
            (∀ g ∈ tm.groups, ∃ n, g.recorded = some (some n)) → ∀ g0, tm.group? gid = some g0 → g0.trapRun = some r →
            skipCode (match tm.core with | some c => .lane c | none => .hub) tm (r.left - 1) r.next.toNat s = (s1, some fall) →
            s1.team? tm.key = some tm →
            ∃ t tm' g, exec (.teamActionResume part) s = .next t ∧ t.team? tm.key = some tm' ∧ tm'.stop = none
              ∧ (∀ y ∈ tm'.groups, y.stopped = false ∧ y.cause = none) ∧ tm'.group? gid = some g
              ∧ ∀ j, (nth g.lanes j).isSome = true → (g0.trapLanes = 0 ∧ (g.lane j).st = .active r.slot) ∨ g0.trapLanes.getLsbD j = true →
                  (g.lane j).pc = BitVec.ofNat 64 fall)
  ∧ (∀ (s : State) (part : Nat) (p : Part) (n : Notice), s.part? part = some p → s.named p = .notice n →
    exec (.teamActionReplay part) s = .next (s.replay part n.group (fun a => a = n.va))
    ∧ exec (.teamActionEnd part) s = .next s ∧ exec (.teamActionResume part) s = .next s)
  ∧ ∀ (s : State) (part : Nat) (p : Part), s.part? part = some p → s.named p = .nothing →
    exec (.teamActionEnd part) s = .next s ∧ exec (.teamActionResume part) s = .next s ∧ exec (.teamActionReplay part) s = .next s

/-- O (R14, R22, R27, R408, R409): a failing core's cluster, and a failing slice, are replaced by spares; the record follows. That the first
spare is taken of several is the model's: DESIGN CHOICE (log 54). -/
def Obligations.SparesReplaceFailedParts : Prop :=
  (∀ (s : State) (c : CoreKey) (ph : Nat), (s.die c.die).inService = true → nth (s.die c.die).clusterMap (c.core / 4) = some (some ph) →
    (∀ n ns, (s.die c.die).spareClusters = n :: ns → ∃ t, exec (.coreRetire c) s = .next t
      ∧ nth (t.die c.die).clusterMap (c.core / 4) = some (some n) ∧ (t.die c.die).spareClusters = ns
      ∧ (∀ m, m ≠ c.core / 4 → nth (t.die c.die).clusterMap m = nth (s.die c.die).clusterMap m)
      ∧ (∀ j, clusterOf j = clusterOf c → (t.core j).l1 = [] ∧ (t.core j).tlb = [] ∧ (t.core j).sets = [])
      ∧ (c.die, ph) ∈ t.flash.config.deadClusters ∧ t.flash.config.clusterMaps = t.dies.map (fun d => d.2.clusterMap)
      ∧ ∀ tm ∈ t.teams, tm.core = some c → s.teamOver tm = true ∨ tm.ended = true)
    ∧ ((s.die c.die).spareClusters = [] → ∃ t, exec (.coreRetire c) s = .next t
      ∧ nth (t.die c.die).clusterMap (c.core / 4) = some none ∧ t.flash.config.clusterMaps = t.dies.map (fun d => d.2.clusterMap)
      ∧ ∀ p, s.parts.find? (fun p => p.clusters.contains (clusterOf c)) = some p → ∀ p', t.part? p.id = some p' →
          clusterOf c ∉ p'.clusters ∧ clusterOf c ∈ p'.removing))
  ∧ (∀ (s : State) (c : CoreKey), (s.die c.die).inService = false ∨ nth (s.die c.die).clusterMap (c.core / 4) = some none →
    exec (.coreRetire c) s = .next s)
  ∧ (∀ (s : State) (d slice n m : Nat) (ms : List Nat) (bad : List Nat), d < 8 → (s.die d).inService = true → slice < 48 →
    nth (s.die d).sliceMap slice = some (some n) → (∀ i, i < 48 → i ≠ slice → nth (s.die d).sliceMap i ≠ some (some n)) →
    (s.die d).spareSlices = m :: ms → ∃ t, exec (.sliceRetire d slice bad) s = .next t ∧ nth (t.die d).sliceMap slice = some (some m)
      ∧ (t.die d).spareSlices = ms ∧ (∀ i, i ≠ slice → i < 48 → nth (t.die d).sliceMap i = nth (s.die d).sliceMap i)
      ∧ (d, n) ∈ t.flash.config.deadSlices ∧ t.flash.config.sliceMaps = t.dies.map (fun x => x.2.sliceMap)
      ∧ ((∀ l ∈ s.l2, l.home ≠ d) → t.mem = s.mem))
  ∧ ∀ (s : State) (d slice : Nat) (bad : List Nat), (s.die d).inService = false → exec (.sliceRetire d slice bad) s = .next s

/-! ### Events: control spaces, heads, streams -/

/-- O (R291, R337, R371, R373, R377, R388, R395): control-space writes that the hub applies, and the words that no write changes. -/
def Obligations.ControlWritesChangeTheirWords : Prop :=
  (∀ (s : State) (part : Nat) (p : Part), s.part? part = some p →
    let goes (off : Nat) (v : W32) (p' : Part) := ∃ t, exec (.controlWrite part 0 off v) s = .next t ∧ t.part? part = some p' ∧ t.mem = s.mem
    let stays (space off : Nat) (v : W32) (c : Nat) := exec (.controlWrite part space off v) s = .next s ∧ s.ctlWrite part space off v = (s, c)
    (∀ off ∈ [0x00, 0x04, 0x28, 0x38, 0x8C, 0x94, 0x98, 0x9C, 0xB8, 0xE8, 0xEC, 0xF0], ∀ v, stays 0 off v 0x241)
    ∧ (∀ off v, off % 4 ≠ 0 ∨ 0x100 ≤ off → stays 0 off v 0x240)
    ∧ (∀ off ∈ [0x08, 0x10, 0x1C, 0x2C, 0xA0], ∀ v, goes off v { p with heldLo := kput off v p.heldLo })
    ∧ (∀ v, (p.tqWr = p.tqRd → goes 0x80 v { p with heldLo := kput 0x80 v p.heldLo })
        ∧ (p.tqWr ≠ p.tqRd → stays 0 0x80 v 0x242 ∧ (v.toNat % 2 ^ 4 ≤ 8 → stays 0 0x88 v 0x242)))
    ∧ (∀ (v lo : W32), kget 0x08 p.heldLo = some lo → p.heldRecs = [] →
        let a := v.toNat % 2 ^ 20 * 2 ^ 32 + lo.toNat
        let left := p.heldLo.filter (fun e => e.1 ≠ 8)
        (a % 2 ^ 16 = 0 → a < 2 ^ 38 → s.ownsKey part a = true → goes 0x0C v { p with ptr := a, heldLo := left })
        ∧ (a % 2 ^ 16 ≠ 0 ∨ 2 ^ 38 ≤ a ∨ s.ownsKey part a = false → goes 0x0C v { p with heldLo := left }))
    ∧ (∀ v : W32, let n := v.toNat % 2 ^ 12
        1 ≤ n % 16 → n / 256 ≤ 8 → goes 0x24 v { p with hw := n % 16, bobc := n / 256 })
    ∧ (∀ v : W32, goes 0x3C v { p with svcRd := v.toNat % 2 ^ 31 } ∧ goes 0xAC v { p with taSeq := v.toNat % 2 ^ 31 })
    ∧ (∀ v : W32, v.toNat % 2 ^ 12 ≤ 2048 → goes 0xA8 v { p with dumpGr := v.toNat % 2 ^ 12 })
    ∧ (∀ v : W32, v.toNat % 2 = 1 → p.resetting = false →
        goes 0xB4 v { p with resetting := true, resetCause := some (Causes.resetRequested, none) })
    ∧ (∀ n v, n < 64 →
        let m := v.toNat % 2 ^ 15
        (1 ≤ m → m ≤ 16384 → ∃ t p', exec (.controlWrite part 4 (16 * n + 8) v) s = .next t ∧ t.part? part = some p'
          ∧ kget n p'.stripes = some { (kget n p.stripes).getD Stripe.blank with m := m })
        ∧ (m = 0 ∨ 16384 < m → stays 4 (16 * n + 8) v 0x24D)))
  ∧ ∀ (s : State) (part q : Nat) (p : Part) (x : Queue), s.part? part = some p → p.queues.find? (fun y => y.id = q) = some x → q < 256 →
    (∀ v : W32, x.en = false →
      (∃ t, exec (.controlWrite part 1 (32 * q + 16) v) s = .next t ∧ t.queue? part q = some { x with wdog := v.toNat })
      ∧ (∃ t, exec (.controlWrite part 1 (32 * q + 20) v) s = .next t ∧ t.queue? part q = some { x with grace := v.toNat })
      ∧ ∃ t, exec (.controlWrite part 1 (32 * q + 24) v) s = .next t ∧ t.queue? part q = some { x with wdrst := v.getLsbD 0 })
    ∧ (∀ (v : W32) k, 1 ≤ k → k < 8 → x.en = true → exec (.controlWrite part 1 (32 * q + 4 * k) v) s = .next s)

/-- O (R291, R292): EN of a queue set: taken when no launch of the queue is left and CW holds only bits that the rule gives, and its count is
0 then. -/
def Sys2Proof.Claims.queueEnableStartsTheCount : Prop :=
  ∀ (s : State) (part q : Nat) (x : Queue), s.queue? part q = some x →
    (x.en = false → s.queueLaunches x = [] → x.cw % 8 = 0 → ∃ t x', exec (.queueEnable part q) s = .next t ∧ t.queue? part q = some x'
      ∧ x' = { x with en := true, count := 0, watch := 0, cur := x'.cur } ∧ (∀ prio, prio < 4 → kget prio x'.cur = some x.wgt)
      ∧ t = { s with parts := t.parts })
    ∧ (x.en = true ∨ s.queueLaunches x ≠ [] ∨ x.cw % 8 ≠ 0 → exec (.queueEnable part q) s = .next s)

/-- O (R291): EN of a queue cleared: launches that have placed no team are discarded, with their held records, and the others stay. -/
def Sys2Proof.Claims.queueDisableDiscardsUnplacedLaunches : Prop :=
  ∀ (s : State) (part q : Nat) (x : Queue), s.queue? part q = some x →
    ∃ t x', exec (.queueDisable part q) s = .next t ∧ t.queue? part q = some x' ∧ x'.en = false ∧ x'.count = x.count ∧ t.mem = s.mem
      ∧ t.teams = s.teams
      ∧ ∀ l ∈ s.queueLaunches x,
        (l.nextTeam = 0 → t.launch? l.key = none ∧ l.key ∉ x'.launches
          ∧ ∀ p', t.part? part = some p' → ∀ r ∈ p'.heldRecs, r.launch ≠ some l.key)
        ∧ (l.nextTeam ≠ 0 → t.launch? l.key = some l ∧ l.key ∈ x'.launches)

/-- A word stored for a head, through the partition's page table. -/
def Sys2Proof.Claims.headStore (s : State) (part : Nat) (a : Nat) (w : W32) : State := s.hubStore part a (bytesOf 4 w.toNat)

/-- O (R337, R338, R344, R347, R348, R349): heads and streams go on and off; lines, latches, releases, deadlines, reports. That a line is
not passed while a latch, a report, a band or a stream's row is due, that a dropped entry's descriptor is read and may be rejected, that a
FAULT that comes after its frame's report is carried to the next, and that a stream enabled before its head is turns to frame 0 are the
model's: DEDUCED (log 30). -/
def Obligations.HeadsScanTheirFrames : Prop :=
  ∀ (s : State) (part hid : Nat) (h : Head), s.head? part hid = some h →
    let onlyHead (i : Instr) (h' : Head) := ∃ t, exec i s = .next t ∧ t.head? part hid = some h' ∧ t.mem = s.mem ∧ t.teams = s.teams
    let s0 := s.updHead part hid (fun x => { x with buf := h.buf })
    let pose := engWords (hubReader part (some h.linePos)) h.buf h.pose.toNat 6
    (h.en = false → h.valid = true → ∃ t h', exec (.headEnable part hid) s = .next t ∧ t.head? part hid = some h' ∧ h'.en = true ∧ h'.line = 0
      ∧ h'.frame = 0 ∧ h'.latched = none ∧ h'.surfA = none ∧ h'.surfB = none ∧ h'.bands.length = h.vact / 16 ∧ h'.queue = h.queue
      ∧ ∀ y, s.stream? part hid = some y → y.en = true → ∃ y', t.stream? part hid = some y' ∧ y'.cur = 0 ∧ y'.row = 0 ∧ y'.key = y.isKey
          ∧ y'.keyNext = false)
    ∧ (h.en = true ∨ h.valid = false → exec (.headEnable part hid) s = .next s)
    ∧ (h.en = true → ∃ t h', exec (.headDisable part hid) s = .next t ∧ t.head? part hid = some h' ∧ h'.en = false ∧ h'.queue = []
      ∧ h'.leaving = h.leaving ++ h.latched.toList ++ (if h.aFreed then [] else h.surfA.toList) ++ h.surfB.toList ∧ h'.drops = h.drops ++ h.queue.map Prod.fst)
    ∧ (h.en = false → exec (.headDisable part hid) s = .next s)
    ∧ (∀ y, s.stream? part hid = some y →
        (y.en = false → y.valid h = true → ∃ t y', exec (.streamEnable part hid) s = .next t ∧ t.stream? part hid = some y' ∧ y'.en = true
          ∧ y'.frames = 0 ∧ y'.keyNext = true ∧ y'.offset = 0 ∧ y'.words = y.words)
        ∧ (y.en = true ∨ y.valid h = false → exec (.streamEnable part hid) s = .next s))
    ∧ (h.en = true → h.latchDue = false → h.reportDue = false → h.dueBand = none → (∀ y, s.stream? part hid = some y → y.due h = false) →
        (h.line + 1 < h.vtot → onlyHead (.rasterLine part hid) { h with line := h.line + 1, linePos := s.wlog.length })
        ∧ (h.vtot ≤ h.line + 1 → ∃ t h', exec (.rasterLine part hid) s = .next t ∧ t.head? part hid = some h' ∧ h'.line = 0
            ∧ h'.frame = (h.frame + 1) % 2 ^ 32 ∧ h'.ahead = false ∧ h'.reported = false
            ∧ ∀ y, s.stream? part hid = some y → y.en = true → ∃ y', t.stream? part hid = some y' ∧ y'.cur = h'.number
              ∧ (h'.number % y.div = 0 → y' = { y with cur := h'.number, row := 0, key := y.isKey, keyNext := false, buf := PeerBuf.none })
              ∧ (h'.number % y.div ≠ 0 → y'.behind h' = false)))
    ∧ (h.en = false ∨ h.latchDue = true ∨ h.reportDue = true ∨ h.dueBand.isSome = true ∨ (∃ y, s.stream? part hid = some y ∧ y.due h = true) → exec (.rasterLine part hid) s = .next s)
    ∧ (∀ b x, h.en = true → h.dueBand = some b → nth h.bands b = some x → b < h.prev.length →
        ∃ t h', exec (.bandDeadline part hid) s = .next t ∧ t.head? part hid = some h'
          ∧ nth h'.bands b = some { x with fixed := true, slice := none }
          ∧ (∀ ws, x.rung0 = some ws → nth h'.prev b = some ws ∧ h'.f1 = h.f1 ∧ h'.f2 = h.f2)
          ∧ (∀ ws, x.rung0 = none → x.rung1 = some ws → nth h'.prev b = some ws ∧ h'.f2 = h.f2 ∧ h'.f1 = (if h.netOn then h.f1 + 1 else h.f1))
          ∧ (x.rung0 = none → x.rung1 = none → nth h'.prev b = nth h.prev b ∧ h'.f1 = h.f1 ∧ h'.f2 = h.f2 + 1
              ∧ h'.report = (if h.vectorsLost b then h.report ||| 0x40000 else h.report) + 0x100))
    ∧ (h.dueBand = none → exec (.bandDeadline part hid) s = .next s)
    ∧ (h.reportDue = true → h.dueBand = none →
        let w : W32 := (h.report ||| (if h.dropped then 0x80000 else 0)) ||| BitVec.ofNat 32 (h.frame % 256 * 2 ^ 24)
        exec (.reportWord part hid) s = .next (headStore (s.updHead part hid (fun x => { x with reported := true, dropped := false, report := 0 })) part
          (h.repNow.toNat + 4 * (h.frame % 1024)) w))
    ∧ (h.reportDue = false → exec (.reportWord part hid) s = .next s)
    ∧ (∀ ps s3, h.latchDue = true → h.dueBand = none → h.buf.asked = none → h.mode < 2 → h.net = false → h.queue = [] →
        pose s0 = .ok ps s3 → s3.head? part hid = some h →
        ∃ t h', exec (.surfaceLatch part hid) s = .next t ∧ t.head? part hid = some h' ∧ h'.ahead = true ∧ h'.latched = h.latched
          ∧ h'.report = h.report &&& 0x40000 ∧ h'.poseWords = some ps ∧ h'.bands = List.replicate (h.vact / 16) Band.fresh)
    ∧ (∀ q a pos ws s2 ps s3, h.latchDue = true → h.dueBand = none → h.buf.asked = none → h.mode < 2 → h.net = false → h.queue = q ++ [(a, pos)] →
        engWords (hubReader part none) h.buf a.toNat 16 s0 = .ok ws s2 → pose s2 = .ok ps s3 → s3.head? part hid = some h →
        ∃ t h', exec (.surfaceLatch part hid) s = .next t ∧ t.head? part hid = some h' ∧ h'.ahead = true ∧ h'.queue = []
          ∧ h'.poseWords = some ps ∧ h'.drop = h.drop + BitVec.ofNat 32 q.length
          ∧ (surfBad ws = false → h'.latched = some (Surface.ofWords a pos ws) ∧ h'.leaving = h.leaving ++ h.latched.toList ∧ h'.rej = h.rej)
          ∧ (surfBad ws = true → h'.latched = h.latched ∧ h'.rej = h.rej + 1))
    ∧ (h.latchDue = false → exec (.surfaceLatch part hid) s = .next s)
    ∧ (∀ f fs, h.leaving = f :: fs →
        let s1 := s.updHead part hid (fun x => { x with leaving := fs })
        exec (.surfaceRelease part hid) s = .next (match f.obj with | some o => s1.hubArrive part none o | none => s1))
    ∧ (∀ a as ws s2, h.leaving = [] → h.drops = a :: as → h.buf.asked = none →
        engWords (hubReader part none) h.buf a.toNat 16 s0 = .ok ws s2 →
        let s3 := s2.updHead part hid (fun x => { x with drops := as, buf := PeerBuf.none })
        (surfBad ws = true → exec (.surfaceRelease part hid) s = .next (s3.rejectSurf part hid a))
        ∧ (surfBad ws = false → exec (.surfaceRelease part hid) s =
            .next (match (Surface.ofWords a 0 ws).obj with | some o => s3.hubArrive part none o | none => s3)))
    ∧ (h.leaving = [] → h.drops = [] → exec (.surfaceRelease part hid) s = .next s)

/-- O (R335, R339, R340, R342, R343, R350): band networks, motion vectors, found by the one block of the hub, and the rows of a stream. That
the block works row by row is the model's: DEDUCED (log 30). -/
def Obligations.HeadEnginesDoTheirJobs : Prop :=
  ∀ (s : State) (part hid : Nat) (h : Head), s.head? part hid = some h → h.buf.asked = none →
    let s0 := s.updHead part hid (fun x => { x with buf := h.buf })
    let onlyHead (i : Instr) (h' : Head) := ∃ t, exec i s = .next t ∧ t.head? part hid = some h' ∧ t.mem = s.mem ∧ t.teams = s.teams
    let atWork := s.updHead part hid (fun x => { x with buf := h.buf, estimating := true })
    (∀ b x net, nth h.bands b = some x → h.netWords = some net → h.openBand b = true → x.slice = none → x.rung0 = none →
        h.vectorsReady b = true →
        let first := ∀ y ∈ s.jobsOf h.hub, jobBefore y (h, b) = false
        (∀ n, first → n < 4 → n ∉ s.slicesOf h.hub → (∀ m, m < n → m ∈ s.slicesOf h.hub) →
          onlyHead (.bandJob part hid b) { h with bands := updNth (fun y => { y with slice := some n }) h.bands b })
        ∧ (¬ first ∨ (∀ n, n < 4 → n ∈ s.slicesOf h.hub) → exec (.bandJob part hid b) s = .next s))
    ∧ (∀ b x net f ws s2, nth h.bands b = some x → h.netWords = some net → h.openBand b = true → x.slice.isSome = true →
        h.source = some f → bandRung0 part h f net b s0 = .ok ws s2 → s2.head? part hid = some h →
        ∃ t h', exec (.bandJob part hid b) s = .next t ∧ t.head? part hid = some h'
          ∧ nth h'.bands b = some { x with slice := none, rung0 := some ws } ∧ t.mem = s2.mem)
    ∧ (∀ b, h.netWords = none → exec (.bandJob part hid b) s = .next s)
    ∧ (∀ a b ws s2, h.surfA = some a → h.surfB = some b → h.en = true → h.mode = 3 → 8 * h.vectors.length < b.height →
        s.blockTaken h = false → vectorRow part h.buf a b h.vectors.length atWork = .ok ws s2 →
        let last := b.height ≤ 8 * (h.vectors.length + 1)
        let s3 := s2.updHead part hid (fun x => { x with
          vectors := x.vectors ++ [some ws], buf := PeerBuf.none, leaving := if last then x.leaving ++ (if x.aFreed then [] else x.surfA.toList) else x.leaving,
          aFreed := x.aFreed || decide last, estimating := false })
        exec (.motionEstimation part hid) s = .next (if h.mvNow = 0 then s3 else (upFrom 0 ws.length).foldl (fun u k =>
          headStore u part (h.mvNow.toNat + 4 * (h.vectors.length * ws.length + k)) (word ws k)) s3))
    ∧ (h.mode ≠ 3 ∨ s.blockTaken h = true → exec (.motionEstimation part hid) s = .next s)
    ∧ (∀ y, s.stream? part hid = some y → h.en = true → y.behind h = true → min (64 * (y.row + 1)) h.vact ≤ h.line → y.toMem = false →
        let ps := h.planes (if y.ten then 10 else 8) y.row
        let bs := Config.av1Row s.fresh y.key y.ten y.row ps.1 ps.2.1 ps.2.2
        ∃ t y', exec (.encodeRow part hid) s = .next t ∧ t.stream? part hid = some y' ∧ y'.row = y.row + 1 ∧ t.mem = s.mem
          ∧ y'.frames = (if (h.vact + 63) / 64 ≤ y.row + 1 then y.frames + 1 else y.frames)
          ∧ t.sent = s.sent ++ (rtpPackets y h.stamp (decide ((h.vact + 63) / 64 ≤ y.row + 1)) (chunks 1200 (bs.length / 1200 + 1) bs)).map
              (fun b => { session := 0, seq := 0, ack := 0, body := b }))
    ∧ (∀ y va session addr s1, s.stream? part hid = some y → y.toMem = true → y.buf.asked = none →
        engWords (hubReader part none) y.buf (y.ring.toNat + 8) 1 s = .error (.wait va session addr) s1 → s1.stream? part hid = some y →
        ∃ t y', exec (.encodeRow part hid) s = .next t ∧ t.stream? part hid = some y' ∧ y'.row = y.row ∧ y'.keyNext = y.keyNext)
    ∧ (∀ y, s.stream? part hid = some y → y.behind h = false → exec (.encodeRow part hid) s = .next s)

/-! ### Events: sessions and packets -/

/-- The packet `p` is the next of a session that holds nothing beyond it, no session has anything else to deliver, and no earlier message
of the session waits for a peer: `s'` is the state in which the packet's message is delivered. -/
def Sys2Proof.Claims.arrives (s s' : State) (x : Session) (p : Packet) : Prop :=
  s.booted = true ∧ s.session? p.session = some x ∧ p.authentic = true ∧ p.seq = x.rxNext ∧ p.seq < 2 ^ 63 ∧ x.heldRx = []
  ∧ (s.sessions.map (fun y => y.id)).Nodup ∧ (∀ y ∈ s.sessions, kget y.rxNext y.heldRx = none)
  ∧ (∀ h ∈ s.hostWaits, h.session ≠ x.id)
  ∧ s' = s.updSession x.id (fun y => { y with rxNext := y.rxNext + 1, unacked := y.unacked.filter (fun e => e.1 > p.ack) })

/-- Every line that `n` bytes from a key touch was last written under an owner tag, and none of L2 is in reduce state: a read under the tag
gives the bytes of memory. -/
def Sys2Proof.Claims.plainFor (s : State) (key n : Nat) (owner : Owner) : Prop :=
  (∀ line, key / 128 ≤ line → line ≤ (key + n - 1) / 128 → s.lineTag line = owner) ∧ ∀ l ∈ s.l2, l.cells = []

/-- The packet that an instruction carries: a host message or a peer message (R385, R386, R387). -/
def Sys2Proof.Claims.carried : Instr → Option Packet
  | .submit p _ _ | .write p _ _ _ | .read p _ _ | .ctlwr p _ _ _ | .ctlrd p _ _ | .attest p _ | .pwrite p _ _ | .pread p _ _ => some p
  | .pload p _ _ _ | .pstore p _ _ _ | .patom p _ _ _ _ _ _ _ | .presp p _ _ | .cell p _ _ _ _ _ _ | .kill p _ _ => some p
  | _ => none

/-- The messages of a session that are held are delivered one after another, each under the session's next number, which counts up. -/
def Sys2Proof.Claims.delivers (id : Nat) : List Instr → State → State → Prop
  | [], s, t => t = s
  | i :: is, s, t => ∃ x, s.session? id = some x ∧ (∀ h ∈ s.hostWaits, h.session ≠ id) ∧ kget x.rxNext x.heldRx = some i
      ∧ delivers id is ((s.updSession id (fun y =>
          { y with rxNext := y.rxNext + 1, heldRx := y.heldRx.filter (fun e => e.1 ≠ x.rxNext) })).deliver x i) t

/-- O (R382, R383, R384): a session opens, resends, ends; packets of any kind that verify are delivered once, in SEQ order: one beyond a gap
is held, up to 256 of them, and all that are held go on when the gap fills. What counts against a payload's 1,024 bytes is the model's:
DEDUCED (log 36). -/
def Obligations.SessionsDeliverInOrder : Prop :=
  (∀ (s : State) (id part : Nat) (kind : SessionKind), s.booted = true ∨ (s.managed = true ∧ kind = .manager) → id ≠ 0 → s.session? id = none →
    (kind = .manager ∨ (s.part? part).isSome = true) →
    (∀ x ∈ s.sessions, x.kind = kind → kind ≠ .manager ∧ x.part ≠ part) →
    (∃ t x, exec (.sessionOpen id kind part true) s = .next t ∧ t.session? id = some x ∧ x.kind = kind ∧ x.part = part ∧ x.rxNext = 1
      ∧ x.txNext = 1 ∧ x.unacked = [] ∧ x.heldRx = [] ∧ t = { s with sessions := t.sessions })
    ∧ exec (.sessionOpen id kind part false) s = .next s)
  ∧ (∀ (s : State) (id part : Nat) (kind : SessionKind) (x : Session), x ∈ s.sessions → x.kind = kind → kind = .manager ∨ x.part = part →
    ∀ good, exec (.sessionOpen id kind part good) s = .next s)
  ∧ (∀ (s : State) (id seq n : Nat) (x : Session) (m : Msg), s.session? id = some x → kget seq x.unacked = some n →
    s.sent.find? (fun y => y.session = id && y.seq = seq) = some m →
    (n < 64 → ∃ t y, exec (.retransmitTimeout id seq) s = .next t ∧ t.sent = s.sent ++ [m] ∧ t.session? id = some y
      ∧ y = { x with unacked := kput seq (n + 1) x.unacked })
    ∧ (64 ≤ n → ∃ t, exec (.retransmitTimeout id seq) s = .next t ∧ t.session? id = none))
  ∧ (∀ (s : State) (id seq : Nat), s.session? id = none → exec (.retransmitTimeout id seq) s = .next s)
  ∧ (∀ (s : State) (x : Session) (i : Instr) (p : Packet), carried i = some p → s.booted = true ∨ s.managed = true →
    s.session? p.session = some x →
    let drop (y : Session) : Session := { y with dropped := y.dropped + 1 }
    let heard (y : Session) : Session := { y with unacked := y.unacked.filter (fun e => e.1 > p.ack) }
    (p.authentic = false ∨ p.seq < x.rxNext ∨ (∃ e ∈ x.heldRx, e.1 = p.seq) ∨ tooLong i = true → exec i s = .next (s.updSession x.id drop))
    ∧ (p.authentic = true → tooLong i = false → (∀ e ∈ x.heldRx, e.1 ≠ p.seq) →
      (x.rxNext < p.seq → p.seq < 2 ^ 63 → x.heldRx.length < 256 →
        exec i s = .next (s.updSession x.id (fun y => { heard y with heldRx := y.heldRx ++ [(p.seq, i)] })))
      ∧ (x.rxNext < p.seq → p.seq < 2 ^ 63 → 256 ≤ x.heldRx.length → exec i s = .next (s.updSession x.id (fun y => drop (heard y))))
      ∧ (x.rxNext ≤ p.seq → 2 ^ 63 ≤ p.seq → ∃ t, exec i s = .next t ∧ t.session? p.session = none)
      ∧ ∀ is t, p.seq = x.rxNext → p.seq < 2 ^ 63 → is.length ≤ 256 →
          delivers x.id (i :: is) (s.updSession x.id (fun y => { heard y with heldRx := (p.seq, i) :: y.heldRx })) t →
          (∀ y ∈ t.sessions, kget y.rxNext y.heldRx = none ∨ ∃ h ∈ t.hostWaits, h.session = y.id) → exec i s = .next t))
  ∧ ∀ (s : State) (i : Instr) (p : Packet), carried i = some p → s.booted = true ∨ s.managed = true → s.session? p.session = none →
    exec i s = .next { s with strays := s.strays + 1 }

/-- O (R253, R377, R381, R386, R387): what a delivered host message does, and its answer. That a CTLWR to 0xE8 or 0xEC is a resize request
in PARTCTL's op word is the model's: DESIGN CHOICE (log 47); that a key index other than the page's answers 0x24C: DEDUCED (log 36). -/
def Obligations.HostMessagesAreAnswered : Prop :=
  ∀ (s s' : State) (x : Session) (p : Packet), arrives s s' x p → x.kind = .supervisor →
    let status (u : State) (c : Nat) : State := u.send x.id (.status p.seq c)
    (∀ q bytes pt y, bytes.length = 256 → s'.part? x.part = some pt → s'.queue? x.part q = some y →
      (y.en = true → pt.frozen = none → pt.resetting = false → s'.pendingFull x.part = false →
        exec (.submit p q bytes) s = .next (status (s'.addLaunch x.part q bytes) 0))
      ∧ (y.en = false ∨ pt.frozen.isSome = true ∨ pt.resetting = true → exec (.submit p q bytes) s = .next (status s' 0x248))
      ∧ (y.en = true → pt.frozen = none → pt.resetting = false → s'.pendingFull x.part = true →
          exec (.submit p q bytes) s = .next (status s' 0x249)))
    ∧ (∀ space off v u c, (space = 0 → off ≠ 0xE8 ∧ off ≠ 0xEC) → s'.ctlWrite x.part space off v = (u, c) →
        (∀ y ∈ u.sessions, kget y.rxNext y.heldRx = none) → exec (.ctlwr p space off v) s = .next (status u c))
    ∧ (∀ off v u c, off = 0xE8 ∨ off = 0xEC → s'.hostResize x.part v = (u, c) → (∀ y ∈ u.sessions, kget y.rxNext y.heldRx = none) →
        exec (.ctlwr p 0 off v) s = .next (status u c))
    ∧ (∀ space off, exec (.ctlrd p space off) s = .next (s'.send x.id (.readResp (bytesOf 4 (s'.ctlRead x.part space off).toNat))))
    ∧ (∀ nonce pt, nonce.length = 64 → s'.part? x.part = some pt →
        exec (.attest p nonce) s = .next (s'.send x.id (.attest (s'.report pt nonce))))
    ∧ (∀ (a : Addr) n, 1 ≤ n → n ≤ 1024 → n ≤ 4096 - a.toNat % 4096 →
        (∀ s1, s'.hostTarget x.part a.toNat = (s1, none) → exec (.read p a n) s = .next (status s1 0x24C))
        ∧ ∀ s1 key home owner r k, s'.hostTarget x.part a.toNat = (s1, some (.mem key home owner r, k)) → plainFor s1 key n owner →
            exec (.read p a n) s = .next (s1.send x.id (.readResp (s1.mem.readList key n))))
    ∧ (∀ (a : Addr) bytes, bytes ≠ [] → bytes.length ≤ 1015 → bytes.length ≤ 4096 - a.toNat % 4096 →
        (∀ s1 kx, s'.hostTarget x.part a.toNat = (s1, none) → exec (.write p a kx bytes) s = .next (status s1 0x24C))
        ∧ (∀ s1 key home owner r, s'.hostTarget x.part a.toNat = (s1, some (.mem key home owner r, 0)) → bytes.length ≤ 128 - key % 128 →
            exec (.write p a 0 bytes) s = .next (s1.store key bytes owner home))
        ∧ ∀ s1 g k kx, s'.hostTarget x.part a.toNat = (s1, some (g, k)) → k ≠ BitVec.toNat kx → exec (.write p a kx bytes) s = .next (status s1 0x24C))
    ∧ (∀ (a : Addr) n, 1 ≤ n → n ≤ 1024 →
        (s'.physAllowed x.part a.toNat n = true → plainFor s' a.toNat n (.part x.part) →
          exec (.pread p a n) s = .next (s'.send x.id (.readResp (s'.mem.readList a.toNat n))))
        ∧ (s'.physAllowed x.part a.toNat n = false → exec (.pread p a n) s = .next (status s' 0x240)))
    ∧ ∀ (a : Addr) bytes, bytes ≠ [] → bytes.length ≤ 1016 →
        (s'.physAllowed x.part a.toNat bytes.length = true → bytes.length ≤ 128 - a.toNat % 128 →
          exec (.pwrite p a bytes) s = .next (s'.store a.toNat bytes (.part x.part) (a.toNat / 2 ^ 35)))
        ∧ (s'.physAllowed x.part a.toNat bytes.length = false → exec (.pwrite p a bytes) s = .next (status s' 0x240))

/-- O (R229, R252, R385, R389): what a delivered peer message does at its target. That no load is answered with more than a packet holds is
the model's: DEDUCED (log 36). So is the transport of collectives, of which the spec gives no messages: the operands of CELL and KILL, cells
and kills that come ahead of the local COLL, and at most 256 such kills: DESIGN CHOICE (log 23). -/
def Obligations.PeerMessagesAreServed : Prop :=
  ∀ (s s' : State) (x : Session) (p : Packet) (modno rpart : Nat), arrives s s' x p → x.kind = .peer modno rpart →
    (∀ id (a : Addr) n, 1 ≤ n → n ≤ 4096 - a.toNat % 4096 →
      (∀ s1 key home owner r, n ≤ 1012 → s'.access .hub x.part .rd a.toNat = (s1, .ok (.mem key home owner r)) →
        let u := s1.catchUp key n
        plainFor u key n owner → exec (.pload p id a n) s = .next (u.send x.id (.presp id (.done (u.mem.readList key n)))))
      ∧ (∀ s1 pol np, n ≤ 1012 → s'.access .hub x.part .rd a.toNat = (s1, .fault pol np) →
          exec (.pload p id a n) s = .next (s1.send x.id (.presp id .faulted)))
      ∧ (1012 < n → exec (.pload p id a n) s = .next (s'.send x.id (.presp id .faulted))))
    ∧ (∀ id (a : Addr) bytes, bytes ≠ [] → bytes.length ≤ 1024 → bytes.length ≤ 4096 - a.toNat % 4096 →
      (∀ s1 key home owner r, s'.access .hub x.part .wr a.toNat = (s1, .ok (.mem key home owner r)) → bytes.length ≤ 128 - key % 128 →
        exec (.pstore p id a bytes) s = .next ((s1.store key bytes owner home).send x.id (.presp id (.done []))))
      ∧ ∀ s1 pol np, s'.access .hub x.part .wr a.toNat = (s1, .fault pol np) → exec (.pstore p id a bytes) s = .next (s1.send x.id (.presp id .faulted)))
    ∧ (∀ id (a : Addr) fn w64 op opnd cmp s1 key home owner r, a.toNat % 8 = 0 →
        s'.access .hub x.part .rw a.toNat = (s1, .ok (.mem key home owner r)) → key % 8 = 0 →
        let n := if w64 then 8 else 4
        let u := s1.catchUp key n
        let old := u.mem.readList key n
        let ws (v : W64) : List W32 := if w64 then [lo32 v, hi32 v] else [lo32 v]
        let new := if op = .cas then casWords w64 (wordsOfBytes (n / 4) old) (ws cmp ++ ws opnd)
          else atomWords (BitVec.toNat fn) w64 (wordsOfBytes (n / 4) old) (ws opnd)
        (op ≠ .red ∨ fn ≠ 9 → plainFor u key n owner → exec (.patom p id a fn w64 op opnd cmp) s =
          .next ((u.store key (bytesOfWords new) owner home).send x.id (.presp id (.done old))))
        ∧ (exec (.patom p id a 9 false .red opnd cmp) s =
          .next (((s1.catchUp key 4).reduceAdd key (lo32 opnd) owner home).send x.id (.presp id (.done [])))))
    ∧ (∀ id answer, s'.hostWaits = [] → (∀ c ∈ s'.cores, c.2.flights = []) → ∃ t, exec (.presp p id answer) s = .next t ∧ t.mem = s'.mem
        ∧ t.peers = s'.peers.map (fun r => if r.id = id ∧ r.session = x.id ∧ r.answer = none then { r with answer := some answer } else r))
    ∧ (∀ set cid rank way head (cells : CellPart), cells.bytes.length ≤ 1024 →
        let e : EarlyCell := { rank := rank, way := way, head := head, first := cells.first, cells := cells.bytes }
        let known (c : Coll) : Prop := c.part = x.part ∧ c.set = set ∧ c.cid = cid ∧ ¬ (c.issued = true ∧ c.record = [])
        ((∀ c ∈ s'.colls, ¬ known c) → ∃ t c, exec (.cell p set cid rank way head cells) s = .next t ∧ t.colls = s'.colls ++ [c]
          ∧ c.issued = false ∧ c.part = x.part ∧ c.set = set ∧ c.cid = cid ∧ c.early = [e] ∧ t.mem = s'.mem)
        ∧ ∀ c ∈ s'.colls, known c → ∃ t, exec (.cell p set cid rank way head cells) s = .next t
            ∧ { c with early := c.early ++ [e] } ∈ t.colls ∧ t.colls.length = s'.colls.length ∧ t.mem = s'.mem)
    ∧ ∀ set cid,
      ((∀ c ∈ s'.colls, c.issued = true → c.part ≠ x.part ∨ c.set ≠ set ∨ c.cid ≠ cid ∨ c.record = []) →
        ∃ t, exec (.kill p set cid) s = .next t ∧ (x.part, set, cid) ∈ t.aborts ∧ t.mem = s'.mem ∧ t.aborts.length ≤ max 256 s'.aborts.length
          ∧ ∀ c ∈ t.colls, c.issued = true ∨ c.part ≠ x.part ∨ c.set ≠ set ∨ c.cid ≠ cid)
      ∧ ∀ c c₁ c₂, s'.colls = c₁ ++ c :: c₂ → c.issued = true → c.part = x.part → c.set = set → c.cid = cid → c.record ≠ [] →
        (∀ y ∈ c₁, y.issued = true → y.part ≠ x.part ∨ y.set ≠ set ∨ y.cid ≠ cid ∨ y.record = []) →
        let s1 := s'.updColl c (fun y => { y with aborting := true })
        let aborted (t : State) : Prop := (∀ y ∈ t.colls, y.issued = true → y.group = c.group → y.op ≠ c.op)
          ∧ ∀ g, t.group? c.group = some g → ∀ b ∈ g.bulk, b.id = c.op → b.done = true ∧ b.err = true
        (c.ref = none → ∃ t, exec (.kill p set cid) s = .next t ∧ aborted t ∧ t.mem = s'.mem)
        ∧ ∀ ref tm o home s2, c.ref = some ref → s1.team? c.group.team = some tm → s1.reach (.shuttle c.core) tm ref .rw = (s2, .obj o home) →
            let u := ((s2.flushAll c.core).reveal c.core c.group).updObjAt c.core o home .fail
            ∃ t, exec (.kill p set cid) s = .next t ∧ aborted t ∧ t.mem = u.mem ∧ ∀ k, (t.team? k).map (fun y => y.scratch) = (u.team? k).map (fun y => y.scratch)

/-! ### The trap queue -/

/-- O (R394, R395, R396): the words of a record, and what becomes of a record: written at the ring's next entry, held, or dropped. -/
def Obligations.TrapRecordsGoToTheRing : Prop :=
  (∀ r : Rec, r.kind < 8 → r.gid < 16 → r.die < 8 → r.core < 256 → r.arg < 2 ^ 16 → r.skid < 32 → r.acc < 8 → r.pol < 4 → r.va < 2 ^ 52 →
    (∀ q, r.queue = some q → q < 256) →
    let w (k : Nat) : W32 := (nth r.words k).getD 0
    r.words.length = 16
    ∧ bitsOf (w 0) 9 0 = r.cause.toNat ∧ bitsOf (w 0) 12 10 = r.kind ∧ (w 0).getLsbD 13 = r.async ∧ (w 0).getLsbD 14 = r.first
    ∧ (w 0).getLsbD 15 = r.parked ∧ (w 0).getLsbD 24 = r.queue.isSome ∧ (∀ q, r.queue = some q → bitsOf (w 0) 23 16 = q)
    ∧ bitsOf (w 3) 3 0 = r.gid ∧ bitsOf (w 3) 6 4 = r.die ∧ bitsOf (w 3) 15 8 = r.core ∧ bitsOf (w 3) 31 16 = r.arg
    ∧ w 4 = lo32 r.pc ∧ w 5 = hi32 r.pc ∧ (w 6).toNat + 2 ^ 32 * (w 7).toNat = r.va ∧ w 8 = lo32 r.done ∧ w 9 = hi32 r.done
    ∧ bitsOf (w 10) 4 0 = r.skid ∧ bitsOf (w 10) 10 8 = r.acc ∧ bitsOf (w 10) 13 12 = r.pol ∧ (w 10).getLsbD 15 = r.np ∧ w 11 = r.lseq
    ∧ ∀ k, 12 ≤ k → k < 16 → w k = 0)
  ∧ ∀ (s : State) (part : Nat) (p : Part) (r : Rec) (k : Option GroupKey) (l : Option Nat), s.part? part = some p →
      let a := p.tq.getD 0 + 64 * (p.tqWr % 2 ^ (p.tqLg + 4))
      let words := updNth (fun _ => BitVec.ofNat 32 p.tqWr) r.words 1
      let stopKind := r.kind = 1 ∨ r.kind = 2 ∨ r.kind = 3 ∨ r.kind = 4
      (r.kind = 0 ∨ (stopKind ∧ p.heldRecs = []) → 3 ≤ p.tqFree → s.ownsKey part a = true →
        (∀ i, i < 64 → (s.emit part r k l).mem.read (a + i) = (bytesOfWords words).getD i 0)
        ∧ ((s.emit part r k l).part? part).map (fun y => y.tqWr) = some ((p.tqWr + 1) % 2 ^ 31))
      ∧ (r.kind = 0 → p.tqFree < 3 → s.emit part r k l = s.updPart part (fun y => { y with tqDrop := y.tqDrop + 1 }))
      ∧ (stopKind → p.resetting = false → p.tqFree < 3 ∨ p.heldRecs ≠ [] → (s.emit part r k l).mem = s.mem
          ∧ ((s.emit part r k l).part? part).map (fun y => y.heldRecs) = some (p.heldRecs ++ [{ words := r.words, kind := r.kind, group := k, launch := l }]))
      ∧ (r.kind = 5 ∨ r.kind = 6 → p.tqFree = 0 → ((s.emit part r k l).part? part).map (fun y => y.frozen.isSome) = some true)

/-! ### Memory -/

/-- O (R5, R196, R229, R230; log 44): a write at its home is read back there; it changes no other byte, but those of a line last written
under another owner's key. -/
def Obligations.MemoryReadsBackWhatWasWritten : Prop :=
  ∀ (s : State) (key : Nat) (bs : List Byte) (owner : Owner) (home : Nat),
    let t := s.homeWrite key bs owner home
    let last := (key + bs.length - 1) / 128
    (∀ i, i < bs.length → t.mem.read (key + i) = bs.getD i 0)
    ∧ (t.homeRead key bs.length).2 = bs
    ∧ (s.mem.wf = true → t.mem.wf = true)
    ∧ t.teams = s.teams ∧ t.parts = s.parts
    ∧ ((∀ l ∈ s.l2, l.cells = [] ∧ l.spoilt = false) → ∀ a, a < key ∨ key + bs.length ≤ a →
        (a / 128 ≠ key / 128 ∧ a / 128 ≠ last) ∨ (s.lineTag (key / 128) = owner ∧ s.lineTag last = owner) → t.mem.read a = s.mem.read a)

/-- O (R28, R380; log 3, 4, 6): the machine right after reset. -/
def Obligations.ResetLeavesNothingButTheBoard : Prop :=
  let s := State.reset
  s.power = true ∧ s.boot = .rom ∧ s.parts = [] ∧ s.teams = [] ∧ s.launches = [] ∧ s.sessions = [] ∧ s.handles = [] ∧ s.colls = []
  ∧ s.l2 = [] ∧ s.keyed = [] ∧ s.engines = [] ∧ s.owners1 = [] ∧ s.owners2 = [] ∧ s.sent = [] ∧ (∀ d, d < 8 → (s.die d).mhz = 1050 ∧ (s.die d).cycles = 0)
  ∧ s.mem.wf = true ∧ ∀ a, s.mem.read a = 0

/-- O (log 4; R196): every step keeps the canonical form of memory. -/
def Obligations.EveryStepKeepsMemoryCanonical : Prop :=
  ∀ s t : State, s.mem.wf = true → step s = .next t → t.mem.wf = true

/-! ### Encoding, decoding, stepping -/

/-- O (R55 to R65): decoding the encoding of a well-formed instruction gives it back, whatever follows it. -/
def Obligations.DecodingAnEncodingGivesTheInstruction : Prop :=
  ∀ (i : Instr) (hs rest : List Half), WellFormed i = true → encode i = some hs → decode (hs ++ rest) = .ok i hs.length

/-- O (R55 to R65, R74): words written out from the spec's encodings decode to the instructions they stand for. -/
def Obligations.WordsDecodeToTheirInstructions : Prop :=
  decode (halves 0xC9031147#32) = .ok (.icmp 1 2 (.v ⟨3, by decide⟩) (.w 9)) 2
  ∧ decode (halves 0x010B0A87#32 ++ halves 0xF0800002#32) = .ok (.shfl (.v ⟨10, by decide⟩) (.v ⟨11, by decide⟩) 1 (.inl ⟨0, by decide⟩) true false 0 2) 4
  ∧ decode (halves 0x2300CA8B#32) = .ok (.vote (.w 10) 2 false 3) 2
  ∧ decode (halves 0x0804C88D#32) = .ok (.redl (.w 8) (.v ⟨4, by decide⟩) 0 8) 2
  ∧ decode (halves 0x00080593#32) = .ok (.qdx (.v ⟨5, by decide⟩) (.v ⟨8, by decide⟩) 0) 2

/-- The fetch of the issuer gives the halfwords `hs` from an address, and changes nothing. -/
def Sys2Proof.Claims.codeAt (s : State) (is : Iss) (va : Nat) (hs : List Half) : Prop :=
  ∀ j h, hs[j]? = some h → s.fetchHalf (.lane is.core) is.team is.run.buf (va + 2 * j) = (s, .ok h)

/-- O (R45, R55, R56, R66, R67, R71): a step executes the instruction that the words at the run's next address decode to, and moves past
them. -/
def Obligations.AStepRunsTheDecodedInstruction : Prop :=
  ∀ (s : State) (is : Iss), s.agenda = [] → s.issuer = some is → is.run.stalled = false →
    let pc := is.run.next
    (∀ (hs : List Half) (i : Instr), is.run.opened = true → is.run.left ≠ 0 → codeAt s is pc.toNat hs → decode hs = .ok i hs.length →
      (∀ h, hs.head? = some h → h.toNat % 256 ≠ 3 ∧ h.toNat % 256 ≠ 5 ∧ h.toNat % 256 ≠ 7) →
      step s = exec i (s.atInstr is Modifier.none (pc + 2 * BitVec.ofNat 64 hs.length)))
    ∧ (∀ (m : W32) (hs : List Half) (i : Instr), is.run.opened = true → is.run.left ≠ 0 → isModifier m = true →
      codeAt s is pc.toNat (halves m ++ hs) → decode hs = .ok i hs.length →
      (∀ h, hs.head? = some h → h.toNat % 256 ≠ 3 ∧ h.toNat % 256 ≠ 5 ∧ h.toNat % 256 ≠ 7) →
      step s = exec i (s.atInstr is (decModifier m) (pc + 4 + 2 * BitVec.ofNat 64 hs.length)))
    ∧ (∀ w : W32, is.run.opened = false ∧ isRun w = true ∨ is.run.opened = true ∧ is.run.left = 0 ∧ isTrail w = true → codeAt s is pc.toNat (halves w) →
      step s = exec (dec32 w 0 0) (s.atInstr is Modifier.none (pc + 4)))

/-- O (log 2): the arrival of an event as the next act is its meaning. -/
def Sys2Proof.Claims.agendaEvents : Prop :=
  ∀ (s : State) (i : Instr) (ms : List Move), s.agenda = .event i :: ms → step s = exec i { s with agenda := ms }

/-- O (log 2): no instruction is refused, and one stops only for want of an issuer. -/
def Obligations.NoInstructionIsRefused : Prop :=
  agendaEvents
  ∧ (∀ (i : Instr) (s : State), i.hasEncoding = false → (∀ c, i ≠ .unassignedMajorOpcode c) → i ≠ .misplacedPrefix → ∃ t, exec i s = .next t)
  ∧ (∀ (i : Instr) (s : State) (is : Iss), s.issuer = some is → ∃ t, exec i s = .next t)
  ∧ ∀ (i : Instr) (s : State), i.hasEncoding = true → s.issuer = none → exec i s = .fault .noIssuer

/-! ### Statements of several parts -/

/-- O: the first check that fails stops the team, and so does a word that the decoder refuses. -/
def Obligations.FormChecksAndRefusedWordsStopTheTeam : Prop := firstFailingFormCheckStopsTheTeam ∧ refusedWordsStopTheTeam

/-- O: a team stop saves its cause and ends the run; TRAP and BRK take one with their argument. -/
def Obligations.TrapsAndStopsSaveTheirCause : Prop := teamStopSavesCauseAndEndsTheRun ∧ trapAndBrkStopTheTeamWithTheirArgument

/-- O: integer and floating-point instructions, their immediate and 16-bit forms, conversions and selects write their results. -/
def Obligations.ArithmeticFormsWriteTheirResults : Prop :=
  integerInstructionsWriteTheirResults ∧ immediateFormsWriteTheirResults ∧ shortFormsActAsTheirLongForms
  ∧ floatInstructionsWriteTheirRoundedResults ∧ conversionsAndSelectsWriteTheirResults

/-- O: lanes read other lanes, quads give differences; votes, reductions and scans combine the active lanes. -/
def Obligations.LanesReadAndCombineOtherLanes : Prop :=
  lanesReadOtherLanes ∧ quadDifferences ∧ voteGivesItsModesResult ∧ reductionsAndScansCombineInOrder

/-- O: a flag enabled in FPTRAP, and LTRAP, mark lanes with a lane trap. -/
def Obligations.LaneTrapsAreMarked : Prop := enabledFlagTakesALaneTrapAfterTheWrite ∧ ltrapMarksItsLanes

/-- O: a RUN word opens its run; CALL saves FALL; JOINE enrols; NOP does nothing. -/
def Obligations.RunsCallsAndEnrolments : Prop := runWordOpensItsRun ∧ callSavesFallAndGoesToItsLabel ∧ joineEnrolsAndNopDoesNothing

/-- O: a TRAIL moves lanes to their next PCs, takes exited lanes out, and checks its mask. -/
def Obligations.TrailAppliesTheTransfer : Prop := trailMovesLanesToTheirNextPcs ∧ exitedLanesLeaveAtTheTrail ∧ trailWithAnotherPostMaskStopsTheTeam

/-- O: prefetches and fences complete, barrier updates enter the store queue, BSEAL numbers a batch, and batches complete in order. -/
def Obligations.FencesUpdatesAndBatches : Prop :=
  prefetchesAndFencesComplete ∧ barrierUpdatesEnterTheStoreQueue ∧ sealNumbersTheNextBatch ∧ batchesCompleteInOrder

/-- O: special functions queue their results, which special inputs fix. -/
def Obligations.SpecialFunctionResults : Prop :=
  specialFunctionsQueueTheirResults ∧ specialFunctionsOfSpecialInputs ∧ specialFunctionsOfNumbers

/-- ulp of a real result (04 R96). -/
def Sys2Proof.Claims.UlpIs (r u : ℝ) : Prop := u = (2 : ℝ) ^ (max (Int.log 2 |r|) (-126) - 23)

/-- O (R96, R126; log 9): the results of the transcendental functions lie within the accuracy of the table around the true result, up to
the width 2^-180 of the model's enclosure of it; SQRT gives the nearest number. -/
def Obligations.TranscendentalResultsAreAccurate : Prop :=
  ∀ (x : Nat) (neg : Bool) (num den : Nat), x < 2 ^ 32 → Fmt.fp32.value x = .fin neg num den → num ≠ 0 →
    let v : ℝ := ((ratOf (.fin neg num den) : ℚ) : ℝ)
    let y (fn : Nat) : ℝ := ((ratOf (Fmt.fp32.value (sfuResult fn x).1) : ℚ) : ℝ)
    let near (a b d : ℝ) : Prop := |a - b| ≤ d + max 1 |b| / 2 ^ 180
    (neg = false → ∃ n d : Nat, 0 < d ∧ near ((n : ℝ) / d) (1 / Real.sqrt v) 0
        ∧ ((sfuResult 1 x).1 = (Fmt.fp32.round .rdn (.fin false n d)).1 ∨ (sfuResult 1 x).1 = (Fmt.fp32.round .rup (.fin false n d)).1))
    ∧ (neg = false → ∀ z n d, Fmt.fp32.value z = .fin false n d →
        |y 2 - Real.sqrt v| ≤ |((ratOf (.fin false n d) : ℚ) : ℝ) - Real.sqrt v|)
    ∧ (-150 < v → v < 128 → ∃ r u, near r ((2 : ℝ) ^ v) 0 ∧ UlpIs r u ∧ near (y 3) ((2 : ℝ) ^ v) (2 * u))
    ∧ (neg = false → v ≠ 1 → ∃ r u, near r (Real.logb 2 v) 0 ∧ UlpIs r u ∧ near (y 4) (Real.logb 2 v) (2 * u))
    ∧ (|v| ≤ 2 ^ 15 * Real.pi → near (y 5) (Real.sin v) (1 / 2 ^ 21) ∧ |y 5| ≤ 1 ∧ near (y 6) (Real.cos v) (1 / 2 ^ 21) ∧ |y 6| ≤ 1)
    ∧ (2 ^ 15 * Real.pi < |v| → sfuResult 5 x = (0x7FC00000, fInvalid) ∧ sfuResult 6 x = (0x7FC00000, fInvalid))
    ∧ near (y 7) (Real.tanh v) (1 / 2 ^ 22) ∧ |y 7| ≤ 1

/-- O: TLBINV and KEYSEL drop what they must from every TLB and cache; PARTCTL numbers its requests. -/
def Obligations.SupervisorChangesOfTranslationKeysAndClusters : Prop := translationsAndKeysAreDropped ∧ resizeRequestsAreNumbered

/-- O: stores leave a queue in order, and an L1 line lasts 4,096 core clocks. An update of an object in memory has its core's L1 read the
object's 16 bytes again, the line staying: DEDUCED (log 17). -/
def Obligations.StoresLeaveAndLinesExpire : Prop := storesLeaveTheQueueInOrder ∧ l1LinesExpire

/-- O: old bins become tiles, which find their weight set and are evaluated. -/
def Obligations.BinsBecomeTilesThatRun : Prop := oldBinsBecomeTiles ∧ tilesFindTheirSetsAndRun

/-- O: trap bins become handler groups, and TRET returns their lanes. -/
def Obligations.LaneTrapHandlersStartAndReturn : Prop := trapBinsBecomeHandlerGroups ∧ handlerReturnsAreFixed

/-- O: COLL issues a collective, which the engine carries on to its completion. -/
def Obligations.CollectivesAreIssuedAndComplete : Prop := collectivesAreIssued ∧ collectivesGoOnAndComplete

/-- O: the distributor places teams, and the Shuttle performs their bindings. -/
def Obligations.TeamsArePlacedAndBound : Prop := distributorPlacesTeams ∧ bindingsArePerformedBeforeTheTeamIssues

/-- O: a queue is enabled and disabled; LAUNCH submits its record; launches become eligible and complete in the order of their queue. -/
def Obligations.LaunchesStartAndComplete : Prop :=
  launchSubmitsItsRecord ∧ launchesBecomeEligible ∧ launchesCompleteInQueueOrder ∧ queueEnableStartsTheCount ∧ queueDisableDiscardsUnplacedLaunches

/-- O: NCALL enters its handles' bins; NPIN, NPREF and NEVICT act on the weight sets of their handles. -/
def Obligations.NeuralCallsAndWeightHints : Prop := neuralCallsEnterTheirBins ∧ weightSetHintsActOnTheirHandles

/-- O: a TRAIL whose run waits, joins, yields, is held for reordering or returns from a handler. -/
def Obligations.WaitsJoinsAndReturnsAtTheTrail : Prop :=
  arrivalsWaitForTheirBarrier ∧ yieldsGoOnAtFall ∧ waitsBlockTheirSplit ∧ yieldingWaitsLeaveTheirSplit ∧ batchWaitsBlockTheirSplit
  ∧ reorderHoldsTheGroup ∧ returnsGiveOriginLanesTheirRegisters
end

