-- ==== Sys2Proof/Laws/Tables.lean ====
section
/-! SUPPORT. What sparse tables and the list helpers do: reading back what was written, and the canonical form kept. -/

namespace Sys2Proof.Machine

/-! ### Association lists -/

theorem assocGet_ins_same {α : Type} (d c : α) (k : Nat) (l : List (Nat × α)) : assocGet d (assocIns k c l) k = c := by
  induction l with
  | nil => simp [assocIns, assocGet]
  | cons e l ih =>
    obtain ⟨a, b⟩ := e
    unfold assocIns
    split
    · simp [assocGet]
    · split
      · simp [assocGet]
      · simp [assocGet, *]

theorem assocGet_ins_ne {α : Type} (d c : α) {k j : Nat} (h : j ≠ k) (l : List (Nat × α)) :
    assocGet d (assocIns k c l) j = assocGet d l j := by
  induction l with
  | nil => simp [assocIns, assocGet, h]
  | cons e l ih =>
    obtain ⟨a, b⟩ := e
    unfold assocIns
    split
    · simp [assocGet, h]
    · split
      · subst_vars; simp [assocGet, h]
      · simp [assocGet, ih]

theorem assocGet_filter_same {α : Type} (d : α) (k : Nat) (l : List (Nat × α)) :
    assocGet d (l.filter (fun e => e.1 != k)) k = d := by
  induction l with
  | nil => rfl
  | cons e l ih =>
    obtain ⟨a, b⟩ := e
    by_cases h : a = k
    · simp [h, ih]
    · simp [h, assocGet, ih, Ne.symm h]

theorem assocGet_filter_of {α : Type} (d : α) (p : Nat → Bool) {j : Nat} (h : p j = true) (l : List (Nat × α)) :
    assocGet d (l.filter (fun e => p e.1)) j = assocGet d l j := by
  induction l with
  | nil => rfl
  | cons e l ih =>
    obtain ⟨a, b⟩ := e
    by_cases hj : j = a
    · subst hj; simp [List.filter, h, assocGet]
    · by_cases hp : p a = true <;> simp [List.filter, hp, assocGet, ih, hj]

/-- Reading the key that was put. -/
theorem assocGet_put_same {α : Type} (d : α) (k : Nat) (v : Option α) (l : List (Nat × α)) :
    assocGet d (assocPut k v l) k = v.getD d := by
  cases v with
  | none => exact assocGet_filter_same d k l
  | some c => exact assocGet_ins_same d c k l

/-- Reading another key. -/
theorem assocGet_put_ne {α : Type} (d : α) {k j : Nat} (v : Option α) (h : j ≠ k) (l : List (Nat × α)) :
    assocGet d (assocPut k v l) j = assocGet d l j := by
  cases v with
  | none => exact assocGet_filter_of d (fun a => a != k) (by simpa using h) l
  | some c => exact assocGet_ins_ne d c h l

/-- The keys of a list rise strictly: as a property of pairs. -/
theorem rising_iff {α : Type} (l : List (Nat × α)) : rising l = true ↔ l.Pairwise (fun x y => x.1 < y.1) := by
  induction l with
  | nil => simp [rising]
  | cons e l ih =>
    cases l with
    | nil => simp [rising]
    | cons f l =>
      obtain ⟨a, x⟩ := e
      obtain ⟨b, y⟩ := f
      simp only [rising, Bool.and_eq_true, decide_eq_true_eq, ih, List.pairwise_cons, List.mem_cons, forall_eq_or_imp]
      constructor
      · rintro ⟨h, hb, hp⟩
        exact ⟨⟨h, fun z hz => lt_trans h (hb z hz)⟩, hb, hp⟩
      · rintro ⟨⟨h, -⟩, hb, hp⟩
        exact ⟨h, hb, hp⟩

theorem mem_assocIns {α : Type} {k : Nat} {c : α} {l : List (Nat × α)} {e : Nat × α} (h : e ∈ assocIns k c l) :
    e = (k, c) ∨ e ∈ l := by
  induction l with
  | nil => simpa [assocIns] using h
  | cons f l ih =>
    obtain ⟨a, b⟩ := f
    unfold assocIns at h
    split at h
    · simpa using h
    · split at h
      · rcases List.mem_cons.mp h with h | h
        · exact .inl h
        · exact .inr (List.mem_cons_of_mem _ h)
      · rcases List.mem_cons.mp h with h | h
        · exact .inr (by simp [h])
        · rcases ih h with h | h
          · exact .inl h
          · exact .inr (List.mem_cons_of_mem _ h)

theorem rising_ins {α : Type} (k : Nat) (c : α) {l : List (Nat × α)} (h : rising l = true) :
    rising (assocIns k c l) = true := by
  rw [rising_iff] at *
  induction l with
  | nil => simp [assocIns]
  | cons e l ih =>
    obtain ⟨a, b⟩ := e
    have h1 : ∀ z ∈ l, a < z.1 := (List.pairwise_cons.mp h).1
    have h2 := (List.pairwise_cons.mp h).2
    unfold assocIns
    split
    · rename_i hk
      refine List.pairwise_cons.mpr ⟨?_, h⟩
      intro z hz
      rcases List.mem_cons.mp hz with rfl | hz
      · exact hk
      · exact lt_trans hk (h1 z hz)
    · split
      · rename_i _ hk
        exact List.pairwise_cons.mpr ⟨fun z hz => by simpa [hk] using h1 z hz, h2⟩
      · rename_i hk hk'
        refine List.pairwise_cons.mpr ⟨fun z hz => ?_, ih h2⟩
        rcases mem_assocIns hz with rfl | hz
        · simp only; omega
        · exact h1 z hz

theorem rising_filter {α : Type} (p : Nat × α → Bool) {l : List (Nat × α)} (h : rising l = true) :
    rising (l.filter p) = true := by
  rw [rising_iff] at *
  exact h.filter p

/-- Putting keeps the keys rising. -/
theorem rising_put {α : Type} (k : Nat) (v : Option α) {l : List (Nat × α)} (h : rising l = true) :
    rising (assocPut k v l) = true := by
  cases v with
  | none => exact rising_filter _ h
  | some c => exact rising_ins k c h

/-- What an entry of a put list is. -/
theorem mem_assocPut {α : Type} {k : Nat} {v : Option α} {l : List (Nat × α)} {e : Nat × α} (h : e ∈ assocPut k v l) :
    (∃ c, v = some c ∧ e = (k, c)) ∨ e ∈ l := by
  cases v with
  | none => exact .inr (List.mem_filter.mp h).1
  | some c =>
    rcases mem_assocIns h with h | h
    · exact .inl ⟨c, rfl, h⟩
    · exact .inr h

/-! ### Tables of registers -/

@[simp] theorem Tbl.get_set_same {w : Nat} (t : Tbl w) (k : Nat) (v : BitVec w) : (t.set k v).get k = v := by
  unfold Tbl.get Tbl.set
  rw [assocGet_put_same]
  split <;> simp [*]

theorem Tbl.get_set_ne {w : Nat} (t : Tbl w) {k j : Nat} (v : BitVec w) (h : j ≠ k) : (t.set k v).get j = t.get j :=
  assocGet_put_ne 0 _ h t

theorem Tbl.get_setList_out {w : Nat} (vs : List (BitVec w)) (t : Tbl w) (k j : Nat) (h : j < k ∨ k + vs.length ≤ j) :
    (t.setList k vs).get j = t.get j := by
  induction vs generalizing t k with
  | nil => rfl
  | cons v vs ih =>
    simp only [List.length_cons] at h
    rw [Tbl.setList, ih _ _ (by omega), Tbl.get_set_ne _ _ (by omega)]

theorem Tbl.get_setList_in {w : Nat} (vs : List (BitVec w)) (t : Tbl w) (k i : Nat) (h : i < vs.length) :
    (t.setList k vs).get (k + i) = vs[i] := by
  induction vs generalizing t k i with
  | nil => simp at h
  | cons v vs ih =>
    cases i with
    | zero =>
      rw [Tbl.setList, Tbl.get_setList_out _ _ _ _ (by omega)]
      simp
    | succ i =>
      rw [Tbl.setList]
      have := ih (t.set k v) (k + 1) i (by simpa using h)
      rw [show k + (i + 1) = k + 1 + i by omega, this]
      rfl

/-- Writing a register keeps the canonical form of its table. -/
theorem Tbl.wf_set {w : Nat} {t : Tbl w} (k : Nat) (v : BitVec w) (h : t.wf = true) : (t.set k v).wf = true := by
  simp only [Tbl.wf, Bool.and_eq_true, List.all_eq_true] at *
  refine ⟨rising_put _ _ h.1, fun e he => ?_⟩
  rcases mem_assocPut he with ⟨c, hc, rfl⟩ | he
  · split at hc
    · simp at hc
    · simp only [Option.some.injEq] at hc; subst hc; simpa
  · exact h.2 e he

theorem Tbl.wf_setList {w : Nat} (vs : List (BitVec w)) {t : Tbl w} (k : Nat) (h : t.wf = true) :
    (t.setList k vs).wf = true := by
  induction vs generalizing t k with
  | nil => exact h
  | cons v vs ih => exact ih _ (Tbl.wf_set k v h)

/-! ### Lists -/

theorem nth_eq {α : Type} (l : List α) (n : Nat) : nth l n = l[n]? := by
  induction l generalizing n with
  | nil => rfl
  | cons a l ih => cases n <;> simp [nth, ih]

theorem nth_mapIdx {α β : Type} (f : Nat → α → β) (l : List α) (i n : Nat) :
    nth (mapIdx f l i) n = (nth l n).map (f (i + n)) := by
  induction l generalizing i n with
  | nil => rfl
  | cons a l ih =>
    cases n with
    | zero => rfl
    | succ n => simp only [mapIdx, nth, ih]; congr 2; omega

theorem updWhere_eq_map {α : Type} (p : α → Bool) (f : α → α) (l : List α) :
    updWhere p f l = l.map (fun a => if p a then f a else a) := by
  induction l with
  | nil => rfl
  | cons a l ih => simp [updWhere, ih]

/-- Finding by a key in a list whose elements with that key were changed, the key kept. -/
theorem find?_updWhere_same {α κ : Type} [DecidableEq κ] (key : α → κ) (k : κ) (f : α → α) (l : List α)
    (hf : ∀ a, l.find? (fun x => decide (key x = k)) = some a → key (f a) = k) :
    (updWhere (fun x => decide (key x = k)) f l).find? (fun x => decide (key x = k))
      = (l.find? (fun x => decide (key x = k))).map f := by
  induction l with
  | nil => rfl
  | cons a l ih =>
    by_cases h : key a = k
    · have := hf a (by simp [h])
      simp [updWhere, h, this]
    · simp only [updWhere, h, decide_false, Bool.false_eq_true, if_false, List.find?_cons] at *
      exact ih hf

/-- Finding by another key. -/
theorem find?_updWhere_ne {α κ : Type} [DecidableEq κ] (key : α → κ) {k j : κ} (hj : j ≠ k) (f : α → α) (l : List α)
    (hf : ∀ a ∈ l, key a = k → key (f a) ≠ j) :
    (updWhere (fun x => decide (key x = k)) f l).find? (fun x => decide (key x = j))
      = l.find? (fun x => decide (key x = j)) := by
  induction l with
  | nil => rfl
  | cons a l ih =>
    have ih := ih (fun b hb => hf b (List.mem_cons_of_mem _ hb))
    by_cases h : key a = k
    · have h1 := hf a (by simp) h
      have h2 : key a ≠ j := by rw [h]; exact Ne.symm hj
      simp [updWhere, h, h1, ih, Ne.symm hj]
    · simp [updWhere, h, List.find?_cons, ih]

theorem kget_kput_same {κ α : Type} [DecidableEq κ] (k : κ) (v : α) (l : List (κ × α)) : kget k (kput k v l) = some v := by
  induction l with
  | nil => simp [kput, kget]
  | cons e l ih =>
    obtain ⟨a, b⟩ := e
    by_cases h : a = k <;> simp [kput, kget, h, ih]

theorem kget_kput_ne {κ α : Type} [DecidableEq κ] {k j : κ} (v : α) (h : j ≠ k) (l : List (κ × α)) :
    kget j (kput k v l) = kget j l := by
  induction l with
  | nil => simp [kput, kget, Ne.symm h]
  | cons e l ih =>
    obtain ⟨a, b⟩ := e
    by_cases hk : a = k
    · subst hk; simp [kput, kget, Ne.symm h]
    · simp [kput, kget, hk, ih]

end Sys2Proof.Machine
end

