-- ==== Sys2Proof/Laws/State.lean ====
section
/-! SUPPORT. What the updates of one record of the state leave: one lemma per field per update, and the records they give. -/

namespace Sys2Proof.Machine

/-! ### State.updTeam -/

@[simp] theorem State.updTeam_power (s : State) (k : Nat) (f : Team → Team) : (s.updTeam k f).power = s.power := rfl
@[simp] theorem State.updTeam_boot (s : State) (k : Nat) (f : Team → Team) : (s.updTeam k f).boot = s.boot := rfl
@[simp] theorem State.updTeam_flash (s : State) (k : Nat) (f : Team → Team) : (s.updTeam k f).flash = s.flash := rfl
@[simp] theorem State.updTeam_dies (s : State) (k : Nat) (f : Team → Team) : (s.updTeam k f).dies = s.dies := rfl
@[simp] theorem State.updTeam_cores (s : State) (k : Nat) (f : Team → Team) : (s.updTeam k f).cores = s.cores := rfl
@[simp] theorem State.updTeam_clusters (s : State) (k : Nat) (f : Team → Team) : (s.updTeam k f).clusters = s.clusters := rfl
@[simp] theorem State.updTeam_mem (s : State) (k : Nat) (f : Team → Team) : (s.updTeam k f).mem = s.mem := rfl
@[simp] theorem State.updTeam_wlog (s : State) (k : Nat) (f : Team → Team) : (s.updTeam k f).wlog = s.wlog := rfl
@[simp] theorem State.updTeam_l2 (s : State) (k : Nat) (f : Team → Team) : (s.updTeam k f).l2 = s.l2 := rfl
@[simp] theorem State.updTeam_owners1 (s : State) (k : Nat) (f : Team → Team) : (s.updTeam k f).owners1 = s.owners1 := rfl
@[simp] theorem State.updTeam_owners2 (s : State) (k : Nat) (f : Team → Team) : (s.updTeam k f).owners2 = s.owners2 := rfl
@[simp] theorem State.updTeam_handles (s : State) (k : Nat) (f : Team → Team) : (s.updTeam k f).handles = s.handles := rfl
@[simp] theorem State.updTeam_parts (s : State) (k : Nat) (f : Team → Team) : (s.updTeam k f).parts = s.parts := rfl
@[simp] theorem State.updTeam_launches (s : State) (k : Nat) (f : Team → Team) : (s.updTeam k f).launches = s.launches := rfl
@[simp] theorem State.updTeam_replicas (s : State) (k : Nat) (f : Team → Team) : (s.updTeam k f).replicas = s.replicas := rfl
@[simp] theorem State.updTeam_colls (s : State) (k : Nat) (f : Team → Team) : (s.updTeam k f).colls = s.colls := rfl
@[simp] theorem State.updTeam_aborts (s : State) (k : Nat) (f : Team → Team) : (s.updTeam k f).aborts = s.aborts := rfl
@[simp] theorem State.updTeam_sessions (s : State) (k : Nat) (f : Team → Team) : (s.updTeam k f).sessions = s.sessions := rfl
@[simp] theorem State.updTeam_peers (s : State) (k : Nat) (f : Team → Team) : (s.updTeam k f).peers = s.peers := rfl
@[simp] theorem State.updTeam_hostWaits (s : State) (k : Nat) (f : Team → Team) : (s.updTeam k f).hostWaits = s.hostWaits := rfl
@[simp] theorem State.updTeam_strays (s : State) (k : Nat) (f : Team → Team) : (s.updTeam k f).strays = s.strays := rfl
@[simp] theorem State.updTeam_sent (s : State) (k : Nat) (f : Team → Team) : (s.updTeam k f).sent = s.sent := rfl
@[simp] theorem State.updTeam_agenda (s : State) (k : Nat) (f : Team → Team) : (s.updTeam k f).agenda = s.agenda := rfl
@[simp] theorem State.updTeam_focus (s : State) (k : Nat) (f : Team → Team) : (s.updTeam k f).focus = s.focus := rfl
@[simp] theorem State.updTeam_fresh (s : State) (k : Nat) (f : Team → Team) : (s.updTeam k f).fresh = s.fresh := rfl
@[simp] theorem State.updTeam_serial (s : State) (k : Nat) (f : Team → Team) : (s.updTeam k f).serial = s.serial := rfl
@[simp] theorem State.updTeam_keyed (s : State) (k : Nat) (f : Team → Team) : (s.updTeam k f).keyed = s.keyed := rfl
@[simp] theorem State.updTeam_engines (s : State) (k : Nat) (f : Team → Team) : (s.updTeam k f).engines = s.engines := rfl

/-! ### State.updGroup -/

@[simp] theorem State.updGroup_power (s : State) (k : GroupKey) (f : Group → Group) : (s.updGroup k f).power = s.power := rfl
@[simp] theorem State.updGroup_boot (s : State) (k : GroupKey) (f : Group → Group) : (s.updGroup k f).boot = s.boot := rfl
@[simp] theorem State.updGroup_flash (s : State) (k : GroupKey) (f : Group → Group) : (s.updGroup k f).flash = s.flash := rfl
@[simp] theorem State.updGroup_dies (s : State) (k : GroupKey) (f : Group → Group) : (s.updGroup k f).dies = s.dies := rfl
@[simp] theorem State.updGroup_cores (s : State) (k : GroupKey) (f : Group → Group) : (s.updGroup k f).cores = s.cores := rfl
@[simp] theorem State.updGroup_clusters (s : State) (k : GroupKey) (f : Group → Group) : (s.updGroup k f).clusters = s.clusters := rfl
@[simp] theorem State.updGroup_mem (s : State) (k : GroupKey) (f : Group → Group) : (s.updGroup k f).mem = s.mem := rfl
@[simp] theorem State.updGroup_wlog (s : State) (k : GroupKey) (f : Group → Group) : (s.updGroup k f).wlog = s.wlog := rfl
@[simp] theorem State.updGroup_l2 (s : State) (k : GroupKey) (f : Group → Group) : (s.updGroup k f).l2 = s.l2 := rfl
@[simp] theorem State.updGroup_owners1 (s : State) (k : GroupKey) (f : Group → Group) : (s.updGroup k f).owners1 = s.owners1 := rfl
@[simp] theorem State.updGroup_owners2 (s : State) (k : GroupKey) (f : Group → Group) : (s.updGroup k f).owners2 = s.owners2 := rfl
@[simp] theorem State.updGroup_handles (s : State) (k : GroupKey) (f : Group → Group) : (s.updGroup k f).handles = s.handles := rfl
@[simp] theorem State.updGroup_parts (s : State) (k : GroupKey) (f : Group → Group) : (s.updGroup k f).parts = s.parts := rfl
@[simp] theorem State.updGroup_launches (s : State) (k : GroupKey) (f : Group → Group) : (s.updGroup k f).launches = s.launches := rfl
@[simp] theorem State.updGroup_replicas (s : State) (k : GroupKey) (f : Group → Group) : (s.updGroup k f).replicas = s.replicas := rfl
@[simp] theorem State.updGroup_colls (s : State) (k : GroupKey) (f : Group → Group) : (s.updGroup k f).colls = s.colls := rfl
@[simp] theorem State.updGroup_aborts (s : State) (k : GroupKey) (f : Group → Group) : (s.updGroup k f).aborts = s.aborts := rfl
@[simp] theorem State.updGroup_sessions (s : State) (k : GroupKey) (f : Group → Group) : (s.updGroup k f).sessions = s.sessions := rfl
@[simp] theorem State.updGroup_peers (s : State) (k : GroupKey) (f : Group → Group) : (s.updGroup k f).peers = s.peers := rfl
@[simp] theorem State.updGroup_hostWaits (s : State) (k : GroupKey) (f : Group → Group) : (s.updGroup k f).hostWaits = s.hostWaits := rfl
@[simp] theorem State.updGroup_strays (s : State) (k : GroupKey) (f : Group → Group) : (s.updGroup k f).strays = s.strays := rfl
@[simp] theorem State.updGroup_sent (s : State) (k : GroupKey) (f : Group → Group) : (s.updGroup k f).sent = s.sent := rfl
@[simp] theorem State.updGroup_agenda (s : State) (k : GroupKey) (f : Group → Group) : (s.updGroup k f).agenda = s.agenda := rfl
@[simp] theorem State.updGroup_focus (s : State) (k : GroupKey) (f : Group → Group) : (s.updGroup k f).focus = s.focus := rfl
@[simp] theorem State.updGroup_fresh (s : State) (k : GroupKey) (f : Group → Group) : (s.updGroup k f).fresh = s.fresh := rfl
@[simp] theorem State.updGroup_serial (s : State) (k : GroupKey) (f : Group → Group) : (s.updGroup k f).serial = s.serial := rfl
@[simp] theorem State.updGroup_keyed (s : State) (k : GroupKey) (f : Group → Group) : (s.updGroup k f).keyed = s.keyed := rfl
@[simp] theorem State.updGroup_engines (s : State) (k : GroupKey) (f : Group → Group) : (s.updGroup k f).engines = s.engines := rfl

/-! ### State.updPart -/

@[simp] theorem State.updPart_power (s : State) (k : Nat) (f : Part → Part) : (s.updPart k f).power = s.power := rfl
@[simp] theorem State.updPart_boot (s : State) (k : Nat) (f : Part → Part) : (s.updPart k f).boot = s.boot := rfl
@[simp] theorem State.updPart_flash (s : State) (k : Nat) (f : Part → Part) : (s.updPart k f).flash = s.flash := rfl
@[simp] theorem State.updPart_dies (s : State) (k : Nat) (f : Part → Part) : (s.updPart k f).dies = s.dies := rfl
@[simp] theorem State.updPart_cores (s : State) (k : Nat) (f : Part → Part) : (s.updPart k f).cores = s.cores := rfl
@[simp] theorem State.updPart_clusters (s : State) (k : Nat) (f : Part → Part) : (s.updPart k f).clusters = s.clusters := rfl
@[simp] theorem State.updPart_mem (s : State) (k : Nat) (f : Part → Part) : (s.updPart k f).mem = s.mem := rfl
@[simp] theorem State.updPart_wlog (s : State) (k : Nat) (f : Part → Part) : (s.updPart k f).wlog = s.wlog := rfl
@[simp] theorem State.updPart_l2 (s : State) (k : Nat) (f : Part → Part) : (s.updPart k f).l2 = s.l2 := rfl
@[simp] theorem State.updPart_owners1 (s : State) (k : Nat) (f : Part → Part) : (s.updPart k f).owners1 = s.owners1 := rfl
@[simp] theorem State.updPart_owners2 (s : State) (k : Nat) (f : Part → Part) : (s.updPart k f).owners2 = s.owners2 := rfl
@[simp] theorem State.updPart_handles (s : State) (k : Nat) (f : Part → Part) : (s.updPart k f).handles = s.handles := rfl
@[simp] theorem State.updPart_teams (s : State) (k : Nat) (f : Part → Part) : (s.updPart k f).teams = s.teams := rfl
@[simp] theorem State.updPart_launches (s : State) (k : Nat) (f : Part → Part) : (s.updPart k f).launches = s.launches := rfl
@[simp] theorem State.updPart_replicas (s : State) (k : Nat) (f : Part → Part) : (s.updPart k f).replicas = s.replicas := rfl
@[simp] theorem State.updPart_colls (s : State) (k : Nat) (f : Part → Part) : (s.updPart k f).colls = s.colls := rfl
@[simp] theorem State.updPart_aborts (s : State) (k : Nat) (f : Part → Part) : (s.updPart k f).aborts = s.aborts := rfl
@[simp] theorem State.updPart_sessions (s : State) (k : Nat) (f : Part → Part) : (s.updPart k f).sessions = s.sessions := rfl
@[simp] theorem State.updPart_peers (s : State) (k : Nat) (f : Part → Part) : (s.updPart k f).peers = s.peers := rfl
@[simp] theorem State.updPart_hostWaits (s : State) (k : Nat) (f : Part → Part) : (s.updPart k f).hostWaits = s.hostWaits := rfl
@[simp] theorem State.updPart_strays (s : State) (k : Nat) (f : Part → Part) : (s.updPart k f).strays = s.strays := rfl
@[simp] theorem State.updPart_sent (s : State) (k : Nat) (f : Part → Part) : (s.updPart k f).sent = s.sent := rfl
@[simp] theorem State.updPart_agenda (s : State) (k : Nat) (f : Part → Part) : (s.updPart k f).agenda = s.agenda := rfl
@[simp] theorem State.updPart_focus (s : State) (k : Nat) (f : Part → Part) : (s.updPart k f).focus = s.focus := rfl
@[simp] theorem State.updPart_fresh (s : State) (k : Nat) (f : Part → Part) : (s.updPart k f).fresh = s.fresh := rfl
@[simp] theorem State.updPart_serial (s : State) (k : Nat) (f : Part → Part) : (s.updPart k f).serial = s.serial := rfl
@[simp] theorem State.updPart_keyed (s : State) (k : Nat) (f : Part → Part) : (s.updPart k f).keyed = s.keyed := rfl
@[simp] theorem State.updPart_engines (s : State) (k : Nat) (f : Part → Part) : (s.updPart k f).engines = s.engines := rfl

/-! ### State.updLaunch -/

@[simp] theorem State.updLaunch_power (s : State) (k : Nat) (f : Launch → Launch) : (s.updLaunch k f).power = s.power := rfl
@[simp] theorem State.updLaunch_boot (s : State) (k : Nat) (f : Launch → Launch) : (s.updLaunch k f).boot = s.boot := rfl
@[simp] theorem State.updLaunch_flash (s : State) (k : Nat) (f : Launch → Launch) : (s.updLaunch k f).flash = s.flash := rfl
@[simp] theorem State.updLaunch_dies (s : State) (k : Nat) (f : Launch → Launch) : (s.updLaunch k f).dies = s.dies := rfl
@[simp] theorem State.updLaunch_cores (s : State) (k : Nat) (f : Launch → Launch) : (s.updLaunch k f).cores = s.cores := rfl
@[simp] theorem State.updLaunch_clusters (s : State) (k : Nat) (f : Launch → Launch) : (s.updLaunch k f).clusters = s.clusters := rfl
@[simp] theorem State.updLaunch_mem (s : State) (k : Nat) (f : Launch → Launch) : (s.updLaunch k f).mem = s.mem := rfl
@[simp] theorem State.updLaunch_wlog (s : State) (k : Nat) (f : Launch → Launch) : (s.updLaunch k f).wlog = s.wlog := rfl
@[simp] theorem State.updLaunch_l2 (s : State) (k : Nat) (f : Launch → Launch) : (s.updLaunch k f).l2 = s.l2 := rfl
@[simp] theorem State.updLaunch_owners1 (s : State) (k : Nat) (f : Launch → Launch) : (s.updLaunch k f).owners1 = s.owners1 := rfl
@[simp] theorem State.updLaunch_owners2 (s : State) (k : Nat) (f : Launch → Launch) : (s.updLaunch k f).owners2 = s.owners2 := rfl
@[simp] theorem State.updLaunch_handles (s : State) (k : Nat) (f : Launch → Launch) : (s.updLaunch k f).handles = s.handles := rfl
@[simp] theorem State.updLaunch_parts (s : State) (k : Nat) (f : Launch → Launch) : (s.updLaunch k f).parts = s.parts := rfl
@[simp] theorem State.updLaunch_teams (s : State) (k : Nat) (f : Launch → Launch) : (s.updLaunch k f).teams = s.teams := rfl
@[simp] theorem State.updLaunch_replicas (s : State) (k : Nat) (f : Launch → Launch) : (s.updLaunch k f).replicas = s.replicas := rfl
@[simp] theorem State.updLaunch_colls (s : State) (k : Nat) (f : Launch → Launch) : (s.updLaunch k f).colls = s.colls := rfl
@[simp] theorem State.updLaunch_aborts (s : State) (k : Nat) (f : Launch → Launch) : (s.updLaunch k f).aborts = s.aborts := rfl
@[simp] theorem State.updLaunch_sessions (s : State) (k : Nat) (f : Launch → Launch) : (s.updLaunch k f).sessions = s.sessions := rfl
@[simp] theorem State.updLaunch_peers (s : State) (k : Nat) (f : Launch → Launch) : (s.updLaunch k f).peers = s.peers := rfl
@[simp] theorem State.updLaunch_hostWaits (s : State) (k : Nat) (f : Launch → Launch) : (s.updLaunch k f).hostWaits = s.hostWaits := rfl
@[simp] theorem State.updLaunch_strays (s : State) (k : Nat) (f : Launch → Launch) : (s.updLaunch k f).strays = s.strays := rfl
@[simp] theorem State.updLaunch_sent (s : State) (k : Nat) (f : Launch → Launch) : (s.updLaunch k f).sent = s.sent := rfl
@[simp] theorem State.updLaunch_agenda (s : State) (k : Nat) (f : Launch → Launch) : (s.updLaunch k f).agenda = s.agenda := rfl
@[simp] theorem State.updLaunch_focus (s : State) (k : Nat) (f : Launch → Launch) : (s.updLaunch k f).focus = s.focus := rfl
@[simp] theorem State.updLaunch_fresh (s : State) (k : Nat) (f : Launch → Launch) : (s.updLaunch k f).fresh = s.fresh := rfl
@[simp] theorem State.updLaunch_serial (s : State) (k : Nat) (f : Launch → Launch) : (s.updLaunch k f).serial = s.serial := rfl
@[simp] theorem State.updLaunch_keyed (s : State) (k : Nat) (f : Launch → Launch) : (s.updLaunch k f).keyed = s.keyed := rfl
@[simp] theorem State.updLaunch_engines (s : State) (k : Nat) (f : Launch → Launch) : (s.updLaunch k f).engines = s.engines := rfl

/-! ### State.updCore -/

@[simp] theorem State.updCore_power (s : State) (k : CoreKey) (f : Core → Core) : (s.updCore k f).power = s.power := rfl
@[simp] theorem State.updCore_boot (s : State) (k : CoreKey) (f : Core → Core) : (s.updCore k f).boot = s.boot := rfl
@[simp] theorem State.updCore_flash (s : State) (k : CoreKey) (f : Core → Core) : (s.updCore k f).flash = s.flash := rfl
@[simp] theorem State.updCore_dies (s : State) (k : CoreKey) (f : Core → Core) : (s.updCore k f).dies = s.dies := rfl
@[simp] theorem State.updCore_clusters (s : State) (k : CoreKey) (f : Core → Core) : (s.updCore k f).clusters = s.clusters := rfl
@[simp] theorem State.updCore_mem (s : State) (k : CoreKey) (f : Core → Core) : (s.updCore k f).mem = s.mem := rfl
@[simp] theorem State.updCore_wlog (s : State) (k : CoreKey) (f : Core → Core) : (s.updCore k f).wlog = s.wlog := rfl
@[simp] theorem State.updCore_l2 (s : State) (k : CoreKey) (f : Core → Core) : (s.updCore k f).l2 = s.l2 := rfl
@[simp] theorem State.updCore_owners1 (s : State) (k : CoreKey) (f : Core → Core) : (s.updCore k f).owners1 = s.owners1 := rfl
@[simp] theorem State.updCore_owners2 (s : State) (k : CoreKey) (f : Core → Core) : (s.updCore k f).owners2 = s.owners2 := rfl
@[simp] theorem State.updCore_handles (s : State) (k : CoreKey) (f : Core → Core) : (s.updCore k f).handles = s.handles := rfl
@[simp] theorem State.updCore_parts (s : State) (k : CoreKey) (f : Core → Core) : (s.updCore k f).parts = s.parts := rfl
@[simp] theorem State.updCore_teams (s : State) (k : CoreKey) (f : Core → Core) : (s.updCore k f).teams = s.teams := rfl
@[simp] theorem State.updCore_launches (s : State) (k : CoreKey) (f : Core → Core) : (s.updCore k f).launches = s.launches := rfl
@[simp] theorem State.updCore_replicas (s : State) (k : CoreKey) (f : Core → Core) : (s.updCore k f).replicas = s.replicas := rfl
@[simp] theorem State.updCore_colls (s : State) (k : CoreKey) (f : Core → Core) : (s.updCore k f).colls = s.colls := rfl
@[simp] theorem State.updCore_aborts (s : State) (k : CoreKey) (f : Core → Core) : (s.updCore k f).aborts = s.aborts := rfl
@[simp] theorem State.updCore_sessions (s : State) (k : CoreKey) (f : Core → Core) : (s.updCore k f).sessions = s.sessions := rfl
@[simp] theorem State.updCore_peers (s : State) (k : CoreKey) (f : Core → Core) : (s.updCore k f).peers = s.peers := rfl
@[simp] theorem State.updCore_hostWaits (s : State) (k : CoreKey) (f : Core → Core) : (s.updCore k f).hostWaits = s.hostWaits := rfl
@[simp] theorem State.updCore_strays (s : State) (k : CoreKey) (f : Core → Core) : (s.updCore k f).strays = s.strays := rfl
@[simp] theorem State.updCore_sent (s : State) (k : CoreKey) (f : Core → Core) : (s.updCore k f).sent = s.sent := rfl
@[simp] theorem State.updCore_agenda (s : State) (k : CoreKey) (f : Core → Core) : (s.updCore k f).agenda = s.agenda := rfl
@[simp] theorem State.updCore_focus (s : State) (k : CoreKey) (f : Core → Core) : (s.updCore k f).focus = s.focus := rfl
@[simp] theorem State.updCore_fresh (s : State) (k : CoreKey) (f : Core → Core) : (s.updCore k f).fresh = s.fresh := rfl
@[simp] theorem State.updCore_serial (s : State) (k : CoreKey) (f : Core → Core) : (s.updCore k f).serial = s.serial := rfl
@[simp] theorem State.updCore_keyed (s : State) (k : CoreKey) (f : Core → Core) : (s.updCore k f).keyed = s.keyed := rfl
@[simp] theorem State.updCore_engines (s : State) (k : CoreKey) (f : Core → Core) : (s.updCore k f).engines = s.engines := rfl

/-! ### State.updCluster -/

@[simp] theorem State.updCluster_power (s : State) (k : ClusterKey) (f : Cluster → Cluster) : (s.updCluster k f).power = s.power := rfl
@[simp] theorem State.updCluster_boot (s : State) (k : ClusterKey) (f : Cluster → Cluster) : (s.updCluster k f).boot = s.boot := rfl
@[simp] theorem State.updCluster_flash (s : State) (k : ClusterKey) (f : Cluster → Cluster) : (s.updCluster k f).flash = s.flash := rfl
@[simp] theorem State.updCluster_dies (s : State) (k : ClusterKey) (f : Cluster → Cluster) : (s.updCluster k f).dies = s.dies := rfl
@[simp] theorem State.updCluster_cores (s : State) (k : ClusterKey) (f : Cluster → Cluster) : (s.updCluster k f).cores = s.cores := rfl
@[simp] theorem State.updCluster_mem (s : State) (k : ClusterKey) (f : Cluster → Cluster) : (s.updCluster k f).mem = s.mem := rfl
@[simp] theorem State.updCluster_wlog (s : State) (k : ClusterKey) (f : Cluster → Cluster) : (s.updCluster k f).wlog = s.wlog := rfl
@[simp] theorem State.updCluster_l2 (s : State) (k : ClusterKey) (f : Cluster → Cluster) : (s.updCluster k f).l2 = s.l2 := rfl
@[simp] theorem State.updCluster_owners1 (s : State) (k : ClusterKey) (f : Cluster → Cluster) : (s.updCluster k f).owners1 = s.owners1 := rfl
@[simp] theorem State.updCluster_owners2 (s : State) (k : ClusterKey) (f : Cluster → Cluster) : (s.updCluster k f).owners2 = s.owners2 := rfl
@[simp] theorem State.updCluster_handles (s : State) (k : ClusterKey) (f : Cluster → Cluster) : (s.updCluster k f).handles = s.handles := rfl
@[simp] theorem State.updCluster_parts (s : State) (k : ClusterKey) (f : Cluster → Cluster) : (s.updCluster k f).parts = s.parts := rfl
@[simp] theorem State.updCluster_teams (s : State) (k : ClusterKey) (f : Cluster → Cluster) : (s.updCluster k f).teams = s.teams := rfl
@[simp] theorem State.updCluster_launches (s : State) (k : ClusterKey) (f : Cluster → Cluster) : (s.updCluster k f).launches = s.launches := rfl
@[simp] theorem State.updCluster_replicas (s : State) (k : ClusterKey) (f : Cluster → Cluster) : (s.updCluster k f).replicas = s.replicas := rfl
@[simp] theorem State.updCluster_colls (s : State) (k : ClusterKey) (f : Cluster → Cluster) : (s.updCluster k f).colls = s.colls := rfl
@[simp] theorem State.updCluster_aborts (s : State) (k : ClusterKey) (f : Cluster → Cluster) : (s.updCluster k f).aborts = s.aborts := rfl
@[simp] theorem State.updCluster_sessions (s : State) (k : ClusterKey) (f : Cluster → Cluster) : (s.updCluster k f).sessions = s.sessions := rfl
@[simp] theorem State.updCluster_peers (s : State) (k : ClusterKey) (f : Cluster → Cluster) : (s.updCluster k f).peers = s.peers := rfl
@[simp] theorem State.updCluster_hostWaits (s : State) (k : ClusterKey) (f : Cluster → Cluster) : (s.updCluster k f).hostWaits = s.hostWaits := rfl
@[simp] theorem State.updCluster_strays (s : State) (k : ClusterKey) (f : Cluster → Cluster) : (s.updCluster k f).strays = s.strays := rfl
@[simp] theorem State.updCluster_sent (s : State) (k : ClusterKey) (f : Cluster → Cluster) : (s.updCluster k f).sent = s.sent := rfl
@[simp] theorem State.updCluster_agenda (s : State) (k : ClusterKey) (f : Cluster → Cluster) : (s.updCluster k f).agenda = s.agenda := rfl
@[simp] theorem State.updCluster_focus (s : State) (k : ClusterKey) (f : Cluster → Cluster) : (s.updCluster k f).focus = s.focus := rfl
@[simp] theorem State.updCluster_fresh (s : State) (k : ClusterKey) (f : Cluster → Cluster) : (s.updCluster k f).fresh = s.fresh := rfl
@[simp] theorem State.updCluster_serial (s : State) (k : ClusterKey) (f : Cluster → Cluster) : (s.updCluster k f).serial = s.serial := rfl
@[simp] theorem State.updCluster_keyed (s : State) (k : ClusterKey) (f : Cluster → Cluster) : (s.updCluster k f).keyed = s.keyed := rfl
@[simp] theorem State.updCluster_engines (s : State) (k : ClusterKey) (f : Cluster → Cluster) : (s.updCluster k f).engines = s.engines := rfl

/-! ### State.updDie -/

@[simp] theorem State.updDie_power (s : State) (k : Nat) (f : Die → Die) : (s.updDie k f).power = s.power := rfl
@[simp] theorem State.updDie_boot (s : State) (k : Nat) (f : Die → Die) : (s.updDie k f).boot = s.boot := rfl
@[simp] theorem State.updDie_flash (s : State) (k : Nat) (f : Die → Die) : (s.updDie k f).flash = s.flash := rfl
@[simp] theorem State.updDie_cores (s : State) (k : Nat) (f : Die → Die) : (s.updDie k f).cores = s.cores := rfl
@[simp] theorem State.updDie_clusters (s : State) (k : Nat) (f : Die → Die) : (s.updDie k f).clusters = s.clusters := rfl
@[simp] theorem State.updDie_mem (s : State) (k : Nat) (f : Die → Die) : (s.updDie k f).mem = s.mem := rfl
@[simp] theorem State.updDie_wlog (s : State) (k : Nat) (f : Die → Die) : (s.updDie k f).wlog = s.wlog := rfl
@[simp] theorem State.updDie_l2 (s : State) (k : Nat) (f : Die → Die) : (s.updDie k f).l2 = s.l2 := rfl
@[simp] theorem State.updDie_owners1 (s : State) (k : Nat) (f : Die → Die) : (s.updDie k f).owners1 = s.owners1 := rfl
@[simp] theorem State.updDie_owners2 (s : State) (k : Nat) (f : Die → Die) : (s.updDie k f).owners2 = s.owners2 := rfl
@[simp] theorem State.updDie_handles (s : State) (k : Nat) (f : Die → Die) : (s.updDie k f).handles = s.handles := rfl
@[simp] theorem State.updDie_parts (s : State) (k : Nat) (f : Die → Die) : (s.updDie k f).parts = s.parts := rfl
@[simp] theorem State.updDie_teams (s : State) (k : Nat) (f : Die → Die) : (s.updDie k f).teams = s.teams := rfl
@[simp] theorem State.updDie_launches (s : State) (k : Nat) (f : Die → Die) : (s.updDie k f).launches = s.launches := rfl
@[simp] theorem State.updDie_replicas (s : State) (k : Nat) (f : Die → Die) : (s.updDie k f).replicas = s.replicas := rfl
@[simp] theorem State.updDie_colls (s : State) (k : Nat) (f : Die → Die) : (s.updDie k f).colls = s.colls := rfl
@[simp] theorem State.updDie_aborts (s : State) (k : Nat) (f : Die → Die) : (s.updDie k f).aborts = s.aborts := rfl
@[simp] theorem State.updDie_sessions (s : State) (k : Nat) (f : Die → Die) : (s.updDie k f).sessions = s.sessions := rfl
@[simp] theorem State.updDie_peers (s : State) (k : Nat) (f : Die → Die) : (s.updDie k f).peers = s.peers := rfl
@[simp] theorem State.updDie_hostWaits (s : State) (k : Nat) (f : Die → Die) : (s.updDie k f).hostWaits = s.hostWaits := rfl
@[simp] theorem State.updDie_strays (s : State) (k : Nat) (f : Die → Die) : (s.updDie k f).strays = s.strays := rfl
@[simp] theorem State.updDie_sent (s : State) (k : Nat) (f : Die → Die) : (s.updDie k f).sent = s.sent := rfl
@[simp] theorem State.updDie_agenda (s : State) (k : Nat) (f : Die → Die) : (s.updDie k f).agenda = s.agenda := rfl
@[simp] theorem State.updDie_focus (s : State) (k : Nat) (f : Die → Die) : (s.updDie k f).focus = s.focus := rfl
@[simp] theorem State.updDie_fresh (s : State) (k : Nat) (f : Die → Die) : (s.updDie k f).fresh = s.fresh := rfl
@[simp] theorem State.updDie_serial (s : State) (k : Nat) (f : Die → Die) : (s.updDie k f).serial = s.serial := rfl
@[simp] theorem State.updDie_keyed (s : State) (k : Nat) (f : Die → Die) : (s.updDie k f).keyed = s.keyed := rfl
@[simp] theorem State.updDie_engines (s : State) (k : Nat) (f : Die → Die) : (s.updDie k f).engines = s.engines := rfl

/-! ### The records after an update -/

theorem State.updTeam_team? (s : State) (k : Nat) (f : Team → Team) (hf : ∀ t, s.team? k = some t → (f t).key = k) :
    (s.updTeam k f).team? k = (s.team? k).map f :=
  find?_updWhere_same Team.key k f s.teams hf

theorem State.updTeam_team?_ne (s : State) {k j : Nat} (h : j ≠ k) (f : Team → Team) (hf : ∀ t, t.key = k → (f t).key = k) :
    (s.updTeam k f).team? j = s.team? j :=
  find?_updWhere_ne Team.key h f s.teams (fun t _ ht => by rw [hf t ht]; exact Ne.symm h)

theorem State.updPart_part? (s : State) (k : Nat) (f : Part → Part) (hf : ∀ p, s.part? k = some p → (f p).id = k) :
    (s.updPart k f).part? k = (s.part? k).map f :=
  find?_updWhere_same Part.id k f s.parts hf

theorem State.updPart_part?_ne (s : State) {k j : Nat} (h : j ≠ k) (f : Part → Part) (hf : ∀ p, p.id = k → (f p).id = k) :
    (s.updPart k f).part? j = s.part? j :=
  find?_updWhere_ne Part.id h f s.parts (fun p _ hp => by rw [hf p hp]; exact Ne.symm h)

theorem State.updLaunch_launch? (s : State) (k : Nat) (f : Launch → Launch) (hf : ∀ l, s.launch? k = some l → (f l).key = k) :
    (s.updLaunch k f).launch? k = (s.launch? k).map f :=
  find?_updWhere_same Launch.key k f s.launches hf

@[simp] theorem State.updCore_core (s : State) (k : CoreKey) (f : Core → Core) : (s.updCore k f).core k = f (s.core k) := by
  simp [State.core, State.updCore, kget_kput_same]

theorem State.updCore_core_ne (s : State) {k j : CoreKey} (h : j ≠ k) (f : Core → Core) : (s.updCore k f).core j = s.core j := by
  simp [State.core, State.updCore, kget_kput_ne _ h]

@[simp] theorem State.updCluster_cluster (s : State) (k : ClusterKey) (f : Cluster → Cluster) :
    (s.updCluster k f).cluster k = f (s.cluster k) := by
  simp [State.cluster, State.updCluster, kget_kput_same]

theorem State.updCluster_cluster_ne (s : State) {k j : ClusterKey} (h : j ≠ k) (f : Cluster → Cluster) :
    (s.updCluster k f).cluster j = s.cluster j := by
  simp [State.cluster, State.updCluster, kget_kput_ne _ h]

@[simp] theorem State.updDie_die (s : State) (k : Nat) (f : Die → Die) : (s.updDie k f).die k = f (s.die k) := by
  simp [State.die, State.updDie, kget_kput_same]

theorem State.updDie_die_ne (s : State) {k j : Nat} (h : j ≠ k) (f : Die → Die) : (s.updDie k f).die j = s.die j := by
  simp [State.die, State.updDie, kget_kput_ne _ h]

/-- The team that holds a group. -/
theorem State.group?_team {s : State} {k : GroupKey} {g : Group} (h : s.group? k = some g) :
    ∃ t, s.team? k.team = some t ∧ t.key = k.team ∧ t.group? k.idx = some g ∧ g.idx = k.idx := by
  unfold State.group? at h
  cases ht : s.team? k.team with
  | none => rw [ht] at h; simp at h
  | some t =>
    rw [ht] at h
    have h2 : t.group? k.idx = some g := h
    refine ⟨t, rfl, ?_, h2, ?_⟩
    · simpa using List.find?_some ht
    · simpa using List.find?_some h2

/-- The group after its own update. -/
theorem State.updGroup_group? (s : State) (k : GroupKey) (f : Group → Group) (hf : ∀ g, s.group? k = some g → (f g).idx = k.idx) :
    (s.updGroup k f).group? k = (s.group? k).map f := by
  unfold State.group? State.updGroup
  rw [State.updTeam_team? _ _ _ (fun t ht => by simpa using List.find?_some ht)]
  cases ht : s.team? k.team with
  | none => rfl
  | some t =>
    refine find?_updWhere_same Group.idx k.idx f t.groups (fun g hg => hf g ?_)
    unfold State.group?
    rw [ht]; exact hg

/-- Another group after an update. -/
theorem State.updGroup_group?_ne (s : State) {k j : GroupKey} (h : j ≠ k) (f : Group → Group)
    (hf : ∀ g, g.idx = k.idx → (f g).idx = k.idx) : (s.updGroup k f).group? j = s.group? j := by
  unfold State.group? State.updGroup
  by_cases ht : j.team = k.team
  · have hi : j.idx ≠ k.idx := by
      intro hi; apply h; cases j; cases k; simp_all
    rw [ht, State.updTeam_team? _ _ _ (fun t ht => by simpa using List.find?_some ht)]
    cases ht : s.team? k.team with
    | none => rfl
    | some t =>
      exact find?_updWhere_ne Group.idx hi f t.groups (fun g _ hg => by rw [hf g hg]; exact Ne.symm hi)
  · rw [State.updTeam_team?_ne s ht _ (fun t h => by exact h)]

/-- What a group's update leaves of its team besides the groups. -/
theorem State.updGroup_team? (s : State) (k : GroupKey) (f : Group → Group) (j : Nat) :
    (s.updGroup k f).team? j =
      (s.team? j).map (fun t => if j = k.team then { t with groups := updWhere (fun g => g.idx = k.idx) f t.groups } else t) := by
  unfold State.updGroup
  by_cases h : j = k.team
  · subst h
    rw [State.updTeam_team? _ _ _ (fun t ht => by simpa using List.find?_some ht)]
    simp
  · rw [State.updTeam_team?_ne s h _ (fun t h => by exact h)]
    simp [h]

end Sys2Proof.Machine
end

