-- ==== Sys2Proof/Laws/Issue.lean ====
section
/-! SUPPORT. What the shared parts of an issue do: the issuer, the checks, the advance of the run, and the writes to lanes. -/

namespace Sys2Proof.Machine

/-! ### The issuer -/

theorem firstSome_mem {α β : Type} {f : α → Option β} {l : List α} {b : β} (h : firstSome f l = some b) : ∃ a ∈ l, f a = some b := by
  induction l with
  | nil => simp [firstSome] at h
  | cons a l ih =>
    unfold firstSome at h
    split at h
    · rename_i c hc
      simp only [Option.some.injEq] at h
      exact ⟨a, by simp, by rw [hc, h]⟩
    · obtain ⟨x, hx, hf⟩ := ih h
      exact ⟨x, List.mem_cons_of_mem _ hx, hf⟩

/-- What an issuer is: a group of the state with its run, its team, and lanes of its split. -/
theorem State.issuer_spec {s : State} {is : Iss} (h : s.issuer = some is) :
    s.group? is.key = some is.g ∧ s.team? is.key.team = some is.team ∧ is.g.run = some is.run
      ∧ is.active = is.g.active is.run.slot ∧ (∀ i ∈ is.lanes, i ∈ is.active) ∧ is.g.idx = is.key.idx
      ∧ is.g.splits.any (fun x => x.slot = is.run.slot) = true := by
  obtain ⟨e, -, he⟩ := firstSome_mem h
  dsimp only at he
  split at he
  · rename_i g r t hg ht
    simp only [Option.some.injEq] at he
    subst he
    obtain ⟨g', hg', hr⟩ := Option.bind_eq_some_iff.mp hg
    obtain ⟨r', hr1, hp⟩ := Option.map_eq_some_iff.mp hr
    obtain ⟨hr', hs⟩ := Option.filter_eq_some_iff.mp hr1
    obtain ⟨rfl, rfl⟩ := Prod.mk.inj hp
    have ht' := (Option.filter_eq_some_iff.mp ht).1
    obtain ⟨_, _, _, _, hi⟩ := State.group?_team hg'
    exact ⟨hg', ht', hr', rfl, fun i hi => (List.mem_filter.mp hi).1, hi, hs⟩
  · exact absurd he (by simp)

/-! ### The checks -/

theorem issue_nobody {s : State} (sh : Shape) (e : Iss → Eff) (h : s.issuer = none) : issue s sh e = .fault .noIssuer := by
  unfold issue; rw [h]

/-- The first failing check stops the team. -/
theorem issue_error {s : State} {sh : Shape} {is : Iss} {c : Cause} (e : Iss → Eff) (h : s.issuer = some is)
    (hc : sh.firstError is = some c) : issue s sh e = .next (s.teamStop is.key (StopCause.at c is.run.ipc)) := by
  unfold issue; rw [h]; dsimp only; rw [hc]

/-- An instruction whose checks pass has its effect. -/
theorem issue_pass {s : State} {sh : Shape} {is : Iss} (e : Iss → Eff) (h : s.issuer = some is) (hc : sh.firstError is = none) :
    issue s sh e = .next ((e is).state is sh) := by
  unfold issue; rw [h]; dsimp only; rw [hc]

/-! ### Lanes -/

theorem nth_updLanes (g : Group) (is : List Nat) (f : Nat → Lane → Lane) (i : Nat) :
    nth (g.updLanes is f).lanes i = (nth g.lanes i).map (fun l => if is.contains i then f i l else l) := by
  unfold Group.updLanes
  dsimp only
  rw [nth_mapIdx]
  simp

/-- A lane of the list after an update of lanes. -/
theorem Group.updLanes_lane_in (g : Group) {is : List Nat} (f : Nat → Lane → Lane) {i : Nat} (h : i ∈ is) {l : Lane}
    (hl : nth g.lanes i = some l) : (g.updLanes is f).lane i = f i (g.lane i) := by
  unfold Group.lane
  rw [nth_updLanes, hl]
  simp [h]

/-- A lane outside the list. -/
theorem Group.updLanes_lane_out (g : Group) {is : List Nat} (f : Nat → Lane → Lane) {i : Nat} (h : i ∉ is) :
    (g.updLanes is f).lane i = g.lane i := by
  unfold Group.lane
  rw [nth_updLanes]
  cases nth g.lanes i <;> simp [h]

/-- An update of lanes leaves the rest of the group. -/
theorem Group.updLanes_rest (g : Group) (is : List Nat) (f : Nat → Lane → Lane) :
    { g.updLanes is f with lanes := [] } = { g with lanes := [] } := rfl

theorem mem_idxWhere {α : Type} {p : α → Bool} {l : List α} {k i : Nat} (h : i ∈ idxWhere p l k) :
    ∃ a, nth l (i - k) = some a ∧ k ≤ i ∧ p a = true := by
  induction l generalizing k with
  | nil => simp [idxWhere] at h
  | cons a l ih =>
    have step : i ∈ idxWhere p l (k + 1) → ∃ b, nth (a :: l) (i - k) = some b ∧ k ≤ i ∧ p b = true := by
      intro h
      obtain ⟨b, hb, hk, hp⟩ := ih h
      refine ⟨b, ?_, by omega, hp⟩
      rw [show i - k = (i - (k + 1)) + 1 by omega]
      exact hb
    unfold idxWhere at h
    split at h
    · rename_i hp
      rcases List.mem_cons.mp h with rfl | h
      · exact ⟨a, by simp [nth], le_refl _, hp⟩
      · exact step h
    · exact step h

/-- A contributing lane of the issuer is a lane of its group. -/
theorem State.issuer_lane {s : State} {is : Iss} (h : s.issuer = some is) {i : Nat} (hi : i ∈ is.lanes) :
    nth is.g.lanes i = some (is.g.lane i) := by
  obtain ⟨-, -, -, ha, hl, -, -⟩ := State.issuer_spec h
  have := hl i hi
  rw [ha] at this
  obtain ⟨l, hn, -, -⟩ := mem_idxWhere this
  unfold Group.lane
  rw [show i - 0 = i by omega] at hn
  rw [hn]; rfl

/-! ### Updates of the issuer's group -/

theorem updWhere_updWhere {α : Type} (p : α → Bool) (f g : α → α) (l : List α) (h : ∀ a, p a = true → p (f a) = true) :
    updWhere p g (updWhere p f l) = updWhere p (g ∘ f) l := by
  induction l with
  | nil => rfl
  | cons a l ih =>
    by_cases hp : p a = true
    · simp [updWhere, hp, h a hp, ih]
    · simp [updWhere, hp, ih]

/-- Two updates of one group are one. -/
theorem State.updGroup_updGroup (s : State) (k : GroupKey) (f g : Group → Group) (hf : ∀ x, x.idx = k.idx → (f x).idx = k.idx) :
    (s.updGroup k f).updGroup k g = s.updGroup k (g ∘ f) := by
  unfold State.updGroup State.updTeam
  dsimp only
  rw [updWhere_updWhere _ _ _ _ (fun t ht => by simpa using ht)]
  congr 2
  funext t
  dsimp only [Function.comp]
  rw [updWhere_updWhere _ _ _ _ (fun x hx => by simpa using hf x (by simpa using hx))]

theorem State.laneTraps_nil (s : State) (k : GroupKey) : s.laneTraps k [] = s := by
  unfold State.laneTraps
  split <;> simp_all

end Sys2Proof.Machine
end

