-- ==== Sys2Proof/Laws/Memory.lean ====
section
/-! SUPPORT. The laws of the byte memory: a read gives the byte last written, other bytes stay, and every operation keeps the
canonical form. -/

namespace Sys2Proof.Machine

@[simp] theorem Memory.unlisted_write (m : Memory) (k : Nat) (b : Byte) : (m.write k b).unlisted = m.unlisted := rfl

/-- A read of the byte written. -/
@[simp] theorem Memory.read_write_same (m : Memory) (k : Nat) (b : Byte) : (m.write k b).read k = b := by
  unfold Memory.read
  rw [Memory.unlisted_write]
  unfold Memory.write
  rw [assocGet_put_same]
  split <;> simp [*]

/-- A read of another byte. -/
theorem Memory.read_write_ne (m : Memory) {k j : Nat} (b : Byte) (h : j ≠ k) : (m.write k b).read j = m.read j := by
  unfold Memory.read
  rw [Memory.unlisted_write]
  exact assocGet_put_ne _ _ h _

theorem Memory.unlisted_writeList (bs : List Byte) (m : Memory) (k : Nat) : (m.writeList k bs).unlisted = m.unlisted := by
  induction bs generalizing m k with
  | nil => rfl
  | cons b bs ih => rw [Memory.writeList, ih]; rfl

/-- Bytes outside those written. -/
theorem Memory.read_writeList_out (bs : List Byte) (m : Memory) (k j : Nat) (h : j < k ∨ k + bs.length ≤ j) :
    (m.writeList k bs).read j = m.read j := by
  induction bs generalizing m k with
  | nil => rfl
  | cons b bs ih =>
    simp only [List.length_cons] at h
    rw [Memory.writeList, ih _ _ (by omega), Memory.read_write_ne _ _ (by omega)]

/-- The bytes written. -/
theorem Memory.read_writeList_in (bs : List Byte) (m : Memory) (k i : Nat) (h : i < bs.length) :
    (m.writeList k bs).read (k + i) = bs[i] := by
  induction bs generalizing m k i with
  | nil => simp at h
  | cons b bs ih =>
    cases i with
    | zero =>
      rw [Memory.writeList, Memory.read_writeList_out _ _ _ _ (by omega)]
      simp
    | succ i =>
      rw [Memory.writeList]
      have := ih (m.write k b) (k + 1) i (by simpa using h)
      rw [show k + (i + 1) = k + 1 + i by omega, this]
      rfl

/-- A write keeps the canonical form. -/
theorem Memory.wf_write {m : Memory} (k : Nat) (b : Byte) (h : m.wf = true) : (m.write k b).wf = true := by
  unfold Memory.wf at *
  rw [Memory.unlisted_write]
  simp only [Bool.and_eq_true, List.all_eq_true, bne_iff_ne] at *
  refine ⟨rising_put _ _ h.1, fun e he => ?_⟩
  rcases mem_assocPut he with ⟨c, hc, rfl⟩ | he
  · split at hc
    · simp at hc
    · simp only [Option.some.injEq] at hc; subst hc; assumption
  · exact h.2 e he

theorem Memory.wf_writeList (bs : List Byte) {m : Memory} (k : Nat) (h : m.wf = true) : (m.writeList k bs).wf = true := by
  induction bs generalizing m k with
  | nil => exact h
  | cons b bs ih => exact ih _ (Memory.wf_write k b h)

/-- A granule's new owner keeps the canonical form. -/
theorem Memory.wf_reassign {m : Memory} (g : Nat) (h : m.wf = true) : (m.reassign g).wf = true := by
  unfold Memory.wf at *
  simp only [Bool.and_eq_true, List.all_eq_true, bne_iff_ne] at *
  refine ⟨rising_filter _ h.1, fun e he => ?_⟩
  obtain ⟨he, hg⟩ := List.mem_filter.mp he
  have hg : granuleOf e.1 ≠ g := by simpa using hg
  have : (m.reassign g).unlisted e.1 = m.unlisted e.1 := by
    unfold Memory.unlisted Memory.reassign
    rw [assocGet_put_ne _ _ hg]
  rw [this]
  exact h.2 e he

/-- A byte of another granule keeps its value when a granule changes owner. -/
theorem Memory.read_reassign_ne (m : Memory) {g k : Nat} (h : granuleOf k ≠ g) : (m.reassign g).read k = m.read k := by
  have hu : (m.reassign g).unlisted k = m.unlisted k := by
    unfold Memory.unlisted Memory.reassign
    rw [assocGet_put_ne _ _ h]
  unfold Memory.read
  rw [hu]
  exact assocGet_filter_of _ (fun a => granuleOf a != g) (by simpa using h) _

theorem leaveWords_wf (cs : List ReduceCell) {m : Memory} (k : Nat) (h : m.wf = true) : (leaveWords m k cs).wf = true := by
  induction cs generalizing m k with
  | nil => exact h
  | cons c cs ih =>
    rw [leaveWords]
    exact ih _ (by split <;> [exact h; exact Memory.wf_writeList _ _ h])

theorem State.leaveLine_wf {s : State} (line : Nat) (h : s.mem.wf = true) : (s.leaveLine line).mem.wf = true := by
  unfold State.leaveLine
  split
  · exact h
  · split
    · exact h
    · exact leaveWords_wf _ _ h

theorem State.leaveSpan_wf {s : State} (key n : Nat) (h : s.mem.wf = true) : (s.leaveSpan key n).mem.wf = true := by
  unfold State.leaveSpan
  dsimp only
  split
  · exact State.leaveLine_wf _ h
  · exact State.leaveLine_wf _ (State.leaveLine_wf _ h)

/-- A line that leaves L2 keeps the canonical form. -/
theorem State.evictLine_wf {s : State} (line : Nat) (h : s.mem.wf = true) : (s.evictLine line).mem.wf = true := by
  have hl := State.leaveLine_wf line h
  unfold State.evictLine
  dsimp only
  split
  · unfold L2Line.back
    split
    · split
      · exact Memory.wf_writeList _ _ hl
      · exact hl
    · exact hl
  · exact hl

@[simp] theorem State.choose_mem (s : State) (n : Nat) : (s.choose n).1.mem = s.mem := by
  unfold State.choose
  split <;> rfl

@[simp] theorem State.anyWords_mem (s : State) (n : Nat) : (s.anyWords n).1.mem = s.mem := by
  induction n generalizing s with
  | zero => rfl
  | succ n ih => exact ih s.anyWord.1

/-- Room for a line keeps the canonical form. -/
theorem State.makeRoom_wf {s : State} (line : Nat) (o : Owner) (home : Nat) (h : s.mem.wf = true) :
    (s.makeRoom line o home).1.mem.wf = true := by
  unfold State.makeRoom
  dsimp only
  generalize (if (s.die home).doubledSlice (sliceOf line) = true then 8 else 16) = ways
  split
  · exact h
  · split
    · exact State.evictLine_wf _ (by simpa using h)
    · simpa using h

/-- A line that becomes dirty keeps the canonical form. -/
theorem State.dirtyLine_wf {s : State} (line : Nat) (o : Owner) (home : Nat) (h : s.mem.wf = true) :
    (s.dirtyLine line o home).mem.wf = true := by
  have hr := State.makeRoom_wf line o home h
  unfold State.dirtyLine
  split
  · split
    · split <;> exact h
    · exact h
  · split
    · next heq => rw [heq] at hr; exact hr
    · next heq => rw [heq] at hr; exact hr

/-- A line's new key keeps the canonical form. -/
theorem State.rekey_wf {s : State} (line : Nat) (o : Owner) (h : s.mem.wf = true) : (s.rekey line o).mem.wf = true := by
  unfold State.rekey
  split
  · exact h
  · exact Memory.wf_writeList _ _ (by simpa using State.evictLine_wf line h)

/-- A read at the home keeps the canonical form. -/
theorem State.homeRead_wf {s : State} (key n : Nat) (h : s.mem.wf = true) : (s.homeRead key n).1.mem.wf = true :=
  State.leaveSpan_wf key n h

/-- A read under an owner tag keeps the canonical form. -/
theorem State.keyRead_wf {s : State} (key n : Nat) (o : Owner) (h : s.mem.wf = true) : (s.keyRead key n o).1.mem.wf = true := by
  unfold State.keyRead
  split
  · exact State.homeRead_wf key n h
  · simpa using h

/-- A line that a read brings into L2 keeps the canonical form. -/
theorem State.fetchLine_wf {s : State} (line : Nat) (o : Owner) (home : Nat) (h : s.mem.wf = true) :
    (s.fetchLine line o home).mem.wf = true := by
  have hr := State.makeRoom_wf line o home h
  unfold State.fetchLine
  split
  · exact h
  · next heq => rw [heq] at hr; exact hr
  · next heq => rw [heq] at hr; exact hr

/-- A write at the home keeps the canonical form. -/
theorem State.homeWrite_wf {s : State} (key : Nat) (bs : List Byte) (o : Owner) (home : Nat) (h : s.mem.wf = true) :
    (s.homeWrite key bs o home).mem.wf = true := by
  unfold State.homeWrite
  split
  · exact h
  · exact Memory.wf_writeList _ _
      (State.dirtyLine_wf _ _ _ (State.dirtyLine_wf _ _ _ (State.leaveSpan_wf _ _ (State.rekey_wf _ _ (State.rekey_wf _ _ h)))))

/-- A line in reduce state keeps the canonical form. -/
theorem State.enterReduce_wf {s : State} (line : Nat) (o : Owner) (home : Nat) (h : s.mem.wf = true) :
    (s.enterReduce line o home).mem.wf = true := by
  have hd := State.dirtyLine_wf line o home h
  unfold State.enterReduce
  dsimp only
  split
  · exact hd
  · split <;> exact hd

/-- A reduction at the home keeps the canonical form. -/
theorem State.reduceAdd_wf {s : State} (key : Nat) (t : W32) (o : Owner) (home : Nat) (h : s.mem.wf = true) :
    (s.reduceAdd key t o home).mem.wf = true := by
  have he := State.enterReduce_wf (key / 128) o home (State.rekey_wf (key / 128) o h)
  unfold State.reduceAdd
  dsimp only
  split
  · exact he
  · exact Memory.wf_writeList _ _ he

/-- A line whose correction fails keeps the canonical form. -/
theorem State.spoilLine_wf {s : State} (line : Nat) (o : Owner) (home : Nat) (h : s.mem.wf = true) :
    (s.spoilLine line o home).mem.wf = true := by
  have hr := State.makeRoom_wf line o home h
  unfold State.spoilLine
  split
  · exact h
  · next heq => rw [heq] at hr; exact hr
  · next heq => rw [heq] at hr; exact Memory.wf_writeList _ _ hr

end Sys2Proof.Machine
end

