-- ==== Sys2Proof/Laws/Order.lean ====
section
/-! SUPPORT. What the book-keeping of the order of stores and of L1 leaves alone: memory and the teams, and everything where no store has
been overtaken. -/

namespace Sys2Proof.Machine

@[simp] theorem State.punch_mem (s : State) (c : CoreKey) (key n : Nat) : (s.punch c key n).mem = s.mem := rfl
@[simp] theorem State.punch_teams (s : State) (c : CoreKey) (key n : Nat) : (s.punch c key n).teams = s.teams := rfl
@[simp] theorem State.stain_mem (s : State) (c : CoreKey) (g : GroupKey) (key n : Nat) : (s.stain c g key n).mem = s.mem := rfl
@[simp] theorem State.stain_teams (s : State) (c : CoreKey) (g : GroupKey) (key n : Nat) : (s.stain c g key n).teams = s.teams := rfl
@[simp] theorem State.reveal_mem (s : State) (c : CoreKey) (g : GroupKey) : (s.reveal c g).mem = s.mem := rfl
@[simp] theorem State.reveal_teams (s : State) (c : CoreKey) (g : GroupKey) : (s.reveal c g).teams = s.teams := rfl

/-- Where no store of a core has been overtaken, none is to be caught up with at a line. -/
theorem State.catchLine_none {s : State} (h : ∀ c ∈ s.cores, c.2.passed = 0) (but : Option CoreKey) (line : Nat) : s.catchLine but line = s := by
  unfold State.catchLine
  rw [List.filter_eq_nil_iff.2 (by simpa using fun a b hab h0 => absurd (h _ hab) h0)]
  rfl

/-- The same of the lines that some bytes touch. -/
theorem State.catchUp_none {s : State} (h : ∀ c ∈ s.cores, c.2.passed = 0) (key n : Nat) : s.catchUp key n = s := by
  unfold State.catchUp
  generalize upFrom (key / 128) ((key + n - 1) / 128 + 1 - key / 128) = ls
  induction ls with
  | nil => rfl
  | cons l ls ih => rw [List.foldl_cons, State.catchLine_none h, ih]

end Sys2Proof.Machine
end

