-- ==== Sys2Proof/Laws/PerInstr.lean ====
section
/-! SUPPORT. The family Form, one lemma per constructor: how many halfwords an encoding has (03 R56, R62, R65). -/

namespace Sys2Proof.Laws.Form

/-- An encoding has one halfword, or words: one, two or three with its extension and its literal (R56). -/
def Statement (i : Instr) : Prop := ∀ hs, encode i = some hs → hs.length = 1 ∨ hs.length = 2 ∨ hs.length = 4 ∨ hs.length = 6

/-- The literal adds one word or none (R62). -/
theorem litHalves_length (i : Instr) : (litHalves i).length = 0 ∨ (litHalves i).length = 2 := by
  unfold litHalves
  split
  · exact .inl rfl
  · exact .inr rfl

/-- Every instruction's encoding has one of those lengths. -/
theorem of_encode (i : Instr) : Statement i := by
  intro hs h
  unfold encode at h
  have hl := litHalves_length i
  split at h
  · obtain rfl := Option.some.inj h
    exact .inl rfl
  · obtain rfl := Option.some.inj h
    simp only [List.length_append, halves, List.length_cons, List.length_nil]
    omega
  · obtain rfl := Option.some.inj h
    simp only [List.length_append, halves, List.length_cons, List.length_nil]
    omega
  · exact absurd h (by simp)

end Sys2Proof.Laws.Form

namespace Sys2Proof.Laws



theorem Form.run (len : BitVec 5) (await : BitVec 16) : Form.Statement (.run len await) := Form.of_encode _
theorem Form.trail (post : BitVec 16) : Form.Statement (.trail post) := Form.of_encode _
theorem Form.bra (off : BitVec 24) : Form.Statement (.bra off) := Form.of_encode _
theorem Form.brx (a : Opnd) : Form.Statement (.brx a) := Form.of_encode _
theorem Form.call (d : Opnd) (off : BitVec 16) : Form.Statement (.call d off) := Form.of_encode _
theorem Form.ret (a : Opnd) : Form.Statement (.ret a) := Form.of_encode _
theorem Form.joine (k : BitVec 8) : Form.Statement (.joine k) := Form.of_encode _
theorem Form.joinw (k : BitVec 8) : Form.Statement (.joinw k) := Form.of_encode _
theorem Form.exit : Form.Statement (.exit) := Form.of_encode _
theorem Form.nop : Form.Statement (.nop) := Form.of_encode _
theorem Form.yield : Form.Statement (.yield) := Form.of_encode _
theorem Form.trap (n : BitVec 16) : Form.Statement (.trap n) := Form.of_encode _
theorem Form.brk (n : BitVec 16) : Form.Statement (.brk n) := Form.of_encode _
theorem Form.mov (d a : Opnd) : Form.Statement (.mov d a) := Form.of_encode _
theorem Form.iadd (d a b : Opnd) : Form.Statement (.iadd d a b) := Form.of_encode _
theorem Form.isub (d a b : Opnd) : Form.Statement (.isub d a b) := Form.of_encode _
theorem Form.imul (d a b : Opnd) : Form.Statement (.imul d a b) := Form.of_encode _
theorem Form.imulh (d a b : Opnd) : Form.Statement (.imulh d a b) := Form.of_encode _
theorem Form.imad (d a b : Opnd) : Form.Statement (.imad d a b) := Form.of_encode _
theorem Form.imin (d a b : Opnd) : Form.Statement (.imin d a b) := Form.of_encode _
theorem Form.imax (d a b : Opnd) : Form.Statement (.imax d a b) := Form.of_encode _
theorem Form.and (d a b : Opnd) : Form.Statement (.and d a b) := Form.of_encode _
theorem Form.or (d a b : Opnd) : Form.Statement (.or d a b) := Form.of_encode _
theorem Form.xor (d a b : Opnd) : Form.Statement (.xor d a b) := Form.of_encode _
theorem Form.shl (d a b : Opnd) : Form.Statement (.shl d a b) := Form.of_encode _
theorem Form.shr (d a b : Opnd) : Form.Statement (.shr d a b) := Form.of_encode _
theorem Form.sar (d a b : Opnd) : Form.Statement (.sar d a b) := Form.of_encode _
theorem Form.rot (d a b : Opnd) : Form.Statement (.rot d a b) := Form.of_encode _
theorem Form.iabs (d a : Opnd) : Form.Statement (.iabs d a) := Form.of_encode _
theorem Form.not (d a : Opnd) : Form.Statement (.not d a) := Form.of_encode _
theorem Form.popc (d a : Opnd) : Form.Statement (.popc d a) := Form.of_encode _
theorem Form.clz (d a : Opnd) : Form.Statement (.clz d a) := Form.of_encode _
theorem Form.brev (d a : Opnd) : Form.Statement (.brev d a) := Form.of_encode _
theorem Form.bfx (d a b : Opnd) : Form.Statement (.bfx d a b) := Form.of_encode _
theorem Form.bfi (d a b : Opnd) : Form.Statement (.bfi d a b) := Form.of_encode _
theorem Form.lea (d a b : Opnd) : Form.Statement (.lea d a b) := Form.of_encode _
theorem Form.icmp (pd : BitVec 3) (cc : BitVec 5) (a b : Opnd) : Form.Statement (.icmp pd cc a b) := Form.of_encode _
theorem Form.isel (d5 : BitVec 5) (a b : Opnd) (ps : BitVec 3) : Form.Statement (.isel d5 a b ps) := Form.of_encode _
theorem Form.movImm (d : Opnd) (imm : BitVec 16) : Form.Statement (.movImm d imm) := Form.of_encode _
theorem Form.movH (d : Opnd) (imm : BitVec 16) : Form.Statement (.movH d imm) := Form.of_encode _
theorem Form.iaddImm (d : Opnd) (imm : BitVec 16) : Form.Statement (.iaddImm d imm) := Form.of_encode _
theorem Form.imulImm (d : Opnd) (imm : BitVec 16) : Form.Statement (.imulImm d imm) := Form.of_encode _
theorem Form.andImm (d : Opnd) (imm : BitVec 16) : Form.Statement (.andImm d imm) := Form.of_encode _
theorem Form.orImm (d : Opnd) (imm : BitVec 16) : Form.Statement (.orImm d imm) := Form.of_encode _
theorem Form.xorImm (d : Opnd) (imm : BitVec 16) : Form.Statement (.xorImm d imm) := Form.of_encode _
theorem Form.faddImm (d : Opnd) (imm : BitVec 16) : Form.Statement (.faddImm d imm) := Form.of_encode _
theorem Form.fmulImm (d : Opnd) (imm : BitVec 16) : Form.Statement (.fmulImm d imm) := Form.of_encode _
theorem Form.fadd (d a b : Opnd) : Form.Statement (.fadd d a b) := Form.of_encode _
theorem Form.fsub (d a b : Opnd) : Form.Statement (.fsub d a b) := Form.of_encode _
theorem Form.fmul (d a b : Opnd) : Form.Statement (.fmul d a b) := Form.of_encode _
theorem Form.ffma (d a b : Opnd) : Form.Statement (.ffma d a b) := Form.of_encode _
theorem Form.fmin (d a b : Opnd) : Form.Statement (.fmin d a b) := Form.of_encode _
theorem Form.fmax (d a b : Opnd) : Form.Statement (.fmax d a b) := Form.of_encode _
theorem Form.fcmp (pd : BitVec 3) (cc : BitVec 5) (a b : Opnd) : Form.Statement (.fcmp pd cc a b) := Form.of_encode _
theorem Form.fsel (d5 : BitVec 5) (a b : Opnd) (ps : BitVec 3) : Form.Statement (.fsel d5 a b ps) := Form.of_encode _
theorem Form.frnd (d a : Opnd) (fn : BitVec 8) : Form.Statement (.frnd d a fn) := Form.of_encode _
theorem Form.fclass (pd : BitVec 3) (a b : Opnd) : Form.Statement (.fclass pd a b) := Form.of_encode _
theorem Form.hadd2 (d a b : Opnd) : Form.Statement (.hadd2 d a b) := Form.of_encode _
theorem Form.hmul2 (d a b : Opnd) : Form.Statement (.hmul2 d a b) := Form.of_encode _
theorem Form.hfma2 (d a b : Opnd) : Form.Statement (.hfma2 d a b) := Form.of_encode _
theorem Form.bfma2 (d a b : Opnd) : Form.Statement (.bfma2 d a b) := Form.of_encode _
theorem Form.rcp (d a : Opnd) (tag : BitVec 4) : Form.Statement (.rcp d a tag) := Form.of_encode _
theorem Form.rsq (d a : Opnd) (tag : BitVec 4) : Form.Statement (.rsq d a tag) := Form.of_encode _
theorem Form.sqrt (d a : Opnd) (tag : BitVec 4) : Form.Statement (.sqrt d a tag) := Form.of_encode _
theorem Form.exp2 (d a : Opnd) (tag : BitVec 4) : Form.Statement (.exp2 d a tag) := Form.of_encode _
theorem Form.log2 (d a : Opnd) (tag : BitVec 4) : Form.Statement (.log2 d a tag) := Form.of_encode _
theorem Form.sin (d a : Opnd) (tag : BitVec 4) : Form.Statement (.sin d a tag) := Form.of_encode _
theorem Form.cos (d a : Opnd) (tag : BitVec 4) : Form.Statement (.cos d a tag) := Form.of_encode _
theorem Form.tanh (d a : Opnd) (tag : BitVec 4) : Form.Statement (.tanh d a tag) := Form.of_encode _
theorem Form.cvt (d a : Opnd) (fn : BitVec 8) : Form.Statement (.cvt d a fn) := Form.of_encode _
theorem Form.cvtef (d a : Opnd) (fn : BitVec 8) : Form.Statement (.cvtef d a fn) := Form.of_encode _
theorem Form.pack (d a b : Opnd) : Form.Statement (.pack d a b) := Form.of_encode _
theorem Form.unpack (d a : Opnd) (width : BitVec 2) (sgn : Bool) (idx : BitVec 4) : Form.Statement (.unpack d a width sgn idx) := Form.of_encode _
theorem Form.shfl (d a : Opnd) (fn : BitVec 8) (c : Opnd) (rel wrap : Bool) (seg : BitVec 3) (imm : BitVec 16) : Form.Statement (.shfl d a fn c rel wrap seg imm) := Form.of_encode _
theorem Form.bcast (d a b : Opnd) : Form.Statement (.bcast d a b) := Form.of_encode _
theorem Form.vote (d : Opnd) (mode : BitVec 4) (neg : Bool) (k : BitVec 3) : Form.Statement (.vote d mode neg k) := Form.of_encode _
theorem Form.redl (d a : Opnd) (seg op : BitVec 4) : Form.Statement (.redl d a seg op) := Form.of_encode _
theorem Form.scan (d a : Opnd) (excl : Bool) (op : BitVec 4) : Form.Statement (.scan d a excl op) := Form.of_encode _
theorem Form.match (d a : Opnd) : Form.Statement (.match d a) := Form.of_encode _
theorem Form.qdx (d a : Opnd) (fn : BitVec 8) : Form.Statement (.qdx d a fn) := Form.of_encode _
theorem Form.qdy (d a : Opnd) (fn : BitVec 8) : Form.Statement (.qdy d a fn) := Form.of_encode _
theorem Form.pset (pd : BitVec 3) (cc : BitVec 5) (a b : Opnd) : Form.Statement (.pset pd cc a b) := Form.of_encode _
theorem Form.plop (pd pa pb pc : BitVec 3) (lut : BitVec 8) : Form.Statement (.plop pd pa pb pc lut) := Form.of_encode _
theorem Form.srd (d : Opnd) (sel : BitVec 8) : Form.Statement (.srd d sel) := Form.of_encode _
theorem Form.swr (a : Opnd) : Form.Statement (.swr a) := Form.of_encode _
theorem Form.mov16 (d : BitVec 5) (s : Src16) : Form.Statement (.mov16 d s) := Form.of_encode _
theorem Form.iadd16 (d : BitVec 5) (s : Src16) : Form.Statement (.iadd16 d s) := Form.of_encode _
theorem Form.isub16 (d : BitVec 5) (s : Src16) : Form.Statement (.isub16 d s) := Form.of_encode _
theorem Form.imul16 (d : BitVec 5) (s : Src16) : Form.Statement (.imul16 d s) := Form.of_encode _
theorem Form.and16 (d : BitVec 5) (s : Src16) : Form.Statement (.and16 d s) := Form.of_encode _
theorem Form.or16 (d : BitVec 5) (s : Src16) : Form.Statement (.or16 d s) := Form.of_encode _
theorem Form.xor16 (d : BitVec 5) (s : Src16) : Form.Statement (.xor16 d s) := Form.of_encode _
theorem Form.shl16 (d : BitVec 5) (s : Src16) : Form.Statement (.shl16 d s) := Form.of_encode _
theorem Form.shr16 (d : BitVec 5) (s : Src16) : Form.Statement (.shr16 d s) := Form.of_encode _
theorem Form.sar16 (d : BitVec 5) (s : Src16) : Form.Statement (.sar16 d s) := Form.of_encode _
theorem Form.fadd16 (d : BitVec 5) (s : Src16) : Form.Statement (.fadd16 d s) := Form.of_encode _
theorem Form.fsub16 (d : BitVec 5) (s : Src16) : Form.Statement (.fsub16 d s) := Form.of_encode _
theorem Form.fmul16 (d : BitVec 5) (s : Src16) : Form.Statement (.fmul16 d s) := Form.of_encode _
theorem Form.fmin16 (d : BitVec 5) (s : Src16) : Form.Statement (.fmin16 d s) := Form.of_encode _
theorem Form.fmax16 (d : BitVec 5) (s : Src16) : Form.Statement (.fmax16 d s) := Form.of_encode _
theorem Form.ffma16 (d : BitVec 5) (s : Src16) : Form.Statement (.ffma16 d s) := Form.of_encode _
theorem Form.ld (d a : Opnd) (sz : BitVec 2) (tag : BitVec 4) : Form.Statement (.ld d a sz tag) := Form.of_encode _
theorem Form.ldExtended (d a : Opnd) (sz : BitVec 2) (tag : BitVec 4) (x : MemExt) : Form.Statement (.ldExtended d a sz tag x) := Form.of_encode _
theorem Form.st (d a : Opnd) (sz : BitVec 2) : Form.Statement (.st d a sz) := Form.of_encode _
theorem Form.stExtended (d a : Opnd) (sz : BitVec 2) (x : MemExt) : Form.Statement (.stExtended d a sz x) := Form.of_encode _
theorem Form.lds (d a : Opnd) (sz : BitVec 2) (o : Bool) (tag : BitVec 4) : Form.Statement (.lds d a sz o tag) := Form.of_encode _
theorem Form.ldsExtended (d a : Opnd) (sz : BitVec 2) (o : Bool) (tag : BitVec 4) (x : MemExt) : Form.Statement (.ldsExtended d a sz o tag x) := Form.of_encode _
theorem Form.sts (d a : Opnd) (sz : BitVec 2) (o : Bool) : Form.Statement (.sts d a sz o) := Form.of_encode _
theorem Form.stsExtended (d a : Opnd) (sz : BitVec 2) (o : Bool) (x : MemExt) : Form.Statement (.stsExtended d a sz o x) := Form.of_encode _
theorem Form.pref (a : Opnd) : Form.Statement (.pref a) := Form.of_encode _
theorem Form.prefExtended (a : Opnd) (x : MemExt) : Form.Statement (.prefExtended a x) := Form.of_encode _
theorem Form.atom (d a : Opnd) (fn tag : BitVec 4) (x : AtomExt) : Form.Statement (.atom d a fn tag x) := Form.of_encode _
theorem Form.red (a : Opnd) (fn : BitVec 4) (x : AtomExt) : Form.Statement (.red a fn x) := Form.of_encode _
theorem Form.cas (d a : Opnd) (tag : BitVec 4) (x : AtomExt) : Form.Statement (.cas d a tag x) := Form.of_encode _
theorem Form.fence (scope : BitVec 8) : Form.Statement (.fence scope) := Form.of_encode _
theorem Form.storeQueueLeave (g : GroupKey) : Form.Statement (.storeQueueLeave g) := Form.of_encode _
theorem Form.l1LineExpiry (c : CoreKey) (i : Nat) : Form.Statement (.l1LineExpiry c i) := Form.of_encode _
theorem Form.binit (a b : Opnd) : Form.Statement (.binit a b) := Form.of_encode _
theorem Form.barr (a b : Opnd) : Form.Statement (.barr a b) := Form.of_encode _
theorem Form.bexp (a b : Opnd) : Form.Statement (.bexp a b) := Form.of_encode _
theorem Form.wait (a : Opnd) : Form.Statement (.wait a) := Form.of_encode _
theorem Form.waitY (d : Opnd) (off : BitVec 16) : Form.Statement (.waitY d off) := Form.of_encode _
theorem Form.bseal : Form.Statement (.bseal) := Form.of_encode _
theorem Form.bwait (a : Opnd) : Form.Statement (.bwait a) := Form.of_encode _
theorem Form.batchComplete (g : GroupKey) : Form.Statement (.batchComplete g) := Form.of_encode _
theorem Form.cpt (d a b : Opnd) : Form.Statement (.cpt d a b) := Form.of_encode _
theorem Form.cpb (d a b : Opnd) : Form.Statement (.cpb d a b) := Form.of_encode _
theorem Form.cps (d a b : Opnd) : Form.Statement (.cps d a b) := Form.of_encode _
theorem Form.shuttleCopy (c : CoreKey) : Form.Statement (.shuttleCopy c) := Form.of_encode _
theorem Form.gwin (a b : Opnd) : Form.Statement (.gwin a b) := Form.of_encode _
theorem Form.gwinDescriptorWrite (c : CoreKey) : Form.Statement (.gwinDescriptorWrite c) := Form.of_encode _
theorem Form.coll (a b : Opnd) : Form.Statement (.coll a b) := Form.of_encode _
theorem Form.collectiveComplete (part set : Nat) (cid : W32) : Form.Statement (.collectiveComplete part set cid) := Form.of_encode _
theorem Form.launch (pd : BitVec 3) (a b : Opnd) : Form.Statement (.launch pd a b) := Form.of_encode _
theorem Form.mma (mt : BitVec 3) (o : Bool) (fmt : BitVec 4) (d a : Opnd) : Form.Statement (.mma mt o fmt d a) := Form.of_encode _
theorem Form.mmas (mt : BitVec 3) (o : Bool) (fmt : BitVec 4) (d a : Opnd) (pat : BitVec 2) (c : Opnd) : Form.Statement (.mmas mt o fmt d a pat c) := Form.of_encode _
theorem Form.accld (mt : BitVec 3) (o : Bool) (fmt : BitVec 4) (a : Opnd) : Form.Statement (.accld mt o fmt a) := Form.of_encode _
theorem Form.accst (mt : BitVec 3) (o : Bool) (fmt : BitVec 4) (a : Opnd) : Form.Statement (.accst mt o fmt a) := Form.of_encode _
theorem Form.mzero (mt : BitVec 3) : Form.Statement (.mzero mt) := Form.of_encode _
theorem Form.arrayOperation (c : CoreKey) : Form.Statement (.arrayOperation c) := Form.of_encode _
theorem Form.trq (d a b : Opnd) : Form.Statement (.trq d a b) := Form.of_encode _
theorem Form.trqTranspose (c : CoreKey) : Form.Statement (.trqTranspose c) := Form.of_encode _
theorem Form.rast (d a b : Opnd) : Form.Statement (.rast d a b) := Form.of_encode _
theorem Form.tex (d a : Opnd) (tag : BitVec 4) (c : Opnd) (nofb : Bool) (bias : BitVec 16) : Form.Statement (.tex d a tag c nofb bias) := Form.of_encode _
theorem Form.texl (d a : Opnd) (tag : BitVec 4) (c : Opnd) (nofb : Bool) (bias : BitVec 16) : Form.Statement (.texl d a tag c nofb bias) := Form.of_encode _
theorem Form.texg (d a : Opnd) (tag : BitVec 4) (c : Opnd) (nofb : Bool) (bias : BitVec 16) : Form.Statement (.texg d a tag c nofb bias) := Form.of_encode _
theorem Form.rayt (d a : Opnd) (tag : BitVec 4) (cullb cullf : Bool) (c : Opnd) (mask : BitVec 8) : Form.Statement (.rayt d a tag cullb cullf c mask) := Form.of_encode _
theorem Form.rayq (d a : Opnd) (tag : BitVec 4) (cullb cullf : Bool) (c : Opnd) (mask : BitVec 8) : Form.Statement (.rayq d a tag cullb cullf c mask) := Form.of_encode _
theorem Form.tagLanding (g : GroupKey) (i : Nat) : Form.Statement (.tagLanding g i) := Form.of_encode _
theorem Form.ncall (d a : Opnd) (tag : BitVec 4) (c : Opnd) (nin : BitVec 6) (nout : BitVec 5) : Form.Statement (.ncall d a tag c nin nout) := Form.of_encode _
theorem Form.ncallBinTimeout (c : ClusterKey) (i : Nat) : Form.Statement (.ncallBinTimeout c i) := Form.of_encode _
theorem Form.bobbinFetch (c : ClusterKey) (i : Nat) : Form.Statement (.bobbinFetch c i) := Form.of_encode _
theorem Form.heddleTile (c : ClusterKey) (i : Nat) : Form.Statement (.heddleTile c i) := Form.of_encode _
theorem Form.npin (a : Opnd) : Form.Statement (.npin a) := Form.of_encode _
theorem Form.npref (a : Opnd) : Form.Statement (.npref a) := Form.of_encode _
theorem Form.nevict (a : Opnd) : Form.Statement (.nevict a) := Form.of_encode _
theorem Form.reorder (a b : Opnd) : Form.Statement (.reorder a b) := Form.of_encode _
theorem Form.reorderSiteComplete (team site : Nat) : Form.Statement (.reorderSiteComplete team site) := Form.of_encode _
theorem Form.ltrap (n : BitVec 16) : Form.Statement (.ltrap n) := Form.of_encode _
theorem Form.trapBinTimeout (c : ClusterKey) (i : Nat) : Form.Statement (.trapBinTimeout c i) := Form.of_encode _
theorem Form.handlerGroupStart (c : ClusterKey) (i : Nat) : Form.Statement (.handlerGroupStart c i) := Form.of_encode _
theorem Form.tret (a : Opnd) : Form.Statement (.tret a) := Form.of_encode _
theorem Form.present (a b : Opnd) : Form.Statement (.present a b) := Form.of_encode _
theorem Form.svc (n : BitVec 16) (k : BitVec 8) : Form.Statement (.svc n k) := Form.of_encode _
theorem Form.sysrd (d a : Opnd) (fn : BitVec 8) : Form.Statement (.sysrd d a fn) := Form.of_encode _
theorem Form.syswr (d a : Opnd) (fn : BitVec 8) : Form.Statement (.syswr d a fn) := Form.of_encode _
theorem Form.tlbinv (a b : Opnd) : Form.Statement (.tlbinv a b) := Form.of_encode _
theorem Form.tlbinvComplete (g : GroupKey) : Form.Statement (.tlbinvComplete g) := Form.of_encode _
theorem Form.keysel (a b : Opnd) : Form.Statement (.keysel a b) := Form.of_encode _
theorem Form.partctl (d a b : Opnd) : Form.Statement (.partctl d a b) := Form.of_encode _
theorem Form.clusterGrow (part : Nat) : Form.Statement (.clusterGrow part) := Form.of_encode _
theorem Form.clusterShrink (part : Nat) : Form.Statement (.clusterShrink part) := Form.of_encode _
theorem Form.granuleReassign (second : Bool) (granule : Nat) (owner : Owner) : Form.Statement (.granuleReassign second granule owner) := Form.of_encode _
theorem Form.handleSeal (h : Nat) : Form.Statement (.handleSeal h) := Form.of_encode _
theorem Form.boot : Form.Statement (.boot) := Form.of_encode _
theorem Form.powerWindow (milliwatts die part : Nat) : Form.Statement (.powerWindow milliwatts die part) := Form.of_encode _
theorem Form.thermalThrottle (die : Nat) : Form.Statement (.thermalThrottle die) := Form.of_encode _
theorem Form.thermalPowerOff (die : Nat) : Form.Statement (.thermalPowerOff die) := Form.of_encode _
theorem Form.submit (p : Packet) (q : Nat) (record : List Byte) : Form.Statement (.submit p q record) := Form.of_encode _
theorem Form.launchEligible (part q : Nat) : Form.Statement (.launchEligible part q) := Form.of_encode _
theorem Form.teamPlace (part : Nat) : Form.Statement (.teamPlace part) := Form.of_encode _
theorem Form.transformBinding (team : Nat) : Form.Statement (.transformBinding team) := Form.of_encode _
theorem Form.groupEvict (g : GroupKey) : Form.Statement (.groupEvict g) := Form.of_encode _
theorem Form.groupResume (part : Nat) : Form.Statement (.groupResume part) := Form.of_encode _
theorem Form.splitPromotion (g : GroupKey) (slot : Nat) : Form.Statement (.splitPromotion g slot) := Form.of_encode _
theorem Form.launchComplete (part q : Nat) : Form.Statement (.launchComplete part q) := Form.of_encode _
theorem Form.watchdogExpiry (part q : Nat) : Form.Statement (.watchdogExpiry part q) := Form.of_encode _
theorem Form.killComplete (part q : Nat) : Form.Statement (.killComplete part q) := Form.of_encode _
theorem Form.graceExpiry (part q : Nat) : Form.Statement (.graceExpiry part q) := Form.of_encode _
theorem Form.partitionReset (part : Nat) : Form.Statement (.partitionReset part) := Form.of_encode _
theorem Form.fatalDump (part : Nat) : Form.Statement (.fatalDump part) := Form.of_encode _
theorem Form.groupStopRecord (g : GroupKey) : Form.Statement (.groupStopRecord g) := Form.of_encode _
theorem Form.tqrdWrite (part : Nat) (value : W32) : Form.Statement (.tqrdWrite part value) := Form.of_encode _
theorem Form.teamActionEnd (part : Nat) : Form.Statement (.teamActionEnd part) := Form.of_encode _
theorem Form.teamActionResume (part : Nat) : Form.Statement (.teamActionResume part) := Form.of_encode _
theorem Form.teamActionReplay (part : Nat) : Form.Statement (.teamActionReplay part) := Form.of_encode _
theorem Form.coreRetire (c : CoreKey) : Form.Statement (.coreRetire c) := Form.of_encode _
theorem Form.sliceRetire (die slice : Nat) (unreadable : List Nat) : Form.Statement (.sliceRetire die slice unreadable) := Form.of_encode _
theorem Form.controlWrite (part space offset : Nat) (value : W32) : Form.Statement (.controlWrite part space offset value) := Form.of_encode _
theorem Form.queueEnable (part q : Nat) : Form.Statement (.queueEnable part q) := Form.of_encode _
theorem Form.queueDisable (part q : Nat) : Form.Statement (.queueDisable part q) := Form.of_encode _
theorem Form.bobChange (c : CoreKey) : Form.Statement (.bobChange c) := Form.of_encode _
theorem Form.headEnable (part h : Nat) : Form.Statement (.headEnable part h) := Form.of_encode _
theorem Form.headDisable (part h : Nat) : Form.Statement (.headDisable part h) := Form.of_encode _
theorem Form.rasterLine (part h : Nat) : Form.Statement (.rasterLine part h) := Form.of_encode _
theorem Form.surfaceLatch (part h : Nat) : Form.Statement (.surfaceLatch part h) := Form.of_encode _
theorem Form.bandJob (part h band : Nat) : Form.Statement (.bandJob part h band) := Form.of_encode _
theorem Form.bandDeadline (part h : Nat) : Form.Statement (.bandDeadline part h) := Form.of_encode _
theorem Form.motionEstimation (part h : Nat) : Form.Statement (.motionEstimation part h) := Form.of_encode _
theorem Form.surfaceRelease (part h : Nat) : Form.Statement (.surfaceRelease part h) := Form.of_encode _
theorem Form.reportWord (part h : Nat) : Form.Statement (.reportWord part h) := Form.of_encode _
theorem Form.streamEnable (part h : Nat) : Form.Statement (.streamEnable part h) := Form.of_encode _
theorem Form.encodeRow (part h : Nat) : Form.Statement (.encodeRow part h) := Form.of_encode _
theorem Form.sessionOpen (id : Nat) (kind : SessionKind) (part : Nat) (signedOk : Bool) : Form.Statement (.sessionOpen id kind part signedOk) := Form.of_encode _
theorem Form.retransmitTimeout (session seq : Nat) : Form.Statement (.retransmitTimeout session seq) := Form.of_encode _
theorem Form.write (p : Packet) (addr : Addr) (key : BitVec 4) (bytes : List Byte) : Form.Statement (.write p addr key bytes) := Form.of_encode _
theorem Form.read (p : Packet) (addr : Addr) (len : Nat) : Form.Statement (.read p addr len) := Form.of_encode _
theorem Form.ctlwr (p : Packet) (space offset : Nat) (value : W32) : Form.Statement (.ctlwr p space offset value) := Form.of_encode _
theorem Form.ctlrd (p : Packet) (space offset : Nat) : Form.Statement (.ctlrd p space offset) := Form.of_encode _
theorem Form.attest (p : Packet) (nonce : List Byte) : Form.Statement (.attest p nonce) := Form.of_encode _
theorem Form.pwrite (p : Packet) (addr : Addr) (bytes : List Byte) : Form.Statement (.pwrite p addr bytes) := Form.of_encode _
theorem Form.pread (p : Packet) (addr : Addr) (len : Nat) : Form.Statement (.pread p addr len) := Form.of_encode _
theorem Form.pload (p : Packet) (id : Nat) (addr : Addr) (len : Nat) : Form.Statement (.pload p id addr len) := Form.of_encode _
theorem Form.pstore (p : Packet) (id : Nat) (addr : Addr) (bytes : List Byte) : Form.Statement (.pstore p id addr bytes) := Form.of_encode _
theorem Form.patom (p : Packet) (id : Nat) (addr : Addr) (fn : BitVec 4) (w64 : Bool) (op : PeerOp) (opnd cmp : W64) : Form.Statement (.patom p id addr fn w64 op opnd cmp) := Form.of_encode _
theorem Form.presp (p : Packet) (id : Nat) (answer : PeerAnswer) : Form.Statement (.presp p id answer) := Form.of_encode _
theorem Form.cell (p : Packet) (set : Nat) (cid : W32) (rank : Nat) (way : CellWay) (head : List W32) (cells : CellPart) : Form.Statement (.cell p set cid rank way head cells) := Form.of_encode _
theorem Form.kill (p : Packet) (set : Nat) (cid : W32) : Form.Statement (.kill p set cid) := Form.of_encode _
theorem Form.unassignedMajorOpcode (cause : Cause) : Form.Statement (.unassignedMajorOpcode cause) := Form.of_encode _
theorem Form.misplacedPrefix : Form.Statement (.misplacedPrefix) := Form.of_encode _
theorem Form.powerOff : Form.Statement (.powerOff) := Form.of_encode _
theorem Form.partitionCreate (part modno kdie l2sh : Nat) (clusters : List ClusterKey) : Form.Statement (.partitionCreate part modno kdie l2sh clusters) := Form.of_encode _
theorem Form.partitionDestroy (part : Nat) : Form.Statement (.partitionDestroy part) := Form.of_encode _
theorem Form.resourceAssign (part : Nat) (r : Resource) : Form.Statement (.resourceAssign part r) := Form.of_encode _
theorem Form.signedFirmwareImage (slot : Nat) (img : FwImage) : Form.Statement (.signedFirmwareImage slot img) := Form.of_encode _

end Sys2Proof.Laws
end

