-- ==== Sys2Proof/Laws/Writes.lean ====
section
/-! SUPPORT. What the shared writes of lanes and of uniform registers leave, and what the form checks that pass say. -/

namespace Sys2Proof.Machine

/-- What an instruction leaves that puts its group and goes on: that group with its run one instruction further, no other group and
nothing else of any team changed, and nothing outside the teams. -/
theorem State.advance_put {s : State} {is : Iss} (sh : Shape) (h : s.issuer = some is) (g : Group) (hg : g.idx = is.key.idx) :
    let t := (s.updGroup is.key (fun _ => g)).advance is sh
    (∀ k, k ≠ is.key → t.group? k = s.group? k)
    ∧ (∀ k, (t.team? k).map (fun x => { x with groups := [] }) = (s.team? k).map (fun x => { x with groups := [] }))
    ∧ t = { s with teams := t.teams } ∧ ∀ a, t.mem.read a = s.mem.read a := by
  obtain ⟨h1, h2, h3, -, -, h6, -⟩ := State.issuer_spec h
  unfold State.advance
  dsimp only
  rw [State.updGroup_updGroup _ _ _ _ (fun _ _ => hg)]
  refine ⟨?_, ?_, rfl, fun a => rfl⟩
  · intro k hk
    exact State.updGroup_group?_ne _ hk _ (fun _ _ => by exact hg)
  · intro k
    rw [State.updGroup_team?]
    cases s.team? k with
    | none => rfl
    | some t => simp only [Option.map_some]; split <;> rfl

/-- A lane of a mapped list finds its own value. -/
theorem kget_map {γ : Type} (l : List Nat) (f : Nat → γ) (i : Nat) (hi : i ∈ l) : kget i (l.map (fun j => (j, f j))) = some (f i) := by
  induction l with
  | nil => simp at hi
  | cons a l ih =>
    by_cases h : a = i
    · simp [kget, h]
    · simp only [List.map_cons, kget, h, if_false]
      exact ih (by simpa [Ne.symm h] using hi)

/-- The group after a write of words and flags in the contributing lanes. -/
def writeG (is : Iss) (d : Opnd) (val : Nat → List W32 × BitVec 5) : Group :=
  is.g.updLanes is.lanes (fun i l => (l.put d (val i).1).raise (val i).2)

/-- Flags that take no lane trap only add to FPFLAGS. -/
theorem raise_quiet (s : State) (is : Iss) (fs) (hq : ∀ e ∈ fs, e.2 &&& is.team.rec'.fptrap = 0 ∨ is.g.handler.isSome = true) :
  s.raise is fs = s.updGroup is.key (fun g => g.updLanes (fs.map Prod.fst) (fun i l => l.raise ((kget i fs).getD 0))) := by
  unfold State.raise
  split
  · rfl
  · rename_i hh
    have : fs.filter (fun e => e.2 &&& is.team.rec'.fptrap ≠ 0) = [] := by
      rw [List.filter_eq_nil_iff]
      intro e he
      rcases hq e he with h | h
      · simp [h]
      · exact absurd h hh
    dsimp only
    rw [this]
    simp only [List.map_nil]
    rw [State.laneTraps_nil]

/-- A write to a lane changes registers only. -/
theorem lane_put_fields (l : Lane) (d : Opnd) (ws : List W32) : { l.put d ws with v := [], t := [], fl := 0 } = { l with v := [], t := [], fl := 0 } := by
  cases d <;> rfl

/-- Two updates of the same lanes are one. -/
theorem updLanes_updLanes (g : Group) (is : List Nat) (f f' : Nat → Lane → Lane) :
   (g.updLanes is f).updLanes is f' = g.updLanes is (fun i l => f' i (f i l)) := by
  have : ∀ (l : List Lane) k, mapIdx (fun i l => if is.contains i then f' i l else l) (mapIdx (fun i l => if is.contains i then f i l else l) l k) k
      = mapIdx (fun i l => if is.contains i then f' i (f i l) else l) l k := by
    intro l
    induction l with
    | nil => intro k; rfl
    | cons a l ih => intro k; simp only [mapIdx, ih]; split <;> rfl
  unfold Group.updLanes
  dsimp only
  rw [this]

/-- Updates that agree on their lanes agree. -/
theorem updLanes_congr (g : Group) (is : List Nat) (f f' : Nat → Lane → Lane) (h : ∀ i ∈ is, ∀ l, f i l = f' i l) : g.updLanes is f = g.updLanes is f' := by
  have : ∀ (l : List Lane) k, mapIdx (fun i l => if is.contains i then f i l else l) l k = mapIdx (fun i l => if is.contains i then f' i l else l) l k := by
    intro l
    induction l with
    | nil => intro k; rfl
    | cons a l ih =>
      intro k; simp only [mapIdx, ih]; congr 1
      split
      · rename_i hk; exact h _ (by simpa using hk) _
      · rfl
  unfold Group.updLanes
  rw [this]

/-- A key that is not listed is not found. -/
theorem kget_none {γ : Type} (l : List (Nat × γ)) (i : Nat) (h : i ∉ l.map Prod.fst) : kget i l = none := by
  induction l with
  | nil => rfl
  | cons e l ih =>
    simp only [List.map_cons, List.mem_cons, not_or] at h
    obtain ⟨a, b⟩ := e
    simp only [kget, Ne.symm h.1, if_false]
    exact ih h.2

/-- An update of some of the lanes of another joins it. -/
theorem updLanes_sub (g : Group) (as bs : List Nat) (f f' : Nat → Lane → Lane) (hb : ∀ i ∈ bs, i ∈ as) (hn : ∀ i, i ∉ bs → ∀ l, f' i l = l) :
   (g.updLanes as f).updLanes bs f' = g.updLanes as (fun i l => f' i (f i l)) := by
  have : ∀ (l : List Lane) k, mapIdx (fun i l => if bs.contains i then f' i l else l) (mapIdx (fun i l => if as.contains i then f i l else l) l k) k
      = mapIdx (fun i l => if as.contains i then f' i (f i l) else l) l k := by
    intro l
    induction l with
    | nil => intro k; rfl
    | cons a l ih =>
      intro k; simp only [mapIdx, ih]; congr 1
      by_cases h1 : k ∈ bs
      · simp [h1, hb k h1]
      · by_cases h2 : k ∈ as <;> simp [h1, h2, hn k h1]
  unfold Group.updLanes
  dsimp only
  rw [this]

/-- What a write in lanes leaves, when no flag takes a trap. -/
theorem writeLanes_eq {s : State} {is : Iss} (h : s.issuer = some is) (d : Opnd) (rs : List (Nat × List W32 × BitVec 5))
   (hq : ∀ e ∈ rs, e.2.2 &&& is.team.rec'.fptrap = 0 ∨ is.g.handler.isSome = true) :
   writeLanes s is d rs = .go (s.updGroup is.key (fun _ => is.g.updLanes (rs.map Prod.fst) (fun i l =>
      (l.put d (((kget i rs).map (fun r => r.1)).getD [])).raise ((kget i (raised rs)).getD 0)))) := by
  obtain ⟨h1, h2, h3, -, -, h6, -⟩ := State.issuer_spec h
  unfold writeLanes State.putGroup
  dsimp only
  congr 1
  split
  · rename_i he
    congr 1
    funext _
    unfold Group.putLanes
    refine updLanes_congr _ _ _ _ (fun i hi l => ?_)
    have : raised rs = [] := by simpa using he
    rw [this]
    simp [kget, Lane.raise]
  · rw [raise_quiet]
    · rw [State.updGroup_updGroup _ _ _ _ (fun _ _ => by exact h6)]
      congr 1
      funext _
      unfold Function.comp Group.putLanes
      dsimp only
      rw [updLanes_sub]
      · intro i hi
        unfold raised at hi
        simp only [List.map_map, List.mem_map, List.mem_filter] at hi ⊢
        obtain ⟨x, ⟨hx, -⟩, rfl⟩ := hi
        exact ⟨x, hx, rfl⟩
      · intro i hi l
        rw [kget_none _ _ hi]
        simp [Lane.raise]
    · intro e he
      unfold raised at he
      simp only [List.mem_map, List.mem_filter] at he
      obtain ⟨x, ⟨hx, -⟩, rfl⟩ := he
      exact hq x hx

/-- The flags that a list of results raises in a lane. -/
theorem raised_kget {α : Type} (l : List Nat) (w : Nat → α) (f : Nat → BitVec 5) (i : Nat) (hi : i ∈ l) :
   (kget i (raised (l.map (fun j => (j, w j, f j))))).getD 0 = f i := by
  induction l with
  | nil => simp at hi
  | cons a l ih =>
    by_cases ha : f a = 0
    · have : raised ((a :: l).map (fun j => (j, w j, f j))) = raised (l.map (fun j => (j, w j, f j))) := by
        simp [raised, ha]
      rw [this]
      by_cases hl : i ∈ l
      · exact ih hl
      · have : i = a := by simpa [hl] using hi
        subst this
        rw [kget_none]
        · simp [ha]
        · simp only [raised, List.map_map, List.mem_map, List.mem_filter, not_exists, not_and]
          rintro x ⟨⟨j, hj, rfl⟩, -⟩ rfl
          exact hl hj
    · have : raised ((a :: l).map (fun j => (j, w j, f j))) = (a, f a) :: raised (l.map (fun j => (j, w j, f j))) := by
        simp only [raised, List.map_cons]
        rw [List.filter_cons_of_pos (by simpa using ha)]
        rfl
      rw [this]
      by_cases h : a = i
      · subst h; simp [kget]
      · simp only [kget, h, if_false]
        exact ih (by simpa [Ne.symm h] using hi)

/-- A write of one value a lane is one update of the group. -/
theorem writeLanes_val {s : State} {is : Iss} (h : s.issuer = some is) (d : Opnd) (val : Nat → List W32 × BitVec 5)
   (hq : ∀ j ∈ is.lanes, (val j).2 &&& is.team.rec'.fptrap = 0 ∨ is.g.handler.isSome = true) :
   writeLanes s is d (is.lanes.map (fun i => (i, val i))) = .go (s.updGroup is.key (fun _ => writeG is d val)) := by
  rw [writeLanes_eq h]
  · congr 3
    funext _
    unfold writeG
    rw [List.map_map]
    have : (Prod.fst ∘ fun i => (i, val i)) = (id : Nat → Nat) := rfl
    rw [this, List.map_id]
    refine updLanes_congr _ _ _ _ (fun i hi l => ?_)
    have h1 : kget i (is.lanes.map (fun j => (j, val j))) = some (val i) := kget_map _ _ _ hi
    have h2 := raised_kget is.lanes (fun j => (val j).1) (fun j => (val j).2) i hi
    rw [h1, h2]
    rfl
  · intro e he
    obtain ⟨i, hi, rfl⟩ := List.mem_map.mp he
    exact hq i hi

/-- A vector destination reads as it was written. -/
theorem src_put (g : Group) (l : Lane) (d : Opnd) (ws : List W32) (f : BitVec 5) (k : Nat) (hk : k < ws.length) (hd : opVec d = true) :
   some (g.src ((l.put d ws).raise f) .int d k) = ws[k]? := by
  cases d <;> simp_all [opVec, Group.src, Lane.put, Lane.raise, Tbl.get_setList_in]

/-- The group after a write of a uniform register with flags. -/
def writeU (is : Iss) (d : Opnd) (ws : List W32) (f : BitVec 5) : Group := (is.g.putW d ws).updLanes is.lanes (fun _ l => l.raise f)

/-- A write in a uniform register is one update of the group. -/
theorem writeUniform_eq {s : State} {is : Iss} (h : s.issuer = some is) (d : Opnd) (ws : List W32) (ls : List Nat) (f : BitVec 5)
   (hs : f ≠ 0 → ls = is.lanes)
   (hq : ∀ j ∈ is.lanes, f &&& is.team.rec'.fptrap = 0 ∨ is.g.handler.isSome = true) :
   writeUniform s is d ws ls f = .go (s.updGroup is.key (fun _ => writeU is d ws f)) := by
  obtain ⟨h1, h2, h3, -, -, h6, -⟩ := State.issuer_spec h
  have h7 : (is.g.putW d ws).idx = is.key.idx := by cases d <;> exact h6
  unfold writeUniform State.putGroup
  dsimp only
  congr 1
  split
  · rename_i hf
    subst hf
    congr 1
    funext _
    unfold writeU
    have : ∀ (l : List Lane) k, mapIdx (fun i (l : Lane) => if is.lanes.contains i then l.raise 0 else l) l k = l := by
      intro l
      induction l with
      | nil => intro k; rfl
      | cons a l ih => intro k; simp only [mapIdx, ih]; simp [Lane.raise]
    unfold Group.updLanes
    dsimp only
    rw [this]
  · rename_i hf
    rw [hs hf]
    rw [raise_quiet]
    · rw [State.updGroup_updGroup _ _ _ _ (fun _ _ => by exact h7)]
      congr 1
      funext _
      unfold Function.comp writeU
      dsimp only
      rw [List.map_map]
      have : (Prod.fst ∘ fun i => (i, f)) = (id : Nat → Nat) := rfl
      rw [this, List.map_id]
      refine updLanes_congr _ _ _ _ (fun i hi l => ?_)
      rw [kget_map _ _ _ hi]; rfl
    · intro e he
      obtain ⟨i, hi, rfl⟩ := List.mem_map.mp he
      exact hq i hi

/-- A uniform write leaves lanes alone. -/
theorem putW_lane (g : Group) (d : Opnd) (ws) (i : Nat) : (g.putW d ws).lane i = g.lane i := by cases d <;> rfl

/-- Where the form checks pass, operands are of the kinds that the form allows. -/
theorem pass_kinds {sh : Shape} {is : Iss} (h : sh.firstError is = none) : ∀ x ∈ sh.slots, x.kinds.allows x.op = true ∧ x.fits = true := by
  intro x hx
  unfold Shape.firstError at h
  dsimp only at h
  split at h
  · simp at h
  · split at h
    · simp at h
    · split at h
      · simp at h
      · rename_i h3
        have h3' : sh.slots.any (fun x => !(x.kinds.allows x.op && x.fits)) = false := by
          by_contra hh
          simp only [Bool.not_eq_false] at hh
          exact h3 (by rw [hh]; rfl)
        rw [List.any_eq_false] at h3'
        have := h3' x hx
        simpa using this

/-- Where the form checks pass, a w destination runs on the uniform datapath. -/
theorem wdest_uniform {sh : Shape} {is : Iss} (h : sh.firstError is = none) (hm : sh.mixed = false) (hd : sh.vector = false) (hw : sh.wDest = true) : sh.uniform = true := by
  unfold Shape.uniform
  rw [hw, hd]
  by_contra hv
  have hv : sh.vecSrc = true := by simpa using hv
  unfold Shape.firstError at h
  dsimp only at h
  split at h
  · simp at h
  · split at h
    · simp at h
    · split at h
      · simp at h
      · rw [hw, hv, hm] at h
        simp at h

theorem ofInt_add (a b : W32) : BitVec.ofInt 32 (a.toInt + b.toInt) = a + b := by simp [BitVec.ofInt_add]

theorem ofInt_sub (a b : W32) : BitVec.ofInt 32 (a.toInt - b.toInt) = a - b := by
  apply BitVec.eq_of_toInt_eq; simp [BitVec.toInt_sub]

theorem ofInt_mul (a b : W32) : BitVec.ofInt 32 (a.toInt * b.toInt) = a * b := by simp [BitVec.ofInt_mul]

end Sys2Proof.Machine
end

