-- ==== Sys2Proof/Tests/Slice0.lean ====
section
/-! SUPPORT. Tests: ill-formed terms, words written out from the spec's encodings, single steps, and a witness of the hypotheses of
every statement. -/

namespace Sys2Proof.Tests

set_option Elab.async false

open Sys2Proof.Machine Sys2Proof.Claims

/-! ### Well-formed terms (03 R62, R73) -/

/-- Two literal operands that differ have no encoding: an instruction has one literal word (R62). -/
theorem test_two_literals_ill_formed : WellFormed (.iadd (.v ⟨0, by decide⟩) (.lit 1) (.lit 2)) = false := by decide
/-- Two that agree share the word. -/
theorem test_one_literal_well_formed : WellFormed (.iadd (.v ⟨0, by decide⟩) (.lit 5) (.lit 5)) = true := by decide
/-- A refused word has a cause that the decoder gives (R73), which the software-trap cause is not. -/
theorem test_refusal_cause_ill_formed : WellFormed (.unassignedMajorOpcode Causes.softwareTrap) = false := by decide
theorem test_refusal_cause_well_formed : WellFormed (.unassignedMajorOpcode Causes.majorZero) = true := by decide

/-! ### Decoding: bytes from the layouts of 03 R56 to R65 and the opcode map of R74, most significant first -/

/-- The decoder on one word, and on two. -/
def dec1 (w : W32) : Decoded := decode (halves w)
def dec2 (w x : W32) : Decoded := decode (halves w ++ halves x)

/-- Framing and control words: RUN 5, TRAIL with q0 and q1, BRA with OFF24 = -12, CALL w10, JOINE j2, EXIT, NOP, TRAP 5. -/
theorem test_decode_control :
    dec1 0x00000503#32 = .ok (.run 5 0) 2 ∧ dec1 0x00030005#32 = .ok (.trail 3) 2 ∧ dec1 0xFFFFF409#32 = .ok (.bra 0xFFFFF4#24) 2
    ∧ dec1 0x0010CA0D#32 = .ok (.call (.w 10) 0x10) 2 ∧ dec1 0x00000211#32 = .ok (.joine 2) 2 ∧ dec1 0x00000015#32 = .ok .exit 2
    ∧ dec1 0x00000017#32 = .ok .nop 2 ∧ dec1 0x0005001B#32 = .ok (.trap 5) 2 := by decide

/-- Integer words: IADD with the inline constant 1, LEA, ICMP.LT p1, MOV v3 of the immediate 0x0FDB, and the 16-bit IADD v2, w8. -/
theorem test_decode_integer :
    dec1 0xF1040323#32 = .ok (.iadd (.v ⟨3, by decide⟩) (.v ⟨4, by decide⟩) (.inl ⟨1, by decide⟩)) 2
    ∧ dec1 0x09020445#32 = .ok (.lea (.v ⟨4, by decide⟩) (.v ⟨2, by decide⟩) (.v ⟨9, by decide⟩)) 2
    ∧ dec1 0xC9031147#32 = .ok (.icmp 1 2 (.v ⟨3, by decide⟩) (.w 9)) 2
    ∧ dec1 0x0FDB034B#32 = .ok (.movImm (.v ⟨3, by decide⟩) 0x0FDB) 2
    ∧ decode [0xE042] = .ok (.iadd16 2 (.w 8)) 1 := by decide

/-- Floating-point words: FMUL t0, v10, 3.0, FADD16 v11, t0, RCP on q3, CVT to FP16. -/
theorem test_decode_float :
    dec1 0xF30AE065#32 = .ok (.fmul (.t 0) (.v ⟨10, by decide⟩) (.inl ⟨3, by decide⟩)) 2 ∧ decode [0x8174] = .ok (.fadd16 11 (.t 0)) 1
    ∧ dec1 0x3002017D#32 = .ok (.rcp (.v ⟨1, by decide⟩) (.v ⟨2, by decide⟩) 3) 2
    ∧ dec1 0x1002017F#32 = .ok (.cvt (.v ⟨1, by decide⟩) (.v ⟨2, by decide⟩) 0x10) 2 := by decide

/-- Cross-lane words: SHFL with its extension, VOTE.MASK w10, p3, REDL.FADD w8, v4, SRD LANEID, and PLOP with its literal. -/
theorem test_decode_lanes :
    dec2 0x010B0A87#32 0xF0800002#32
        = .ok (.shfl (.v ⟨10, by decide⟩) (.v ⟨11, by decide⟩) 1 (.inl ⟨0, by decide⟩) true false 0 2) 4
    ∧ dec1 0x2300CA8B#32 = .ok (.vote (.w 10) 2 false 3) 2 ∧ dec1 0x0804C88D#32 = .ok (.redl (.w 8) (.v ⟨4, by decide⟩) 0 8) 2
    ∧ dec1 0x0100029B#32 = .ok (.srd (.v ⟨2, by decide⟩) 1) 2 ∧ dec2 0x80FF0099#32 0x00003721#32 = .ok (.plop 3 1 2 7 0x80) 4
    ∧ dec1 0x00080593#32 = .ok (.qdx (.v ⟨5, by decide⟩) (.v ⟨8, by decide⟩) 0) 2 := by decide

/-- Memory words: LD v8 by w4 on q2, the extended LD, STS.O.64, ATOM.OR, RED.FADD, FENCE.dev. -/
theorem test_decode_memory :
    dec1 0x20C408A1#32 = .ok (.ld (.v ⟨8, by decide⟩) (.w 4) 0 2) 2
    ∧ dec2 0x04C40AA1#32 0x02000000#32 = .ok (.ldExtended (.v ⟨10, by decide⟩) (.w 4) 0 0 ⟨.v ⟨2, by decide⟩, 0, 0, false, 0⟩) 4
    ∧ dec1 0x09C804A7#32 = .ok (.sts (.v ⟨4, by decide⟩) (.w 8) 1 true) 2
    ∧ dec2 0x16C406A9#32 0x07800008#32 = .ok (.atom (.v ⟨6, by decide⟩) (.w 4) 6 1 ⟨.v ⟨7, by decide⟩, 4, false, false, 8⟩) 4
    ∧ dec2 0x09C400AB#32 0x07800000#32 = .ok (.red (.w 4) 9 ⟨.v ⟨7, by decide⟩, 4, false, false, 0⟩) 4
    ∧ dec1 0x000003AF#32 = .ok (.fence 3) 2 := by decide

/-- Barrier, batch and bulk words: BINIT w12, 1, BARR with its literal, WAIT, WAIT.Y, BSEAL, BWAIT, CPT, GWIN, COLL, LAUNCH p1. -/
theorem test_decode_bulk :
    dec1 0xF1CC00C5#32 = .ok (.binit (.w 12) (.inl ⟨1, by decide⟩)) 2 ∧ dec2 0xFFCC00C7#32 0x00002000#32 = .ok (.barr (.w 12) (.lit 0x2000)) 4
    ∧ dec1 0x00CC00CB#32 = .ok (.wait (.w 12)) 2 ∧ dec1 0x0002CCCD#32 = .ok (.waitY (.w 12) 2) 2 ∧ dec1 0x000000C1#32 = .ok .bseal 2
    ∧ dec1 0x00D400C3#32 = .ok (.bwait (.w 20)) 2 ∧ dec1 0xCCCED0B5#32 = .ok (.cpt (.w 16) (.w 14) (.w 12)) 2
    ∧ dec1 0xF1C800B3#32 = .ok (.gwin (.w 8) (.inl ⟨1, by decide⟩)) 2 ∧ dec1 0xF0C800BD#32 = .ok (.coll (.w 8) (.inl ⟨0, by decide⟩)) 2
    ∧ dec1 0xF0C801BF#32 = .ok (.launch 1 (.w 8) (.inl ⟨0, by decide⟩)) 2 := by decide

/-- Matrix words: MMA m0 with O, ACCST m1, MZERO m2, TRQ with its literal. -/
theorem test_decode_matrix :
    dec1 0x19D2D4CF#32 = .ok (.mma 0 true 9 (.w 20) (.w 18)) 2 ∧ dec1 0x20D800D5#32 = .ok (.accst 1 false 0 (.w 24)) 2
    ∧ dec1 0x400000D7#32 = .ok (.mzero 2) 2 ∧ dec2 0xFFD4D6BB#32 0x00004064#32 = .ok (.trq (.w 22) (.w 20) (.lit 0x4064)) 4 := by decide

/-- Graphics words: RAST, TEX with bias -128, RAYT with mask 0xFF, PRESENT w12, 3. -/
theorem test_decode_graphics :
    dec1 0xD0C808E7#32 = .ok (.rast (.v ⟨8, by decide⟩) (.w 8) (.w 16)) 2
    ∧ dec2 0x50040CE9#32 0xD000FF80#32 = .ok (.tex (.v ⟨12, by decide⟩) (.v ⟨4, by decide⟩) 5 (.w 16) false 0xFF80) 4
    ∧ dec2 0x100810EF#32 0xC8FF0000#32 = .ok (.rayt (.v ⟨16, by decide⟩) (.v ⟨8, by decide⟩) 1 false false (.w 8) 0xFF) 4
    ∧ dec1 0xF3CC00F3#32 = .ok (.present (.w 12) (.inl ⟨3, by decide⟩)) 2 := by decide

/-- Heddle words: NCALL with 16 inputs and 3 outputs, NPIN w10, REORDER with its literal, LTRAP 7, TRET v2. -/
theorem test_decode_heddle :
    dec2 0x400828D9#32 0x0200020F#32 = .ok (.ncall (.v ⟨40, by decide⟩) (.v ⟨8, by decide⟩) 4 (.v ⟨2, by decide⟩) 15 2) 4
    ∧ dec1 0x00CA00DB#32 = .ok (.npin (.w 10)) 2 ∧ dec2 0xFF1500E1#32 0x00001018#32 = .ok (.reorder (.v ⟨21, by decide⟩) (.lit 0x1018)) 4
    ∧ dec1 0x000700E3#32 = .ok (.ltrap 7) 2 ∧ dec1 0x000200E5#32 = .ok (.tret (.v ⟨2, by decide⟩)) 2 := by decide

/-- Supervisor words: SVC 7 at w8, SYSRD w9, SYSWR, TLBINV, KEYSEL, PARTCTL. -/
theorem test_decode_supervisor :
    dec1 0x000708F5#32 = .ok (.svc 7 8) 2 ∧ dec1 0x00C8C9F7#32 = .ok (.sysrd (.w 9) (.w 8) 0) 2
    ∧ dec1 0x01C8C9F9#32 = .ok (.syswr (.w 9) (.w 8) 1) 2 ∧ dec1 0xF0C800FB#32 = .ok (.tlbinv (.w 8) (.inl ⟨0, by decide⟩)) 2
    ∧ dec1 0xC9F100FD#32 = .ok (.keysel (.inl ⟨1, by decide⟩) (.w 9)) 2 ∧ dec1 0xCCCAC99F#32 = .ok (.partctl (.w 9) (.w 10) (.w 12)) 2 := by
  decide

/-- Words that the decoder refuses by name: a zero word and an erased one (R73), and BRX with its B byte set (R63). -/
theorem test_decode_refuses :
    dec1 0x00000001#32 = .ok (.unassignedMajorOpcode Causes.majorZero) 2 ∧ dec1 0xFFFFFFFF#32 = .ok (.unassignedMajorOpcode Causes.major7F) 2
    ∧ dec1 0x01C8000B#32 = .ok (.unassignedMajorOpcode Causes.reservedField) 2 := by decide

/-! ### Small states for the witnesses -/

/-- The reset state with a NOP placed at its next fetch: one team with the supervisor right, one group of 64 active lanes, a run of one
instruction. -/
def placed : State := State.reset.withFetchWord 32 0x17
/-- The key of the placed group. -/
def key : GroupKey := { team := State.reset.serial, idx := 0 }
/-- The core of the placed team. -/
def core0 : CoreKey := { die := State.reset.focus.die, core := State.reset.focus.core }
/-- The placed state with its team and its group changed. -/
def edit (s : State) (h : Team → Team) (f : Group → Group) : State :=
  s.updTeam key.team (fun t => h { t with groups := t.groups.map f })
/-- Only lanes 0 to 3 are active. -/
def quad (g : Group) : Group := { g with lanes := mapIdx (fun i l => if i < 4 then l else { l with st := .exited }) g.lanes 0 }
/-- No lane contributes: the guard is p0, which is false. -/
def unguarded (g : Group) : Group := { g with run := g.run.map (fun r => { r with pfx := { r.pfx with pg := 0 } }) }
/-- Uniform registers. -/
def regs (ws : List (Nat × W32)) (g : Group) : Group := { g with w := ws.foldl (fun m e => Tbl.set m e.1 e.2) g.w }
/-- A launch record with room in the scratchpad and a trap vector. -/
def roomy (t : Team) : Team := { t with rec' := { t.rec' with scratch := 61184, tvec := 0x200000, tbudget := 2 } }
/-- The placed state with four lanes and these uniform registers. -/
def small (ws : List (Nat × W32)) : State := edit placed roomy (fun g => regs ws (quad g))
/-- The same without a contributing lane. -/
def idle (ws : List (Nat × W32)) : State := edit placed roomy (fun g => unguarded (regs ws (quad g)))

theorem issues (s : State) (h : s.issuer.isSome = true) : s.issuer = some (s.issuer.get h) := (Option.some_get h).symm

/-! ### Witnesses: the hypotheses of each statement hold of a state and operands together -/

/-- PredicateInstructionsWriteTheirBit, at the last condition. -/
theorem wit_predicate_icmp : ∃ sh is, laneForm (.icmp 1 9 (.v ⟨3, by decide⟩) (.w 9)) = some sh ∧ (small []).issuer = some is ∧ sh.firstError is = none ∧ is.lanes ≠ [] :=
  ⟨_, _, rfl, issues _ (by decide +kernel), by decide +kernel, by decide +kernel⟩

/-- The same with a mask and the destination p7. -/
theorem wit_predicate_pset_lane : ∃ sh is, laneForm (.pset 7 2 (.v ⟨2, by decide⟩) (.v 0)) = some sh ∧ (small []).issuer = some is ∧ sh.firstError is = none ∧ is.lanes ≠ [] :=
  ⟨_, _, rfl, issues _ (by decide +kernel), by decide +kernel, by decide +kernel⟩

/-- SpecialRegistersReadAndWritten, selector 0. -/
theorem wit_special_first : ∃ sh is, laneForm (.srd (.v 0) 0) = some sh ∧ (small []).issuer = some is ∧ sh.firstError is = none ∧ opW (.v 0) = false :=
  ⟨_, _, rfl, issues _ (by decide +kernel), by decide +kernel, by decide +kernel⟩

/-- SpecialRegistersReadAndWritten, selector 14. -/
theorem wit_special_last : ∃ sh is, laneForm (.srd (.v ⟨3, by decide⟩) 14) = some sh ∧ (small []).issuer = some is ∧ sh.firstError is = none ∧ opW (.v ⟨3, by decide⟩) = false :=
  ⟨_, _, rfl, issues _ (by decide +kernel), by decide +kernel, by decide +kernel⟩

/-- SpecialRegistersReadAndWritten, selector 14. -/
theorem wit_special_uniform : ∃ sh is, laneForm (.srd (.w 9) 14) = some sh ∧ (small []).issuer = some is ∧ sh.firstError is = none ∧ opW (.w 9) = true :=
  ⟨_, _, rfl, issues _ (by decide +kernel), by decide +kernel, by decide +kernel⟩

/-- SpecialRegistersReadAndWritten, selector 2. -/
theorem wit_special_mask : ∃ sh is, laneForm (.srd (.v ⟨2, by decide⟩) 2) = some sh ∧ (small []).issuer = some is ∧ sh.firstError is = none ∧ opW (.v ⟨2, by decide⟩) = false :=
  ⟨_, _, rfl, issues _ (by decide +kernel), by decide +kernel, by decide +kernel⟩

/-- SpecialRegistersReadAndWritten, selector 13. -/
theorem wit_special_tags : ∃ sh is, laneForm (.srd (.v ⟨1, by decide⟩) 13) = some sh ∧ (small []).issuer = some is ∧ sh.firstError is = none ∧ opW (.v ⟨1, by decide⟩) = false :=
  ⟨_, _, rfl, issues _ (by decide +kernel), by decide +kernel, by decide +kernel⟩

/-- SpecialRegistersReadAndWritten, selector 13. -/
theorem wit_special_tags_uniform : ∃ sh is, laneForm (.srd (.w 9) 13) = some sh ∧ (small []).issuer = some is ∧ sh.firstError is = none ∧ opW (.w 9) = true :=
  ⟨_, _, rfl, issues _ (by decide +kernel), by decide +kernel, by decide +kernel⟩

/-- SpecialRegistersReadAndWritten, selector 10. -/
theorem wit_special_origin : ∃ sh is, laneForm (.srd (.v ⟨4, by decide⟩) 10) = some sh ∧ (small []).issuer = some is ∧ sh.firstError is = none ∧ opW (.v ⟨4, by decide⟩) = false :=
  ⟨_, _, rfl, issues _ (by decide +kernel), by decide +kernel, by decide +kernel⟩

theorem wit_special_swr : ∃ sh is, laneForm (.swr (.v ⟨2, by decide⟩)) = some sh ∧ (small []).issuer = some is ∧ sh.firstError is = none ∧ is.lanes ≠ [] :=
  ⟨_, _, rfl, issues _ (by decide +kernel), by decide +kernel, by decide +kernel⟩

/-- RunEndingInstructionsFixTheirTransfer. -/
theorem wit_ender_bra : ∃ sh is, form (.bra 0xFFFFF4#24) = some sh ∧ (small []).issuer = some is ∧ sh.firstError is = none ∧ is.lanes ≠ [] ∧ (enderOf is (.bra 0xFFFFF4#24)).isSome = true :=
  ⟨_, _, rfl, issues _ (by decide +kernel), by decide +kernel, by decide +kernel, by decide +kernel⟩

/-- The same with a barrier object at the start of the scratchpad. -/
theorem wit_ender_wait : ∃ sh is, form (.wait (.w 8)) = some sh ∧ (small [(9, 0x80000000)]).issuer = some is ∧ sh.firstError is = none ∧ is.lanes ≠ [] ∧ (enderOf is (.wait (.w 8))).isSome = true ∧ ((waitRef is (.wait (.w 8))).map (fun x => (small [(9, 0x80000000)]).refAllowed is x true)) = some true :=
  ⟨_, _, rfl, issues _ (by decide +kernel), by decide +kernel, by decide +kernel, by decide +kernel, by decide +kernel⟩

theorem wit_ender_wait_idle : ∃ sh is, form (.wait (.w 8)) = some sh ∧ (idle []).issuer = some is ∧ sh.firstError is = none ∧ is.lanes = [] :=
  ⟨_, _, rfl, issues _ (by decide +kernel), by decide +kernel, by decide +kernel⟩

/-- AccessesQueueTheirLanes, a load. -/
theorem wit_access_load : ∃ x k sh is, accOf (.ld (.v ⟨2, by decide⟩) (.v ⟨4, by decide⟩) 0 2) = some (x, k) ∧ form (.ld (.v ⟨2, by decide⟩) (.v ⟨4, by decide⟩) 0 2) = some sh ∧ (small []).issuer = some is ∧ sh.firstError is = none
    ∧ is.lanes ≠ [] ∧ addressesGood is sh x :=
  ⟨_, _, _, _, rfl, rfl, issues _ (by decide +kernel), by decide +kernel, by decide +kernel, by unfold addressesGood; decide +kernel⟩

/-- AccessesQueueTheirLanes, a store. -/
theorem wit_access_store : ∃ x k sh is, accOf (.st (.v ⟨4, by decide⟩) (.v ⟨8, by decide⟩) 2) = some (x, k) ∧ form (.st (.v ⟨4, by decide⟩) (.v ⟨8, by decide⟩) 2) = some sh ∧ (small []).issuer = some is ∧ sh.firstError is = none
    ∧ is.lanes ≠ [] ∧ addressesGood is sh x :=
  ⟨_, _, _, _, rfl, rfl, issues _ (by decide +kernel), by decide +kernel, by decide +kernel, by unfold addressesGood; decide +kernel⟩

/-- AccessesQueueTheirLanes, a scratch load. -/
theorem wit_access_scratch_load : ∃ x k sh is, accOf (.ldsExtended (.v ⟨2, by decide⟩) (.v ⟨4, by decide⟩) 0 false 2 ⟨.lit 61180, 0, 0, false, 0⟩) = some (x, k) ∧ form (.ldsExtended (.v ⟨2, by decide⟩) (.v ⟨4, by decide⟩) 0 false 2 ⟨.lit 61180, 0, 0, false, 0⟩) = some sh ∧ (small []).issuer = some is ∧ sh.firstError is = none
    ∧ is.lanes ≠ [] ∧ addressesGood is sh x :=
  ⟨_, _, _, _, rfl, rfl, issues _ (by decide +kernel), by decide +kernel, by decide +kernel, by unfold addressesGood; decide +kernel⟩

/-- AccessesQueueTheirLanes, a atomic. -/
theorem wit_access_atomic : ∃ x k sh is, accOf (.atom (.v ⟨6, by decide⟩) (.v ⟨4, by decide⟩) 6 1 ⟨(.v ⟨8, by decide⟩), 4, true, false, 8⟩) = some (x, k) ∧ form (.atom (.v ⟨6, by decide⟩) (.v ⟨4, by decide⟩) 6 1 ⟨(.v ⟨8, by decide⟩), 4, true, false, 8⟩) = some sh ∧ (small []).issuer = some is ∧ sh.firstError is = none
    ∧ is.lanes ≠ [] ∧ addressesGood is sh x :=
  ⟨_, _, _, _, rfl, rfl, issues _ (by decide +kernel), by decide +kernel, by decide +kernel, by unfold addressesGood; decide +kernel⟩

/-- AccessesQueueTheirLanes, a cas. -/
theorem wit_access_cas : ∃ x k sh is, accOf (.cas (.v ⟨6, by decide⟩) (.v ⟨4, by decide⟩) 1 ⟨(.v ⟨8, by decide⟩), 0, false, true, 0⟩) = some (x, k) ∧ form (.cas (.v ⟨6, by decide⟩) (.v ⟨4, by decide⟩) 1 ⟨(.v ⟨8, by decide⟩), 0, false, true, 0⟩) = some sh ∧ (small []).issuer = some is ∧ sh.firstError is = none
    ∧ is.lanes ≠ [] ∧ addressesGood is sh x :=
  ⟨_, _, _, _, rfl, rfl, issues _ (by decide +kernel), by decide +kernel, by decide +kernel, by unfold addressesGood; decide +kernel⟩

/-- AccessesQueueTheirLanes, a red. -/
theorem wit_access_red : ∃ x k sh is, accOf (.red (.v ⟨4, by decide⟩) 9 ⟨(.v ⟨7, by decide⟩), 4, false, false, 0⟩) = some (x, k) ∧ form (.red (.v ⟨4, by decide⟩) 9 ⟨(.v ⟨7, by decide⟩), 4, false, false, 0⟩) = some sh ∧ (small []).issuer = some is ∧ sh.firstError is = none
    ∧ is.lanes ≠ [] ∧ addressesGood is sh x :=
  ⟨_, _, _, _, rfl, rfl, issues _ (by decide +kernel), by decide +kernel, by decide +kernel, by unfold addressesGood; decide +kernel⟩

theorem wit_access_idle : ∃ x k sh is, accOf (.st (.v ⟨4, by decide⟩) (.v ⟨8, by decide⟩) 2) = some (x, k) ∧ form (.st (.v ⟨4, by decide⟩) (.v ⟨8, by decide⟩) 2) = some sh ∧ (idle []).issuer = some is ∧ sh.firstError is = none
    ∧ acting is sh = [] ∧ addressesGood is sh x :=
  ⟨_, _, _, _, rfl, rfl, issues _ (by decide +kernel), by decide +kernel, by decide +kernel, by unfold addressesGood; decide +kernel⟩

theorem wit_access_not_canonical : ∃ x k sh is, accOf (.ldExtended (.v ⟨2, by decide⟩) (.v ⟨4, by decide⟩) 0 2 ⟨(.inl ⟨0, by decide⟩), 0, 0, false, 0xFFFC⟩) = some (x, k) ∧ form (.ldExtended (.v ⟨2, by decide⟩) (.v ⟨4, by decide⟩) 0 2 ⟨(.inl ⟨0, by decide⟩), 0, 0, false, 0xFFFC⟩) = some sh ∧ (small []).issuer = some is ∧ sh.firstError is = none
    ∧ x.sp = false ∧ ∃ e ∈ acting is sh, canonical (eaOf is x e.2) = false :=
  ⟨_, _, _, _, rfl, rfl, issues _ (by decide +kernel), by decide +kernel, rfl, by decide +kernel⟩

theorem wit_access_misaligned : ∃ x k sh is, accOf (.ldExtended (.v ⟨2, by decide⟩) (.v ⟨4, by decide⟩) 0 2 ⟨(.inl ⟨0, by decide⟩), 0, 0, false, 3⟩) = some (x, k) ∧ form (.ldExtended (.v ⟨2, by decide⟩) (.v ⟨4, by decide⟩) 0 2 ⟨(.inl ⟨0, by decide⟩), 0, 0, false, 3⟩) = some sh ∧ (small []).issuer = some is ∧ sh.firstError is = none
    ∧ x.sp = false ∧ (∀ y ∈ acting is sh, canonical (eaOf is x y.2) = true) ∧ ∃ e ∈ acting is sh, (eaOf is x e.2).toNat % x.bytes ≠ 0 :=
  ⟨_, _, _, _, rfl, rfl, issues _ (by decide +kernel), by decide +kernel, rfl, by decide +kernel⟩

theorem wit_access_outside : ∃ x k sh is, accOf (.ldsExtended (.v ⟨2, by decide⟩) (.v ⟨4, by decide⟩) 0 false 2 ⟨.lit 61181, 0, 0, false, 0⟩) = some (x, k) ∧ form (.ldsExtended (.v ⟨2, by decide⟩) (.v ⟨4, by decide⟩) 0 false 2 ⟨.lit 61181, 0, 0, false, 0⟩) = some sh ∧ (small []).issuer = some is ∧ sh.firstError is = none
    ∧ x.sp = true ∧ ∃ e ∈ acting is sh, scratchInside is.team.rec'.scratch x.bytes x.col (paOf is x e.2) = false :=
  ⟨_, _, _, _, rfl, rfl, issues _ (by decide +kernel), by decide +kernel, rfl, by decide +kernel⟩

theorem wit_access_scratch_misaligned : ∃ x k sh is, accOf (.ldsExtended (.v ⟨2, by decide⟩) (.v ⟨4, by decide⟩) 0 false 2 ⟨(.inl ⟨0, by decide⟩), 0, 0, false, 2⟩) = some (x, k) ∧ form (.ldsExtended (.v ⟨2, by decide⟩) (.v ⟨4, by decide⟩) 0 false 2 ⟨(.inl ⟨0, by decide⟩), 0, 0, false, 2⟩) = some sh ∧ (small []).issuer = some is ∧ sh.firstError is = none
    ∧ x.sp = true ∧ (∀ e ∈ acting is sh, scratchInside is.team.rec'.scratch x.bytes x.col (paOf is x e.2) = true) ∧ ∃ e ∈ acting is sh, scratchAligned x.bytes x.col (paOf is x e.2) = false :=
  ⟨_, _, _, _, rfl, rfl, issues _ (by decide +kernel), by decide +kernel, rfl, by decide +kernel⟩

/-- SamplesAndRayQueriesQueueTheirLanes, and its stops. -/
theorem wit_sample : ∃ sh is, form (.tex (.v ⟨12, by decide⟩) (.v ⟨4, by decide⟩) 5 (.w 8) false 0) = some sh ∧ (small []).issuer = some is ∧ sh.firstError is = none ∧ texBad (regsOf is Lane.blank .int (.w 8) 8) = false ∧ is.lanes ≠ [] :=
  ⟨_, _, rfl, issues _ (by decide +kernel), by decide +kernel, by decide +kernel, by decide +kernel⟩

theorem wit_sample_bad : ∃ sh is, form (.texg (.v ⟨12, by decide⟩) (.v ⟨4, by decide⟩) 5 (.w 8) false 0) = some sh ∧ (small [(9, 0x100000)]).issuer = some is ∧ sh.firstError is = none ∧ texBad (regsOf is Lane.blank .int (.w 8) 8) = true ∧ is.lanes ≠ [] :=
  ⟨_, _, rfl, issues _ (by decide +kernel), by decide +kernel, by decide +kernel, by decide +kernel⟩

theorem wit_ray : ∃ sh is, form (.rayt (.v ⟨16, by decide⟩) (.v ⟨8, by decide⟩) 1 false false (.w 8) 0xFF) = some sh ∧ (small [(9, 0xFFFFF)]).issuer = some is ∧ sh.firstError is = none ∧ canonical (is.g.src64 Lane.blank (.w 8)) = true ∧ is.lanes ≠ [] :=
  ⟨_, _, rfl, issues _ (by decide +kernel), by decide +kernel, by decide +kernel, by decide +kernel⟩

theorem wit_ray_not_canonical : ∃ sh is, form (.rayq (.v ⟨16, by decide⟩) (.v ⟨8, by decide⟩) 1 false false (.w 8) 0xFF) = some sh ∧ (small [(9, 0x100000)]).issuer = some is ∧ sh.firstError is = none ∧ canonical (is.g.src64 Lane.blank (.w 8)) = false ∧ is.lanes ≠ [] :=
  ⟨_, _, rfl, issues _ (by decide +kernel), by decide +kernel, by decide +kernel, by decide +kernel⟩

/-- ShuttleOperationsEnterTheirQueue: a copy, its idle form, bad operands, and its reference. -/
theorem wit_shuttle_copy : ∃ sh is, form (.cpt (.w 16) (.w 14) (.inl ⟨0, by decide⟩)) = some sh ∧ (small []).issuer = some is ∧ sh.firstError is = none ∧ (shuttleOf is (.cpt (.w 16) (.w 14) (.inl ⟨0, by decide⟩))).map (fun y => (y.2.1, y.2.2.2)) = some (true, false) ∧ is.lanes ≠ [] :=
  ⟨_, _, rfl, issues _ (by decide +kernel), by decide +kernel, by decide +kernel, by decide +kernel⟩

theorem wit_shuttle_copy_idle : ∃ sh is, form (.cpt (.w 16) (.w 14) (.inl ⟨0, by decide⟩)) = some sh ∧ (idle []).issuer = some is ∧ sh.firstError is = none ∧ (shuttleOf is (.cpt (.w 16) (.w 14) (.inl ⟨0, by decide⟩))).map (fun y => (y.2.1, y.2.2.2)) = some (true, false) ∧ is.lanes = [] :=
  ⟨_, _, rfl, issues _ (by decide +kernel), by decide +kernel, by decide +kernel, by decide +kernel⟩

theorem wit_shuttle_copy_bad : ∃ sh is, form (.cpt (.w 16) (.w 14) (.inl ⟨0, by decide⟩)) = some sh ∧ (small [(14, 63)]).issuer = some is ∧ sh.firstError is = none ∧ (shuttleOf is (.cpt (.w 16) (.w 14) (.inl ⟨0, by decide⟩))).map (fun y => (y.2.1, y.2.2.2)) = some (false, false) ∧ is.lanes ≠ [] :=
  ⟨_, _, rfl, issues _ (by decide +kernel), by decide +kernel, by decide +kernel, by decide +kernel⟩

theorem wit_shuttle_reference : ∃ sh is, form (.cpt (.w 16) (.w 14) (.w 12)) = some sh ∧ (small [(13, 0x80000000)]).issuer = some is ∧ sh.firstError is = none ∧ (shuttleOf is (.cpt (.w 16) (.w 14) (.w 12))).map (fun y => (y.2.1, y.2.2.2)) = some (true, false) ∧ is.lanes ≠ [] ∧ (shuttleRef is (.cpt (.w 16) (.w 14) (.w 12))).map (fun x => (small [(13, 0x80000000)]).refAllowed is x false) = some true :=
  ⟨_, _, rfl, issues _ (by decide +kernel), by decide +kernel, by decide +kernel, by decide +kernel, by decide +kernel⟩

theorem wit_shuttle_reference_bad : ∃ sh is, form (.cpt (.w 16) (.w 14) (.w 12)) = some sh ∧ (small [(12, 8), (13, 0x80000000)]).issuer = some is ∧ sh.firstError is = none ∧ (shuttleOf is (.cpt (.w 16) (.w 14) (.w 12))).map (fun y => (y.2.1, y.2.2.2)) = some (true, false) ∧ is.lanes ≠ [] ∧ (shuttleRef is (.cpt (.w 16) (.w 14) (.w 12))).map (fun x => (small [(12, 8), (13, 0x80000000)]).refAllowed is x false) = some false :=
  ⟨_, _, rfl, issues _ (by decide +kernel), by decide +kernel, by decide +kernel, by decide +kernel, by decide +kernel⟩

theorem wit_shuttle_window : ∃ sh is, form (.gwin (.w 8) (.lit 255)) = some sh ∧ (small []).issuer = some is ∧ sh.firstError is = none ∧ (shuttleOf is (.gwin (.w 8) (.lit 255))).map (fun y => (y.2.1, y.2.2.2)) = some (true, false) ∧ is.lanes ≠ [] :=
  ⟨_, _, rfl, issues _ (by decide +kernel), by decide +kernel, by decide +kernel, by decide +kernel⟩

theorem wit_shuttle_transpose_bad : ∃ sh is, form (.trq (.w 22) (.w 20) (.lit 8)) = some sh ∧ (idle []).issuer = some is ∧ sh.firstError is = none ∧ (shuttleOf is (.trq (.w 22) (.w 20) (.lit 8))).map (fun y => (y.2.1, y.2.2.2)) = some (false, true) ∧ is.lanes = [] :=
  ⟨_, _, rfl, issues _ (by decide +kernel), by decide +kernel, by decide +kernel, by decide +kernel⟩

theorem wit_shuttle_transpose : ∃ sh is, form (.trq (.w 22) (.w 20) (.lit 0x10000)) = some sh ∧ (small []).issuer = some is ∧ sh.firstError is = none ∧ (shuttleOf is (.trq (.w 22) (.w 20) (.lit 0x10000))).map (fun y => (y.2.1, y.2.2.2)) = some (true, true) ∧ is.lanes ≠ [] :=
  ⟨_, _, rfl, issues _ (by decide +kernel), by decide +kernel, by decide +kernel, by decide +kernel⟩

/-- TileOperationsEnterTheMatrixQueue. -/
theorem wit_tile_multiply : ∃ sh is, form (.mma 7 true 1 (.w 20) (.w 18)) = some sh ∧ (small [(18, 3840)]).issuer = some is ∧ sh.firstError is = none ∧ (tileOf is (.mma 7 true 1 (.w 20) (.w 18))).map Prod.snd = some true :=
  ⟨_, _, rfl, issues _ (by decide +kernel), by decide +kernel, by decide +kernel⟩

theorem wit_tile_multiply_bad : ∃ sh is, form (.mma 7 true 1 (.w 20) (.w 18)) = some sh ∧ (small [(18, 3844)]).issuer = some is ∧ sh.firstError is = none ∧ (tileOf is (.mma 7 true 1 (.w 20) (.w 18))).map Prod.snd = some false :=
  ⟨_, _, rfl, issues _ (by decide +kernel), by decide +kernel, by decide +kernel⟩

theorem wit_tile_zero : ∃ sh is, form (.mzero 7) = some sh ∧ (small []).issuer = some is ∧ sh.firstError is = none ∧ (tileOf is (.mzero 7)).map Prod.snd = some true :=
  ⟨_, _, rfl, issues _ (by decide +kernel), by decide +kernel, by decide +kernel⟩

theorem wit_tile_load : ∃ sh is, form (.accld 0 false 0 (.w 24)) = some sh ∧ (small [(24, 3840)]).issuer = some is ∧ sh.firstError is = none ∧ (tileOf is (.accld 0 false 0 (.w 24))).map Prod.snd = some true :=
  ⟨_, _, rfl, issues _ (by decide +kernel), by decide +kernel, by decide +kernel⟩

/-- RasterizerFillsItsOpenSlots, and its stop. -/
theorem wit_rast : ∃ sh is, form (.rast (.v ⟨8, by decide⟩) (.w 8) (.w 16)) = some sh ∧ (small [(14, 0x21), (15, 0x10001)]).issuer = some is ∧ sh.firstError is = none ∧ is.lanes ≠ [] ∧ rastBad (is.g.src Lane.blank .int (.w 8) 6) (is.g.src Lane.blank .int (.w 8) 7) (Claims.wordOf is (.w 16)) = false :=
  ⟨_, _, rfl, issues _ (by decide +kernel), by decide +kernel, by decide +kernel, by decide +kernel⟩

theorem wit_rast_bad : ∃ sh is, form (.rast (.v ⟨8, by decide⟩) (.w 8) (.w 16)) = some sh ∧ (small []).issuer = some is ∧ sh.firstError is = none ∧ is.lanes ≠ [] ∧ rastBad (is.g.src Lane.blank .int (.w 8) 6) (is.g.src Lane.blank .int (.w 8) 7) (Claims.wordOf is (.w 16)) = true :=
  ⟨_, _, rfl, issues _ (by decide +kernel), by decide +kernel, by decide +kernel, by decide +kernel⟩

theorem wit_rast_idle : ∃ sh is, form (.rast (.v ⟨8, by decide⟩) (.w 8) (.w 16)) = some sh ∧ (idle []).issuer = some is ∧ sh.firstError is = none ∧ is.lanes = [] :=
  ⟨_, _, rfl, issues _ (by decide +kernel), by decide +kernel, by decide +kernel⟩
/-- A partition with an enabled queue, a head, and nothing else. -/
def part0 : Part :=
  { Part.fresh 0 7 0 4 with queues := [{ Queue.fresh 0 0 true with en := true }, Queue.fresh 1 1 true], heads := [Head.fresh 63 0],
                            streams := [Stream.fresh 63] }
/-- The small state with that partition. -/
def owned (ws : List (Nat × W32)) : State := { small ws with parts := [part0] }
/-- The small state with its group or its run changed. -/
def groupWith (ws : List (Nat × W32)) (f : Group → Group) : State := edit (small ws) id f
def runWith (f : Run → Run) : State := groupWith [] (fun g => { g with run := g.run.map f })
/-- A state whose run has not been opened, at a RUN word. -/
def unopened : State := State.reset.withFetchWord 32 0x503

/-- FormChecksAndRefusedWordsStopTheTeam: an odd register pair. -/
theorem wit_check_fails : ∃ sh is, form (.lea (.v ⟨3, by decide⟩) (.v ⟨2, by decide⟩) (.v ⟨9, by decide⟩)) = some sh ∧ (small []).issuer = some is ∧ sh.firstError is = some Causes.illegalOperand :=
  ⟨_, _, rfl, issues _ (by decide +kernel), by decide +kernel⟩
theorem wit_refused_word : ∃ is, (runWith (fun r => { r with pfx := { r.pfx with reserved := 1 } })).issuer = some is ∧ is.run.pfx.reserved ≠ 0 :=
  ⟨_, issues _ (by decide +kernel), by decide +kernel⟩
/-- TrapsAndStopsSaveTheirCause. -/
theorem wit_stop : ∃ is, (small []).issuer = some is ∧ is.g.stopped = false ∧ (Shape.control false).firstError is = none ∧ is.lanes ≠ [] :=
  ⟨_, issues _ (by decide +kernel), by decide +kernel, by decide +kernel, by decide +kernel⟩
theorem wit_stop_idle : ∃ is, (idle []).issuer = some is ∧ (Shape.control false).firstError is = none ∧ is.lanes = [] :=
  ⟨_, issues _ (by decide +kernel), by decide +kernel, by decide +kernel⟩

/-- ArithmeticFormsWriteTheirResults, in lanes and uniformly. -/
theorem wit_integer_lane : ∃ sh is, laneForm (.iadd (.v ⟨3, by decide⟩) (.v ⟨4, by decide⟩) (.w 9)) = some sh ∧ (small []).issuer = some is ∧ sh.firstError is = none ∧ is.lanes ≠ [] :=
  ⟨_, _, rfl, issues _ (by decide +kernel), by decide +kernel, by decide +kernel⟩

theorem wit_integer_uniform : ∃ sh is, laneForm (.imad (.w 31) (.w 9) (.inl ⟨0, by decide⟩)) = some sh ∧ (small []).issuer = some is ∧ sh.firstError is = none ∧ sh.uniform = true :=
  ⟨_, _, rfl, issues _ (by decide +kernel), by decide +kernel, by decide +kernel⟩

theorem wit_integer_pair : ∃ sh is, laneForm (.lea (.v ⟨190, by decide⟩) (.v ⟨2, by decide⟩) (.inl ⟨14, by decide⟩)) = some sh ∧ (small []).issuer = some is ∧ sh.firstError is = none ∧ is.lanes ≠ [] :=
  ⟨_, _, rfl, issues _ (by decide +kernel), by decide +kernel, by decide +kernel⟩

theorem wit_integer_field : ∃ sh is, laneForm (.bfi (.v ⟨0, by decide⟩) (.v ⟨2, by decide⟩) (.lit 0x1003F)) = some sh ∧ (small []).issuer = some is ∧ sh.firstError is = none ∧ is.lanes ≠ [] :=
  ⟨_, _, rfl, issues _ (by decide +kernel), by decide +kernel, by decide +kernel⟩

theorem wit_integer_imm : ∃ sh is, laneForm (.movH (.v ⟨0, by decide⟩) 0xFFFF) = some sh ∧ (small []).issuer = some is ∧ sh.firstError is = none ∧ is.lanes ≠ [] :=
  ⟨_, _, rfl, issues _ (by decide +kernel), by decide +kernel, by decide +kernel⟩

theorem wit_integer_short : ∃ sh is, laneForm (.iadd16 31 (.w 8)) = some sh ∧ (small []).issuer = some is ∧ sh.firstError is = none ∧ is.lanes ≠ [] ∧ longForm (.iadd16 31 (.w 8)) = some (.iadd (vReg 31) (vReg 31) (srcReg (.w 8))) :=
  ⟨_, _, rfl, issues _ (by decide +kernel), by decide +kernel, by decide +kernel, by decide +kernel⟩

/-- ArithmeticFormsWriteTheirResults, and LaneTrapsAreMarked with an enabled flag. -/
theorem wit_float : ∃ sh is, laneForm (.fadd (.v ⟨0, by decide⟩) (.v ⟨1, by decide⟩) (.inl ⟨14, by decide⟩)) = some sh ∧ (small []).issuer = some is ∧ sh.firstError is = none ∧ is.lanes ≠ [] ∧ ∀ j ∈ is.lanes, ((fp32Result 0 (.v ⟨0, by decide⟩) (.v ⟨1, by decide⟩) (.inl ⟨14, by decide⟩)).f is (is.g.lane j)).2 &&& is.team.rec'.fptrap = 0 ∨ is.g.handler.isSome :=
  ⟨_, _, rfl, issues _ (by decide +kernel), by decide +kernel, by decide +kernel, by decide +kernel⟩

theorem wit_convert : ∃ sh is, laneForm (.cvt (.v ⟨0, by decide⟩) (.v ⟨1, by decide⟩) 0xF0) = some sh ∧ (small []).issuer = some is ∧ sh.firstError is = none ∧ is.lanes ≠ [] :=
  ⟨_, _, rfl, issues _ (by decide +kernel), by decide +kernel, by decide +kernel⟩

theorem wit_flag : ∃ sh is, laneForm (.fmul (.v ⟨0, by decide⟩) (.v ⟨1, by decide⟩) (.inl ⟨14, by decide⟩)) = some sh ∧ (edit (small []) (fun t => { t with rec' := { t.rec' with fptrap := 1 } }) id).issuer = some is ∧ sh.firstError is = none ∧ sh.uniform = false ∧ is.g.handler = none ∧ is.team.rec'.tbudget ≠ 0 ∧ is.g.stopped = false ∧ is.g.cause = none ∧ ∃ j ∈ is.lanes, ((fp32Result 2 (.v ⟨0, by decide⟩) (.v ⟨1, by decide⟩) (.inl ⟨14, by decide⟩)).f is (is.g.lane j)).2 &&& is.team.rec'.fptrap ≠ 0 :=
  ⟨_, _, rfl, issues _ (by decide +kernel), by decide +kernel, by decide +kernel, by decide +kernel, by decide +kernel, by decide +kernel, by decide +kernel⟩

theorem wit_flag_no_vector : ∃ sh is, laneForm (.fmul (.v ⟨0, by decide⟩) (.v ⟨1, by decide⟩) (.inl ⟨14, by decide⟩)) = some sh ∧ (edit (small []) (fun t => { t with rec' := { t.rec' with fptrap := 1, tbudget := 0 } }) id).issuer = some is ∧ sh.firstError is = none ∧ sh.uniform = false ∧ is.g.handler = none ∧ is.team.rec'.tbudget = 0 ∧ is.g.stopped = false ∧ is.g.cause = none ∧ ∃ j ∈ is.lanes, ((fp32Result 2 (.v ⟨0, by decide⟩) (.v ⟨1, by decide⟩) (.inl ⟨14, by decide⟩)).f is (is.g.lane j)).2 &&& is.team.rec'.fptrap ≠ 0 :=
  ⟨_, _, rfl, issues _ (by decide +kernel), by decide +kernel, by decide +kernel, by decide +kernel, by decide +kernel, by decide +kernel, by decide +kernel⟩

theorem wit_ltrap_no_vector : ∃ sh is, form (.ltrap 7) = some sh ∧ (edit (small []) (fun t => { t with rec' := { t.rec' with tbudget := 0 } }) id).issuer = some is
    ∧ sh.firstError is = none ∧ is.team.rec'.tbudget = 0 ∧ is.lanes ≠ [] ∧ is.g.stopped = false ∧ is.g.cause = none :=
  ⟨_, _, rfl, issues _ (by decide +kernel), by decide +kernel, by decide +kernel, by decide +kernel, by decide +kernel, by decide +kernel⟩
theorem wit_ltrap : ∃ sh is, form (.ltrap 7) = some sh ∧ (small []).issuer = some is ∧ sh.firstError is = none ∧ is.team.rec'.tbudget ≠ 0 ∧ is.lanes ≠ [] :=
  ⟨_, _, rfl, issues _ (by decide +kernel), by decide +kernel, by decide +kernel, by decide +kernel⟩

/-- LanesReadAndCombineOtherLanes. -/
theorem wit_lanes_shfl : ∃ sh is, laneForm (.shfl (.v ⟨10, by decide⟩) (.v ⟨11, by decide⟩) 1 (.inl ⟨0, by decide⟩) true true 5 0x8001) = some sh ∧ (small []).issuer = some is ∧ sh.firstError is = none ∧ opW (.v ⟨10, by decide⟩) = false :=
  ⟨_, _, rfl, issues _ (by decide +kernel), by decide +kernel, by decide +kernel⟩

theorem wit_lanes_bcast : ∃ sh is, laneForm (.bcast (.v ⟨10, by decide⟩) (.v ⟨11, by decide⟩) (.lit 63)) = some sh ∧ (small []).issuer = some is ∧ sh.firstError is = none ∧ opW (.v ⟨10, by decide⟩) = false :=
  ⟨_, _, rfl, issues _ (by decide +kernel), by decide +kernel, by decide +kernel⟩

theorem wit_lanes_bcast_uniform : ∃ sh is, laneForm (.bcast (.w 10) (.v ⟨11, by decide⟩) (.lit 64)) = some sh ∧ (small []).issuer = some is ∧ sh.firstError is = none ∧ opW (.w 10) = true :=
  ⟨_, _, rfl, issues _ (by decide +kernel), by decide +kernel, by decide +kernel⟩

theorem wit_lanes_match : ∃ sh is, laneForm (.match (.v ⟨10, by decide⟩) (.v ⟨11, by decide⟩)) = some sh ∧ (small []).issuer = some is ∧ sh.firstError is = none ∧ opW (.v ⟨10, by decide⟩) = false :=
  ⟨_, _, rfl, issues _ (by decide +kernel), by decide +kernel, by decide +kernel⟩

theorem wit_lanes_qdx : ∃ sh is, laneForm (.qdx (.v ⟨5, by decide⟩) (.v ⟨8, by decide⟩) 1) = some sh ∧ (small []).issuer = some is ∧ sh.firstError is = none ∧ opW (.v ⟨5, by decide⟩) = false :=
  ⟨_, _, rfl, issues _ (by decide +kernel), by decide +kernel, by decide +kernel⟩

theorem wit_lanes_qdy : ∃ sh is, laneForm (.qdy (.v ⟨5, by decide⟩) (.v ⟨8, by decide⟩) 0) = some sh ∧ (small []).issuer = some is ∧ sh.firstError is = none ∧ opW (.v ⟨5, by decide⟩) = false :=
  ⟨_, _, rfl, issues _ (by decide +kernel), by decide +kernel, by decide +kernel⟩

/-- LanesReadAndCombineOtherLanes. -/
theorem wit_lanes_vote : ∃ sh is, laneForm (.vote (.v ⟨6, by decide⟩) 5 true 7) = some sh ∧ (small []).issuer = some is ∧ sh.firstError is = none ∧ opW (.v ⟨6, by decide⟩) = false :=
  ⟨_, _, rfl, issues _ (by decide +kernel), by decide +kernel, by decide +kernel⟩

theorem wit_lanes_vote_uniform : ∃ sh is, laneForm (.vote (.w 31) 0 false 0) = some sh ∧ (small []).issuer = some is ∧ sh.firstError is = none ∧ opW (.w 31) = true :=
  ⟨_, _, rfl, issues _ (by decide +kernel), by decide +kernel, by decide +kernel⟩

theorem wit_lanes_vote_mask : ∃ sh is, laneForm (.vote (.w 10) 2 false 3) = some sh ∧ (small []).issuer = some is ∧ sh.firstError is = none ∧ opW (.w 10) = true :=
  ⟨_, _, rfl, issues _ (by decide +kernel), by decide +kernel, by decide +kernel⟩

theorem wit_lanes_redl : ∃ sh is, laneForm (.redl (.v ⟨8, by decide⟩) (.v ⟨4, by decide⟩) 5 10) = some sh ∧ (small []).issuer = some is ∧ sh.firstError is = none ∧ opW (.v ⟨8, by decide⟩) = false :=
  ⟨_, _, rfl, issues _ (by decide +kernel), by decide +kernel, by decide +kernel⟩

theorem wit_lanes_redl_uniform : ∃ sh is, laneForm (.redl (.w 8) (.v ⟨4, by decide⟩) 0 8) = some sh ∧ (small []).issuer = some is ∧ sh.firstError is = none ∧ opW (.w 8) = true :=
  ⟨_, _, rfl, issues _ (by decide +kernel), by decide +kernel, by decide +kernel⟩

theorem wit_lanes_scan : ∃ sh is, laneForm (.scan (.v ⟨9, by decide⟩) (.v ⟨4, by decide⟩) true 10) = some sh ∧ (small []).issuer = some is ∧ sh.firstError is = none ∧ opW (.v ⟨9, by decide⟩) = false :=
  ⟨_, _, rfl, issues _ (by decide +kernel), by decide +kernel, by decide +kernel⟩

/-- RunsCallsAndEnrolments: a RUN word at the start of a run, with and without a pending tag it awaits. -/
theorem wit_run : ∃ is, unopened.issuer = some is ∧ is.run.opened = false ∧ (0xFFFF#16 &&& is.g.tagPend) = 0 :=
  ⟨_, issues _ (by decide +kernel), by decide +kernel, by decide +kernel⟩
theorem wit_run_awaits : ∃ is, (edit unopened id (fun g => { g with pend := [⟨0, 15, 0, 0, 0, .v ⟨0, by decide⟩, 1, .special 0, [], 0, ⟨[], none⟩, [], []⟩] })).issuer
    = some is ∧ is.run.opened = false ∧ (0x8000#16 &&& is.g.tagPend) ≠ 0 :=
  ⟨_, issues _ (by decide +kernel), by decide +kernel, by decide +kernel⟩
theorem wit_run_inside : ∃ is, placed.issuer = some is ∧ is.run.opened = true := ⟨_, issues _ (by decide +kernel), by decide +kernel⟩

theorem wit_call : ∃ sh is, form (.call (.w 30) 0x8000) = some sh ∧ (small []).issuer = some is ∧ sh.firstError is = none ∧ is.lanes ≠ [] :=
  ⟨_, _, rfl, issues _ (by decide +kernel), by decide +kernel, by decide +kernel⟩

theorem wit_joine : ∃ sh is, form (.joine 3) = some sh ∧ (small []).issuer = some is ∧ sh.firstError is = none ∧ is.lanes ≠ [] :=
  ⟨_, _, rfl, issues _ (by decide +kernel), by decide +kernel, by decide +kernel⟩

theorem wit_nop : ∃ sh is, form (.nop) = some sh ∧ (small []).issuer = some is ∧ sh.firstError is = none :=
  ⟨_, _, rfl, issues _ (by decide +kernel), by decide +kernel⟩

/-- A run at its TRAIL, a RUN word at its FALL. -/
def atFall (e : Option (Ender × Addr)) : State :=
  edit unopened id (fun g => { quad g with run := g.run.map (fun r => { r with opened := true, left := 0, ender := e }) })
/-- TrailAppliesTheTransfer: no transfer, a jump of lane 3 to the RUN word, an EXIT of lane 0, and the masks that stop. -/
theorem wit_trail : ∃ is, atTrail (atFall none) is 0 ∧ calm is ∧ is.run.ender = none ∧ (atFall none).lacksRun is is.run.next = false :=
  ⟨_, ⟨issues _ (by decide +kernel), by decide +kernel, by decide +kernel, by decide +kernel⟩, by unfold calm; decide +kernel,
    by decide +kernel, by decide +kernel⟩
theorem wit_trail_jump : ∃ is pc, atTrail (atFall (some (.jump [(3, placedAt)], 0))) is 0 ∧ calm is
    ∧ is.run.ender = some (.jump [(3, placedAt)], pc) ∧ (atFall (some (.jump [(3, placedAt)], 0))).badTarget is placedAt = false
    ∧ (atFall (some (.jump [(3, placedAt)], 0))).lacksRun is is.run.next = false :=
  ⟨_, 0, ⟨issues _ (by decide +kernel), by decide +kernel, by decide +kernel, by decide +kernel⟩, by unfold calm; decide +kernel,
    by decide +kernel, by decide +kernel, by decide +kernel⟩
theorem wit_trail_exit : ∃ is pc, atTrail (atFall (some (.exit 1, 0))) is 0 ∧ calm is ∧ is.g.handler = none
    ∧ is.run.ender = some (.exit 1, pc) ∧ (atFall (some (.exit 1, 0))).lacksRun is is.run.next = false :=
  ⟨_, 0, ⟨issues _ (by decide +kernel), by decide +kernel, by decide +kernel, by decide +kernel⟩, by unfold calm; decide +kernel,
    by decide +kernel, by decide +kernel, by decide +kernel⟩
theorem wit_trail_mask : ∃ is, (atFall none).issuer = some is ∧ is.run.opened = true ∧ is.run.left = 0 ∧ (1 : BitVec 16) ≠ is.run.named :=
  ⟨_, issues _ (by decide +kernel), by decide +kernel, by decide +kernel, by decide +kernel⟩
theorem wit_trail_inside : ∃ is, placed.issuer = some is ∧ is.run.left ≠ 0 := ⟨_, issues _ (by decide +kernel), by decide +kernel⟩

/-- FencesUpdatesAndBatches. -/
theorem wit_pref : ∃ sh is, form (.pref (.v ⟨4, by decide⟩)) = some sh ∧ (small []).issuer = some is ∧ sh.firstError is = none ∧ is.lanes ≠ []
    ∧ ((small []).core is.core).flights = [] ∧ ∀ l ∈ (small []).l2, l.cells = [] :=
  ⟨_, _, rfl, issues _ (by decide +kernel), by decide +kernel, by decide +kernel, by decide +kernel, by decide +kernel⟩

theorem wit_pref_extended : ∃ sh is, form (.prefExtended (.v ⟨4, by decide⟩) ⟨(.inl ⟨0, by decide⟩), 5, 0, false, 0xFFFF⟩) = some sh ∧ (small []).issuer = some is ∧ sh.firstError is = none ∧ is.lanes ≠ [] :=
  ⟨_, _, rfl, issues _ (by decide +kernel), by decide +kernel, by decide +kernel⟩

theorem wit_fence : ∃ sh is, form (.fence 5) = some sh ∧ (small []).issuer = some is ∧ sh.firstError is = none ∧ is.lanes ≠ [] ∧ ((small []).releaseAt is 5).2 = true :=
  ⟨_, _, rfl, issues _ (by decide +kernel), by decide +kernel, by decide +kernel, by decide +kernel⟩

theorem wit_fence_idle : ∃ sh is, form (.fence 1) = some sh ∧ (idle []).issuer = some is ∧ sh.firstError is = none ∧ is.lanes = [] :=
  ⟨_, _, rfl, issues _ (by decide +kernel), by decide +kernel, by decide +kernel⟩

theorem wit_barrier_low : ∃ sh is, form (.barr (.w 8) (.inl ⟨1, by decide⟩)) = some sh ∧ (small [(9, 0x80000000)]).issuer = some is ∧ sh.firstError is = none ∧ is.lanes ≠ [] ∧ (small [(9, 0x80000000)]).refAllowed is (is.g.src64 Lane.blank (.w 8)) false = true ∧ 1 ≤ (Claims.wordOf is (.inl ⟨1, by decide⟩)).toInt ∧ (Claims.wordOf is (.inl ⟨1, by decide⟩)).toInt ≤ 65535 :=
  ⟨_, _, rfl, issues _ (by decide +kernel), by decide +kernel, by decide +kernel, by decide +kernel, by decide +kernel⟩

theorem wit_barrier_high : ∃ sh is, form (.barr (.w 8) (.lit 65535)) = some sh ∧ (small [(9, 0x80000000)]).issuer = some is ∧ sh.firstError is = none ∧ is.lanes ≠ [] ∧ (small [(9, 0x80000000)]).refAllowed is (is.g.src64 Lane.blank (.w 8)) false = true ∧ 1 ≤ (Claims.wordOf is (.lit 65535)).toInt ∧ (Claims.wordOf is (.lit 65535)).toInt ≤ 65535 :=
  ⟨_, _, rfl, issues _ (by decide +kernel), by decide +kernel, by decide +kernel, by decide +kernel, by decide +kernel⟩

theorem wit_barrier_zero : ∃ sh is, form (.barr (.w 8) (.inl ⟨0, by decide⟩)) = some sh ∧ (small [(9, 0x80000000)]).issuer = some is ∧ sh.firstError is = none ∧ is.lanes ≠ [] ∧ (small [(9, 0x80000000)]).refAllowed is (is.g.src64 Lane.blank (.w 8)) false = true ∧ (Claims.wordOf is (.inl ⟨0, by decide⟩)).toInt < 1 :=
  ⟨_, _, rfl, issues _ (by decide +kernel), by decide +kernel, by decide +kernel, by decide +kernel, by decide +kernel⟩

theorem wit_barrier_over : ∃ sh is, form (.barr (.w 8) (.lit 65536)) = some sh ∧ (small [(9, 0x80000000)]).issuer = some is ∧ sh.firstError is = none ∧ is.lanes ≠ [] ∧ (small [(9, 0x80000000)]).refAllowed is (is.g.src64 Lane.blank (.w 8)) false = true ∧ (Claims.wordOf is (.lit 65536)).toInt > 65535 :=
  ⟨_, _, rfl, issues _ (by decide +kernel), by decide +kernel, by decide +kernel, by decide +kernel, by decide +kernel⟩

theorem wit_barrier_refused : ∃ sh is, form (.barr (.w 8) (.inl ⟨1, by decide⟩)) = some sh ∧ (small [(8, 8), (9, 0x80000000)]).issuer = some is ∧ sh.firstError is = none ∧ is.lanes ≠ [] ∧ (small [(8, 8), (9, 0x80000000)]).refAllowed is (is.g.src64 Lane.blank (.w 8)) false = false :=
  ⟨_, _, rfl, issues _ (by decide +kernel), by decide +kernel, by decide +kernel, by decide +kernel⟩

theorem wit_barrier_idle : ∃ sh is, form (.barr (.w 8) (.inl ⟨1, by decide⟩)) = some sh ∧ (idle []).issuer = some is ∧ sh.firstError is = none ∧ is.lanes = [] :=
  ⟨_, _, rfl, issues _ (by decide +kernel), by decide +kernel, by decide +kernel⟩

theorem wit_seal : ∃ sh is, form (.bseal) = some sh ∧ (small []).issuer = some is ∧ sh.firstError is = none ∧ is.lanes ≠ [] ∧ (is.g.batchNo - (small []).batchCount is.key).toNat < 16 :=
  ⟨_, _, rfl, issues _ (by decide +kernel), by decide +kernel, by decide +kernel, by decide +kernel⟩

theorem wit_seal_idle : ∃ sh is, form (.bseal) = some sh ∧ (idle []).issuer = some is ∧ sh.firstError is = none ∧ is.lanes = [] :=
  ⟨_, _, rfl, issues _ (by decide +kernel), by decide +kernel, by decide +kernel⟩

/-- SpecialFunctionResults. -/
theorem wit_sfu : ∃ sh is, form (.rcp (.v ⟨1, by decide⟩) (.v ⟨2, by decide⟩) 15) = some sh ∧ (small []).issuer = some is ∧ sh.firstError is = none ∧ is.lanes ≠ [] ∧ (sfuOf (.rcp (.v ⟨1, by decide⟩) (.v ⟨2, by decide⟩) 15)).isSome = true :=
  ⟨_, _, rfl, issues _ (by decide +kernel), by decide +kernel, by decide +kernel, by decide +kernel⟩

/-- NeuralCallsAndWeightHints: bins for all, a bad handle, no lane; and a call that waits for a bin. -/
theorem wit_neural : ∃ sh is, form (.ncall (.v ⟨40, by decide⟩) (.v ⟨80, by decide⟩) 4 (.w 8) 63 31) = some sh ∧ (small []).issuer = some is ∧ sh.firstError is = none ∧ is.lanes ≠ [] ∧ is.g.entering = none
    ∧ (∀ j ∈ is.lanes, (!canonical (callOf is (.v ⟨80, by decide⟩) (.w 8) 63 31 0 j).1 || (callOf is (.v ⟨80, by decide⟩) (.w 8) 63 31 0 j).1.toNat % 64 ≠ 0) = false) ∧ tagCount is.g 4 < 63 ∧ is.lanes.length ≤ 64
    ∧ ((small []).cluster (clusterOf is.core)).bins.length + (handlesOf is (.w 8)).length ≤ 16 :=
  ⟨_, _, rfl, issues _ (by decide +kernel), by decide +kernel, by decide +kernel, by decide +kernel, by decide +kernel, by decide +kernel,
    by decide +kernel, by decide +kernel⟩

theorem wit_neural_bad : ∃ sh is, form (.ncall (.v ⟨40, by decide⟩) (.v ⟨80, by decide⟩) 4 (.w 8) 63 31) = some sh ∧ (small [(8, 63)]).issuer = some is ∧ sh.firstError is = none ∧ is.g.entering = none
    ∧ ∃ j ∈ is.lanes, (!canonical (callOf is (.v ⟨80, by decide⟩) (.w 8) 63 31 0 j).1 || (callOf is (.v ⟨80, by decide⟩) (.w 8) 63 31 0 j).1.toNat % 64 ≠ 0) = true :=
  ⟨_, _, rfl, issues _ (by decide +kernel), by decide +kernel, by decide +kernel, by decide +kernel⟩

theorem wit_neural_idle : ∃ sh is, form (.ncall (.v ⟨40, by decide⟩) (.v ⟨80, by decide⟩) 4 (.w 8) 63 31) = some sh ∧ (idle []).issuer = some is ∧ sh.firstError is = none ∧ is.g.entering = none ∧ is.lanes = [] :=
  ⟨_, _, rfl, issues _ (by decide +kernel), by decide +kernel, by decide +kernel, by decide +kernel⟩

/-- Sixteen closed bins of other handles, and a group whose lane 3 has not entered yet. -/
def noBins (e : Option (Nat × List Nat)) : State :=
  (groupWith [] (fun g => { g with entering := e })).updCluster (clusterOf core0) (fun c => { c with bins := List.replicate 16 ⟨0, 64, [], 0, true⟩, tiles := List.replicate 16 ⟨0, 64, [], none, 0, none, ⟨[], none⟩⟩ })
theorem wit_neural_held (e : Option (Nat × List Nat)) (h : e = none ∨ e = some (1, [3])) :
    ∃ sh is, form (.ncall (.v ⟨40, by decide⟩) (.v ⟨80, by decide⟩) 4 (.w 8) 63 31) = some sh ∧ (noBins e).issuer = some is ∧ sh.firstError is = none ∧ is.g.entering = e
    ∧ (enterCalls (clusterOf is.core) is.team.part ((noBins e).coreClock is.core) (callOf is (.v ⟨80, by decide⟩) (.w 8) 63 31 1) [3] (noBins e)).2 ≠ [] := by
  rcases h with rfl | rfl <;>
  exact ⟨_, _, rfl, issues _ (by decide +kernel), by decide +kernel, by decide +kernel, by decide +kernel⟩

/-- A weight set of a handle, its words fetched. -/
def set0 : BobSet :=
  { handle := 0, part := 0, key := 1, off := 0, foot := 64, words := [1], ready := true, pins := [], used := 0, filler := 0, evict := false }
/-- The small state with that set on its core. -/
def held0 : State := (small []).updCore core0 (fun c => { c with bob := 16384, sets := [set0] })
/-- NeuralCallsAndWeightHints. -/
theorem wit_hint : ∃ sh is, form (.npin (.w 8)) = some sh ∧ held0.issuer = some is ∧ sh.firstError is = none ∧ handlesOf is (.w 8) = [0] :=
  ⟨_, _, rfl, issues _ (by decide +kernel), by decide +kernel, by decide +kernel⟩

/-- CollectivesAreIssuedAndComplete. -/
theorem wit_coll : ∃ sh is, form (.coll (.w 8) (.inl ⟨0, by decide⟩)) = some sh ∧ (small []).issuer = some is ∧ sh.firstError is = none ∧ is.lanes ≠ [] ∧ canonical (is.g.src64 Lane.blank (.w 8)) = true ∧ (is.g.src64 Lane.blank (.w 8)).toNat % 64 = 0 ∧ refField is (.inl ⟨0, by decide⟩) = none :=
  ⟨_, _, rfl, issues _ (by decide +kernel), by decide +kernel, by decide +kernel, by decide +kernel, by decide +kernel⟩

theorem wit_coll_bad : ∃ sh is, form (.coll (.w 8) (.inl ⟨0, by decide⟩)) = some sh ∧ (small [(8, 1)]).issuer = some is ∧ sh.firstError is = none ∧ is.lanes ≠ [] ∧ (is.g.src64 Lane.blank (.w 8)).toNat % 64 ≠ 0 :=
  ⟨_, _, rfl, issues _ (by decide +kernel), by decide +kernel, by decide +kernel, by decide +kernel⟩

theorem wit_coll_reference : ∃ sh is, form (.coll (.w 8) (.w 10)) = some sh ∧ (small [(10, 8)]).issuer = some is ∧ sh.firstError is = none ∧ is.lanes ≠ [] ∧ (refField is (.w 10)).map (fun x => (small [(10, 8)]).refAllowed is x false) = some false :=
  ⟨_, _, rfl, issues _ (by decide +kernel), by decide +kernel, by decide +kernel, by decide +kernel⟩

theorem wit_coll_idle : ∃ sh is, form (.coll (.w 8) (.w 10)) = some sh ∧ (idle []).issuer = some is ∧ sh.firstError is = none ∧ is.lanes = [] :=
  ⟨_, _, rfl, issues _ (by decide +kernel), by decide +kernel, by decide +kernel⟩

/-- LaunchesStartAndComplete. -/
theorem wit_launch_idle : ∃ sh is, form (.launch 1 (.w 8) (.inl ⟨0, by decide⟩)) = some sh ∧ (idle []).issuer = some is ∧ sh.firstError is = none ∧ is.lanes = [] :=
  ⟨_, _, rfl, issues _ (by decide +kernel), by decide +kernel, by decide +kernel⟩

theorem wit_launch_queue : ∃ sh is, form (.launch 1 (.w 8) (.lit 256)) = some sh ∧ (owned []).issuer = some is ∧ sh.firstError is = none ∧ is.lanes ≠ [] ∧ (Claims.wordOf is (.lit 256)).toNat > 255 :=
  ⟨_, _, rfl, issues _ (by decide +kernel), by decide +kernel, by decide +kernel, by decide +kernel⟩

theorem wit_launch_address : ∃ sh is, form (.launch 1 (.w 8) (.inl ⟨0, by decide⟩)) = some sh ∧ (owned [(8, 32)]).issuer = some is ∧ sh.firstError is = none ∧ is.lanes ≠ [] ∧ (is.g.src64 Lane.blank (.w 8)).toNat % 64 ≠ 0 :=
  ⟨_, _, rfl, issues _ (by decide +kernel), by decide +kernel, by decide +kernel, by decide +kernel⟩

theorem wit_launch_absent : ∃ sh is, form (.launch 1 (.w 8) (.inl ⟨0, by decide⟩)) = some sh ∧ (small []).issuer = some is ∧ sh.firstError is = none ∧ is.lanes ≠ [] ∧ (small []).queue? is.team.part (Claims.wordOf is (.inl ⟨0, by decide⟩)).toNat = none :=
  ⟨_, _, rfl, issues _ (by decide +kernel), by decide +kernel, by decide +kernel, by decide +kernel⟩

theorem wit_launch_disabled : ∃ sh is, form (.launch 1 (.w 8) (.inl ⟨1, by decide⟩)) = some sh ∧ (owned []).issuer = some is ∧ sh.firstError is = none ∧ is.lanes ≠ [] ∧ ((owned []).queue? is.team.part (Claims.wordOf is (.inl ⟨1, by decide⟩)).toNat).map (fun x => x.en) = some false :=
  ⟨_, _, rfl, issues _ (by decide +kernel), by decide +kernel, by decide +kernel, by decide +kernel⟩

theorem wit_launch_good : ∃ sh is, form (.launch 1 (.w 8) (.inl ⟨0, by decide⟩)) = some sh ∧ (owned [(8, 0x200000)]).issuer = some is ∧ sh.firstError is = none ∧ is.lanes ≠ [] ∧ ((owned [(8, 0x200000)]).queue? is.team.part 0).map (fun x => x.en) = some true ∧ (owned [(8, 0x200000)]).pendingFull is.team.part = false ∧ ((owned [(8, 0x200000)]).releaseAt is 3).2 = true ∧ (match ((owned [(8, 0x200000)]).releaseAt is 3).1.pollBuf is.run.buf with | (s2, buf, r) => r && (match engWords { pt := .lane is.core, part := is.team.part, since := none } buf 0x200000 64 (s2.updRun is.key (fun r => { r with buf := buf })) with | .ok _ _ => true | _ => false)) = true :=
  ⟨_, _, rfl, issues _ (by decide +kernel), by decide +kernel, by decide +kernel, by decide +kernel, by decide +kernel, by decide +kernel, by decide +kernel⟩

/-- LaneTrapHandlersStartAndReturn. -/
theorem wit_tret : ∃ sh is, form (.tret (.v ⟨2, by decide⟩)) = some sh ∧ (groupWith [] (fun g => { g with handler := some [none] })).issuer = some is ∧ sh.firstError is = none ∧ is.lanes ≠ [] ∧ ((groupWith [] (fun g => { g with handler := some [none] })).settled is.key).2 = true :=
  ⟨_, _, rfl, issues _ (by decide +kernel), by decide +kernel, by decide +kernel, by decide +kernel⟩

theorem wit_tret_idle : ∃ sh is, form (.tret (.v ⟨2, by decide⟩)) = some sh ∧ (edit (idle []) id (fun g => { g with handler := some [none] })).issuer = some is ∧ sh.firstError is = none ∧ is.lanes = [] :=
  ⟨_, _, rfl, issues _ (by decide +kernel), by decide +kernel, by decide +kernel⟩

/-- PresentEntersTheHeadsQueue. -/
theorem wit_present_idle : ∃ sh is, form (.present (.w 12) (.inl ⟨3, by decide⟩)) = some sh ∧ (idle []).issuer = some is ∧ sh.firstError is = none ∧ is.lanes = [] :=
  ⟨_, _, rfl, issues _ (by decide +kernel), by decide +kernel, by decide +kernel⟩

theorem wit_present_bad : ∃ sh is, form (.present (.w 12) (.lit 64)) = some sh ∧ (owned []).issuer = some is ∧ sh.firstError is = none ∧ is.lanes ≠ [] ∧ (Claims.wordOf is (.lit 64)).toNat > 63 :=
  ⟨_, _, rfl, issues _ (by decide +kernel), by decide +kernel, by decide +kernel, by decide +kernel⟩

theorem wit_present : ∃ sh is, form (.present (.w 12) (.lit 63)) = some sh ∧ (owned []).issuer = some is ∧ sh.firstError is = none ∧ is.lanes ≠ [] ∧ ((owned []).head? is.team.part 63).isSome = true ∧ ((owned []).releaseAt is 3).2 = true :=
  ⟨_, _, rfl, issues _ (by decide +kernel), by decide +kernel, by decide +kernel, by decide +kernel, by decide +kernel⟩

/-- SupervisorInstructionsNeedTheRight. -/
theorem wit_right_allowed : ∃ sh is, form (.sysrd (.w 8) (.w 9) 0) = some sh ∧ sh.priv = true ∧ (edit (owned []) (fun t => { t with sup := false }) id).issuer = some is ∧ is.team.sup = false ∧ is.run.pfx.reserved = 0
    ∧ (∀ x ∈ sh.slots, x.kinds.allows x.op = true ∧ x.fits = true) ∧ sh.slots.any (fun x => x.dst && (match x.op with | .w r => r.toNat < 8 | _ => false)) = false :=
  ⟨_, _, rfl, rfl, issues _ (by decide +kernel), by decide +kernel, by decide +kernel, by decide +kernel, by decide +kernel⟩

theorem wit_right_operand : ∃ sh is, form (.keysel (.v ⟨1, by decide⟩) (.w 9)) = some sh ∧ sh.priv = true ∧ (edit (owned []) (fun t => { t with sup := false }) id).issuer = some is ∧ is.team.sup = false ∧ is.run.pfx.reserved = 0
    ∧ ¬ (∀ x ∈ sh.slots, x.kinds.allows x.op = true ∧ x.fits = true) :=
  ⟨_, _, rfl, rfl, issues _ (by decide +kernel), by decide +kernel, by decide +kernel, by decide +kernel⟩

theorem wit_right_read_only : ∃ sh is, form (.sysrd (.w 7) (.w 9) 0) = some sh ∧ sh.priv = true ∧ (edit (owned []) (fun t => { t with sup := false }) id).issuer = some is ∧ is.team.sup = false ∧ is.run.pfx.reserved = 0
    ∧ (∀ x ∈ sh.slots, x.kinds.allows x.op = true ∧ x.fits = true) ∧ sh.slots.any (fun x => x.dst && (match x.op with | .w r => r.toNat < 8 | _ => false)) = true :=
  ⟨_, _, rfl, rfl, issues _ (by decide +kernel), by decide +kernel, by decide +kernel, by decide +kernel, by decide +kernel⟩

/-- RegistersBeyondTheBudgetStopTheTeam: v15 of a pair at budget 16 is beyond it by its second register. -/
theorem wit_budget : ∃ sh is, form (.mov (.v ⟨16, by decide⟩) (.v ⟨0, by decide⟩)) = some sh
    ∧ (groupWith [] (fun g => { g with budget := 16 })).issuer = some is
    ∧ (∃ x ∈ sh.slots, ∃ r, x.op = .v r ∧ is.g.budget < r.val + x.n)
    ∧ sh.firstError { is with g := { is.g with budget := 192 } } = none :=
  ⟨_, _, rfl, issues _ (by decide +kernel), ⟨_, List.mem_cons_self .., _, rfl, by decide +kernel⟩, by decide +kernel⟩
theorem wit_budget_kept : ∃ sh is, form (.mov (.v ⟨15, by decide⟩) (.v ⟨0, by decide⟩)) = some sh
    ∧ (groupWith [] (fun g => { g with budget := 16 })).issuer = some is ∧ sh.firstError is = none :=
  ⟨_, _, rfl, issues _ (by decide +kernel), by decide +kernel⟩

/-- ControlSpacesAreReadAndWritten. -/
theorem wit_sysrd : ∃ sh is, form (.sysrd (.w 8) (.w 9) 0) = some sh ∧ (owned [(9, 0xFC)]).issuer = some is ∧ sh.firstError is = none ∧ ¬ (0 > 4 ∨ (Claims.wordOf is (.w 9)).toNat % 4 ≠ 0 ∨ (Claims.wordOf is (.w 9)).toNat ≥ spaceSize 0) ∧ ((owned [(9, 0xFC)]).releaseAt is 3).2 = true :=
  ⟨_, _, rfl, issues _ (by decide +kernel), by decide +kernel, by decide +kernel, by decide +kernel⟩

theorem wit_sysrd_bad : ∃ sh is, form (.sysrd (.w 8) (.w 9) 0) = some sh ∧ (owned [(9, 0x100)]).issuer = some is ∧ sh.firstError is = none ∧ (0 > 4 ∨ (Claims.wordOf is (.w 9)).toNat % 4 ≠ 0 ∨ (Claims.wordOf is (.w 9)).toNat ≥ spaceSize 0) :=
  ⟨_, _, rfl, issues _ (by decide +kernel), by decide +kernel, by decide +kernel⟩

theorem wit_syswr : ∃ sh is, form (.syswr (.w 8) (.w 10) 0) = some sh ∧ (owned [(10, 0x24), (11, 1)]).issuer = some is ∧ sh.firstError is = none ∧ ¬ (0 > 4 ∨ (Claims.wordOf is (.w 10)).toNat % 4 ≠ 0 ∨ (Claims.wordOf is (.w 10)).toNat ≥ spaceSize 0) ∧ ((owned [(10, 0x24), (11, 1)]).releaseAt is 3).2 = true :=
  ⟨_, _, rfl, issues _ (by decide +kernel), by decide +kernel, by decide +kernel, by decide +kernel⟩

/-- Change the partitions. -/
def onPart (s : State) (f : Part → Part) : State := { s with parts := s.parts.map f }
/-- SupervisorChangesOfTranslationKeysAndClusters. -/
theorem wit_tlbinv_bad : ∃ sh is, form (.tlbinv (.w 8) (.lit 0x400)) = some sh ∧ (owned []).issuer = some is ∧ sh.firstError is = none ∧ (Claims.wordOf is (.lit 0x400)).toNat / 1024 ≠ 0 :=
  ⟨_, _, rfl, issues _ (by decide +kernel), by decide +kernel, by decide +kernel⟩

theorem wit_tlbinv : ∃ sh is, form (.tlbinv (.w 8) (.lit 0x3FF)) = some sh ∧ (owned []).issuer = some is ∧ sh.firstError is = none ∧ (Claims.wordOf is (.lit 0x3FF)).toNat / 1024 = 0 ∧ (Claims.wordOf is (.lit 0x3FF)).toNat / 256 % 4 = 3 ∧ is.g.tlbinv = none ∧ ((((((owned []).settle is.key).flushAll is.core).dropAcked is.core).group? is.key).map (fun g => g.askedPeer)) = some false :=
  ⟨_, _, rfl, issues _ (by decide +kernel), by decide +kernel, by decide +kernel, by decide +kernel, by decide +kernel⟩

theorem wit_tlbinv_done : ∃ sh is, form (.tlbinv (.w 8) (.lit 0x3FF)) = some sh ∧ (edit (owned []) id (fun g => { g with tlbinv := some ⟨0, 0, 0, true⟩ })).issuer = some is ∧ sh.firstError is = none ∧ is.g.tlbinv.map (fun x => x.done) = some true :=
  ⟨_, _, rfl, issues _ (by decide +kernel), by decide +kernel, by decide +kernel⟩

theorem wit_keysel_bad : ∃ sh is, form (.keysel (.lit 16) (.w 8)) = some sh ∧ (owned []).issuer = some is ∧ sh.firstError is = none ∧ (Claims.wordOf is (.lit 16)).toNat > 15 :=
  ⟨_, _, rfl, issues _ (by decide +kernel), by decide +kernel, by decide +kernel⟩

theorem wit_keysel_grant : ∃ sh is, form (.keysel (.lit 15) (.lit 0x8000003F)) = some sh ∧ (owned []).issuer = some is ∧ sh.firstError is = none ∧ (Claims.wordOf is (.lit 0x8000003F)).getLsbD 31 = true ∧ (owned []).handles = [] :=
  ⟨_, _, rfl, issues _ (by decide +kernel), by decide +kernel, by decide +kernel, by decide +kernel⟩

theorem wit_keysel : ∃ sh is, form (.keysel (.lit 15) (.lit 0x0000003F)) = some sh ∧ (owned []).issuer = some is ∧ sh.firstError is = none ∧ (Claims.wordOf is (.lit 0x3F)).getLsbD 31 = false ∧ ((owned []).releaseAt is 3).2 = true :=
  ⟨_, _, rfl, issues _ (by decide +kernel), by decide +kernel, by decide +kernel, by decide +kernel⟩

/-- The same where the key index is bound to a handle, and what the partition reached under it is held. -/
theorem wit_keysel_bound : let s := onPart (owned []) (fun p => { p with kb := List.replicate 15 none ++ [some 3] })
    ∃ sh is, form (.keysel (.lit 15) (.lit 0x0000003F)) = some sh ∧ s.issuer = some is ∧ sh.firstError is = none ∧ (s.releaseAt is 3).2 = true
      ∧ ((s.releaseAt is 3).1.part? is.team.part).map (fun p => (p.bound 15, decide (15 < p.kb.length))) = some (some 3, true) :=
  ⟨_, _, rfl, issues _ (by decide +kernel), by decide +kernel, by decide +kernel, by decide +kernel⟩

theorem wit_partctl_bad : ∃ sh is, form (.partctl (.w 9) (.inl ⟨0, by decide⟩) (.lit 0x00000002)) = some sh ∧ (owned []).issuer = some is ∧ sh.firstError is = none ∧ resizeBad (Claims.wordOf is (.lit 2)) = true :=
  ⟨_, _, rfl, issues _ (by decide +kernel), by decide +kernel, by decide +kernel⟩

theorem wit_partctl_few : ∃ sh is, form (.partctl (.w 9) (.inl ⟨0, by decide⟩) (.lit 0x00080100)) = some sh ∧ (owned []).issuer = some is ∧ sh.firstError is = none ∧ resizeBad (Claims.wordOf is (.lit 0x00080100)) = false ∧ ((owned []).releaseAt is 3).2 = true ∧ (((owned []).releaseAt is 3).1.part? is.team.part).isSome = true :=
  ⟨_, _, rfl, issues _ (by decide +kernel), by decide +kernel, by decide +kernel, by decide +kernel, by decide +kernel⟩

/-- The small state with every die in service, the partition having these clusters and this request. -/
def sized (cs : List ClusterKey) (r : Option Resize) : State :=
  { owned [] with dies := State.initDies.map (fun d => (d.1, { d.2 with inService := true })), parts := [{ part0 with clusters := cs, resize := r }] }

theorem wit_partctl_pending : ∃ sh is, form (.partctl (.w 9) (.inl ⟨0, by decide⟩) (.lit 0x00080100)) = some sh ∧ (sized [⟨0, 39⟩] (some ⟨false, 1, none, none, []⟩)).issuer = some is ∧ sh.firstError is = none ∧ resizeBad (Claims.wordOf is (.lit 0x00080100)) = false ∧ ((sized [⟨0, 39⟩] (some ⟨false, 1, none, none, []⟩)).releaseAt is 3).2 = true ∧ (((sized [⟨0, 39⟩] (some ⟨false, 1, none, none, []⟩)).releaseAt is 3).1.part? is.team.part).map (fun p => p.resize.isSome) = some true :=
  ⟨_, _, rfl, issues _ (by decide +kernel), by decide +kernel, by decide +kernel, by decide +kernel, by decide +kernel⟩

theorem wit_partctl_not_owned : ∃ sh is, form (.partctl (.w 9) (.inl ⟨0, by decide⟩) (.lit 0x00002601)) = some sh ∧ (sized [⟨0, 0⟩, ⟨0, 39⟩] none).issuer = some is ∧ sh.firstError is = none ∧ resizeBad (Claims.wordOf is (.lit 0x00002601)) = false ∧ ((sized [⟨0, 0⟩, ⟨0, 39⟩] none).releaseAt is 3).2 = true ∧ (((sized [⟨0, 0⟩, ⟨0, 39⟩] none).releaseAt is 3).1.part? is.team.part).map (fun p => decide ((⟨0, 38⟩ : ClusterKey) ∈ p.clusters)) = some false :=
  ⟨_, _, rfl, issues _ (by decide +kernel), by decide +kernel, by decide +kernel, by decide +kernel, by decide +kernel⟩

theorem wit_partctl_last : ∃ sh is, form (.partctl (.w 9) (.inl ⟨0, by decide⟩) (.lit 0x00002701)) = some sh ∧ (sized [⟨0, 39⟩] none).issuer = some is ∧ sh.firstError is = none ∧ resizeBad (Claims.wordOf is (.lit 0x00002701)) = false ∧ ((sized [⟨0, 39⟩] none).releaseAt is 3).2 = true ∧ (((sized [⟨0, 39⟩] none).releaseAt is 3).1.part? is.team.part).map (fun p => p.clusters.length) = some 1 :=
  ⟨_, _, rfl, issues _ (by decide +kernel), by decide +kernel, by decide +kernel, by decide +kernel, by decide +kernel⟩

theorem wit_partctl_shrink : ∃ sh is, form (.partctl (.w 9) (.inl ⟨0, by decide⟩) (.lit 0x00002701)) = some sh ∧ (sized [⟨0, 0⟩, ⟨0, 39⟩] none).issuer = some is ∧ sh.firstError is = none ∧ resizeBad (Claims.wordOf is (.lit 0x00002701)) = false ∧ ((sized [⟨0, 0⟩, ⟨0, 39⟩] none).releaseAt is 3).2 = true ∧ (((sized [⟨0, 0⟩, ⟨0, 39⟩] none).releaseAt is 3).1.part? is.team.part).map (fun p => decide ((⟨0, 39⟩ : ClusterKey) ∈ p.clusters ∧ 2 ≤ p.clusters.length)) = some true :=
  ⟨_, _, rfl, issues _ (by decide +kernel), by decide +kernel, by decide +kernel, by decide +kernel, by decide +kernel⟩

theorem wit_partctl_grow : ∃ sh is, form (.partctl (.w 9) (.inl ⟨0, by decide⟩) (.lit 0x00082800)) = some sh ∧ (sized [⟨0, 39⟩] none).issuer = some is ∧ sh.firstError is = none ∧ resizeBad (Claims.wordOf is (.lit 0x00082800)) = false ∧ ((sized [⟨0, 39⟩] none).releaseAt is 3).2 = true ∧ 40 ≤ (((sized [⟨0, 39⟩] none).releaseAt is 3).1.dropL1 is.core |>.freeClusters none).length :=
  ⟨_, _, rfl, issues _ (by decide +kernel), by decide +kernel, by decide +kernel, by decide +kernel, by decide +kernel⟩

/-- ServiceCallsWriteTheirRecord. -/
theorem wit_svc_bad : ∃ sh is, form (.svc 7 9) = some sh ∧ (owned []).issuer = some is ∧ sh.firstError is = none ∧ is.lanes ≠ [] :=
  ⟨_, _, rfl, issues _ (by decide +kernel), by decide +kernel, by decide +kernel⟩

theorem wit_svc : ∃ sh is, form (.svc 7 24) = some sh ∧ (owned []).issuer = some is ∧ sh.firstError is = none ∧ ((owned []).releaseAt is 5).2 = true ∧ (((owned []).releaseAt is 5).1.part? is.team.part).isSome = true ∧ (((owned []).releaseAt is 5).1.group? is.key).isSome = true :=
  ⟨_, _, rfl, issues _ (by decide +kernel), by decide +kernel, by decide +kernel, by decide +kernel, by decide +kernel⟩
/-! ### Witnesses for the events -/

/-- The module running with every die in service, with that partition. -/
def board : State :=
  { State.reset with boot := .running ⟨0, 0, true⟩ 0, dies := State.initDies.map (fun d => (d.1, { d.2 with inService := true })),
                     parts := [{ part0 with clusters := [⟨0, 0⟩] }] }
/-- The running module with the small team. -/
def busy : State := { board with teams := (small []).teams, cores := (small []).cores, owners1 := (small []).owners1, mem := (small []).mem }
/-- Change the partition's heads, and its queue 0. -/
def onHead (f : Head → Head) : State := onPart board (fun p => { p with heads := p.heads.map f })
def onQueue (s : State) (f : Queue → Queue) : State := onPart s (fun p => { p with queues := p.queues.map (fun q => if q.id = 0 then f q else q) })
/-- The busy module with its group changed; its core, and its cluster, changed. -/
def onGroup (f : Group → Group) : State := edit busy id (fun g => f { g with run := none })
def onCore (f : Core → Core) : State := busy.updCore core0 f
def onCluster (f : Cluster → Cluster) : State := busy.updCluster (clusterOf core0) f
/-- A launch of queue 0 at a stage. -/
def launch0 (st : LaunchStage) (r : Option LaunchRec) : Launch :=
  { key := 0, part := 0, queue := 0, bytes := [], rec' := r, stage := st, pending := true, nextTeam := 0, poisoned := false, logPos := 0,
    recordDue := none, killClock := none }
def queued (l : Launch) (q : Queue → Queue) : State :=
  { onQueue board (fun x => q { x with launches := [0] }) with launches := [l] }
def none' : PeerBuf := { got := [], asked := none }
def bulk0 (batch : Option W32) (done : Bool) : BulkOp := ⟨0, 0, batch, done, false, false⟩

/-- StoresLeaveAndLinesExpire: the line at 4,095 clocks and at 4,096; a scratchpad store, a global store, a store on its way. -/
def lined (n : Nat) : State := { onCore (fun c => { c with l1 := [⟨0, .none, [], 0, none, [], []⟩] }) with dies := [(0, { Die.init with cycles := n })] }
theorem wit_line_young : ((lined 4095).core core0).l1 = [] ++ ⟨0, .none, [], 0, none, [], []⟩ :: [] ∧ (lined 4095).clock core0.die < 0 + 4096 := by decide +kernel
theorem wit_line_old : ((lined 4096).core core0).l1 = [] ++ ⟨0, .none, [], 0, none, [], []⟩ :: [] ∧ 0 + 4096 ≤ (lined 4096).clock core0.die := by decide +kernel
def entry0 (sp : Bool) : QEntry := ⟨0, 0, .store sp 4 false, 0, [⟨0, if sp then 256 else 0x200100, [7], .todo⟩], false⟩
def storing (sp : Bool) : State := onGroup (fun g => { g with queue := [entry0 sp] })
theorem wit_store_leaves (sp : Bool) : ∃ tm g, mayLeaveNow (storing sp) key tm core0 g (entry0 sp) [] :=
  ⟨_, _, ⟨Option.some_get (by cases sp <;> decide +kernel) |>.symm, by cases sp <;> decide +kernel,
    Option.some_get (by cases sp <;> decide +kernel) |>.symm, by cases sp <;> decide +kernel, by cases sp <;> rfl, by cases sp <;> decide +kernel,
    by cases sp <;> decide +kernel, by cases sp <;> decide +kernel⟩, by cases sp <;> decide +kernel⟩
theorem wit_store_target : (match (storing false).access (.lane core0) 0 .wr 0x200100 with | (_, .ok (.mem ..)) => true | _ => false) = true := by
  decide +kernel
/-- A store on its way of a core in order, and of one that has performed the store ahead of another. -/
theorem wit_flight (n : Nat) (h : n = 0 ∨ n = 1) :
    let s := onCore (fun c => { c with flights := [.bytes key 0x100 [7] (.part 0) 0], passed := n })
    (s.group? key).map (fun g => g.queue) = some [] ∧ s.coreOf key = some core0 ∧ (s.core core0).flights = [] ++ .bytes key 0x100 [7] (.part 0) 0 :: []
    ∧ 0x100 / 128 ∉ ([] : List Flight).filterMap Flight.line ∧ (s.core core0).passed = n
    ∧ n ≤ ((s.core core0).flights.filterMap Flight.line).length := by
  rcases h with rfl | rfl <;> decide +kernel

/-- LandingWritesItsWords: the second of two operations, done in lane 3. -/
theorem wit_landing :
    let o (n : Nat) : PendOp := ⟨n, n, 0, 0, 0, .v ⟨2, by decide⟩, 1, .special 0, [⟨3, 0, [], .done [5]⟩], 0, none', [(3, 1)], [(3, Causes.fpFlag)]⟩
    let s := onGroup (fun g => { g with pend := [o 0, o 1] })
    (s.team? key.team).isSome = true ∧ (s.group? key).map (fun g => g.pend) = some ([o 0] ++ o 1 :: []) ∧ ([o 0, o 1].map (fun x => x.seq)).Nodup
    ∧ (∀ x ∈ [o 0, o 1], x.seq ≤ 1 → ∀ l ∈ x.lanes, l.acc.open = false) := by decide +kernel
/-- FencesUpdatesAndBatches: a sealed batch whose operation is done, and one whose operation is not. -/
theorem wit_batch (d : Bool) :
    let s := onGroup (fun g => { g with batchNo := 1, bulk := [bulk0 (some 1) d] })
    (s.team? key.team).isSome = true ∧ (s.group? key).map (fun g => (g.handler.isNone, g.batchNo, g.bulk)) = some (true, 1, [bulk0 (some 1) d])
    ∧ s.batchCount key = 0 := by cases d <;> decide +kernel

/-! #### Engines -/

def job0 (k : ShuttleKind) (r : Option (List W32)) : ShuttleJob :=
  { group := key, op := 0, seq := 0, kind := k, rec' := r, pos := 0, within := 0, bytes := 0, fold := 0, scale := none, row := none, parked := none,
    held := [], tags := [], logPos := 0, sPos := 0, bPos := 0, buf := none' }
/-- The core with one Shuttle entry, and with a translation for its engines. -/
def serving (j : ShuttleJob) : State := onCore (fun c => { c with shuttle := [j], ahead := c.tlb })
def copy0 : CopyOp := { dir := 0, wc := 0, wc1 := 0, record := 0x200000, ref := none }
/-- A record of one row of four FP32 elements at 0x200100. -/
def shape4 : List W32 := [0x1101, 0, 0x200100, 0, 4, 0] ++ List.replicate 26 0
theorem wit_serves (j : ShuttleJob) (h : j = job0 (.copy copy0) none ∨ j = job0 (.copy copy0) (some shape4) ∨ j = job0 (.gwin 0x200000 255) none
      ∨ j = job0 (.trq 0x10000 0 0 0) none) : ∃ tm s', servesJob (serving j) s' core0 j tm := by
  rcases h with rfl | rfl | rfl | rfl <;>
  exact ⟨_, _, _, by decide +kernel, rfl, Prod.ext rfl (by decide +kernel), (Option.some_get (by decide +kernel)).symm, rfl⟩
/-- ShuttleServesItsQueue: a zero record is bad; a row is read; past the last row; the words of a window; a good record. -/
theorem wit_record : let s := serving (job0 (.copy copy0) none)
    (match s.team? 0 with
     | some tm => (match srcWords ((job0 (.copy copy0) none).reader core0 tm) none' 0x200000 32 s with | .ok ws _ => shapeBad ws | _ => false)
     | none => false) = true := by decide +kernel
theorem wit_record_good : shapeBad shape4 = false ∧ ((serving (job0 (.copy copy0) none)).team? 0).map (fun tm =>
    copyBad (CopyCtl.of copy0) (ShapeRec.ofWords shape4) tm) = some false := by decide +kernel
theorem wit_row : let j := job0 (.copy copy0) (some shape4)
    let r := ShapeRec.ofWords shape4
    (match (serving j).team? 0 with
     | some tm => (match presentScale (j.reader core0 tm) j.buf r 0 (serving j) with
       | .ok p s2 => (match readGlobalRow (j.reader core0 tm) j.buf r 0 p 0 0 (r.sz 0) s2 with | .ok _ _ => decide (j.pos < r.rows) | _ => false)
       | _ => false)
     | none => false) = true := by decide +kernel
theorem wit_window : let s := serving (job0 (.gwin 0x200000 255) none)
    (s.part? 0).isSome = true ∧ (match s.team? 0 with
     | some tm => (match srcWords ((job0 (.gwin 0x200000 255) none).reader core0 tm) none' 0x200000 8 s with | .ok _ _ => true | _ => false)
     | none => false) = true := by decide +kernel
/-- ArrayPerformsItsQueue: MZERO of tile 7. -/
theorem wit_array : let j : TileJob := ⟨key, 0, 0, .mzero 7, 5, [], 0, 0⟩
    let s := edit (onCore (fun c => { c with tiles := [j] })) (fun t => { t with tiles := List.replicate 8 [] }) id
    (s.core core0).tiles = j :: [] ∧ (s.storesBefore j.group core0 j.seq).2 = true
    ∧ ((s.storesBefore j.group core0 j.seq).1.team? 0).map (fun t => t.tiles.length) = some 8 := by decide +kernel
/-- CollectivesAreIssuedAndComplete: the one collective of its set, its words written. -/
theorem wit_collective : let c : Coll := ⟨0, 0, 0, true, key, 0, 0, core0, 0, none, [], none, [], [], [], [], false, none, false, 0, false, none, 0, none', []⟩
    ({ busy with colls := [c] }.colls.filter (fun x => x.issued && x.part = 0 && x.parked.isNone && (x.record.isEmpty || (x.set = 0 && x.cid = 0)))) = [c] := by
  decide +kernel

/-! #### The Heddle, reorder sites and lane traps -/

def call0 : Call := ⟨key, 0, 0, [0], 1⟩
def tile0 (n : Option Nat) : HTile := ⟨0, 0, [call0], n, 0, none, none'⟩
/-- BinsBecomeTilesThatRun: a bin at 255 and at 256 clocks; a tile whose set is held, one whose set is fetched, one that runs. -/
theorem wit_bin (n : Nat) (h : n = 255 ∨ n = 256) :
    let s := { onCluster (fun c => { c with bins := [⟨0, 0, [call0], 0, false⟩] }) with dies := [(0, { Die.init with cycles := n })] }
    (s.cluster (clusterOf core0)).bins = [] ++ ⟨0, 0, [call0], 0, false⟩ :: [] ∧ (0 + 256 ≤ s.clock 0 ↔ n = 256)
    ∧ s.binForced ⟨0, 0, [call0], 0, false⟩ = false ∧ (s.cluster (clusterOf core0)).tiles.length < Config.heddleBins := by
  rcases h with rfl | rfl <;> decide +kernel
theorem wit_tile_held : let s := (onCluster (fun c => { c with tiles := [tile0 none] })).updCore core0 (fun c => { c with sets := [set0] })
    (s.cluster (clusterOf core0)).tiles = [] ++ tile0 none :: [] ∧ s.holder (clusterOf core0) 0 0 (s.callLaunches [call0]) = some core0
    ∧ (∀ b ∈ (s.core core0).sets, ∀ y ∈ [call0], netFits b.words y.inputs.length y.nout = true) := by
  decide +kernel
/-- The busy module with words written at a key; virtual address 0x200000 names key 0. -/
def wrote (s : State) (k : Nat) (ws : List W32) : State := { s with mem := s.mem.writeList k (bytesOfWords ws) }
theorem wit_tile_fetched : let t : HTile := { tile0 none with handle := 0x200000 }
    let s := (onCluster (fun c => { c with tiles := [t] })).updCore core0 (fun c => { c with ahead := c.tlb })
    (s.cluster (clusterOf core0)).tiles = [] ++ t :: [] ∧ s.holder (clusterOf core0) 0 0x200000 (s.callLaunches [call0]) = none
    ∧ (match readNet (s.weightReader core0 0) none' 0x200000 s with | .ok ws _ => netBad ws | _ => false) = true := by
  decide +kernel
/-- A hint for a good record at 0x200100 of one layer of one unit. -/
def hint0 (h : Addr) : Hint := { part := 0, handle := h, launch := 0, pin := true, buf := none' }
def hinted : State := wrote ((onCluster (fun c => { c with hints := [hint0 0x200100] })).updCore core0 (fun c => { c with ahead := c.tlb, bob := 16384 }))
  0x100 [1, 320]
theorem wit_hint_held : let s := (onCluster (fun c => { c with hints := [hint0 0] })).updCore core0 (fun c => { c with sets := [set0] })
    (s.cluster (clusterOf core0)).hints = [] ++ hint0 0 :: [] ∧ s.holder (clusterOf core0) 0 0 [0] = some core0 := by decide +kernel
theorem wit_hint_placed : (hinted.cluster (clusterOf core0)).hints = [] ++ hint0 0x200100 :: []
    ∧ hinted.holder (clusterOf core0) 0 0x200100 [0] = none
    ∧ (match readNet (hinted.weightReader core0 0) none' 0x200100 hinted with
       | .ok ws s2 => !netBad ws && decide (∃ x ∈ clusterCores (clusterOf core0), netFoot ws ≤ (s2.core x).bob)
           && (s2.placeSet (clusterOf core0) 0 0x200100 (netFoot ws)).isSome
       | _ => false) = true := by decide +kernel
theorem wit_set_fetched : let b : BobSet := { set0 with handle := 0x200100, words := 1 :: 320 :: List.replicate 18 0, ready := false }
    let j : ShuttleJob := { job0 (.bobbin 0 0x200100) none with group := ⟨9, 0⟩ }
    let s := wrote (onCore (fun c => { c with sets := [b], shuttle := [j], ahead := c.tlb })) 0x100 [1, 320]
    s.fetchTurn (clusterOf core0) = some (core0, j, 0, 0x200100) ∧ (s.core core0).sets.find? (fun b => b.part = 0 && b.handle = 0x200100 && !b.ready) = some b
    ∧ (match engWords (s.weightReader core0 0) none' (0x200100 + 80) 60 s with | .ok _ _ => true | _ => false) = true := by decide +kernel
theorem wit_tile_runs : let s := (onCluster (fun c => { c with tiles := [tile0 (some 0)] })).updCore core0 (fun c => { c with sets := [set0] })
    (s.cluster (clusterOf core0)).tiles = [] ++ tile0 (some 0) :: [] ∧ s.heddleTile core0 = some (0, tile0 (some 0))
    ∧ (s.core core0).setOf (tile0 (some 0)) = some set0 ∧ s.heddleTurn core0 = true ∧ netSteps set0.words = 1 := by decide +kernel
/-- The slot of the wheel that belongs to the operations, one of which is ready. -/
theorem wit_tile_waits : let s := (onCluster (fun c => { c with tiles := [tile0 (some 0)] })).updCore core0 (fun c =>
      { c with sets := [set0], wheel := 0, tiles := [⟨key, 0, 0, .mzero 7, 5, [], 0, 0⟩] })
    s.heddleTile core0 = some (0, tile0 (some 0)) ∧ s.heddleTurn core0 = false := by decide +kernel
/-- ReorderMovesLanesByKey: the one group of the team is held at its site. -/
theorem wit_reorder : let h : Held := ⟨3, 0x1018, [(0, 9), (3, 1)]⟩
    let s := onGroup (fun g => { g with held := some h })
    (match s.team? 0 with
     | some tm => decide (firstSome (fun (g : Group) => g.heldAt 3) tm.groups = some h ∧ (∀ g ∈ tm.groups, g.stopped = false)
        ∧ (∀ g ∈ tm.groups, (g.heldAt 3).isSome = true ∧ g.queue = [] ∧ g.lanes.length = 64 ∧ g.pend = [])
        ∧ (tm.groups.map (fun g => g.idx)).Nodup)
     | none => false) = true := by decide +kernel
def trap0 : LaneTrap := ⟨Causes.laneTrap, 0x200000, 7, 0x200000, 0x200010⟩
/-- LaneTrapHandlersStartAndReturn: a young bin, an old one, and a closed one whose team has room. -/
theorem wit_trap_bin (n : Nat) (h : n = 255 ∨ n = 256) :
    let b : TrapBin := ⟨0, trap0, [(0, 2)], 0, false⟩
    let s := { onCluster (fun c => { c with traps := [b] }) with dies := [(0, { Die.init with cycles := n })] }
    (s.cluster (clusterOf core0)).traps = [] ++ b :: [] ∧ (0 + 256 ≤ s.clock 0 ↔ n = 256) ∧ s.trapForced b = false := by
  rcases h with rfl | rfl <;> decide +kernel
theorem wit_handler : let b : TrapBin := ⟨0, trap0, [(0, 2)], 0, true⟩
    let s := (onGroup id).updCluster (clusterOf core0) (fun c => { c with traps := [b] })
    (s.cluster (clusterOf core0)).traps = [] ++ b :: [] ∧ (s.part? 0).map (fun p => p.halted) = some false
    ∧ (match s.team? 0 with
       | some tm => decide (tm.core = some core0 ∧ (∀ g ∈ tm.groups, g.stopped = false ∧ g.handler = none ∧ g.idx < 16)
          ∧ (s.part? 0).map (fun p => s.backOn p core0) = some none
          ∧ (settleAll [{ team := 0, idx := 0 }] s).2 = true
          ∧ (s.part? 0).map (fun p => (settleAll [{ team := 0, idx := 0 }] s).1.claimFor p (.trap 0 0 2)) = some none
          ∧ (bestQuarter ((settleAll [{ team := 0, idx := 0 }] s).1.room core0 []).quarters (16 * tm.rec'.tbudget)).isSome = true)
       | none => false) = true := by decide +kernel

/-! #### Power, the manager, launches -/

/-- PowerBootAndClock: a good image, recovery mode, heat, and a power window at and above its limits. -/
theorem wit_boot : State.reset.boot = .rom ∧ State.reset.flash.pufOk = true ∧ State.reset.flash.slot0 = some ⟨0, 0, true⟩
    ∧ goodImage State.reset.flash ⟨0, 0, true⟩ := ⟨rfl, rfl, rfl, rfl, by decide⟩
theorem wit_boot_second : let f : Flash := { Flash.init with slot0 := some ⟨0, 0, false⟩, slot1 := some ⟨1, 0, true⟩ }
    (∀ x, f.slot0 = some x → ¬ goodImage f x) ∧ goodImage f ⟨1, 0, true⟩ := by
  refine ⟨?_, rfl, by decide⟩
  rintro x hx ⟨h, -⟩
  obtain rfl := Option.some.inj hx
  exact absurd h (by decide)
theorem wit_recovery : { State.reset with boot := .recovery }.boot = .recovery ∧ goodImage State.reset.flash ⟨0, 0, true⟩ := ⟨rfl, rfl, by decide⟩
theorem wit_power : board.booted = true ∧ (board.die 7).inService = true ∧ 4600000 < 4600001 ∧ (∃ e ∈ board.dies, e.2.inService = true ∧ 350 < e.2.mhz) := by
  decide +kernel
theorem wit_power_floor : let s : State := { board with dies := board.dies.map (fun (d : Nat × Die) => (d.1, { d.2 with mhz := 350 })) }
    s.booted = true ∧ (∀ e ∈ s.dies, e.2.inService = true → e.2.mhz ≤ 350) ∧ (s.part? 0).map (fun p => p.frozen) = some none := by decide +kernel
/-- ManagerGivesAndTakesResources. -/
theorem wit_create : board.booted = true ∧ board.part? 63 = none ∧ (board.die 7).inService = true ∧ board.sharesBut 63 + 12 ≤ 16
    ∧ (∀ c ∈ [(⟨0, 1⟩ : ClusterKey), ⟨7, 39⟩], c ∈ board.freeClusters none) := by decide +kernel
theorem wit_assign : (board.freeQueue 31).isSome = true ∧ (board.part? 0).map (fun p => (p.queues.map (fun x => x.id), p.heads.map (fun x => x.id))) =
    some ([0, 1], [63]) ∧ (∀ o ∈ board.parts, ∀ x ∈ o.heads, x.phys ≠ 63) ∧ board.sharesBut 0 + 16 ≤ 16 ∧ board.handles = [] := by decide +kernel
theorem wit_granule : board.power = true ∧ { board with power := false }.power = false ∧ assocGet Owner.none board.owners1 (2 ^ 17 - 1) ≠ .part 63 := by decide +kernel
theorem wit_grow : let s := onPart board (fun p => { p with resize := some ⟨false, 40, some 7, none, []⟩ })
    (s.part? 0).map (fun p => p.resize.isSome) = some true ∧ 40 ≤ (s.freeClusters (some 7)).length := by decide +kernel
theorem wit_shrink : let s := onPart board (fun p => { p with clusters := [⟨0, 0⟩, ⟨0, 39⟩], removing := [⟨0, 39⟩], resize := some ⟨true, 39, some 0, none, []⟩ })
    (s.part? 0).map (fun p => (p.removing, p.resize.map (fun r => r.moved))) = some ([⟨0, 39⟩], some []) ∧ s.teams = []
    ∧ (s.cluster ⟨0, 39⟩).bins = [] ∧ (s.cluster ⟨0, 39⟩).tiles = [] ∧ (∀ e ∈ s.cores, e.2.flights = []) := by decide +kernel
theorem wit_invalidated : let s := onGroup (fun g => { g with tlbinv := some ⟨0, 0, 0, false⟩ })
    (s.group? key).map (fun g => g.tlbinv) = some (some ⟨0, 0, 0, false⟩) ∧ (s.part? 0).isSome = true ∧ s.peers = [] := by decide +kernel

/-- GroupsAreSavedAndResumed: a drained victim, a saved group, a core with and without teams. -/
theorem wit_saved : let s := onGroup (fun g => { g with draining := true })
    (s.group? key).map (fun g => (g.draining, g.stopped, g.held, g.quiet key (s.core core0).flights)) = some (true, false, none, true)
    ∧ s.coreOf key = some core0 := by decide +kernel
theorem wit_resumed : let s := onGroup (fun g => { g with quarter := none, evicted := some 0 })
    (s.part? 0).map (fun p => (p.frozen, p.resetting, (s.groupToResume p).map (fun x => (x.1, x.2.1)))) = some (none, false, some (key, core0))
    ∧ (s.group? key).isSome = true := by decide +kernel
theorem wit_team_resumed : let s := edit (onGroup (fun g => { g with quarter := none, evicted := some 0 })) (fun t => { t with core := none }) id
    (s.part? 0).map (fun p => ((s.groupToResume p).isNone, (s.teamToResume p).isSome)) = some (true, true) := by decide +kernel
theorem wit_bobbin : (∀ t ∈ board.teams, t.core = some core0 → board.teamOver t = true) ∧ (∃ t ∈ busy.teams, t.core = some core0 ∧ busy.teamOver t = false) := by
  decide +kernel

/-- A record that asks for one team of one group. -/
def rec1 : LaunchRec := { placedRec with tiles := 0 }
/-- LaunchesStartAndComplete: a queued launch with a bad record, one checked, one over. -/
theorem wit_launch_bad : let s := queued (launch0 .queued none) id
    (s.queue? 0 0).map (fun x => (x.en, (s.queueLaunches x).map (fun l => l.stage))) = some (true, [.queued])
    ∧ LaunchRec.ofWords (wordsOfBytes 64 []) (fun _ => true) = none := by decide +kernel
theorem wit_launch_checked : let s := queued (launch0 .queued (some rec1)) id
    (s.queue? 0 0).map (fun x => (s.queueLaunches x).map (fun l => (l.stage, l.rec'))) = some [(.queued, some rec1)] ∧ rec1.deps = [] := by decide +kernel
theorem wit_launch_over : let l := { launch0 .eligible (some rec1) with nextTeam := 1 }
    let s := queued l id
    (s.queue? 0 0).map (fun x => s.queueLaunches x) = some [l] ∧ (∀ tm ∈ s.teams, tm.launch = l.key → s.teamOver tm = true)
    ∧ l.nextTeam = rec1.gx * rec1.gy * rec1.gz := by decide +kernel
/-- TeamsArePlacedAndBound: the next team of the partition's one queue, and a core that fits. -/
theorem wit_place : let s := onPart (queued (launch0 .eligible (some rec1)) id) (fun p => { p with queues := p.queues.take 1 })
    (s.part? 0).map (fun p => (p.queues.length, p.frozen, p.resetting, p.queues.map (fun x => (s.nextOf x).isSome), (s.coreFor p (s.shut p (.new 0 0)) rec1.need).isSome)) =
      some (1, none, false, [true], true) ∧ (s.part? 0).map (fun p => s.groupToResume p) = some none ∧ s.wholeAway 0 = [] ∧ (∀ y ∈ s.teams, y.key ≠ s.serial) := by decide +kernel
theorem wit_binding : let b : Binding := ⟨0x200000, 0, false, 0⟩
    let s := (edit busy (fun t => { t with bindings := [b] }) id).updCore core0 (fun c => { c with ahead := c.tlb })
    (match s.team? 0 with
     | some tm => decide (nth tm.bindings tm.bindPos = some b ∧ tm.bindParked = none ∧ tm.stop = none ∧ tm.bindBuf.asked = none
        ∧ (match srcWords { pt := .shuttle core0, part := tm.part, since := none, strict := true } tm.bindBuf b.shape.toNat 32 s with | .ok ws _ => shapeBad ws | _ => false) = true)
     | none => false) = true := by decide +kernel

/-! #### Recovery -/

/-- WatchdogsKillAndReset: a watchdog that has just expired, one that has not, a kill at its end of GRACE. -/
theorem wit_watchdog (n : Nat) (h : n = 99 ∨ n = 100) : let s := queued (launch0 .eligible (some rec1)) (fun x => { x with wdog := 100, watch := n })
    (s.queue? 0 0).map (fun x => (decide (x.wdog ≤ x.watch), x.wdrst, (s.queueLaunches x).map (fun l => l.stage))) = some (decide (n = 100), false, [.eligible])
    ∧ (s.part? 0).map (fun p => (p.frozen, p.resetting)) = some (none, false) := by rcases h with rfl | rfl <;> decide +kernel
theorem wit_grace (n : Nat) (h : n = 9 ∨ n = 10) :
    let s := { queued { launch0 (.killed Causes.watchdog 0) (some rec1) with killClock := some 0 } (fun x => { x with grace := 10 }) with engines := [(0, n)] }
    (s.queue? 0 0).map (fun x => (decide (0 + x.grace ≤ s.engineClock x), (s.queueLaunches x).map (fun l => l.stage))) =
      some (decide (n = 10), [.killed Causes.watchdog 0]) ∧ s.teams = [] := by rcases h with rfl | rfl <;> decide +kernel
/-- ResetEndsEverythingOfItsPartition: a reset with room for its record, and a frozen partition. -/
theorem wit_reset : let s := onPart busy (fun p => { p with resetting := true, resetCause := some (Causes.resetRequested, none), tq := some 0 })
    (s.part? 0).map (fun p => p.resetting) = some true ∧ (s.part? 0).map (fun p => p.resetCause) = some (some (Causes.resetRequested, none))
    ∧ (s.part? 0).map (fun p => decide (1 ≤ p.tqFree)) = some true ∧ s.launches.isEmpty = true := by
  decide +kernel
theorem wit_dump (n : Nat) (h : n = 0 ∨ n = 2048) : let s := onPart (onGroup id) (fun p => { p with frozen := some Causes.powerFreeze, dumpGr := n })
    (s.part? 0).map (fun p => (p.frozen.isSome, p.dumped, p.resetting, p.dumpGr)) = some (true, false, false, n)
    ∧ (∀ tm ∈ s.teams, tm.part = 0 → ∀ g ∈ tm.groups, g.run = none) := by rcases h with rfl | rfl <;> decide +kernel
/-- StopRecordsAndTeamActions: a stopped group without a record, with and without a cause of its own; a named team; a notice. -/
def stop0 : StopCause := StopCause.at Causes.softwareTrap 0x200000
def stoppedS (c : Option StopCause) (r : Option (Option Nat)) : State :=
  edit (onPart (onGroup (fun g => { g with stopped := true, cause := c, recorded := r, trapRun := some (Run.before 0 0x200000) })) (fun p => { p with taSeq := 5 }))
    (fun t => { t with stop := some (stop0, 0, 0) }) id
theorem wit_stop_record (b : Bool) : let s := stoppedS (if b then some stop0 else none) none
    (match s.team? 0, s.group? key with
     | some tm, some g => decide (tm.stop = some (stop0, 0, 0) ∧ tm.ended = false ∧ s.firstOpen tm = false ∧ g.stopped = true ∧ g.recorded = none
        ∧ g.drained (s.core core0).flights (s.parkedCalls key) (s.heldTiles key) key = true ∧ g.allExited = false
        ∧ (g.splits.find? (fun y => y.slot = g.lastSlot)).isSome = true)
     | _, _ => false) = true := by cases b <;> decide +kernel
theorem wit_team_action : let s := stoppedS (some stop0) (some (some 5))
    (match s.part? 0 with
     | some p => (match s.named p with
       | .team tm => decide (tm.stop = some (stop0, 0, 0) ∧ (∀ g ∈ tm.groups, g.recorded = some (some 5)))
       | _ => false)
     | none => false) = true := by decide +kernel
/-- RESUME of a team whose one group was stopped at a software trap of its split, or of lanes 0 and 1 that wait for a slot (R400). -/
theorem wit_team_resume (m : Mask) (h : m = 0 ∨ m = 3) : let s := edit (stoppedS (some stop0) (some (some 5))) id (fun g => { g with trapLanes := m })
    (match s.part? 0, s.team? 0, s.group? key with
     | some p, some tm, some g => decide (stop0.cause = 0x100#10 ∧ (∀ y ∈ tm.groups, y.recorded = some (some 5)) ∧ tm.group? 0 = some g
          ∧ g.trapRun = some (Run.before 0 0x200000) ∧ (skipCode (.lane core0) tm (0 - 1) 0x200000 s).2 = some 0x200004
          ∧ (nth g.lanes 1).isSome = true ∧ (g.lane 1).st = .active 0 ∧ (m = 3 ↔ m.getLsbD 1 = true))
        && (match s.named p with | .team y => decide (y = tm) | _ => false)
     | _, _, _ => false) = true := by rcases h with rfl | rfl <;> decide +kernel
/-- One load of lane 3 is parked at a page, and a notice says so. -/
def parkedLoad : PendOp := ⟨0, 0, 0, 0, 0, .v ⟨2, by decide⟩, 1, .load false 4 false 0 false false, [⟨3, 0x300000, [], .parked⟩], 0, none', [], []⟩
def noticed : State := onPart (onGroup (fun g => { g with pend := [parkedLoad] })) (fun p => { p with taSeq := 5, notices := [⟨5, key, 0x300000, true⟩] })
theorem wit_notice : let s := noticed
    (match s.part? 0 with | some p => (match s.named p with | .notice n => decide (n.va = 0x300000) | _ => false) | none => false) = true := by decide +kernel
theorem wit_nothing : (match board.part? 0 with | some p => (match board.named p with | .nothing => true | _ => false) | none => false) = true := by decide +kernel
/-- SparesReplaceFailedParts. -/
theorem wit_spare : (board.die 0).inService = true ∧ nth (board.die 0).clusterMap (159 / 4) = some (some 39) ∧ (board.die 0).spareClusters = 40 :: [41, 42, 43]
    ∧ nth (board.die 0).sliceMap 47 = some (some 47) ∧ (board.die 0).spareSlices = 48 :: [49]
    ∧ (∀ i, i < 48 → i ≠ 47 → nth (board.die 0).sliceMap i ≠ some (some 47)) := by decide +kernel
theorem wit_no_spare : let s := { board with dies := [(0, { (board.die 0) with spareClusters := [] })] }
    (s.die 0).inService = true ∧ nth (s.die 0).clusterMap 0 = some (some 0) ∧ (s.die 0).spareClusters = [] := by decide +kernel

/-! #### Control spaces, heads, links, the trap queue, memory -/

/-- ControlWritesChangeTheirWords: a held low half, an owned address, an enabled and a disabled queue. -/
theorem wit_control : let s := { onPart board (fun p => { p with heldLo := [(8, 0x10000)] }) with owners1 := [(0, .part 0)] }
    (s.part? 0).map (fun p => (kget 0x08 p.heldLo, p.heldRecs)) = some (some 0x10000, []) ∧ s.ownsKey 0 0x10000 = true := by decide +kernel
theorem wit_queue : (board.part? 0).map (fun p => p.queues.map (fun q => (q.id, q.en, q.cw % 8))) = some [(0, true, 0), (1, false, 0)] := by decide +kernel
/-- HeadsScanTheirFrames: a disabled valid head, a head between lines, at its last line, with work due. -/
theorem wit_head_line : let s := onHead (fun h => { h with en := true, timing := [800 * 65536 + 640, 525 * 65536 + 480, 25200], ahead := true, reported := true })
    (match s.head? 0 63 with | some h => decide (h.en = true ∧ h.latchDue = false ∧ h.reportDue = false ∧ h.dueBand = none ∧ h.line + 1 < h.vtot) | none => false) = true := by
  decide +kernel
theorem wit_head_off : (match board.head? 0 63 with | some h => decide (h.en = false ∧ h.valid = false) | none => false) = true := by decide +kernel
/-- A reference to the object at offset 0, of each phase. -/
def objAt0 (ph : Nat) : W64 := BitVec.ofNat 64 (2 ^ 63 + ph * 2 ^ 62)
/-- SessionsDeliverInOrder, HostMessagesAreAnswered, PeerMessagesAreServed: sessions of each kind, and the next packet of one. -/
def sess (k : SessionKind) : Session := ⟨5, k, 0, 1, 1, [], [(1, 63)], 0⟩
theorem wit_session_open : board.booted = true ∧ board.session? 9 = none ∧ board.sessions = [] ∧ (board.part? 0).isSome = true := by decide +kernel
theorem wit_arrives (k : SessionKind) : ∃ s', arrives { board with sessions := [sess k] } s' (sess k) ⟨5, 1, 0, true⟩ :=
  ⟨_, rfl, rfl, rfl, rfl, by decide, rfl, by simp, by simp [sess, kget], by simp [board, State.reset], rfl⟩
theorem wit_retransmit : let s := { board with sessions := [sess .supervisor], sent := [⟨5, 1, 0, .status 1 0⟩] }
    (s.session? 5).map (fun x => kget 1 x.unacked) = some (some 63) ∧ (s.sent.find? (fun y => y.session = 5 && y.seq = 1)).isSome = true := by decide +kernel
/-- Packet 2 beyond a gap, with room for it and without. -/
theorem wit_gap (n : Nat) (h : n = 255 ∨ n = 256) : let x := { sess .supervisor with heldRx := List.replicate n (9, Instr.nop) }
    ({ board with sessions := [x] }.session? 5) = some x ∧ x.rxNext < 2 ∧ 2 < 2 ^ 63 ∧ (∀ e ∈ x.heldRx, e.1 ≠ 2) ∧ (x.heldRx.length < 256 ↔ n = 255)
    ∧ carried (.read ⟨5, 2, 0, true⟩ 0 4) = some ⟨5, 2, 0, true⟩ ∧ tooLong (.read ⟨5, 2, 0, true⟩ 0 4) = false := by
  rcases h with rfl | rfl <;> decide +kernel
/-- Packet 1 fills the gap before packet 2, and both are delivered; a KILL of a peer chip that is the next; the last number there is. -/
theorem wit_gap_filled :
    let i : Instr := .ctlrd ⟨5, 1, 0, true⟩ 0 0
    let j : Instr := .ctlrd ⟨5, 2, 0, true⟩ 0 4
    let x := { sess .supervisor with heldRx := [(1, i), (2, j)] }
    let s : State := { board with sessions := [x] }
    ∃ t, delivers 5 [i, j] s t ∧ s.hostWaits = [] ∧ (∀ y ∈ t.sessions, kget y.rxNext y.heldRx = none) ∧ t.sent.length = 2 :=
  ⟨_, ⟨_, rfl, (by simp [board, State.reset]), rfl, _, rfl, by decide +kernel, rfl, rfl⟩, by decide +kernel, by decide +kernel, by decide +kernel⟩
theorem wit_gap_end : ({ sess .supervisor with rxNext := 2 ^ 63 - 1 }).rxNext ≤ 2 ^ 63 ∧ carried (.kill ⟨5, 2 ^ 63, 0, true⟩ 0 0) = some ⟨5, 2 ^ 63, 0, true⟩
    ∧ tooLong (.pstore ⟨5, 1, 0, true⟩ 0 0 (List.replicate 1024 0)) = false ∧ tooLong (.pstore ⟨5, 1, 0, true⟩ 0 0 (List.replicate 1025 0)) = true := by
  decide +kernel
/-- PeerMessagesAreServed: an issued collective whose record has been read, without an object and with one that can be reached. -/
theorem wit_kill (r : Option W64) (h : r = none ∨ r = some (objAt0 0)) :
    let c : Coll := ⟨0, 3, 7, true, key, 0, 0, core0, 0, r, [0x500, 0, 0, 0, 0, 0, 0, 0], some [], [], [], [], [], true, none, false, 0, false, none, 0, none', []⟩
    let s : State := { busy with colls := [c], sessions := [sess (.peer 1 0)] }
    (∃ s', arrives s s' (sess (.peer 1 0)) ⟨5, 1, 0, true⟩) ∧ s.colls = [] ++ c :: [] ∧ c.record ≠ []
    ∧ (match s.team? 0 with
       | some tm => (match ({ s with colls := [{ c with aborting := true }] }).reach (.shuttle core0) tm (r.getD (objAt0 0)) .rw with | (_, .obj ..) => true | _ => false)
       | none => false) = true := by
  rcases h with rfl | rfl <;>
  exact ⟨⟨_, rfl, rfl, rfl, rfl, by decide, rfl, by simp, by simp [sess, kget], by simp [busy, board, State.reset], rfl⟩, by decide +kernel,
    by decide +kernel, by decide +kernel⟩
theorem wit_host_target : (match ({ busy with parts := busy.parts, owners1 := [(1, .part 0)] }).physAllowed 0 0x200000 1024 with | b => b) = true := by decide +kernel
/-- TrapRecordsGoToTheRing: room for three records and more, for less, and for none. -/
theorem wit_ring : let s := { onPart board (fun p => { p with tq := some 0x200000 }) with owners1 := [(1, .part 0)] }
    (s.part? 0).map (fun p => (decide (3 ≤ p.tqFree), p.heldRecs)) = some (true, []) ∧ s.ownsKey 0 0x200000 = true ∧ s.l2 = [] := by decide +kernel
theorem wit_ring_short : (board.part? 0).map (fun p => p.tqFree) = some 0 := by decide +kernel
/-- MemoryReadsBackWhatWasWritten and EveryStepKeepsMemoryCanonical: a state with memory listed, and a step that answers a next state. -/
theorem wit_memory : (∀ l ∈ placed.l2, l.cells = []) ∧ placed.mem.wf = true ∧ placed.mem.cells ≠ [] := by decide +kernel
theorem wit_step : (match step placed with | .next t => t.mem.wf | _ => false) = true := by decide +kernel
/-- DecodingAnEncodingGivesTheInstruction: a well-formed instruction with an extension word and a literal. -/
theorem wit_encoding : let i : Instr := .shfl (.v ⟨191, by decide⟩) (.lit 0xFFFFFFFF) 2 (.lit 0xFFFFFFFF) true true 5 0x8004
    WellFormed i = true ∧ (encode i).map List.length = some 6 := by decide
/-- AStepRunsTheDecodedInstruction: the placed NOP at the run's next address. -/
theorem wit_code : ∃ is, placed.agenda = [] ∧ placed.issuer = some is ∧ is.run.stalled = false ∧ is.run.opened = true ∧ is.run.left ≠ 0
    ∧ (match placed.fetchHalf (.lane is.core) is.team is.run.buf is.run.next.toNat with | (_, .ok h) => decide (h = 0x17) | _ => false) = true
    ∧ decode [0x17, 0] = .ok .nop 2 :=
  ⟨_, rfl, issues _ (by decide +kernel), by decide +kernel, by decide +kernel, by decide +kernel, by decide +kernel, by decide⟩
/-- NoInstructionIsRefused: an event on the agenda; a state in which no run issues. -/
theorem wit_agenda : { State.reset with agenda := [.event .boot] }.agenda = .event .boot :: [] ∧ State.reset.issuer = none := by decide +kernel

/-! #### Runs that end with a wait, an arrival or a return -/

/-- A run at its TRAIL that ends with a transfer, and its group changed. -/
def ending (f : Group → Group) (e : Ender) : State :=
  edit unopened id (fun g => f (quad { g with run := g.run.map (fun r => { r with opened := true, left := 0, ender := some (e, 0) }) }))
theorem ends_of (s : State) (e : Ender) (k : Option Nat) (h : s.issuer.isSome = true)
    (b : let is := s.issuer.get h
      (is.run.opened = true ∧ is.run.left = 0 ∧ 0 = is.run.named) ∧ (∀ i ∈ is.active, (is.g.lane i).mark = none ∧ (is.g.lane i).landed = [])
      ∧ is.run.ender = some (e, 0) ∧ s.lacksRun is is.run.next = false
      ∧ ∀ p ∈ is.g.joins.zipIdx, some p.2 ≠ k → p.1.enrol = 0 ∨ p.1.enrol ≠ p.1.arrived) : ∃ is, trailEnds s is 0 e 0 k :=
  ⟨_, ⟨issues _ h, b.1⟩, b.2.1, b.2.2.1, b.2.2.2.1,
    fun n x hx hk => b.2.2.2.2 (x, n) (List.mem_zipIdx_iff_getElem?.2 (by rwa [Sys2Proof.Machine.nth_eq] at hx)) hk⟩
/-- WaitsJoinsAndReturnsAtTheTrail: lane 2 arrives at a barrier of three, lane 0 having arrived: with and without the arrival of lane 3. -/
def joining (e : Mask) (g : Group) : Group :=
  { g with joins := [⟨e, 1, 0x300000⟩], lanes := mapIdx (fun i l => if i = 0 then { l with st := .joined 0 } else l) g.lanes 0 }
theorem wit_joinw (m : Mask) (h : m = 0xC ∨ m = 4) : (∃ is, trailEnds (ending (joining 0xD) (.joinw 0 m)) is 0 (.joinw 0 m) 0 (some 0))
    ∧ ((ending (joining 0xD) (.joinw 0 m)).group? key).map (fun g => (nth g.joins 0, (g.lane 0).st)) = some (some ⟨0xD, 1, 0x300000⟩, .joined 0) := by
  rcases h with rfl | rfl <;> exact ⟨ends_of _ _ _ (by decide +kernel) (by decide +kernel), by decide +kernel⟩
theorem wit_yield : (∃ is, trailEnds (ending id (.yield 0xF)) is 0 (.yield 0xF) 0 none) ∧ (ending id (.yield 0xF)).coreOf key = some core0
    ∧ ((ending id (.yield 0xF)).group? key).map (fun g => (g.lanes.any (fun l => l.isWaiting), g.splits.length, g.quarter.isSome)) = some (false, 1, true) :=
  ⟨ends_of _ _ _ (by decide +kernel) (by decide +kernel), by decide +kernel, by decide +kernel⟩
/-- What a wait on that object finds: an earlier update still to be performed, or the object's words, of phase 0. -/
def waitFinds (s : State) (ph : Nat) (held : Bool) : Bool :=
  match s.team? 0, s.group? key with
  | some tm, some g =>
    (match s.reach (.lane core0) tm (objAt0 ph) .rd with
     | (s1, .obj o _) =>
       s1.earlierAt core0 tm.part g o == held
         && (match s1.objRead o with
             | (s2, ws) => (s2.group? key == some g) && ((Obj.ofWords ws).phase == (objAt0 ph).getLsbD 62) == (ph == 0))
     | _ => false)
  | _, _ => false
theorem wit_wait (ph : Nat) (h : ph = 0 ∨ ph = 1) : let s := ending id (.wait (objAt0 ph) 3)
    (∃ is, trailEnds s is 0 (.wait (objAt0 ph) 3) 0 none) ∧ waitFinds s ph false = true := by
  rcases h with rfl | rfl <;> exact ⟨ends_of _ _ _ (by decide +kernel) (by decide +kernel), by decide +kernel⟩
/-- The wait of a group that has an update of the object still in its queue. -/
theorem wit_wait_held :
    let s := ending (fun g => { g with queue := [⟨0, 0, .barr (objAt0 0) 1, 0, [⟨0, 0, [], .todo⟩], false⟩] }) (.wait (objAt0 1) 3)
    (∃ is, trailEnds s is 0 (.wait (objAt0 1) 3) 0 none) ∧ waitFinds s 1 true = true :=
  ⟨ends_of _ _ _ (by decide +kernel) (by decide +kernel), by decide +kernel⟩
theorem wit_wait_fault : let s := ending id (.wait 0x40000000 3)
    (∃ is, trailEnds s is 0 (.wait 0x40000000 3) 0 none)
    ∧ (match s.team? 0 with
       | some tm => (match s.reach (.lane core0) tm 0x40000000 .rd with | (_, .bad ..) => true | _ => false) | none => false) = true :=
  ⟨ends_of _ _ _ (by decide +kernel) (by decide +kernel), by decide +kernel⟩
theorem wit_wait_y (ph : Nat) (h : ph = 0 ∨ ph = 1) : let s := ending id (.waitY (objAt0 ph) 3 placedAt)
    (∃ is, trailEnds s is 0 (.waitY (objAt0 ph) 3 placedAt) 0 none) ∧ (s.group? key).map (fun g => g.quarter.isSome) = some true
    ∧ waitFinds s ph false = true := by
  rcases h with rfl | rfl <;> exact ⟨ends_of _ _ _ (by decide +kernel) (by decide +kernel), by decide +kernel, by decide +kernel⟩
/-- BWAIT of a batch that is complete, of one that is not, and of one that is not sealed. -/
theorem wit_bwait (n : W32) (h : n = 0 ∨ n = 1 ∨ n = 2) : let f := fun (g : Group) => { g with batchNo := 1 }
    (∃ is, trailEnds (ending f (.bwait n 3)) is 0 (.bwait n 3) 0 none)
    ∧ (2 ^ 31 ≤ (1#32 - n).toNat ↔ n = 2) ∧ (2 ^ 31 ≤ ((ending f (.bwait n 3)).batchCount key - n).toNat ↔ n ≠ 0) := by
  rcases h with rfl | rfl | rfl <;> exact ⟨ends_of _ _ _ (by decide +kernel) (by decide +kernel), by decide +kernel⟩
/-- REORDER with a control word that fits and one that does not, and with a lane that waits elsewhere. -/
theorem wit_trail_reorder (ctl : W32) (ks : List (Nat × W32)) (h : ctl = 0x1010 ∨ ctl = 0x10010) (hk : ks = [(0, 9), (1, 7)] ∨ ks = []) :
    ∃ is, trailEnds (ending id (.reorder ctl ks)) is 0 (.reorder ctl ks) 0 none := by
  rcases h with rfl | rfl <;> rcases hk with rfl | rfl <;> exact ends_of _ _ _ (by decide +kernel) (by decide +kernel)
theorem wit_reorder_fits : ((ending id (.reorder 0x1010 [])).group? key).map (fun g => (decide (0x10 ≤ g.budget), g.role)) = some (true, 0) := by decide +kernel
/-- TRET of a handler group: its lane 1 returns to lane 5 of group 1. -/
def returning : State :=
  (ending (fun g => { g with handler := some (mapIdx (fun i _ => if i = 1 then some (1, 5) else none) g.lanes 0) }) (.tret [(1, placedAt)])).updTeam key.team
    (fun t => { t with groups := t.groups ++ t.groups.map (fun g => { g with idx := 1, run := none, handler := none }) })
theorem wit_trail_return : (∃ is, trailEnds returning is 0 (.tret [(1, placedAt)]) 0 none)
    ∧ (returning.group? key).map (fun g => (g.handler.isSome, g.originOf 1)) = some (true, some (1, 5))
    ∧ (returning.group? { key with idx := 1 }).map (fun g => (g.quarter.isSome, (nth g.lanes 5).isSome)) = some (true, true)
    ∧ (returning.issuer.map (fun is => returning.badTarget is placedAt)) = some false :=
  ⟨ends_of _ _ _ (by decide +kernel) (by decide +kernel), by decide +kernel, by decide +kernel, by decide +kernel⟩

/-! #### What accesses read and write -/

/-- One operation is pending, with lane 3 at an address, in a busy module whose page answers no read where `pol` is given. -/
def awaitOp (k : PendKind) (ea : Addr) (ws : List W32) (d : Opnd := .v ⟨2, by decide⟩) : PendOp :=
  ⟨0, 0, 0, 0, 0, d, 1, k, [⟨3, ea, ws, .todo⟩], 0, none', [], []⟩
def waitingOn (o : PendOp) : State := onGroup (fun g => { g with pend := [o] })
def answering (pol : Nat) (s : State) : State :=
  s.updCore core0 (fun c => { c with tlb := c.tlb.map (fun e => { e with pte := { e.pte with rd := false, w := false, fpol := pol } }) })
theorem awaits_of (s : State) (o : PendOp) (h : (s.group? key).isSome = true)
    (b : ((s.group? key).get h).pend = [] ++ o :: [] ∧ (((s.group? key).get h).pend.map (fun x => x.seq)).Nodup
      ∧ (o.lanes.map (fun l => l.lane)).Nodup ∧ o.lanes ≠ [] ∧ ∀ l ∈ o.lanes, l.acc = .todo) :
    awaits s key ((s.group? key).get h) [] o [] := ⟨(Option.some_get h).symm, b⟩
/-- PerformedAccessesReadAndWriteMemory: a load from the scratchpad; operations at a home, with the words read in the second and the states
that the premises ask for; a page that answers none. -/
theorem wit_get_scratch : let o := awaitOp (.load true 4 false 0 false false) 256 []
    ∃ tm g r, (waitingOn o).team? 0 = some tm ∧ awaits (waitingOn o) key g [] o [] ∧ eachGets (laneGets key core0 tm o) o.lanes (waitingOn o) r (waitingOn o) :=
  ⟨_, _, [(⟨3, 256, [], .todo⟩, [0])], (Option.some_get (by decide +kernel)).symm, awaits_of _ _ (by decide +kernel) (by decide +kernel),
    [0], _, [], ⟨⟨_, (Option.some_get (by decide +kernel)).symm, by decide +kernel, by decide +kernel⟩, rfl, _,
      (Option.some_get (by decide +kernel)).symm, by decide +kernel⟩, ⟨rfl, rfl⟩, rfl⟩
/-- The state after an access of the operation's lane, where it reaches memory of an owner that its line has. -/
def reachedBy (o : PendOp) (m : Perm) : Option (State × Nat) :=
  match (waitingOn o).access (.lane core0) 0 m 0x200100 with
  | (s1, .ok (.mem k _ w _)) => if s1.lineTag (k / 128) = w then some (s1, k) else none
  | _ => none
theorem wit_get_home (k : PendKind) (h : k = .load false 4 false 0 false false ∨ k = .load false 4 false 3 true false ∨ k = .atom false 0 true 0
      ∨ k = .atom false 0 false 5 ∨ k = .cas false false 3) : let o := awaitOp k 0x200100 [1, 2, 3, 4]
    ((reachedBy o .rd).map (fun x => ((x.1.homeRead x.2 4).1.group? key).map (fun g => g.pend))) = some (some [o])
    ∧ ((reachedBy o .rw).map (fun x => (((x.1.store x.2 [1, 2, 3, 4] (.part 0) 0).dropL1 core0).group? key).map (fun g => g.pend))) = some (some [o])
    ∧ (reachedBy o .rw).map (fun x => decide (x.2 % 128 + 8 ≤ 128 ∧ x.1.lineTag (x.2 / 128) = .part 0 ∧ (x.1.core core0).flights = []
        ∧ (∀ c ∈ x.1.cores, c.2.passed = 0) ∧ ∀ l ∈ x.1.l2, l.cells = [])) = some true
    ∧ (waitingOn o).peerUnacked core0 = false ∧ ((waitingOn o).core core0).flights = [] ∧ (∀ l ∈ (waitingOn o).l2, l.cells = [])
    ∧ ((waitingOn o).group? key).map (fun g => g.queue) = some [] := by
  rcases h with rfl | rfl | rfl | rfl | rfl <;> decide +kernel
theorem wit_get_line : ∃ y, ((lined 0).core core0).l1.find? (fun z => z.line = 100 / 128) = some y ∧ y.owner = .none ∧ y.launch = none ∧ y.holes = [] :=
  ⟨_, rfl, rfl, rfl, rfl⟩
theorem wit_get_fault (pol : Nat) (h : pol = 0 ∨ pol = 1) : let o := awaitOp (.load false 4 false 0 false false) 0x200100 []
    (match (answering pol (waitingOn o)).access (.lane core0) 0 .rd 0x200100 with | (_, .fault p _) => decide (p = pol) | _ => false) = true
    ∧ ((answering pol (waitingOn o)).group? key).map (fun g => (g.pend, g.queue)) = some ([o], []) := by
  rcases h with rfl | rfl <;> decide +kernel
/-- LandingWritesItsWords and TextureAndRayResults: a sample whose coordinate is no number and a query whose bound is none, which read
nothing; a sample that is resident. -/
theorem wit_unit (k : PendKind) (h : k = .tex 1 [] 0 true ∨ k = .ray false 0x200000 0xFF false false) :
    let o := awaitOp k 0 [0x7FC00000, 0, 0, 0x7FC00000, 0, 0, 0, 0]
    ∃ tm g, (waitingOn o).team? 0 = some tm ∧ awaits (waitingOn o) key g [] o []
      ∧ ((∃ ws, k = .tex 1 [] 0 true ∧ texLane core0 { pt := .lane core0, part := tm.part, since := some ((waitingOn o).launchLog tm) } none' 1 [] (0 : BitVec 16).toInt true
            [0x7FC00000, 0, 0, 0x7FC00000, 0, 0, 0, 0] (waitingOn o) = .ok ws (waitingOn o))
        ∨ ∃ ws, k = .ray false 0x200000 0xFF false false ∧ rayLane { pt := .lane core0, part := tm.part, since := some ((waitingOn o).launchLog tm) } none' false 0x200000 0xFF
            false false [0x7FC00000, 0, 0, 0x7FC00000, 0, 0, 0, 0] (waitingOn o) = .ok (ws, none) (waitingOn o)) := by
  rcases h with rfl | rfl <;>
  refine ⟨_, _, (Option.some_get (by decide +kernel)).symm, awaits_of _ _ (by decide +kernel) (by decide +kernel), ?_⟩
  · exact .inl ⟨_, rfl, rfl⟩
  · exact .inr ⟨_, rfl, rfl⟩

/-- TextureAndRayResults: an address of each mode's ranges, footprints of nothing and of something, finite and special texels. -/
theorem wit_texture : texAddr 0 5 4 = 1 ∧ texAddr 1 (-1) 4 = 0 ∧ texAddr 1 4 4 = 3 ∧ texAddr 2 (-1) 4 = 0 ∧ texAddr 2 4 4 = 3
    ∧ lodOf 0 0 0 0 64 64 = lodNone ∧ lodOf (2 ^ 149) 0 0 0 1 1 = 0 ∧ finUnits 0x3F800000 = some (2 ^ 149)
    ∧ texSum [(2 ^ 24, .fin false 1 (2 ^ 0))] = 0x3F800000#32 ∧ texSum [(1, .inf true), (0, .nan)] = 0xFF800000#32 := by decide +kernel
/-- A texture of 64 by 64 texels of one level, with its map where memory is zero. -/
def texels : List W32 := [0x200000, 0, 0xFC03F, 0, 0x200100, 0, 0x200000, 0]
theorem wit_sample_resident (m : Nat) (h : m = 0 ∨ m = 255) :
    let s := (if m = 0 then id else answering 1) (waitingOn (awaitOp (.special 0) 0 []))
    let r : Reader := { pt := .lane core0, part := 0, since := none }
    (match texMapByte r none' 0x200100 s with
     | .ok b s2 => decide (b = m) && (match texTexel r none' (Tex.ofWords texels) 0 0 0 s2 with | .ok _ _ => true | _ => false)
     | _ => false) = true ∧ texBad texels = false ∧ (Tex.ofWords texels).lm1 = 0 := by rcases h with rfl | rfl <;> decide +kernel
theorem wit_feedback (b : Bool) :
    (match ((if b then id else answering 1) (waitingOn (awaitOp (.special 0) 0 []))).access (.lane core0) 0 .rw 0x200100 with
     | (s1, .ok (.mem ..)) => b && decide ((s1.core core0).flights = []) | (_, .fault ..) => !b | _ => false) = true := by
  cases b <;> decide +kernel
/-- The query of the worked case of R190, its triangle in an instance's space, and a ray in the triangle's plane. -/
def query0 : Query := { all := true, tmin := .fin 0 1, tmax := .fin 100 1, mask := 0xFF, cullb := false, cullf := false, words := [] }
def space0 (d : List W32) : Space := { ray := (V3.ofWords [0x3E800000, 0x3E800000, 0xBF800000] 0).bind (fun o => (V3.ofWords d 0).map (fun d => (o, d))),
                                       iid := 1, iuser := 9, bottom := true }
def triangle0 : List W32 := [0, 0, 0, 0x3F800000, 0, 0, 0, 0x3F800000, 0, 7, 0, 5]
theorem wit_triangle : (triHit query0 (space0 [0, 0, 0x3F800000]) triangle0).map (fun h => [h.t.word, h.b1.word, h.b2.word, BitVec.ofNat 32 h.pid, h.tuser]) =
      some [0x3F800000, 0x3E800000, 0x3E800000, 7, 5]
    ∧ triHit query0 (space0 [0x3F800000, 0, 0]) triangle0 = none ∧ triHit { query0 with cullb := true } (space0 [0, 0, 0x3F800000]) triangle0 = none
    ∧ triHit query0 (space0 [0x7FC00000, 0, 0]) triangle0 = none ∧ (space0 [0x7FC00000, 0, 0]).ray = none := by decide +kernel
theorem wit_slab : slab 0 1 2 3 (.fin 0 1) .pos = some (.fin 2 1, .fin 3 1) ∧ slab 0 0 1 2 .neg .pos = none ∧ slab 0 1 3 2 .neg .pos = none := by decide +kernel
theorem wit_candidates : let h (n i p : Nat) : Hit := ⟨.fin n 1, .fin 0 1, .fin 0 1, i, p, 0, 0, false⟩
    ([h 2 0 0, h 1 3 7, h 1 1 7].foldl (fun t x => t.offer (some x)) (⟨none, none, none, [], [], false, 0⟩ : Trav)).best = some (h 1 1 7) := by decide +kernel
theorem wit_space : instanceRow (triangle0.drop 3 ++ [0]) [0x40000000, 0, 0] 0 0 true = 0x40000000
    ∧ (match Fmt.fp32.value 0x40000000 with | .fin .. => true | _ => false) = true := by decide +kernel
/-- SpecialFunctionResults and TranscendentalResultsAreAccurate: a number of each range. -/
theorem wit_numbers : ∀ x ∈ [0x00000001, 0x40400000, 0x7F7FFFFF, 0x43000000, 0xC3160000, 0x3E800000, 0x3FC00000, 0x41200000, 0x48000000],
    (match Fmt.fp32.value x with | .fin _ n _ => decide (n ≠ 0 ∧ x < 2 ^ 32) | _ => false) = true := by decide +kernel
theorem wit_number_ranges : (128 : ℚ) ≤ ratOf (Fmt.fp32.value 0x43000000) ∧ ratOf (Fmt.fp32.value 0xC3160000) ≤ (-150 : ℚ)
    ∧ (2 ^ 126 : ℚ) < ratOf (Fmt.fp32.value 0x7F7FFFFF) ∧ ratOf (Fmt.fp32.value 0x00000001) ≤ (1 / 2 ^ 128 : ℚ)
    ∧ ratOf (Fmt.fp32.value 0x3E800000) = (1 / 4 : ℚ) ∧ (10 : ℚ) ≤ ratOf (Fmt.fp32.value 0x41200000) := by decide +kernel

/-- StoresLeaveAndLinesExpire: a reduction in the scratchpad leaves, and one at a home; an update of an object leaves. -/
def leaving (k : QKind) (ea : Addr) (w : W32) : State := onGroup (fun g => { g with queue := [⟨0, 0, k, 0, [⟨0, ea, [w], .todo⟩], false⟩] })
theorem wit_leaves (k : QKind) (h : k = .red true 0 false ∨ k = .red false 9 false ∨ k = .barr (objAt0 0) 0) : let s := leaving k 0x200100 7
    (s.team? 0).isSome = true ∧ s.coreOf key = some core0 ∧ (s.group? key).map (fun g => (g.queue.map (fun e => e.kind), g.pend)) = some ([k], [])
    ∧ (s.core core0).flights = []
    ∧ (match s.access (.lane core0) 0 .rw 0x200100 with | (_, .ok (.mem ..)) => true | _ => false) = true
    ∧ (match s.team? 0 with
       | some tm => (match s.reach (.lane core0) tm (objAt0 0) .rw with | (_, .obj ..) => true | _ => false) | none => false) = true := by
  rcases h with rfl | rfl | rfl <;> decide +kernel
theorem wit_each_lane : let e : QEntry := ⟨0, 0, .red true 0 false, 0, [⟨0, 256, [7], .todo⟩], false⟩
    ∀ tm, ∃ s', eachLane (laneLeaves key core0 tm e) e.lanes (leaving (.red true 0 false) 256 7) s' :=
  fun _ => ⟨_, _, ⟨_, (Option.some_get (by decide +kernel)).symm, rfl⟩, rfl⟩

/-- ShuttleServesItsQueue: a copy whose present scale is read, one to memory, a dense one at its scale array, one past its rows with a
reference, and one that raises a fold word. -/
def copy1 (dir : Nat) (wc : W32) (ref : Option W64) : ShuttleJob :=
  { job0 (.copy ⟨dir, wc, 0, 0x200000, ref⟩) (some shape4) with scale := some 0 }
theorem wit_copy (j : ShuttleJob) (h : j = copy1 0 0 none ∨ j = copy1 2 0 none ∨ j = { copy1 0 0 (some (objAt0 0)) with pos := 1 }
      ∨ j = { copy1 0 (BitVec.ofNat 32 (6 * 2 ^ 21)) none with pos := 1, fold := 5 }) : ∃ tm s', servesJob (serving j) s' core0 j tm := by
  rcases h with rfl | rfl | rfl | rfl <;>
  exact ⟨_, _, _, by decide +kernel, rfl, Prod.ext rfl (by decide +kernel), (Option.some_get (by decide +kernel)).symm, rfl⟩
theorem wit_copy_rows : let j := copy1 2 0 none
    (match (serving j).team? 0 with
     | some tm => (match readPadRow tm j.padReader (j.reader core0 tm) none' (CopyCtl.of ⟨2, 0, 0, 0x200000, none⟩) (ShapeRec.ofWords shape4) 0 0 (serving j) with
       | .ok row s2 => (s2.writeWords core0 j (j.reader core0 tm) ((globalWrites (ShapeRec.ofWords shape4) 0 row).drop 0)).2
       | _ => false)
     | none => false) = true := by decide +kernel
/-- A record of 4 columns of 32 MXFP8 elements, with a scale each. -/
def shapeMx : List W32 := [0x93201, 0, 0x200100, 0, 4, 0, 32, 4, 0, 0, 0, 0, 0, 0, 0x200080, 0] ++ List.replicate 16 0
theorem wit_copy_dense : let r := ShapeRec.ofWords shapeMx
    let j : ShuttleJob := { copy1 0 0 none with rec' := some shapeMx, pos := 32 }
    shapeBad shapeMx = false ∧ (CopyCtl.of ⟨0, 0, 0, 0, none⟩).dense r = true ∧ r.rows = 32 ∧ r.scales = 4
    ∧ (match (serving j).team? 0 with
       | some tm => (match srcBytes (j.reader core0 tm) none' r.sca r.scales (serving j) with | .ok _ _ => true | _ => false)
       | none => false) = true := by decide +kernel
/-- The object of a reference, and a fold word, of the copy that has moved its rows. -/
theorem wit_copy_ends : let s := serving (copy1 0 0 none)
    (match s.team? 0 with
     | some tm => (match s.reach (.shuttle core0) tm (objAt0 0) .rw with | (_, .obj ..) => true | _ => false) | none => false) = true
    ∧ (match s.access (.shuttle core0) 0 .rw 0x200080 with | (_, .ok (.mem ..)) => true | _ => false) = true := by decide +kernel
/-- ArrayPerformsItsQueue: a multiply, a load and a store of tile 7, all that they read being as it was. -/
theorem wit_array_kinds (k : TileKind) (h : k = .mma 7 0 false 0 0 0 ∨ k = .mmas 7 1 true true 0 0 0 0 ∨ k = .accld 7 1 true 0 ∨ k = .accst 7 0 false 0) :
    let j : TileJob := ⟨key, 0, 0, k, 5, [], 0, 0⟩
    let s := edit (onCore (fun c => { c with tiles := [j] })) (fun t => { t with tiles := List.replicate 8 [] }) id
    ∃ s1 tm, (s.core core0).tiles = j :: [] ∧ s.storesBefore j.group core0 j.seq = (s1, true) ∧ s1.team? 0 = some tm ∧ 7 < tm.tiles.length
      ∧ tileCalm tm j ∧ s.heddleTile core0 = none := by
  rcases h with rfl | rfl | rfl | rfl <;>
  exact ⟨_, _, by decide +kernel, Prod.ext rfl (by decide +kernel), (Option.some_get (by decide +kernel)).symm, by decide +kernel,
    ⟨fun a => rfl, by decide +kernel⟩, by decide +kernel⟩
/-- CollectivesAreIssuedAndComplete: a barrier collective of a set of one module, which has agreed with itself. -/
theorem wit_collective_ends : let c : Coll := ⟨0, 0, 0, true, key, 0, 0, core0, 0, none, [0x500, 0, 0, 0, 0, 0, 0, 0], some [], [], [], [], [], true, some [], true, 0, false,
      none, 0, none', []⟩
    let s := onPart { busy with colls := [c] } (fun p => { p with modno := 0, stripes := [(0, ⟨0x100, 1, true⟩)] })
    (s.storesBefore c.group c.core c.seq).2 = true ∧ ((s.storesBefore c.group c.core c.seq).1.rankOf 0 0).2 = some (0, 1)
    ∧ (s.storesBefore c.group c.core c.seq).1.launchKilled c.group = false ∧ ((CollRec.of c.record).dest 0 []).length ≤ 0
    ∧ (∀ k, k < 1 → k ≠ 0 → k ∈ c.agreed) := by
  refine ⟨by decide +kernel, by decide +kernel, by decide +kernel, by decide +kernel, by omega⟩

/-- TeamsArePlacedAndBound: no core of the partition has room, and the groups of one can make it by draining. -/
def rec2 : LaunchRec := { rec1 with prio := 3 }
def crowded : State :=
  let g (k : Nat) : Group := { Group.start 0 k 0 256 (k / 4) (startLanes 0 0 0x200000) [] with idx := k }
  onPart { queued (launch0 .eligible (some rec2)) id with
      teams := busy.teams.flatMap (fun t => (upFrom 0 4).map (fun n => { t with key := 9 + n, launch := 9, core := some ⟨0, n⟩, groups := (upFrom 0 16).map g })) }
    (fun p => { p with queues := p.queues.take 1, save := 0x200000, saveGr := 64 })
theorem wit_victims : (match crowded.part? 0 with
    | some p => decide (crowded.coreFor p (crowded.shut p (.new 0 0)) rec2.need = none ∧ crowded.claimFor p (.new 0 0) = none ∧ crowded.groupToResume p = none)
        && (crowded.victims p rec2.need).isSome && (p.queues.map (fun x => (crowded.nextOf x).isSome)) == [true]
    | none => false) = true := by decide +kernel
/-- LaunchesStartAndComplete: queue 1 is off and empty; queue 0 is on and holds a launch without a team, and one with a team. -/
theorem wit_enable : (board.queue? 0 1).map (fun x => (x.en, board.queueLaunches x, x.cw % 8)) = some (false, [], 0) := by decide +kernel
theorem wit_disable (n : Nat) (h : n = 0 ∨ n = 1) : let s := queued { launch0 .eligible (some rec1) with nextTeam := n } id
    (s.queue? 0 0).map (fun x => (x.en, (s.queueLaunches x).map (fun l => l.nextTeam))) = some (true, [n]) := by rcases h with rfl | rfl <;> decide +kernel

/-- The running module whose partition owns granule 0 and has a page table there that maps the first GiB, with words at a key. -/
def mapped (k : Nat) (ws : List W32) : State :=
  wrote (wrote (wrote { board with owners1 := [(0, .part 0)] } 0 [0x01000001, 0]) 0x1000 [0xC08F, 0]) k ws
/-- A head of 2 by 16 pixels and 64 lines, changed; its descriptors, pose and network stand where memory is zero but for `ws` at 0x4000. -/
def headAt (f : Head → Head) (ws : List W32 := []) : State :=
  let base (h : Head) : Head :=
    { h with en := true, timing := [15 * 2 ^ 14 + 1, 64 * 2 ^ 16 + 66, 500], pose := 0x3000, bands := [{ Band.fresh with fixed := true }], prev := [[]] }
  onPart (mapped 0x4000 ws) (fun p => { p with heads := p.heads.map (fun h => f (base h)) })
/-- HeadsScanTheirFrames: a valid head that is off, the last line, a band at its deadline, a report and a latch that are due. -/
theorem wit_head_on (b : Bool) : let s := onPart (headAt (fun h => { h with en := b })) (fun p => { p with streams := [{ Stream.fresh 63 with en := true }] })
    (s.head? 0 63).map (fun h => (h.en, h.valid)) = some (b, true) ∧ (s.stream? 0 63).map (fun y => y.en) = some true := by
  cases b <;> decide +kernel
theorem wit_head_last : ((headAt (fun h => { h with line := 63, ahead := true })).head? 0 63).map (fun h =>
    (h.latchDue, h.reportDue, h.dueBand, decide (h.vtot ≤ h.line + 1), (Stream.fresh 63).due h)) = some (false, false, none, true, false) := by decide +kernel
theorem wit_band_due (n : Nat) (h : n = 47 ∨ n = 48) : ((headAt (fun h => { h with line := n, ahead := true, bands := [Band.fresh] })).head? 0 63).map (fun h =>
    (h.dueBand, decide (0 < h.prev.length))) = some (if n = 48 then some 0 else none, true) := by rcases h with rfl | rfl <;> decide +kernel
theorem wit_report_due (b : Bool) : ((headAt (fun h => { h with line := 16, reported := b })).head? 0 63).map (fun h => (h.reportDue, h.latchDue, h.dueBand)) =
    some (!b, b, none) := by cases b <;> decide +kernel
/-- A surface of 2 by 16 pixels. -/
def surface0 : List W32 := [0x5000, 0, 16, 15 * 2 ^ 14 + 1, 0, 0]
theorem wit_latch (b : Bool) : let s := headAt (fun h => { h with line := 16, reported := true, queue := [(0x3000, 0), (0x4000, 0)] }) (if b then surface0 else [])
    (match s.head? 0 63 with
     | some h => decide (h.latchDue = true ∧ h.mode < 2 ∧ h.net = false ∧ h.buf.asked = none)
        && (match engWords (hubReader 0 none) h.buf 0x4000 16 s with
            | .ok ws s2 => (surfBad ws == !b) && (match engWords (hubReader 0 (some h.linePos)) h.buf 0x3000 6 s2 with
              | .ok _ s3 => (s3.head? 0 63) == some h | _ => false)
            | _ => false)
     | none => false) = true := by cases b <;> decide +kernel
theorem wit_release : let f := Surface.ofWords 0x4000 0 surface0
    ((headAt (fun h => { h with leaving := [f], drops := [0x4000] })).head? 0 63).map (fun h => (h.leaving, h.drops)) = some ([f], [0x4000]) := by decide +kernel
theorem wit_stream_on : ((headAt id).head? 0 63).map (fun h => { Stream.fresh 63 with words := [0, 200000, 200000, 0, 0, 0, 0, 0, 96 * 65536, 0, 0, 0, 65536] }.valid h)
    = some true := by decide +kernel
/-- HeadEnginesDoTheirJobs: a band whose job may begin, one whose job runs, a row that may be encoded. -/
theorem wit_band_job (o : Option Nat) (h : o = none ∨ o = some 3) :
    let s := headAt (fun h => { h with line := 16, ahead := true, netWords := some [1, 320], poseWords := some (List.replicate 6 0), bands := [{ Band.fresh with slice := o }], latched := some (Surface.ofWords 0x4000 0 surface0) })
    (s.head? 0 63).map (fun h => (h.openBand 0, h.vectorsReady 0, h.source.isSome, s.slicesOf h.hub, (s.jobsOf h.hub).any (fun y => jobBefore y (h, 0)))) =
      some (true, true, true, o.toList, false) := by rcases h with rfl | rfl <;> decide +kernel
theorem wit_encode : let s := onPart (headAt (fun h => { h with line := 16, frameClocks := 0 })) (fun p => { p with streams := [{ Stream.fresh 63 with en := true }] })
    (match s.head? 0 63, s.stream? 0 63 with
     | some h, some y => decide (y.behind h = true ∧ min (64 * (y.row + 1)) h.vact ≤ h.line ∧ y.toMem = false) | _, _ => false) = true := by decide +kernel
/-- The same stream with its ring in memory of a peer chip, which has not answered about its read offset. -/
theorem wit_encode_waits :
    let y : Stream := { Stream.fresh 63 with en := true, words := [8] }
    let s := onPart (wrote (headAt (fun h => { h with line := 16, frameClocks := 0 }) ) 0x1000 [0xC18F, 0]) (fun p =>
      { p with streams := [y], stripes := [(0, ⟨0x2000, 1, true⟩)] })
    let s := wrote { s with sessions := [sess (.peer 1 0)] } 0x2000 [1, 5, 0, 0]
    y.toMem = true ∧ y.buf.asked = none ∧ s.stream? 0 63 = some y
    ∧ (match engWords (hubReader 0 none) y.buf (y.ring.toNat + 8) 1 s with
       | .error (.wait _ 5 8) s1 => decide (s1.stream? 0 63 = some y) | _ => false) = true := by decide +kernel
theorem wit_estimate : let f := Surface.ofWords 0x4000 0 surface0
    ((headAt (fun h => { h with mode := 3, surfA := some f, surfB := some f })).head? 0 63).map (fun h => decide (8 * h.vectors.length < f.height ∧ h.mode = 3
      ∧ board.blockTaken h = false)) = some true := by
  decide +kernel
/-- Another head of the hub has the block. -/
theorem wit_block_taken : let s := headAt (fun h => { h with mode := 3 })
    let s := onPart s (fun p => { p with heads := p.heads ++ [{ Head.fresh 62 1 with estimating := true }] })
    ((s.head? 0 63).map (fun h => (h.mode, s.blockTaken h))) = some (3, true) := by decide +kernel
/-- A read for vectors that the band needs has faulted. -/
theorem wit_vectors_lost : let f := Surface.ofWords 0x4000 0 surface0
    ((headAt (fun h => { h with line := 48, ahead := true, mode := 3, surfA := some f, surfB := some f, upf := 1, vectors := [none], bands := [Band.fresh] })).head? 0 63).map
      (fun h => (h.dueBand, h.vectorsLost 0, decide (0 < h.prev.length))) = some (some 0, true, true) := by decide +kernel
/-- HostMessagesAreAnswered, PeerMessagesAreServed: an address that is mapped, and one that is not; bytes that a partition may reach. -/
theorem wit_host_address (a : Nat) (h : a = 0x3000 ∨ a = 2 ^ 30) :
    (match (mapped 0x3000 [7]).hostTarget 0 a with
     | (s1, some (.mem key _ owner _, k)) => decide (a = 0x3000 ∧ k = 0 ∧ s1.lineTag (key / 128) = owner) | (_, none) => decide (a = 2 ^ 30) | _ => false) = true
    ∧ (match (mapped 0x3000 [7]).access .hub 0 .rw a with
       | (s1, .ok (.mem key _ owner _)) => decide (a = 0x3000 ∧ key % 8 = 0 ∧ s1.lineTag (key / 128) = owner) | (_, .fault ..) => decide (a = 2 ^ 30) | _ => false) = true := by
  rcases h with rfl | rfl <;> decide +kernel

/-! ### Single steps: results worked by hand from the rules -/

/-- A uniform register after one instruction of the small state, and a vector register of its lane 1. -/
def wAfter (i : Instr) (ws : List (Nat × W32)) (r : Nat) : Option W32 :=
  match exec i (small ws) with | .next t => (t.group? key).map (fun g => g.w.get r) | _ => none
def vAfter (i : Instr) (ws : List (Nat × W32)) (r : Nat) : Option W32 :=
  match exec i (small ws) with | .next t => (t.group? key).map (fun g => (g.lane 1).v.get r) | _ => none

/-- IADD wraps at its width (R113). -/
theorem test_iadd_wraps : wAfter (.iadd (.w 9) (.w 8) (.inl ⟨2, by decide⟩)) [(8, 0xFFFFFFFF)] 9 = some 1 := by decide +kernel
/-- FADD of 1.0 and 1.0 is 2.0. -/
theorem test_fadd_ones : vAfter (.fadd (.v ⟨3, by decide⟩) (.lit 0x3F800000) (.lit 0x3F800000)) [] 3 = some 0x40000000 := by decide +kernel
/-- IMAD with its destination among its sources: D + A × B, 7 + 6 × 5 (R113). -/
theorem test_imad_source : wAfter (.imad (.w 8) (.w 9) (.w 10)) [(8, 7), (9, 6), (10, 5)] 8 = some 37 := by decide +kernel
/-- MOV of an immediate to the high half. -/
theorem test_mov_high : vAfter (.movH (.v ⟨0, by decide⟩) 0xFFFF) [] 0 = some 0xFFFF0000 := by decide +kernel

end Sys2Proof.Tests
end

section
/-! The register budget (02 R31): the checks of R72 cut at the budget's own, and every instruction with a form issuing under it. -/

namespace Sys2Proof.Proofs

open Sys2Proof.Machine Sys2Proof.Claims

/-! ### Every instruction with a form issues under it -/

/-- The registers of an access, counted from its bytes, are those of its size field alone. -/
theorem wordsFor_accessBytes (sz narrow : BitVec 2) : wordsFor (accessBytes sz narrow) = memWords sz := by
  revert sz narrow
  decide

/-- A load fails by its scope or its replication hint, never by its narrow width (R220). -/
theorem memUnassigned_load (sp : Bool) (sz : BitVec 2) (x : MemExt) :
    memUnassigned true sp false sz x =
      if x.scope.toNat > 5 || (sp && x.scope.toNat ≥ 3) || (x.repl && (sp || x.scope ≠ 0)) then some Causes.unassignedFn else none := by
  simp [memUnassigned]

/-- The odd narrow widths, which sign-extend and so have no store, are 1 and 3. -/
theorem narrow_odd_iff (n : BitVec 2) : n.toNat % 2 = 1 ↔ n = 1 ∨ n = 3 := by
  revert n
  decide

theorem memUnassigned_store (sp : Bool) (sz : BitVec 2) (x : MemExt) :
    memUnassigned false sp false sz x =
      if x.scope.toNat > 5 || (sp && x.scope.toNat ≥ 3) || (sz = 3 && (x.narrow = 1 || x.narrow = 3)) || x.repl then
        some Causes.unassignedFn
      else none := by
  simp [memUnassigned, narrow_odd_iff]

theorem memUnassigned_pref (x : MemExt) :
    memUnassigned false false true 0 x =
      if x.scope.toNat > 5 || (x.repl && x.scope ≠ 0) then some Causes.unassignedFn else none := by
  simp [memUnassigned]

theorem loadOp_issues (sp ext : Bool) (d a : Opnd) (sz : BitVec 2) (col : Bool) (tag : BitVec 4) (x : MemExt) (s : State) :
    ∃ e, loadOp sp ext d a sz col tag x s = issue s (loadForm sp ext d a sz tag x) e := by
  unfold loadForm
  rw [← wordsFor_accessBytes sz x.narrow, ← memUnassigned_load]
  exact ⟨_, rfl⟩

theorem storeOp_issues (sp ext : Bool) (d a : Opnd) (sz : BitVec 2) (col : Bool) (x : MemExt) (s : State) :
    ∃ e, storeOp sp ext d a sz col x s = issue s (storeForm sp ext d a sz x) e := by
  unfold storeForm
  rw [← wordsFor_accessBytes sz x.narrow, ← memUnassigned_store]
  exact ⟨_, rfl⟩

/-- A segment of SHFL above the group's width is one above 5. -/
theorem shfl_segment_above_five (seg : BitVec 3) :
    (seg = 7 || (if seg = 0 then Config.gw else 2 ^ (seg.toNat + 1)) > Config.gw : Bool) = decide (seg.toNat > 5) := by
  revert seg
  decide

/-- The segments of REDL narrower than the group are 1 to 5. -/
theorem redl_segment_below_group (seg : BitVec 4) :
    decide (2 ^ (if seg = 0 then 6 else min 6 seg.toNat) ≠ Config.gw) = !(seg.toNat = 0 || seg.toNat ≥ 6) := by
  revert seg
  decide

/-- What an instruction with a form does is an issue under that form, so the checks of R72 judge the form's own fields. -/
theorem exec_issues_form {i : Instr} {sh : Shape} (h : form i = some sh) (s : State) : ∃ e, exec i s = issue s sh e := by
  cases i
  all_goals cases h
  case ld d a sz tag => exact loadOp_issues false false d a sz false tag MemExt.plain s
  case ldExtended d a sz tag x => exact loadOp_issues false true d a sz false tag x s
  case lds d a sz o tag => exact loadOp_issues true false d a sz o tag MemExt.plain s
  case ldsExtended d a sz o tag x => exact loadOp_issues true true d a sz o tag x s
  case st d a sz => exact storeOp_issues false false d a sz false MemExt.plain s
  case stExtended d a sz x => exact storeOp_issues false true d a sz false x s
  case sts d a sz o => exact storeOp_issues true false d a sz o MemExt.plain s
  case stsExtended d a sz o x => exact storeOp_issues true true d a sz o x s
  case prefExtended a x =>
    rw [← memUnassigned_pref]
    exact ⟨_, rfl⟩
  case shfl d a fn c rel wrap seg imm =>
    rw [← shfl_segment_above_five, ← Bool.or_assoc]
    exact ⟨_, rfl⟩
  case redl d a seg op =>
    rw [← redl_segment_below_group]
    exact ⟨_, rfl⟩
  all_goals exact ⟨_, rfl⟩

/-- The first failing check of an instruction's form stops the team. -/
theorem exec_of_firstError {i : Instr} {sh : Shape} {s : State} {is : Iss} {c : Cause} (hf : form i = some sh) (hi : s.issuer = some is)
    (hc : sh.firstError is = some c) : exec i s = .next (s.teamStop is.key (StopCause.at c is.run.ipc)) := by
  obtain ⟨e, he⟩ := exec_issues_form hf s
  rw [he, issue_error e hi hc]

/-! ### The checks before the budget's, and the budget's with those after it -/

/-- The first failure of steps 2 to 6 of R72. -/
def earlyError (sh : Shape) (is : Iss) : Option Cause :=
  if sh.reserved || is.run.pfx.reserved ≠ 0 then some Causes.reservedField
  else match sh.fn with
  | some c => some c
  | none =>
    if sh.slots.any (fun x => !(x.kinds.allows x.op && x.fits)) || sh.bad then some Causes.illegalOperand
    else if sh.enc || (sh.wDest && sh.vecSrc && !sh.mixed)
        || sh.slots.any (fun x => x.dst && (match x.op with | .w r => r.toNat < 8 | _ => false)) then
      some Causes.encoding
    else if sh.priv && !is.team.sup then some Causes.privilege
    else if sh.unhonoured is.run.pfx then some Causes.notHonoured
    else none

/-- The first failure of step 7 of R72 and of the checks after it. -/
def lateError (sh : Shape) (is : Iss) : Option Cause :=
  if sh.overBudget is.g.budget is.team.rec'.tiles then some Causes.registerBudget
  else if sh.ender && is.run.left > 1 then some Causes.enderNotLast
  else if sh.long && sh.slots.any (fun x => x.dst && opT x.op) then some Causes.longToTemp
  else if sh.slots.any (fun x => x.src && x.temps &&& ~~~is.run.temps ≠ 0) then some Causes.unwrittenTemp
  else if (sh.noHandler && is.g.handler.isSome) || (sh.onlyHandler && is.g.handler.isNone) then some Causes.handlerOperation
  else none

/-- The checks of R72 are the early ones, then the late ones. -/
theorem firstError_eq (sh : Shape) (is : Iss) : sh.firstError is = (earlyError sh is).or (lateError sh is) := by
  unfold Shape.firstError earlyError
  dsimp only
  split
  · rfl
  · cases sh.fn with
    | some c => rfl
    | none => simp only [apply_ite (Option.or · (lateError sh is)), Option.some_or, Option.none_or] <;> rfl

/-- The causes of the early checks. -/
def earlyCauses : List Cause :=
  [Causes.reservedField, Causes.unassignedFn, Causes.illegalOperand, Causes.encoding, Causes.privilege, Causes.notHonoured]

/-- The causes of the late checks. -/
def lateCauses : List Cause :=
  [Causes.registerBudget, Causes.enderNotLast, Causes.longToTemp, Causes.unwrittenTemp, Causes.handlerOperation]

theorem earlyCauses_not_late {c : Cause} (h : c ∈ earlyCauses) : c ∉ lateCauses := by
  revert c
  decide

/-- A form's failure by its field values is an unassigned function value, or SRD's encoding error of an unlisted selector. -/
theorem form_fn_early {i : Instr} {sh : Shape} {c : Cause} (h : form i = some sh) (hc : sh.fn = some c) : c ∈ earlyCauses := by
  have : c = Causes.unassignedFn ∨ c = Causes.encoding := by
    cases i
    all_goals cases h
    all_goals simp [above, loadForm, storeForm, atomFn] at hc
    all_goals simp [hc]
  rcases this with rfl | rfl <;> decide

/-- An early check of an instruction's form gives an early cause. -/
theorem earlyError_early {i : Instr} {sh : Shape} {is : Iss} {c : Cause} (hf : form i = some sh) (h : earlyError sh is = some c) :
    c ∈ earlyCauses := by
  unfold earlyError at h
  split at h
  · cases h
    decide
  · split at h
    next c' hfn =>
      cases h
      exact form_fn_early hf hfn
    next => split_ifs at h <;> cases h <;> decide

/-- The early checks do not look at the budget. -/
theorem earlyError_budget (sh : Shape) (is : Iss) (n : Nat) :
    earlyError sh { is with g := { is.g with budget := n } } = earlyError sh is := rfl

/-- The early checks pass where those under another budget give late causes only. -/
theorem earlyError_none_of_late {i : Instr} {sh : Shape} {is : Iss} (n : Nat) (hf : form i = some sh)
    (h : ∀ c, sh.firstError { is with g := { is.g with budget := n } } = some c → c ∈ lateCauses) : earlyError sh is = none := by
  cases he : earlyError sh is with
  | none => rfl
  | some c =>
    have : sh.firstError { is with g := { is.g with budget := n } } = some c := by
      rw [firstError_eq, earlyError_budget, he, Option.some_or]
    exact absurd (h c this) (earlyCauses_not_late (earlyError_early hf he))

/-! ### The budget -/

/-- An operand that reaches beyond the budget fails the check of step 7. -/
theorem overBudget_of_slot {sh : Shape} {x : Slot} {r : Fin 192} {budget : Nat} (tiles : Nat) (hx : x ∈ sh.slots) (hr : x.op = .v r)
    (hb : budget < r.val + x.n) : sh.overBudget budget tiles = true := by
  unfold Shape.overBudget
  refine Bool.or_eq_true_iff.mpr (.inl (Bool.or_eq_true_iff.mpr (.inl (List.any_eq_true.mpr ⟨x, hx, ?_⟩))))
  rw [hr]
  exact decide_eq_true hb

/-- Of the late checks the budget's comes first. -/
theorem lateError_of_slot {sh : Shape} {is : Iss} {x : Slot} {r : Fin 192} (hx : x ∈ sh.slots) (hr : x.op = .v r)
    (hb : is.g.budget < r.val + x.n) : lateError sh is = some Causes.registerBudget :=
  if_pos (overBudget_of_slot _ hx hr hb)

/-- Where every check passes, an operand stays within the budget. -/
theorem slot_within_budget {sh : Shape} {is : Iss} {x : Slot} {r : Fin 192} (h : sh.firstError is = none) (hx : x ∈ sh.slots)
    (hr : x.op = .v r) : r.val + x.n ≤ is.g.budget := by
  by_contra hb
  rw [firstError_eq, lateError_of_slot hx hr (not_le.mp hb), Option.or_eq_none_iff] at h
  exact absurd h.2 (Option.some_ne_none _)

/-- Settles O13: the early checks do not see the budget, so they pass under the group's own, and the first failing check is the budget's;
where no check fails, no operand reaches beyond it. -/
theorem registersBeyondTheBudgetStopTheTeam : Obligations.RegistersBeyondTheBudgetStopTheTeam := by
  unfold Obligations.RegistersBeyondTheBudgetStopTheTeam
  intro i sh s is hf hi
  refine ⟨fun ⟨x, hx, r, hr, hb⟩ hlate => exec_of_firstError hf hi ?_, fun h x hx r hr => slot_within_budget h hx hr⟩
  rw [firstError_eq, earlyError_none_of_late 192 hf hlate, Option.none_or, lateError_of_slot hx hr hb]

end Sys2Proof.Proofs
end

section
/-! The right of the supervisor instructions (17 R364): their forms, and where the check of the right stands among those of R72. -/

namespace Sys2Proof.Proofs

open Sys2Proof.Machine Sys2Proof.Claims

/-! ### The forms of the supervisor instructions -/

/-- The instructions whose form is privileged. -/
theorem form_priv_iff {i : Instr} {sh : Shape} (h : form i = some sh) :
    sh.priv = true ↔ (∃ d a fn, i = .sysrd d a fn) ∨ (∃ d a fn, i = .syswr d a fn) ∨ (∃ a b, i = .tlbinv a b) ∨ (∃ a b, i = .keysel a b)
      ∨ ∃ d a b, i = .partctl d a b := by
  cases i
  all_goals cases h
  all_goals simp [loadForm, storeForm]

/-- The kinds of a field admit no vector operand. -/
def Scalar (x : Slot) : Prop := x.kinds.v = false ∧ x.kinds.t = false

@[simp] theorem scalar_s_wOnly (o : Opnd) (n al : Nat) : Scalar (Slot.s o Kinds.wOnly n al) := ⟨rfl, rfl⟩

@[simp] theorem scalar_s_wImm (o : Opnd) (n al : Nat) : Scalar (Slot.s o Kinds.wImm n al) := ⟨rfl, rfl⟩

@[simp] theorem scalar_o_wOnly (o : Opnd) (n al : Nat) : Scalar (Slot.o o Kinds.wOnly n al) := ⟨rfl, rfl⟩

theorem scalar_of_refOptSlots (b : Opnd) : ∀ x ∈ refOptSlots b, Scalar x := by
  unfold refOptSlots
  split
  · exact List.forall_mem_nil _
  · exact List.forall_mem_singleton.mpr (scalar_s_wOnly b 2 2)

/-- A privileged form checks nothing of its own but its operand fields, none of which may hold a vector operand. -/
theorem form_of_priv {i : Instr} {sh : Shape} (h : form i = some sh) (hp : sh.priv = true) :
    ∃ slots, sh = Shape.sys slots ∧ ∀ x ∈ slots, Scalar x := by
  obtain ⟨d, a, fn, rfl⟩ | ⟨d, a, fn, rfl⟩ | ⟨a, b, rfl⟩ | ⟨a, b, rfl⟩ | ⟨d, a, b, rfl⟩ := (form_priv_iff h).mp hp
  all_goals cases h
  case inr.inr.inr.inr => exact ⟨_, rfl, List.forall_mem_append.mpr ⟨by simp, scalar_of_refOptSlots a⟩⟩
  all_goals exact ⟨_, rfl, by simp⟩

/-! ### The checks of such a form, in their order -/

/-- Every operand is one that its field may hold (R72 step 4). -/
def OperandsAllowed (slots : List Slot) : Prop := ∀ x ∈ slots, x.kinds.allows x.op = true ∧ x.fits = true

/-- A destination is one of the read-only registers w0 to w7 (R72 step 5). -/
def WritesReadOnly (slots : List Slot) : Prop := ∃ x ∈ slots, x.dst = true ∧ ∃ r, x.op = .w r ∧ r.toNat < 8

/-- A scalar field that is allowed what it holds holds no vector operand. -/
theorem opVec_of_scalar {x : Slot} (hx : Scalar x) (h : x.kinds.allows x.op = true) : opVec x.op = false := by
  obtain ⟨hv, ht⟩ := hx
  cases ho : x.op with
  | v r => simp [ho, Kinds.allows, hv] at h
  | t r => simp [ho, Kinds.allows, ht] at h
  | w r => rfl
  | inl n => rfl
  | lit n => rfl

theorem vecSrc_sys {slots : List Slot} (hv : ∀ x ∈ slots, Scalar x) (h : OperandsAllowed slots) : (Shape.sys slots).vecSrc = false := by
  refine List.any_eq_false.mpr fun x hx => ?_
  simp [opVec_of_scalar (hv x hx) (h x hx).1]

/-- The check of step 4 fails where an operand is not allowed. -/
theorem any_refused_iff (slots : List Slot) :
    slots.any (fun x => !(x.kinds.allows x.op && x.fits)) = true ↔ ¬ OperandsAllowed slots := by
  simp only [OperandsAllowed, List.any_eq_true, Bool.not_eq_true', not_forall, ← Bool.and_eq_true, Bool.not_eq_true, exists_prop]

/-- The check of the destination fails where one is w0 to w7. -/
theorem any_readOnly_iff (slots : List Slot) :
    slots.any (fun x => x.dst && (match x.op with | .w r => r.toNat < 8 | _ => false)) = true ↔ WritesReadOnly slots := by
  refine List.any_eq_true.trans (exists_congr fun x => and_congr_right fun _ => ?_)
  cases x.op <;> simp

/-- What the checks of R72 find in a supervisor instruction of a team without the right: the operands, then the destination, then the right. -/
theorem firstError_sys {slots : List Slot} {is : Iss} [Decidable (OperandsAllowed slots)] [Decidable (WritesReadOnly slots)]
    (hv : ∀ x ∈ slots, Scalar x) (hs : is.team.sup = false) (hr : is.run.pfx.reserved = 0) :
    (Shape.sys slots).firstError is =
      if ¬ OperandsAllowed slots then some Causes.illegalOperand
      else if WritesReadOnly slots then some Causes.encoding
      else some Causes.privilege := by
  have hpass : ¬ ((Shape.sys slots).reserved || is.run.pfx.reserved ≠ 0 : Bool) = true := by simp [Shape.sys, hr]
  unfold Shape.firstError
  refine (if_neg hpass).trans (ite_congr ?_ (fun _ => rfl) fun h => ite_congr ?_ (fun _ => rfl) fun _ => ?_)
  · exact (congrArg (· = true) (Bool.or_false _)).trans (propext (any_refused_iff slots))
  · rw [vecSrc_sys hv (not_not.mp h), Bool.and_false]
    exact propext (any_readOnly_iff slots)
  · exact if_pos (by rw [hs]; rfl)

/-- Settles O12: of the checks of R72, a privileged form can fail before that of the right only those of its operands and destination. -/
theorem supervisorInstructionsNeedTheRight : Obligations.SupervisorInstructionsNeedTheRight := by
  unfold Obligations.SupervisorInstructionsNeedTheRight
  refine ⟨fun i sh h => form_priv_iff h, fun i sh s is hf hp hi hs hr => ?_⟩
  obtain ⟨slots, rfl, hv⟩ := form_of_priv hf hp
  classical
  have he := firstError_sys hv hs hr
  refine ⟨fun (h : OperandsAllowed slots) (hw : ¬ WritesReadOnly slots) => exec_of_firstError hf hi ?_,
    fun (h : ¬ OperandsAllowed slots) => exec_of_firstError hf hi ?_,
    fun (h : OperandsAllowed slots) (hw : WritesReadOnly slots) => exec_of_firstError hf hi ?_⟩
  · rw [he, if_neg (not_not.mpr h), if_neg hw]
  · rw [he, if_pos h]
  · rw [he, if_neg (not_not.mpr h), if_pos hw]

end Sys2Proof.Proofs
end
